-- ==== Sys2Proof/Word.lean ====
section
/-! DEFINITION. The word types of the NG-840 and the sparse table type in which State keeps data by number. -/

namespace Sys2Proof

/-- A word is 16 bits (00, Conventions). -/
abbrev Word := BitVec 16

/-- One byte lane of a word, or one byte of a chain frame (10, opening; 10.7). -/
abbrev Byte := BitVec 8

/-- A word address, HA[18:0] and MA[18:0] (00, Signal summary). -/
abbrev Addr := BitVec 19

/-- Sparse data by number: entries in rising order of their keys. -/
abbrev Table (α : Type) := List (Nat × α)

end Sys2Proof
end

