-- ==== Sys2Proof/Syntax.lean ====
section
/-! DEFINITION. The commands of the block: one constructor for each row of spec/opcode_table.json. -/

namespace Sys2Proof

/-- The four lamp chains (07, 7.1). -/
inductive ChainId where
  | a | b | c | d
  deriving DecidableEq, Repr

/-- The part's steps, as opcode_table.json lists them. -/
inductive Instr where
  /-- FRONT_END_WRITE: HWR# with HA, HD and HBE[1:0] (R1). -/
  | frontEndWrite (addr : Addr) (data : Word) (lanes : BitVec 2)
  /-- FRONT_END_READ: HRD# with HA; HBE is disregarded on a read (R2). -/
  | frontEndRead (addr : Addr)
  | heldAccessTaken
  | heldWriteRelease
  | boardReset
  /-- BOARD_RESET_END: the level of STRAP[1:0] that is sampled (R4). -/
  | boardResetEnd (straps : BitVec 2)
  | hostReset
  | partAccessGrant
  | captureRereadDone
  | k0ReadDone
  | signatureWrite
  | generationWrite
  | modeRequest
  | panelLockWrite
  | remoteOperandWrite
  | remoteAck
  | remoteClear
  | remoteSilence
  | remoteTest
  | remoteGroup
  | remoteShelve
  | remoteDim
  | remoteUnknownCommand
  | tailWrite
  | lostCountWrite
  | controlWordWrite
  | groupEnableWrite
  | summaryLampWrite
  | staleLampWrite
  | groupAckRequest
  | groupClearRequest
  | generationRead
  | cardCountRead
  | flashShelveRead
  | boardFaultLampRead
  | ringValuesRead
  | groupSettingsRead
  | groupLampRead
  | entryReadDone
  | sourceReadDone
  | firstValue
  /-- SOURCE_ITEM_EVALUATION: for how many points of the item this command carries the evaluation
  before other work may fall between (R59). -/
  | sourceItemEvaluation (points : Nat)
  /-- TICK: KR[7:0] as read, a key down reading 0, while KC[0], KC[1] and KC[2] are driven (R143). -/
  | tick (rows0 rows1 rows2 : Byte)
  | phaseBoundary
  | settleEnd
  | lampTestEnd
  | frameSlot
  | boardSecond
  /-- BECOMES_STALE: the point at which the board second acts (R78). -/
  | becomesStale (point : Nat)
  /-- TRAVEL_TIMER_EXPIRY: the point at which the board second acts (R75). -/
  | travelTimerExpiry (point : Nat)
  | shelfExpiry
  | wakeByAlarm
  /-- EXCHANGE_END of a chain. `arrivals`: where the outbound frame is damaged, pairs of a card and
  the frame as it stands from that card on (R128). `noCurrent`: the lamps that draw no current
  (R129). `received`: the return frame as clocked in, where it is not what the cards sent (R132). -/
  | exchangeEnd (chain : ChainId) (arrivals : List (Nat × List Byte)) (noCurrent : List Nat)
      (received : Option (List Byte))
  | imageWriteDone
  | ringWordWriteDone
  | headWriteDone
  | keyRelease
  | dataKey
  | ackKey
  | clearKey
  | groupKey
  | shelveKey
  | silenceKey
  | testKey
  | dimKey
  | enterNoCommand
  | enterAck
  | enterClear
  | enterGroup
  | enterShelve
  | hostResetRelease
  | statusWriteDone
  | k18WriteDone
  deriving DecidableEq, Repr

end Sys2Proof
end

