-- ==== Sys2Proof/Config.lean ====
section
/-! DEFINITION. The fixed numbers of the part, and what the spec leaves to power-on. -/

namespace Sys2Proof.Config

/-- Point numbers 0 to 1791 (R39). -/
def pointCount : Nat := 1792

/-- Group numbers 0 to 63 (00, Conventions). -/
def groupCount : Nat := 64

/-- Lamp numbers 0 to 4095 (R25). -/
def lampCount : Nat := 4096

/-- Lamp image words 0 to 1023 (R124). -/
def imageWords : Nat := 1024

/-- The capture queue holds at most 64 items (R7). -/
def captureDepth : Nat := 64

/-- The event queue holds at most 32 records (R164). -/
def queueDepth : Nat := 32

/-- The shelf holds at most 32 records (R102). -/
def shelfDepth : Nat := 32

/-- Words of the board region (R4). -/
def regionWords : Nat := 0x8000

/-- What a byte of RAM that nothing has written reads as.
DESIGN CHOICE (log 2), unsafe: the spec gives RAM no contents at power-on. -/
def unlistedByte : Byte := 0

/-- STRAP[1:0] as State.reset takes it.
DESIGN CHOICE (log 3), unsafe: the pins are an input of the board. -/
def resetStraps : BitVec 2 := 0

end Sys2Proof.Config
end

