-- ==== Sys2Proof/Machine/State.lean ====
section
/-! DEFINITION. The state of the NG-840 as plain data, block by block, its outcomes, and the state right after a board reset. -/

namespace Sys2Proof.Machine

/-! ## Names -/

/-- Configuration states (R18). -/
inductive CfgState where
  | unconfigured | sweeping | running
  deriving DecidableEq, Repr

/-- Board modes (R117). -/
inductive Mode where
  | lit | dim | dark
  deriving DecidableEq, Repr

/-- Lamp patterns (R112). -/
inductive Pattern where
  | off | steady | fast | slow | first | stale
  deriving DecidableEq, Repr

/-- Alarm causes (R91). -/
inductive Cause where
  | high | low | level | discrepant | overrun | edge
  deriving DecidableEq, Repr

/-- The alarm condition the Evaluator last reported (R58). -/
inductive Condition where
  | normal
  | abnormal (cause : Cause)
  deriving DecidableEq, Repr

/-- Annunciation states (R84). -/
inductive AnnState where
  | quiet | new | fleeting | standing | returned | shelved
  deriving DecidableEq, Repr

/-- Valve positions (R73). -/
inductive Position where
  | opened | closed | travel | discrepant
  deriving DecidableEq, Repr

/-- Chain states (07, 7.3). -/
inductive ChainState where
  | idle | ok | faulted
  deriving DecidableEq, Repr

/-- Event origins (R163). -/
inductive Origin where
  | part | panel | remote | groupRequest
  deriving DecidableEq, Repr

/-- Event kinds, in the order of their codes 01h to 12h (R163). -/
inductive EventKind where
  | raised | returned | acked | cleared | stale | fresh | shelved | unshelved | command
  | commandError | entryRejected | groupLampRefused | lampFault | lampRestored | chainFault
  | chainRestored | mode | sweepDone
  deriving DecidableEq, Repr

/-- The keys of the panel (10.8). -/
inductive Key where
  | digit (d : BitVec 4)
  | enter | ack | clear | silence | test | group | shelve | dim
  deriving DecidableEq, Repr

/-- The commands that wait for ENTER (R149). -/
inductive EntryCommand where
  | ack | clear | group | shelve
  deriving DecidableEq, Repr

/-- The owner of a lamp (R50). -/
inductive Owner where
  | display (point : Nat)
  | alarm (point : Nat)
  | summary (group : Nat)
  | stale (group : Nat)
  | boardFault
  deriving DecidableEq, Repr

/-- The status words (R171). -/
inductive StatusWord where
  | k19 | k20 | k21 | k22
  deriving DecidableEq, Repr

/-! ## Memory Path (01) -/

/-- A captured write (R7). `partialItem` is cleared when the re-read has replaced the data (R9). -/
structure CaptureItem where
  addr : Addr
  data : Word
  lanes : BitVec 2
  partialItem : Bool
  deriving DecidableEq, Repr

/-- What the front-end asks for (R1, R2). -/
inductive AccessKind where
  | write (data : Word) (lanes : BitVec 2)
  | read
  deriving DecidableEq, Repr

/-- What a held access waits for (R3): the end of a part word access, or a place in the queue. The other two
are of an access whose HWAIT a board reset has released while a part word was under way (R15, log 21):
`released` was held behind that word, `releasedWrite` was held for a full queue. -/
inductive HoldReason where
  | partWord | fullQueue | released | releasedWrite
  deriving DecidableEq, Repr

/-- A front-end access begun and not yet taken (R3, R15). -/
structure HeldAccess where
  addr : Addr
  kind : AccessKind
  reason : HoldReason
  deriving DecidableEq, Repr

/-- The words the Configuration Loader reads: the k0 read (R20), a settings pass (R22), word `i` of an
entry in reading order w15, w0 to w10 (R41), a source word (R53). -/
inductive ConfigRead where
  | k0 | k1 | k2 | k3 | k4 | k5 | k16 | k17 | k18
  | group (g : Nat) (word : Nat)
  | entry (point : Nat) (i : Nat)
  | source (point : Nat) (addr : Addr)
  deriving DecidableEq, Repr

/-- The words the ring writer writes (R167). -/
inductive RingWrite where
  | word (i : Nat)
  | k18
  | head
  deriving DecidableEq, Repr

/-- The work a part word access is for, by requester (R12). -/
inductive PartWork where
  | reread
  | ring (w : RingWrite)
  | config (r : ConfigRead)
  | status (w : StatusWord)
  | image (w : Nat)
  deriving DecidableEq, Repr

/-- The part's word access under way: its address, the word read or being written, and whether its
requester disregards the completion (R15, R36). -/
structure PartAccess where
  work : PartWork
  addr : Addr
  data : Word
  disregard : Bool
  deriving DecidableEq, Repr

/-- One waiting request of each of the five requesters (R12). -/
structure Requests where
  reread : Option Addr
  ring : Option RingWrite
  config : Option ConfigRead
  status : Option StatusWord
  image : Option Nat
  deriving DecidableEq, Repr

/-- The state of the Memory Path (01) and the reset inputs it sees. -/
structure MemPath where
  inReset : Bool
  hostReset : Bool
  base : Addr
  access : Option HeldAccess
  capture : List CaptureItem
  requests : Requests
  partAccess : Option PartAccess
  hostData : Word
  deriving DecidableEq, Repr

/-! ## Configuration Loader (02, 03) -/

/-- A lamp setting of a group or of the board fault function, with its claim result (R28). -/
structure LampSetting where
  lamp : Option Nat
  granted : Bool
  deriving DecidableEq, Repr

/-- The settings of one group (R29). -/
structure GroupSettings where
  horn : Bool
  wake : Bool
  summary : LampSetting
  staleLamp : LampSetting
  deriving DecidableEq, Repr

/-- A settings pass due or under way: of a sweep or of a full reload, its next read, whether it has
k16 to k18 still to read, and whether it restarts after its current word access (R22, R32). -/
structure Pass where
  sweep : Bool
  next : ConfigRead
  ring : Bool
  restart : Bool
  deriving DecidableEq, Repr

/-- The 12 words of an entry that a reload reads (R41). -/
structure Entry where
  w0 : Word
  w1 : Word
  w2 : Word
  w3 : Word
  w4 : Word
  w5 : Word
  w6 : Word
  w7 : Word
  w8 : Word
  w9 : Word
  w10 : Word
  w15 : Word
  deriving DecidableEq, Repr

/-- Where a point reload stands: reading the entry, waiting for the source word, or waiting for the
first value to be evaluated (03, 3.3 and 3.8). -/
inductive ReloadStage where
  | entry | source | value
  deriving DecidableEq, Repr

/-- The point reload under way, with the words read so far in reading order (R41). -/
structure Reload where
  point : Nat
  words : List Word
  stage : ReloadStage
  deriving DecidableEq, Repr

/-- The configuration state of a point (R39), with the reason code of a rejection. -/
inductive PointStatus where
  | absent
  | installed
  | rejected (reason : Nat)
  deriving DecidableEq, Repr

/-- The held record of a point (R39); its marks and its pending flag stand in Loader. -/
structure PointRec where
  status : PointStatus
  held : Option Entry
  installing : Bool
  deriving DecidableEq, Repr

/-- The state of the Configuration Loader (02, 03). The card counts, FLASH and the shelve minutes stand
in the blocks they are handed to. -/
structure Loader where
  cfg : CfgState
  generation : Option Word
  faultLamp : LampSetting
  groups : Table GroupSettings
  pass : Option Pass
  pendingPoints : List Nat
  points : Table PointRec
  marked : List Nat
  reload : Option Reload
  claims : Table Owner
  watch : List (Nat × Nat)
  installed : Nat
  rejected : Nat
  deriving DecidableEq, Repr

/-! ## Point Evaluator (04) -/

/-- The items of a value record that depend on the kind (R58). -/
inductive KindState where
  | discrete
  | analogue (count : Nat) (high : Bool) (low : Bool)
  | valve (position : Position) (timer : Option Nat) (overrun : Bool)
  deriving DecidableEq, Repr

/-- A value record (R58). The condition of a point that is not alarm-capable is kept normal. -/
structure ValueRec where
  last : Nat
  kind : KindState
  condition : Condition
  age : Nat
  stale : Bool
  handed : List Pattern
  deriving DecidableEq, Repr

/-- A source item being worked through: its word and the points of its set still to come (R59). -/
structure ItemInProgress where
  data : Word
  points : List Nat
  deriving DecidableEq, Repr

/-- The state of the Point Evaluator (04). -/
structure Evaluator where
  values : Table ValueRec
  item : Option ItemInProgress
  firstValue : Option (Nat × Word)
  secondDue : List Nat
  deriving DecidableEq, Repr

/-! ## Annunciator (05) -/

/-- An annunciation record (R84). -/
structure AnnRec where
  state : AnnState
  cls : Nat
  group : Nat
  deriving DecidableEq, Repr

/-- The five counts and the first-up point of a group (R93, R94). -/
structure GroupCounts where
  unack : Nat
  standing : Nat
  returned : Nat
  shelved : Nat
  stale : Nat
  firstUp : Option Nat
  deriving DecidableEq, Repr

/-- A shelf record (R102). -/
structure ShelfRec where
  point : Nat
  seconds : Nat
  deriving DecidableEq, Repr

/-- The state of the Annunciator (05). -/
structure Annunciator where
  records : Table AnnRec
  unack : List Nat
  groups : Table GroupCounts
  shelf : List ShelfRec
  shelveMinutes : Nat
  silence : Bool
  hornClass : Option Nat
  shelfDue : Bool
  deriving DecidableEq, Repr

/-! ## Pattern Generator (06) -/

/-- What one tick may still have to do (R109; KEY_RELEASE is the panel's part of it, R143). -/
inductive TickWork where
  | keyRelease | phaseBoundary | settleEnd | lampTestEnd | frameSlot | boardSecond
  deriving DecidableEq, Repr

/-- The state of the Pattern Generator (06). The image values are computed from `patterns` and the fault
flags (R124). -/
structure PatternGen where
  tickCount : Nat
  seconds : BitVec 32
  frameMarker : Bool
  phase : BitVec 3
  phaseTicks : Nat
  flash : BitVec 2
  waitingFlash : Option (BitVec 2)
  mode : Mode
  settling : Bool
  settleCount : Nat
  testTimer : Nat
  patterns : Table Pattern
  dirty : List Nat
  lastWord : Nat
  servedChanged : Bool
  modeOwed : Bool
  wakeRequests : Nat
  tickWork : List TickWork
  deriving DecidableEq, Repr

/-! ## Chain Controller and lamp cards (07) -/

/-- The sent bits of an exchange: the card count and one on or off value for each output, card 0 first (R130). -/
structure SentFrame where
  count : Nat
  bits : List Bool
  deriving DecidableEq, Repr

/-- An exchange in flight: what it sends, the record it is judged against (R131), and whether a count
of 0 has made its chain IDLE meanwhile (R130). -/
structure Exchange where
  sent : SentFrame
  dim : Bool
  frame : List Byte
  record : Option SentFrame
  void : Bool
  deriving DecidableEq, Repr

/-- One chain (R127, R130, R131). -/
structure Chain where
  count : Nat
  state : ChainState
  bad : Nat
  exchange : Option Exchange
  prev : Option SentFrame
  deriving DecidableEq, Repr

/-- The state of the Chain Controller (07). A lamp's fault flag is set while its fail count is 2 (R137). -/
structure Chains where
  a : Chain
  b : Chain
  c : Chain
  d : Chain
  fails : Table Nat
  faultCount : Nat
  deriving DecidableEq, Repr

/-- A lamp card: its latched outputs, its dim state and what its next status byte reports (R128, R129). -/
structure Card where
  outputs : BitVec 64
  dim : Bool
  rejected : Bool
  deriving DecidableEq, Repr

/-! ## Key Panel Controller (08) -/

/-- The state of the Key Panel Controller (08) and the 22 bits the panel has latched (R174). `held` is
the scan state HELD; `presses` are the recognised presses not yet handled, oldest first (R144). -/
structure Panel where
  held : Bool
  pressCount : Nat
  releaseCount : Nat
  presses : List Key
  command : Option EntryCommand
  digits : List (BitVec 4)
  selected : Option Nat
  error : Option Nat
  lock : Bool
  testOn : Bool
  silenceOn : Bool
  dimOn : Bool
  shown : List Bool
  deriving DecidableEq, Repr

/-! ## Event Unit (09) -/

/-- An event record (R163). -/
structure EventRecord where
  kind : EventKind
  origin : Origin
  subject : Word
  detail : Word
  time : Word
  deriving DecidableEq, Repr

/-- The Event Unit's copies of the fields of k19 and of the counts k20 to k22 (R170, R171). -/
structure StatusCopies where
  cfg : CfgState
  mode : Mode
  settling : Bool
  test : Bool
  silence : Bool
  horn : Bool
  chainA : ChainState
  chainB : ChainState
  chainC : ChainState
  chainD : ChainState
  installed : Nat
  rejected : Nat
  faults : Nat
  deriving DecidableEq, Repr

/-- The state of the Event Unit (09). -/
structure EventUnit where
  operand : Word
  queue : List EventRecord
  head : BitVec 8
  tail : BitVec 8
  ringHeld : Bool
  lost : Nat
  sweepDiscards : Nat
  inProgress : Option Nat
  k18Owed : Bool
  copies : StatusCopies
  owed19 : Bool
  owed20 : Bool
  owed21 : Bool
  owed22 : Bool
  deriving DecidableEq, Repr

/-! ## The whole machine -/

/-- RAM by bytes: the cell of word address a and lane l has key 2 × a + l (10, opening). -/
abbrev Memory := Table Byte

/-- The state of the block and of what hangs on it: the commands waiting, the RAM, the blocks, the lamp cards. -/
structure State where
  pending : List Instr
  ram : Memory
  path : MemPath
  loader : Loader
  evaluator : Evaluator
  ann : Annunciator
  gen : PatternGen
  chains : Chains
  cards : Table Card
  panel : Panel
  events : EventUnit
  deriving DecidableEq, Repr

/-- Why a step stops with a fault. -/
inductive Fault where
  /-- Raised by FRONT_END_WRITE and FRONT_END_READ posted while another front-end access is held.
  Safe: "The front-end issues one access at a time, so no such pair can be outstanding together" (R8). -/
  | accessWhileHeld
  deriving DecidableEq, Repr

/-- Why a step is refused. -/
inductive Refusal where
  /-- Raised by exec for a command that has no meaning yet; no arm does so. Safe. -/
  | notModelled (mnemonic : String)
  deriving DecidableEq, Repr

/-! ## The state of each block after a board reset -/

def Requests.none : Requests := ⟨.none, .none, .none, .none, .none⟩

def LampSetting.none : LampSetting := ⟨.none, false⟩

def GroupSettings.none : GroupSettings := ⟨false, false, .none, .none⟩

def GroupCounts.zero : GroupCounts := ⟨0, 0, 0, 0, 0, .none⟩

def PointRec.absent : PointRec := ⟨.absent, .none, false⟩

def Card.off : Card := ⟨0, false, false⟩

/-- R19, R39, R40, R50, R52, R57. -/
def Loader.afterReset : Loader where
  cfg := .unconfigured
  generation := none
  faultLamp := .none
  groups := []
  pass := none
  pendingPoints := []
  points := []
  marked := []
  reload := none
  claims := []
  watch := []
  installed := 0
  rejected := 0

/-- R58. -/
def Evaluator.afterReset : Evaluator := ⟨[], none, none, []⟩

/-- 05, 5.9. -/
def Annunciator.afterReset : Annunciator := ⟨[], [], [], [], 0, false, none, false⟩

/-- 06, 6.6: LIT with a settle begun, FLASH 1, the MODE report owed. DESIGN CHOICE (log 22): the frame slot
marker is clear until the first tick gives it a value. -/
def PatternGen.afterReset : PatternGen where
  tickCount := 0
  seconds := 0
  frameMarker := false
  phase := 0
  phaseTicks := 0
  flash := 1
  waitingFlash := none
  mode := .lit
  settling := true
  settleCount := 0
  testTimer := 0
  patterns := []
  dirty := []
  lastWord := 1023
  servedChanged := false
  modeOwed := true
  wakeRequests := 0
  tickWork := []

/-- R141. -/
def Chain.afterReset : Chain := ⟨0, .idle, 0, none, none⟩

/-- R141. -/
def Chains.afterReset : Chains :=
  ⟨.afterReset, .afterReset, .afterReset, .afterReset, [], 0⟩

/-- The display content of R142's reset state: every indicator dark, the digits blank (R158, R174). -/
def blankDisplay : List Bool :=
  List.replicate 7 false ++ [true, false, false, false, false] ++ [true, false, false, false, false]
    ++ [true, false, false, false, false]

/-- R142; what the panel shows is given, since a board reset leaves it (R158). -/
def Panel.afterReset (shown : List Bool) : Panel where
  held := false
  pressCount := 0
  releaseCount := 0
  presses := []
  command := none
  digits := []
  selected := none
  error := none
  lock := false
  testOn := false
  silenceOn := false
  dimOn := false
  shown := shown

/-- R170, R171. -/
def StatusCopies.afterReset : StatusCopies where
  cfg := .unconfigured
  mode := .lit
  settling := true
  test := false
  silence := false
  horn := false
  chainA := .idle
  chainB := .idle
  chainC := .idle
  chainD := .idle
  installed := 0
  rejected := 0
  faults := 0

/-- 09, 9.7. The values of the ring head, the tail and the lost count, which are not held after a
reset, are a DESIGN CHOICE (log 4). -/
def EventUnit.afterReset : EventUnit where
  operand := 0
  queue := []
  head := 0
  tail := 0
  ringHeld := false
  lost := 0
  sweepDiscards := 0
  inProgress := none
  k18Owed := false
  copies := .afterReset
  owed19 := false
  owed20 := false
  owed21 := false
  owed22 := false

/-- The region base that STRAP[1:0] selects (R4). -/
def baseOfStraps (straps : BitVec 2) : Addr :=
  BitVec.ofNat 19 (0x60000 + straps.toNat * 0x8000)

/-- The machine right after a board reset has ended (R14, R19): UNCONFIGURED, with the k0 read raised.
The straps, HRST#, HD, the cards and the panel's latch are as logs 3, 4 and 5 say. -/
def State.reset : State where
  pending := []
  ram := []
  path :=
    { inReset := false, hostReset := false, base := baseOfStraps Config.resetStraps,
      access := none, capture := [], requests := { Requests.none with config := some .k0 },
      partAccess := none, hostData := 0 }
  loader := .afterReset
  evaluator := .afterReset
  ann := .afterReset
  gen := .afterReset
  chains := .afterReset
  cards := []
  panel := .afterReset blankDisplay
  events := .afterReset

end Sys2Proof.Machine
end

