-- ==== Sys2Proof/Machine/Tables.lean ====
section
/-! DEFINITION. Sparse tables, sorted lists of numbers, and the RAM words kept in them. -/

namespace Sys2Proof

/-- The entry of a number, or none. -/
def Table.look {α : Type} : Table α → Nat → Option α
  | [], _ => none
  | (k, v) :: t, i => if k = i then some v else Table.look t i

/-- Sets the entry of a number, in its place in the order. -/
def Table.put {α : Type} : Table α → Nat → α → Table α
  | [], i, v => [(i, v)]
  | (k, w) :: t, i, v =>
    if i < k then (i, v) :: (k, w) :: t
    else if i = k then (i, v) :: t
    else (k, w) :: Table.put t i v

/-- Removes the entry of a number. -/
def Table.del {α : Type} (t : Table α) (i : Nat) : Table α :=
  t.filter (fun e => e.1 != i)

/-- The entry of a number, where an unlisted one reads as `d`. -/
def Table.val {α : Type} (t : Table α) (d : α) (i : Nat) : α :=
  (t.look i).getD d

/-- Sets the entry of a number, where one that reads as `d` is not listed. -/
def Table.assign {α : Type} [DecidableEq α] (t : Table α) (d : α) (i : Nat) (v : α) : Table α :=
  if v = d then t.del i else t.put i v

/-- Keys strictly rising. -/
def Table.sorted {α : Type} : Table α → Bool
  | [] => true
  | [_] => true
  | (k, _) :: (l, w) :: t => decide (k < l) && Table.sorted ((l, w) :: t)

/-- The canonical form of a table whose unlisted entries read as `d`. -/
def Table.canonical {α : Type} [DecidableEq α] (t : Table α) (d : α) : Bool :=
  t.sorted && t.all (fun e => decide (e.2 ≠ d))

/-- Puts a number into a rising list, once. -/
def insertNat (i : Nat) : List Nat → List Nat
  | [] => [i]
  | k :: t => if i < k then i :: k :: t else if i = k then k :: t else k :: insertNat i t

/-- Puts a pair into a list of pairs rising by first and then second component, once (R52). -/
def insertPair (p : Nat × Nat) : List (Nat × Nat) → List (Nat × Nat)
  | [] => [p]
  | q :: t =>
    if p.1 < q.1 ∨ (p.1 = q.1 ∧ p.2 < q.2) then p :: q :: t
    else if p = q then q :: t
    else q :: insertPair p t

namespace Machine

/-- One byte lane of a RAM word: lane 0 low, lane 1 high. -/
def Memory.readByte (m : Memory) (cell : Nat) : Byte :=
  Table.val m Config.unlistedByte cell

def Memory.writeByte (m : Memory) (cell : Nat) (b : Byte) : Memory :=
  Table.assign m Config.unlistedByte cell b

/-- The canonical form of RAM. -/
def Memory.wf (m : Memory) : Bool :=
  Table.canonical m Config.unlistedByte

/-- The cell of a lane of a word (10, opening). -/
def cellOf (a : Addr) (lane : Nat) : Nat := 2 * a.toNat + lane

/-- A word of RAM, its low byte on lane 0 (10, opening). -/
def Memory.readWord (m : Memory) (a : Addr) : Word :=
  m.readByte (cellOf a 1) ++ m.readByte (cellOf a 0)

/-- "The RAM stores the enabled lanes and keeps the others" (R1). -/
def Memory.writeLanes (m : Memory) (a : Addr) (w : Word) (lanes : BitVec 2) : Memory :=
  let m := if lanes.getLsbD 0 then m.writeByte (cellOf a 0) (w.extractLsb' 0 8) else m
  if lanes.getLsbD 1 then m.writeByte (cellOf a 1) (w.extractLsb' 8 8) else m

/-- Both lanes enabled, the form of a word write and of every part write (R1, R13). -/
def bothLanes : BitVec 2 := 3

end Machine

end Sys2Proof
end

