-- ==== Sys2Proof/WellFormed.lean ====
section
/-! DEFINITION. Which operands a command may carry: the ranges the spec gives points, cards, lamps and frames. -/

namespace Sys2Proof

/-- The longest frame holds 9 × 16 + 2 bytes (R130). -/
def maxFrameBytes : Nat := 146

/-- The first lamp of a chain (R25). -/
def ChainId.firstLamp : ChainId → Nat
  | .a => 0
  | .b => 1024
  | .c => 2048
  | .d => 3072

/-- The operands lie in the ranges of R39 (points), 07 7.1 (cards, lamps of a chain) and R130 (frame length). -/
def Instr.wellFormed : Instr → Bool
  | .sourceItemEvaluation points => points ≤ Config.pointCount
  | .becomesStale point => point < Config.pointCount
  | .travelTimerExpiry point => point < Config.pointCount
  | .exchangeEnd chain arrivals noCurrent received =>
      arrivals.all (fun e => decide (e.1 < 16) && decide (e.2.length ≤ maxFrameBytes))
        && noCurrent.all (fun l => decide (chain.firstLamp ≤ l) && decide (l < chain.firstLamp + 1024))
        && (match received with
            | some bytes => decide (bytes.length ≤ maxFrameBytes)
            | none => true)
  | .frontEndWrite _ _ _ | .frontEndRead _ | .heldAccessTaken | .heldWriteRelease | .boardReset
  | .boardResetEnd _ | .hostReset | .partAccessGrant | .captureRereadDone | .k0ReadDone
  | .signatureWrite | .generationWrite | .modeRequest | .panelLockWrite | .remoteOperandWrite
  | .remoteAck | .remoteClear | .remoteSilence | .remoteTest | .remoteGroup | .remoteShelve
  | .remoteDim | .remoteUnknownCommand | .tailWrite | .lostCountWrite | .controlWordWrite
  | .groupEnableWrite | .summaryLampWrite | .staleLampWrite | .groupAckRequest
  | .groupClearRequest | .generationRead | .cardCountRead | .flashShelveRead
  | .boardFaultLampRead | .ringValuesRead | .groupSettingsRead | .groupLampRead | .entryReadDone
  | .sourceReadDone | .firstValue | .tick _ _ _ | .phaseBoundary | .settleEnd | .lampTestEnd
  | .frameSlot | .boardSecond | .shelfExpiry | .wakeByAlarm | .imageWriteDone
  | .ringWordWriteDone | .headWriteDone | .keyRelease | .dataKey | .ackKey | .clearKey
  | .groupKey | .shelveKey | .silenceKey | .testKey | .dimKey | .enterNoCommand | .enterAck
  | .enterClear | .enterGroup | .enterShelve | .hostResetRelease | .statusWriteDone
  | .k18WriteDone => true

end Sys2Proof
end

