-- ==== Sys2Proof/Machine/Operands.lean ====
section
/-! DEFINITION. The formats of chapter 10: entry fields, header and group words, region offsets, chain bytes and their CRC, keys, operands. -/

namespace Sys2Proof.Machine

/-! ## Point entry (10.2) -/

/-- Point kinds (R39). -/
inductive Kind where
  | discrete | analogue | valve
  deriving DecidableEq, Repr

/-- Discrete alarm modes (R39). -/
inductive AlarmMode where
  | none | level | rising | falling | both
  deriving DecidableEq, Repr

/-- Bits `lo + n − 1` to `lo` of a word, as a number (10, opening). -/
def bits (w : Word) (lo n : Nat) : Nat := (w.extractLsb' lo n).toNat

/-- Source address: w0 and the three address bits of w1. -/
def Entry.source (e : Entry) : Addr := e.w1.extractLsb' 0 3 ++ e.w0

def Entry.shift (e : Entry) : Nat := bits e.w1 4 4

def Entry.width (e : Entry) : Nat := bits e.w1 8 4 + 1

/-- Kind; code 3 is invalid. -/
def Entry.kind (e : Entry) : Option Kind :=
  match bits e.w1 12 2 with
  | 0 => some .discrete
  | 1 => some .analogue
  | 2 => some .valve
  | _ => .none

/-- Priority class, 1 to 4. -/
def Entry.cls (e : Entry) : Nat := bits e.w1 14 2 + 1

def Entry.firstLamp (e : Entry) : Nat := bits e.w2 0 12

/-- Bar length N, 1 to 16 (ANALOGUE). -/
def Entry.barLength (e : Entry) : Nat := bits e.w2 12 4 + 1

def Entry.alarmField (e : Entry) : Nat := bits e.w3 0 12

/-- Discrete alarm mode; codes 5 to 7 are invalid. -/
def Entry.mode (e : Entry) : Option AlarmMode :=
  match bits e.w3 12 3 with
  | 0 => some .none
  | 1 => some .level
  | 2 => some .rising
  | 3 => some .falling
  | 4 => some .both
  | _ => .none

def Entry.alarmPresent (e : Entry) : Bool := e.w3.getLsbD 15

/-- Active level (DISCRETE): bit 0 of w4. -/
def Entry.active (e : Entry) : Nat := bits e.w4 0 1

/-- Travel time in seconds (VALVE): bits 7 to 0 of w4. -/
def Entry.travel (e : Entry) : Nat := bits e.w4 0 8

/-- Zero count Z, full count F, hysteresis H, limits AH and AL, deadband DB (ANALOGUE). -/
def Entry.zero (e : Entry) : Nat := e.w4.toNat
def Entry.full (e : Entry) : Nat := e.w5.toNat
def Entry.hysteresis (e : Entry) : Nat := e.w6.toNat
def Entry.highLimit (e : Entry) : Nat := e.w7.toNat
def Entry.lowLimit (e : Entry) : Nat := e.w8.toNat
def Entry.deadband (e : Entry) : Nat := e.w9.toNat

/-- Options (ANALOGUE): high alarm, low alarm, out-of-span marking. -/
def Entry.highEnabled (e : Entry) : Bool := e.w10.getLsbD 0
def Entry.lowEnabled (e : Entry) : Bool := e.w10.getLsbD 1
def Entry.marking (e : Entry) : Bool := e.w10.getLsbD 2

/-- Stale timeout T in seconds, 0 for never. -/
def Entry.timeout (e : Entry) : Nat := bits e.w15 0 8

def Entry.group (e : Entry) : Nat := bits e.w15 8 6

/-- The enable bit of a control word w15. -/
def enabledWord (w15 : Word) : Bool := w15.getLsbD 15

/-- The entry of 12 words read in the order w15, w0 to w10 (R41). -/
def entryOf : List Word → Option Entry
  | [w15, w0, w1, w2, w3, w4, w5, w6, w7, w8, w9, w10] =>
    some ⟨w0, w1, w2, w3, w4, w5, w6, w7, w8, w9, w10, w15⟩
  | _ => none

/-- Offset within an entry of the i-th word a reload reads: w15 first, then w0 to w10 (R41). -/
def entryWordOffset (i : Nat) : Nat := if i = 0 then 15 else i - 1

/-- The field of a point: shifted right, the lowest `width` bits kept (R60). -/
def Entry.field (e : Entry) (w : Word) : Nat := (w.toNat >>> e.shift) % 2 ^ e.width

/-- The display lamps of a point (R46). -/
def Entry.displayLamps (e : Entry) : List Nat :=
  match e.kind with
  | some .discrete => [e.firstLamp]
  | some .analogue => (List.range e.barLength).map (fun i => e.firstLamp + i)
  | some .valve => [e.firstLamp, e.firstLamp + 1]
  | .none => []

/-- Whether a point is alarm-capable (R46). -/
def Entry.alarmCapable (e : Entry) : Bool :=
  match e.kind with
  | some .discrete =>
    match e.mode with
    | some .level | some .rising | some .falling | some .both => true
    | some .none | .none => false
  | some .analogue => e.highEnabled || e.lowEnabled
  | some .valve => true
  | .none => false

/-- The alarm lamp of a point, where it has one (R46). -/
def Entry.alarmLamp (e : Entry) : Option Nat :=
  if e.alarmCapable && e.alarmPresent then some e.alarmField else .none

/-- The lamps of a point: display lamps and alarm lamp (R46). -/
def Entry.lamps (e : Entry) : List Nat :=
  e.displayLamps ++ e.alarmLamp.toList

/-! ## Header and group words (10.3, 10.4) -/

/-- The signature value (R20, R34). -/
def signature : Word := 0x4E47

/-- A card count field, clamped to 16 (R25): `high` takes bits 12 to 8, else bits 4 to 0. -/
def cardCountField (w : Word) (high : Bool) : Nat :=
  min 16 (bits w (if high then 8 else 0) 5)

/-- FLASH of k4 (R26). -/
def flashField (w : Word) : BitVec 2 := w.extractLsb' 0 2

/-- Shelve minutes of k4, clamped to 240 (R26). -/
def shelveField (w : Word) : Nat := min 240 (bits w 8 8)

/-- A lamp setting of k5, g1 or g2: none where the present bit is clear (R28). -/
def lampField (w : Word) : Option Nat :=
  if w.getLsbD 15 then some (bits w 0 12) else none

/-- The mode that k8 requests; 3 is taken as DARK (R118). -/
def modeField (w : Word) : Mode :=
  match bits w 0 2 with
  | 0 => .lit
  | 1 => .dim
  | _ => .dark

/-! ## The board region (R4, R6, R17) -/

/-- The offset of an address in the board region, or none outside it (R4). -/
def regionOffset (base a : Addr) : Option Nat :=
  if base.toNat ≤ a.toNat ∧ a.toNat < base.toNat + Config.regionWords then
    some (a.toNat - base.toNat)
  else none

/-- The region words that can be watched (R6). -/
inductive RegionWord where
  | k0 | k1 | k8 | k9 | k10 | k11 | k17 | k18
  | control (point : Nat)
  | group (g : Nat) (word : Nat)
  deriving DecidableEq, Repr

/-- Offset of header word k0; kn lies n above it (10.3). -/
def headerOffset : Nat := 0x7000

/-- Offset of group record 0; record g lies g × 8 above it (10.4). -/
def groupOffset : Nat := 0x7040

/-- Offset of ring slot 0; slot s lies s × 4 above it (10.5). -/
def ringOffset : Nat := 0x7240

/-- Offset of lamp image word 0 (10.6). -/
def imageOffset : Nat := 0x7640

/-- Which watchable word lies at an offset: the words R6 lists for SWEEPING and RUNNING. -/
def regionWordAt (off : Nat) : Option RegionWord :=
  if off < 0x7000 then
    if off % 16 = 15 then some (.control (off / 16)) else none
  else if off < 0x7040 then
    match off - 0x7000 with
    | 0 => some .k0
    | 1 => some .k1
    | 8 => some .k8
    | 9 => some .k9
    | 10 => some .k10
    | 11 => some .k11
    | 17 => some .k17
    | 18 => some .k18
    | _ => none
  else if off < 0x7240 then
    if (off - 0x7040) % 8 ≤ 4 then some (.group ((off - 0x7040) / 8) ((off - 0x7040) % 8))
    else none
  else none

/-- The lamp image word at an offset (R2, R124). -/
def imageIndex (off : Nat) : Option Nat :=
  if 0x7640 ≤ off ∧ off ≤ 0x7A3F then some (off - 0x7640) else none

/-- The address of a region offset (R4). -/
def regionAddr (base : Addr) (off : Nat) : Addr := base + BitVec.ofNat 19 off

/-- The address a configuration read names (R22, R41, R53). -/
def ConfigRead.address (base : Addr) : ConfigRead → Addr
  | .k0 => regionAddr base headerOffset
  | .k1 => regionAddr base (headerOffset + 1)
  | .k2 => regionAddr base (headerOffset + 2)
  | .k3 => regionAddr base (headerOffset + 3)
  | .k4 => regionAddr base (headerOffset + 4)
  | .k5 => regionAddr base (headerOffset + 5)
  | .k16 => regionAddr base (headerOffset + 16)
  | .k17 => regionAddr base (headerOffset + 17)
  | .k18 => regionAddr base (headerOffset + 18)
  | .group g w => regionAddr base (groupOffset + g * 8 + w)
  | .entry n i => regionAddr base (n * 16 + entryWordOffset i)
  | .source _ a => a

/-- Reads of a settings pass (R22), as against reads of a point reload. -/
def ConfigRead.ofPass : ConfigRead → Bool
  | .k1 | .k2 | .k3 | .k4 | .k5 | .k16 | .k17 | .k18 | .group _ _ => true
  | .k0 | .entry _ _ | .source _ _ => false

/-! ## Lamps and chains (R25, 10.7) -/

def chainIndex : ChainId → Nat
  | .a => 0
  | .b => 1
  | .c => 2
  | .d => 3

/-- The chain of a lamp (R25). -/
def chainOfLamp (lamp : Nat) : ChainId :=
  match lamp / 1024 with
  | 0 => .a
  | 1 => .b
  | 2 => .c
  | _ => .d

/-- The card of a lamp on its chain (R25). -/
def cardOfLamp (lamp : Nat) : Nat := lamp % 1024 / 64

/-- The lamp at output j of card k of a chain (10.7). -/
def lampAt (c : ChainId) (k j : Nat) : Nat := chainIndex c * 1024 + k * 64 + j

/-- The number of a card place: card k of a chain. -/
def cardPlace (c : ChainId) (k : Nat) : Nat := chainIndex c * 16 + k

/-- Eight values, the first in bit 0 (10.7). -/
def byteOfBits (l : List Bool) : Byte :=
  l.foldr (fun b acc => (acc <<< 1) ||| (if b then 1 else 0)) 0

/-- One bit of the CRC register's shift (R173, step 3). -/
def crcShift (r : Word) : Word :=
  if r.getLsbD 0 then (r >>> 1) ^^^ 0xA001 else r >>> 1

/-- One byte taken into the CRC register (R173, steps 2 and 3). -/
def crcByte (r : Word) (b : Byte) : Word :=
  crcShift (crcShift (crcShift (crcShift (crcShift (crcShift (crcShift (crcShift
    (r ^^^ b.setWidth 16))))))))

/-- The CRC of the bytes of a frame's card sections (R173). -/
def crc (bytes : List Byte) : Word := bytes.foldl crcByte 0xFFFF

/-- A frame's sections with the two CRC bytes behind them, low byte first (R130, R173). -/
def closeFrame (sections : List Byte) : List Byte :=
  let r := crc sections
  sections ++ [r.extractLsb' 0 8, r.extractLsb' 8 8]

/-- The byte at a place of a frame. -/
def byteAt (frame : List Byte) (i : Nat) : Byte := frame.getD i 0

/-- The bytes of a frame of n sections, 9 × n + 2 in all (R130): DESIGN CHOICE (log 10), a shorter
operand is filled with 00h and a longer one cut. -/
def frameOfLength (n : Nat) (bytes : List Byte) : List Byte :=
  (List.range (9 * n + 2)).map (byteAt bytes)

/-- A frame of n sections is good when the CRC over its sections equals its two closing bytes (R132, R173). -/
def frameGood (n : Nat) (frame : List Byte) : Bool :=
  crc (frame.take (9 * n)) == byteAt frame (9 * n + 1) ++ byteAt frame (9 * n)

/-- The bit of output j in card k's section of a frame (10.7). -/
def sectionBit (frame : List Byte) (k j : Nat) : Bool :=
  (byteAt frame (9 * k + j / 8)).getLsbD (j % 8)

/-- The last byte of card k's section: control byte outbound, status byte in the return (10.7). -/
def sectionTail (frame : List Byte) (k : Nat) : Byte := byteAt frame (9 * k + 8)

/-! ## Keys (10.8, R143, R144) -/

/-- The keys of column KC[2], rows KR[0] to KR[7]. -/
def commandKeys : List Key :=
  [.enter, .ack, .clear, .silence, .test, .group, .shelve, .dim]

/-- The keys of one column that are down: a key down pulls its row low while its column is driven (R143). -/
def columnDown (rows : Byte) (keys : List Key) : List Key :=
  ((List.range 8).zip keys).filterMap (fun e => if rows.getLsbD e.1 then none else some e.2)

/-- The set of keys found down in one scan of the three columns (10.8). -/
def keysDown (rows0 rows1 rows2 : Byte) : List Key :=
  columnDown rows0 ((List.range 8).map (fun i => .digit (BitVec.ofNat 4 i)))
    ++ columnDown rows1 ((List.range 8).map (fun i => .digit (BitVec.ofNat 4 (8 + i))))
    ++ columnDown rows2 commandKeys

/-- The rank order, highest first (R144). -/
def keyRank : List Key :=
  [.enter, .ack, .clear, .silence, .test, .group, .shelve, .dim]
    ++ (List.range 16).map (fun i => .digit (BitVec.ofNat 4 (15 - i)))

/-- The highest-ranked key of a set (R144). -/
def highestKey (down : List Key) : Option Key :=
  keyRank.find? (fun k => down.contains k)

/-- The command code of a key; 0 for ENTER and the data keys (10.8, R155). -/
def Key.code : Key → Nat
  | .ack => 1
  | .clear => 2
  | .silence => 3
  | .test => 4
  | .group => 5
  | .shelve => 6
  | .dim => 7
  | .enter | .digit _ => 0

/-- The command code of a command that waits for ENTER (10.8). -/
def EntryCommand.code : EntryCommand → Nat
  | .ack => 1
  | .clear => 2
  | .group => 5
  | .shelve => 6

/-- The number a digit list gives, oldest digit most significant (R148). -/
def digitsNumber (l : List (BitVec 4)) : Nat :=
  l.foldl (fun acc d => acc * 16 + d.toNat) 0

/-! ## Operation scopes and codes (R98, R160, 10.8) -/

/-- The scope of an acknowledge or a clear (R98). -/
inductive Scope where
  | board
  | group (g : Nat)
  | point (n : Nat)
  deriving DecidableEq, Repr

/-- The scope a remote operand names for ACK and CLEAR; none is out of range (R160). -/
def remoteScope (operand : Word) : Option Scope :=
  if operand = 0xFFFF then some .board
  else if 0x8000 ≤ operand.toNat ∧ operand.toNat ≤ 0x803F then some (.group (operand.toNat - 0x8000))
  else if operand.toNat ≤ 0x6FF then some (.point operand.toNat)
  else none

/-- Command error reasons (10.8). -/
def noCommand : Nat := 0x01
def digitWithoutCommand : Nat := 0x02
def operandMissing : Nat := 0x03
def operandRange : Nat := 0x04
def notInstalled : Nat := 0x05
def noAlarm : Nat := 0x06
def shelfFull : Nat := 0x07
def shelvingDisabled : Nat := 0x08
def panelLocked : Nat := 0x09
def panelUnconfigured : Nat := 0x0A
def unknownCommand : Nat := 0x0B

/-- Event kind codes 01h to 12h (R163). -/
def EventKind.code : EventKind → Nat
  | .raised => 0x01
  | .returned => 0x02
  | .acked => 0x03
  | .cleared => 0x04
  | .stale => 0x05
  | .fresh => 0x06
  | .shelved => 0x07
  | .unshelved => 0x08
  | .command => 0x09
  | .commandError => 0x0A
  | .entryRejected => 0x0B
  | .groupLampRefused => 0x0C
  | .lampFault => 0x0D
  | .lampRestored => 0x0E
  | .chainFault => 0x0F
  | .chainRestored => 0x10
  | .mode => 0x11
  | .sweepDone => 0x12

/-- Origin codes (R163). -/
def Origin.code : Origin → Nat
  | .part => 0
  | .panel => 1
  | .remote => 2
  | .groupRequest => 3

/-- Alarm causes as RAISED details (R91). -/
def Cause.code : Cause → Nat
  | .high => 1
  | .low => 2
  | .level => 3
  | .discrepant => 4
  | .overrun => 5
  | .edge => 6

/-- The words e0 to e3 of an event record (10.5). -/
def EventRecord.word (r : EventRecord) : Nat → Word
  | 0 => BitVec.ofNat 16 (r.kind.code + 256 * r.origin.code)
  | 1 => r.subject
  | 2 => r.detail
  | _ => r.time

end Sys2Proof.Machine
end

