-- ==== Sys2Proof/Machine/Flags.lean ====
section
/-! DEFINITION. The flags, status words, image words and output lines that are computed from held state. -/

namespace Sys2Proof.Machine

/-! ## Patterns and phases (R108, R112) -/

/-- Pattern codes (R112). -/
def Pattern.code : Pattern → Nat
  | .off => 0
  | .steady => 1
  | .fast => 2
  | .slow => 3
  | .first => 4
  | .stale => 5

/-- The phases in which a pattern is lit (R112). -/
def Pattern.litIn (p : Pattern) (phase : BitVec 3) : Bool :=
  match p with
  | .off => false
  | .steady => true
  | .fast => [0, 1, 4, 5].contains phase.toNat
  | .slow => [0, 1, 2, 3].contains phase.toNat
  | .first => [0, 2, 4, 6].contains phase.toNat
  | .stale => phase.toNat == 0

/-- The phases in which HORN is on for a horn class (R108). -/
def hornOnIn (cls : Option Nat) (phase : BitVec 3) : Bool :=
  match cls with
  | some 1 => true
  | some 2 => [0, 1, 4, 5].contains phase.toNat
  | some 3 => [0, 1, 2, 3].contains phase.toNat
  | _ => false

/-- The phase length in force, 2^(3+FLASH) ticks (R111). -/
def phaseLength (flash : BitVec 2) : Nat := 2 ^ (3 + flash.toNat)

/-! ## The chains as a family of four -/

def Chains.get (c : Chains) : ChainId → Chain
  | .a => c.a
  | .b => c.b
  | .c => c.c
  | .d => c.d

def Chains.set (c : Chains) (i : ChainId) (x : Chain) : Chains :=
  match i with
  | .a => { c with a := x }
  | .b => { c with b := x }
  | .c => { c with c := x }
  | .d => { c with d := x }

/-- Any chain FAULTED (R114). -/
def Chains.anyFaulted (c : Chains) : Bool :=
  c.a.state == .faulted || c.b.state == .faulted || c.c.state == .faulted || c.d.state == .faulted

/-- Any exchange in flight (R123). -/
def Chains.anyExchange (c : Chains) : Bool :=
  c.a.exchange.isSome || c.b.exchange.isSome || c.c.exchange.isSome || c.d.exchange.isSome

/-- A lamp is present when its card number is less than its chain's card count (R25). -/
def Chains.present (c : Chains) (lamp : Nat) : Bool :=
  decide (lamp < Config.lampCount) && decide (cardOfLamp lamp < (c.get (chainOfLamp lamp)).count)

/-- A lamp's fault flag: set while its fail count is 2 (R137). -/
def Chains.faulty (c : Chains) (lamp : Nat) : Bool := c.fails.val 0 lamp == 2

/-! ## Image words (R124, 10.6) -/

/-- The held pattern of a lamp (R113). -/
def State.patternOf (s : State) (lamp : Nat) : Pattern := s.gen.patterns.val .off lamp

/-- The nibble of a lamp: pattern code and fault flag. -/
def State.nibble (s : State) (lamp : Nat) : Nat :=
  (s.patternOf lamp).code + (if s.chains.faulty lamp then 8 else 0)

/-- The image value of word w: lamps 4w to 4w + 3, lamp 4w + i in bits 4i + 3 to 4i. -/
def State.imageWord (s : State) (w : Nat) : Word :=
  BitVec.ofNat 16 (s.nibble (4 * w) + 16 * s.nibble (4 * w + 1) + 256 * s.nibble (4 * w + 2)
    + 4096 * s.nibble (4 * w + 3))

/-! ## Status words (R170, R171, 10.3) -/

def CfgState.code : CfgState → Nat
  | .unconfigured => 0
  | .sweeping => 1
  | .running => 2

def Mode.code : Mode → Nat
  | .lit => 0
  | .dim => 1
  | .dark => 2

def ChainState.code : ChainState → Nat
  | .idle => 0
  | .ok => 1
  | .faulted => 2

def boolBit (b : Bool) : Nat := if b then 1 else 0

/-- "Horn active" of k19: the horn class is 1, 2 or 3 (R108). -/
def State.hornActive (s : State) : Bool := s.ann.hornClass.isSome

/-- The lamp test runs while its timer is above 0 (R116). -/
def State.testRunning (s : State) : Bool := decide (0 < s.gen.testTimer)

/-- The condition the owners report to the Event Unit (R170, R171). -/
def State.reported (s : State) : StatusCopies where
  cfg := s.loader.cfg
  mode := s.gen.mode
  settling := s.gen.settling
  test := s.testRunning
  silence := s.ann.silence
  horn := s.hornActive
  chainA := s.chains.a.state
  chainB := s.chains.b.state
  chainC := s.chains.c.state
  chainD := s.chains.d.state
  installed := s.loader.installed
  rejected := s.loader.rejected
  faults := s.chains.faultCount

/-- The board status word k19 (10.3). -/
def StatusCopies.k19 (c : StatusCopies) : Word :=
  BitVec.ofNat 16 (c.cfg.code + 4 * c.mode.code + 16 * boolBit c.settling + 32 * boolBit c.test
    + 64 * boolBit c.silence + 128 * boolBit c.horn + 256 * c.chainA.code + 1024 * c.chainB.code
    + 4096 * c.chainC.code + 16384 * c.chainD.code)

/-- The value of a status word (R170, R171). -/
def StatusCopies.word (c : StatusCopies) : StatusWord → Word
  | .k19 => c.k19
  | .k20 => BitVec.ofNat 16 c.installed
  | .k21 => BitVec.ofNat 16 c.rejected
  | .k22 => BitVec.ofNat 16 c.faults

/-- The header number of a status word. -/
def StatusWord.header : StatusWord → Nat
  | .k19 => 19
  | .k20 => 20
  | .k21 => 21
  | .k22 => 22

/-- The fields of k19 alone, without the counts. -/
def StatusCopies.sameBoard (c d : StatusCopies) : Bool :=
  c == { d with installed := c.installed, rejected := c.rejected, faults := c.faults }

/-! ## Outputs -/

/-- The access is held by HWAIT, not released from it by a board reset (R3, R15). -/
def HoldReason.onHwait : HoldReason → Bool
  | .partWord | .fullQueue => true
  | .released | .releasedWrite => false

/-- HWAIT: asserted while a front-end access is held (R3, R8). -/
def State.hwait (s : State) : Bool :=
  match s.path.access with
  | some h => h.reason.onHwait
  | none => false

/-- LSUP: high while the mode is LIT or DIM or an exchange is in flight, low while a board reset is asserted (R123). -/
def State.lsup (s : State) : Bool :=
  !s.path.inReset && (s.gen.mode != .dark || s.chains.anyExchange)

/-- HORN: from the horn class and the flash phase (R108). -/
def State.horn (s : State) : Bool := hornOnIn s.ann.hornClass s.gen.phase

/-- The card in a card place. -/
def State.card (s : State) (c : ChainId) (k : Nat) : Card := s.cards.val Card.off (cardPlace c k)

/-- How a lamp's card lights it (R129): not at all, or lit with the card's dim state. -/
def State.lampLight (s : State) (lamp : Nat) : Option Bool :=
  let card := s.card (chainOfLamp lamp) (cardOfLamp lamp)
  if s.lsup && card.outputs.getLsbD (lamp % 64) then some card.dim else none

/-! ## Panel display (R156, R157, R174) -/

/-- A digit position's 5-bit code: a hexadecimal digit, or 10h for blank. -/
def blankCode : BitVec 5 := 0x10

def digitCode (d : BitVec 4) : BitVec 5 := d.setWidth 5

/-- The three positions for the digits typed, the newest at the right (R157). -/
def typedCodes (digits : List (BitVec 4)) : List (BitVec 5) :=
  List.replicate (3 - digits.length) blankCode ++ digits.map digitCode

/-- The three digit positions, left to right (R156, R157). -/
def Panel.positions (p : Panel) : List (BitVec 5) :=
  match p.error with
  | some reason =>
    [0x0E, digitCode (BitVec.ofNat 4 (reason / 16)), digitCode (BitVec.ofNat 4 reason)]
  | none =>
    match p.command, p.selected with
    | some _, _ => typedCodes p.digits
    | none, some g =>
      [blankCode, digitCode (BitVec.ofNat 4 (g / 16)), digitCode (BitVec.ofNat 4 g)]
    | none, none => [blankCode, blankCode, blankCode]

/-- The seven indicators ACK, CLEAR, SILENCE, TEST, GROUP, SHELVE, DIM (R156, R157). -/
def Panel.indicators (p : Panel) : List Bool :=
  match p.error with
  | some _ => List.replicate 7 true
  | none =>
    [p.command == some .ack, p.command == some .clear, p.silenceOn, p.testOn,
      p.command == some .group || (p.command == none && p.selected.isSome),
      p.command == some .shelve, p.dimOn]

/-- A code's five bits, most significant first (R174). -/
def codeBits (c : BitVec 5) : List Bool :=
  [c.getLsbD 4, c.getLsbD 3, c.getLsbD 2, c.getLsbD 1, c.getLsbD 0]

/-- The 22 bits sent to the panel at a tick (R158, R174). -/
def Panel.display (p : Panel) : List Bool :=
  p.indicators ++ p.positions.flatMap codeBits

end Sys2Proof.Machine
end

