-- ==== Sys2Proof/Machine/Ops.lean ====
section
/-! DEFINITION. The operations every block shares: block updates, events, lamp patterns and claims, reports to the Event Unit and the panel, and the raising of RAM requests. -/

namespace Sys2Proof.Machine

/-- What a command answers. -/
abbrev Result := Host.Outcome State Fault Refusal

/-! ## One block replaced -/

def State.setRam (s : State) (x : Memory) : State := { s with ram := x }
def State.setPath (s : State) (x : MemPath) : State := { s with path := x }
def State.setLoader (s : State) (x : Loader) : State := { s with loader := x }
def State.setEvaluator (s : State) (x : Evaluator) : State := { s with evaluator := x }
def State.setAnn (s : State) (x : Annunciator) : State := { s with ann := x }
def State.setGen (s : State) (x : PatternGen) : State := { s with gen := x }
def State.setChains (s : State) (x : Chains) : State := { s with chains := x }
def State.setCards (s : State) (x : Table Card) : State := { s with cards := x }
def State.setPanel (s : State) (x : Panel) : State := { s with panel := x }
def State.setEvents (s : State) (x : EventUnit) : State := { s with events := x }

/-! ## Events (R163 to R165) -/

/-- The configuration state is SWEEPING or RUNNING. -/
def State.configured (s : State) : Bool := s.loader.cfg != .unconfigured

/-- A record meets the event queue: joins it, or is discarded and counted (R164, R165). -/
def EventUnit.take (e : EventUnit) (r : EventRecord) : EventUnit :=
  if e.queue.length < Config.queueDepth then { e with queue := e.queue ++ [r] }
  else if e.ringHeld then
    if e.lost < 65535 then { e with lost := e.lost + 1, k18Owed := true } else e
  else { e with sweepDiscards := min 65535 (e.sweepDiscards + 1) }

/-- An event is produced: the time is added, and in UNCONFIGURED it is discarded uncounted (R163, R164). -/
def record (kind : EventKind) (origin : Origin) (subject detail : Nat) (s : State) : State :=
  if s.configured then
    s.setEvents (s.events.take
      ⟨kind, origin, BitVec.ofNat 16 subject, BitVec.ofNat 16 detail, s.gen.seconds.setWidth 16⟩)
  else s

/-! ## Lamp patterns and claims (R50, R113, R125) -/

/-- The image write under way is of word w, its completion not disregarded. -/
def State.imageUnderWay (s : State) (w : Nat) : Bool :=
  match s.path.partAccess with
  | some a => a.work == .image w && !a.disregard
  | none => false

/-- An image value has changed: its word joins the dirty set in SWEEPING or RUNNING (R125). -/
def touchWord (w : Nat) (s : State) : State :=
  if s.configured then
    s.setGen { s.gen with
      dirty := insertNat w s.gen.dirty
      servedChanged := s.gen.servedChanged || s.imageUnderWay w }
  else s

/-- A pattern is handed for a lamp (R113); an equal one changes nothing. -/
def setPattern (lamp : Nat) (p : Pattern) (s : State) : State :=
  if s.patternOf lamp = p then s
  else touchWord (lamp / 4) (s.setGen { s.gen with patterns := s.gen.patterns.assign .off lamp p })

/-- A claim is released: the slot holds none and the lamp is OFF (R50, R113). -/
def releaseLamp (lamp : Nat) (s : State) : State :=
  setPattern lamp .off (s.setLoader { s.loader with claims := s.loader.claims.del lamp })

/-- A claim is granted (R50); the lamp keeps OFF until its owner hands a pattern (R113). -/
def claimLamp (owner : Owner) (lamp : Nat) (s : State) : State :=
  s.setLoader { s.loader with claims := s.loader.claims.put lamp owner }

/-- The lamp a setting holds by a granted claim. -/
def LampSetting.claimed (x : LampSetting) : Option Nat := if x.granted then x.lamp else .none

/-- The board fault lamp's pattern: STEADY while any fault flag is set or any chain is FAULTED (R114). -/
def State.faultPattern (s : State) : Pattern :=
  if 0 < s.chains.faultCount ∨ s.chains.anyFaulted then .steady else .off

/-- The board fault lamp is decided afresh (R114). -/
def decideFaultLamp (s : State) : State :=
  match s.loader.faultLamp.claimed with
  | some lamp => setPattern lamp s.faultPattern s
  | none => s

/-! ## Held records by number -/

def State.settings (s : State) (g : Nat) : GroupSettings := s.loader.groups.val GroupSettings.none g

def setSettings (g : Nat) (x : GroupSettings) (s : State) : State :=
  s.setLoader { s.loader with groups := s.loader.groups.assign GroupSettings.none g x }

def State.counts (s : State) (g : Nat) : GroupCounts := s.ann.groups.val GroupCounts.zero g

def setCounts (g : Nat) (x : GroupCounts) (s : State) : State :=
  s.setAnn { s.ann with groups := s.ann.groups.assign GroupCounts.zero g x }

def State.point (s : State) (n : Nat) : PointRec := s.loader.points.val PointRec.absent n

def setPoint (n : Nat) (x : PointRec) (s : State) : State :=
  s.setLoader { s.loader with points := s.loader.points.assign PointRec.absent n x }

/-- The held copy of an INSTALLED or installing point (R39). -/
def State.entryOf (s : State) (n : Nat) : Option Entry := (s.point n).held

/-! ## Reports to the Event Unit and the panel (R157, R170, R171) -/

/-- The Event Unit's copies take the owners' reports; in SWEEPING or RUNNING a changed word becomes owed (R170, R171). -/
def syncStatus (s : State) : State :=
  let old := s.events.copies
  let now := s.reported
  s.setEvents { s.events with
    copies := now
    owed19 := s.events.owed19 || (s.configured && !old.sameBoard now)
    owed20 := s.events.owed20 || (s.configured && old.installed != now.installed)
    owed21 := s.events.owed21 || (s.configured && old.rejected != now.rejected)
    owed22 := s.events.owed22 || (s.configured && old.faults != now.faults) }

/-- The three indicator inputs take their owners' reports (R157). -/
def syncPanel (s : State) : State :=
  s.setPanel { s.panel with
    testOn := s.testRunning
    silenceOn := s.ann.silence
    dimOn := s.gen.mode == .dim }

/-! ## RAM requests (R12) -/

/-- A part word access of a kind is under way, its completion not disregarded (R12, R126). DESIGN CHOICE
(log 17): a write or read whose completion a deconfigure or a board reset has had disregarded, and which is
still on the RAM port, does not count as under way for its requester's next request; so the image writer of
a new sweep raises its first request beside it. -/
def State.busyWith (s : State) (p : PartWork → Bool) : Bool :=
  match s.path.partAccess with
  | some a => !a.disregard && p a.work
  | none => false

def PartWork.isReread : PartWork → Bool
  | .reread => true
  | .ring _ | .config _ | .status _ | .image _ => false

def PartWork.isRing : PartWork → Bool
  | .ring _ => true
  | .reread | .config _ | .status _ | .image _ => false

def PartWork.isConfig : PartWork → Bool
  | .config _ => true
  | .reread | .ring _ | .status _ | .image _ => false

def PartWork.isStatus : PartWork → Bool
  | .status _ => true
  | .reread | .ring _ | .config _ | .image _ => false

def PartWork.isImage : PartWork → Bool
  | .image _ => true
  | .reread | .ring _ | .config _ | .status _ => false

/-- The capture re-read: wanted for a partial item at the front (R9). -/
def State.wantReread (s : State) : Option Addr :=
  match s.path.capture with
  | item :: _ => if item.partialItem then some item.addr else none
  | [] => none

/-- The slot after the head (R167). -/
def EventUnit.nextHead (e : EventUnit) : BitVec 8 := e.head + 1

/-- The ring writer's choice, the first case of R167 that holds. DEDUCED (log 23): the order of the cases
decides, so no k18 write falls between the first and the fourth word of a record. -/
def EventUnit.wantRing (e : EventUnit) : Option RingWrite :=
  match e.inProgress with
  | some k =>
    if k < 4 then some (.word k)
    else if e.k18Owed then some .k18
    else if e.nextHead ≠ e.tail then some .head
    else none
  | none =>
    if e.k18Owed then some .k18
    else if e.queue ≠ [] ∧ e.nextHead ≠ e.tail then some (.word 0)
    else none

/-- The Loader's next read, in the order of R23. -/
def Loader.wantConfig (l : Loader) : Option ConfigRead :=
  match l.reload with
  | some r =>
    match r.stage with
    | .entry => some (.entry r.point r.words.length)
    | .source =>
      match (l.points.val PointRec.absent r.point).held with
      | some e => some (.source r.point e.source)
      | none => none
    | .value => none
  | none =>
    match l.pass with
    | some p => some p.next
    | none =>
      match l.pendingPoints with
      | n :: _ => some (.entry n 0)
      | [] => none

/-- The owed status word of lowest offset (R171). -/
def EventUnit.wantStatus (e : EventUnit) : Option StatusWord :=
  if e.owed19 then some .k19
  else if e.owed20 then some .k20
  else if e.owed21 then some .k21
  else if e.owed22 then some .k22
  else none

/-- The image writer's choice: the first dirty word upward from the word after the last one written,
passing from 1023 to 0 (R126). -/
def PatternGen.wantImage (g : PatternGen) : Option Nat :=
  match g.dirty.find? (fun w => decide (g.lastWord < w)) with
  | some w => some w
  | none => g.dirty.head?

/-- A request keeps until it is served; a requester with none waiting or under way presents its next one (R12). -/
def nextRequest {α : Type} (waiting : Option α) (busy : Bool) (want : Option α) : Option α :=
  match waiting with
  | some r => some r
  | none => if busy then none else want

/-- The requests that stand once every requester has presented its next one (R12). In UNCONFIGURED only
the capture re-read is raised (R17, R18). -/
def State.nextRequests (s : State) : Requests where
  reread := nextRequest s.path.requests.reread (s.busyWith PartWork.isReread) s.wantReread
  ring := nextRequest s.path.requests.ring (s.busyWith PartWork.isRing)
    (if s.configured && s.events.ringHeld then s.events.wantRing else none)
  config := nextRequest s.path.requests.config (s.busyWith PartWork.isConfig)
    (if s.configured then s.loader.wantConfig else none)
  status := nextRequest s.path.requests.status (s.busyWith PartWork.isStatus)
    (if s.configured then s.events.wantStatus else none)
  image := nextRequest s.path.requests.image (s.busyWith PartWork.isImage)
    (if s.configured then s.gen.wantImage else none)

/-- The first word of a record has been chosen: the front record becomes the record in progress (R167, case 4). -/
def beginRecord (ring : Option RingWrite) (e : EventUnit) : EventUnit :=
  match ring, e.inProgress with
  | some (.word _), none => { e with inProgress := some 0 }
  | _, _ => e

/-- The Loader has chosen the first read of the point at the front of the pending list: it takes the point
from the list and the point's reload begins (R23, R40). DEDUCED (log 15): in the step that raises the read. -/
def beginReload (waiting raised : Option ConfigRead) (l : Loader) : Loader :=
  match waiting, raised, l.reload with
  | none, some (.entry n _), none =>
    { l with
      pendingPoints := l.pendingPoints.filter (fun m => m != n)
      reload := some ⟨n, [], .entry⟩ }
  | _, _, _ => l

/-- Every requester with nothing waiting or under way presents its next request (R12); the record or the
reload that a request begins is begun with it (R23, R167). -/
def raiseRequests (s : State) : State :=
  let r := s.nextRequests
  ((s.setPath { s.path with requests := r }).setEvents (beginRecord r.ring s.events)).setLoader
    (beginReload s.path.requests.config r.config s.loader)

/-- The end of every command: the reports are taken and the requests presented (R12, R157, R170, R171).
DEDUCED (log 19): in the step that gives rise to them. -/
def settle (s : State) : State := raiseRequests (syncPanel (syncStatus s))

end Sys2Proof.Machine
end

