-- ==== Sys2Proof/Machine/Annunciator.lean ====
section
/-! DEFINITION. The Annunciator (05): transitions, the unacknowledged list, group counts and first-up marks, operations, the shelf, silence and the horn. -/

namespace Sys2Proof.Machine

/-- The annunciation state of a point, or none where it has no record (R84). -/
def State.annState (s : State) (n : Nat) : Option AnnState := (s.ann.records.look n).map AnnRec.state

/-- Member states of the unacknowledged list (R92). -/
def AnnState.onList : AnnState → Bool
  | .new | .fleeting => true
  | .quiet | .standing | .returned | .shelved => false

/-! ## Group counts (R94) -/

/-- One member more in a state. -/
def GroupCounts.enter (c : GroupCounts) : AnnState → GroupCounts
  | .new | .fleeting => { c with unack := c.unack + 1 }
  | .standing => { c with standing := c.standing + 1 }
  | .returned => { c with returned := c.returned + 1 }
  | .shelved => { c with shelved := c.shelved + 1 }
  | .quiet => c

/-- One member fewer in a state. -/
def GroupCounts.exit (c : GroupCounts) : AnnState → GroupCounts
  | .new | .fleeting => { c with unack := c.unack - 1 }
  | .standing => { c with standing := c.standing - 1 }
  | .returned => { c with returned := c.returned - 1 }
  | .shelved => { c with shelved := c.shelved - 1 }
  | .quiet => c

/-- The summary lamp's pattern (R96). -/
def GroupCounts.summaryPattern (c : GroupCounts) : Pattern :=
  if 0 < c.unack then .fast
  else if 0 < c.standing then .steady
  else if 0 < c.returned then .slow
  else .off

/-- The stale lamp's pattern (R96). -/
def GroupCounts.stalePattern (c : GroupCounts) : Pattern :=
  if 0 < c.stale then .steady else .off

/-! ## Patterns handed (R88, R96) -/

/-- The alarm lamp's pattern for an annunciation state (R88). -/
def AnnState.alarmPattern (firstUp : Bool) : AnnState → Pattern
  | .new | .fleeting => if firstUp then .first else .fast
  | .standing => .steady
  | .returned => .slow
  | .quiet | .shelved => .off

/-- The alarm lamp of a point takes the pattern of its state, where the point holds one (R88). -/
def handAlarm (n : Nat) (s : State) : State :=
  match s.ann.records.look n, (s.entryOf n).bind Entry.alarmLamp with
  | some r, some lamp =>
    setPattern lamp (r.state.alarmPattern ((s.counts r.group).firstUp == some n)) s
  | _, _ => s

/-- The summary lamp of a group takes the pattern of its counts, where the group holds one (R96). -/
def handSummary (g : Nat) (s : State) : State :=
  match (s.settings g).summary.claimed with
  | some lamp => setPattern lamp (s.counts g).summaryPattern s
  | none => s

/-- The stale lamp of a group, likewise (R96). -/
def handStale (g : Nat) (s : State) : State :=
  match (s.settings g).staleLamp.claimed with
  | some lamp => setPattern lamp (s.counts g).stalePattern s
  | none => s

/-! ## The list, the first-up mark, the horn -/

/-- A point joins the end of the list (R92). It becomes first-up and raises the new indicator where its
group's unacknowledged count was 0 (R93, R97); the silence flag is cleared where the group is
horn-enabled (R106). The group's count is moved by `transition`. -/
def joinList (n g : Nat) (s : State) : State :=
  let rises := (s.counts g).unack == 0
  let s := s.setAnn { s.ann with
    unack := s.ann.unack ++ [n]
    silence := s.ann.silence && !(s.settings g).horn }
  let s := if rises then setCounts g { s.counts g with firstUp := some n } s else s
  if rises && (s.settings g).wake then
    s.setGen { s.gen with wakeRequests := s.gen.wakeRequests + 1 }
  else s

/-- A point leaves the list from wherever it stands; a mark it held becomes none (R92, R93). -/
def leaveList (n g : Nat) (s : State) : State :=
  let s := s.setAnn { s.ann with unack := s.ann.unack.filter (fun m => m != n) }
  if (s.counts g).firstUp = some n then setCounts g { s.counts g with firstUp := none } s else s

/-- How a transition between two annunciation states stands to the list (R86, R92). -/
def moveOnList (n g : Nat) (old new : AnnState) (s : State) : State :=
  match old.onList, new.onList with
  | true, false => leaveList n g s
  | false, true => joinList n g s
  | true, true | false, false => s

/-- A point with a record takes a new annunciation state: the list, the mark, the counts, the record and
the lamps follow (R86, R88, R92 to R94, R96). -/
def transition (n : Nat) (new : AnnState) (s : State) : State :=
  match s.ann.records.look n with
  | none => s
  | some r =>
    let s := moveOnList n r.group r.state new s
    let s := setCounts r.group (((s.counts r.group).exit r.state).enter new) s
    let s := s.setAnn { s.ann with records := s.ann.records.put n { r with state := new } }
    handSummary r.group (handAlarm n s)

/-- The class of a list member whose group is horn-enabled (R107). -/
def State.hornMember (s : State) (n : Nat) : Option Nat :=
  match s.ann.records.look n with
  | some r => if (s.settings r.group).horn then some r.cls else none
  | none => none

/-- The horn class: the lowest class among the horn-enabled members, none where the silence flag is
set, where there is no such member, or where it is 4 (R107). -/
def State.hornClassNow (s : State) : Option Nat :=
  if s.ann.silence then none
  else
    match (s.ann.unack.filterMap s.hornMember).min? with
    | some c => if c ≤ 3 then some c else none
    | none => none

/-- The horn class is decided afresh at the end of a step of the Annunciator (R107). -/
def decideHorn (s : State) : State := s.setAnn { s.ann with hornClass := s.hornClassNow }

/-! ## Alarm, stale and fresh reports (R62, R86, R87, R95) -/

/-- The alarm reports of the Point Evaluator (R62). -/
inductive Report where
  | none
  | onset (cause : Cause)
  | ret
  | momentary
  | causeChange (cause : Cause)
  deriving DecidableEq, Repr

/-- The new state and the event of a cell of R86's table; none for a cell marked no change or does not arise. -/
def Report.effect : Report → AnnState → Option (AnnState × EventKind × Nat)
  | .onset c, .quiet => some (.new, .raised, c.code)
  | .onset c, .fleeting => some (.new, .raised, c.code)
  | .onset c, .returned => some (.new, .raised, c.code)
  | .ret, .new => some (.fleeting, .returned, 0)
  | .ret, .standing => some (.returned, .returned, 0)
  | .momentary, .quiet => some (.fleeting, .raised, Cause.edge.code)
  | .momentary, .fleeting => some (.fleeting, .raised, Cause.edge.code)
  | .momentary, .returned => some (.fleeting, .raised, Cause.edge.code)
  | .causeChange c, .new => some (.new, .raised, c.code)
  | .causeChange c, .standing => some (.new, .raised, c.code)
  | _, _ => .none

/-- One alarm report taken as one step (R85, R86). A SHELVED point takes no transition (R87). -/
def takeReport (n : Nat) (rep : Report) (s : State) : State :=
  match (s.annState n).bind rep.effect with
  | some (new, kind, detail) => decideHorn (record kind .part n detail (transition n new s))
  | none => s

/-- A stale report raises the group's stale count (R95). -/
def staleReport (g : Nat) (s : State) : State :=
  handStale g (setCounts g { s.counts g with stale := (s.counts g).stale + 1 } s)

/-- A fresh report, or the removal of a stale point, lowers it (R95). -/
def freshReport (g : Nat) (s : State) : State :=
  handStale g (setCounts g { s.counts g with stale := (s.counts g).stale - 1 } s)

/-! ## A board second still due at the shelf (R104) -/

/-- A record of the shelf is about to expire. -/
def State.shelfExpiring (s : State) : Bool := s.ann.shelf.any (fun x => decide (x.seconds ≤ 1))

/-- A board second still due at the shelf, where no record is left that it makes expire, as an unshelve, a
reshelve or a removal came first: it only counts, at once (R104, R105; log 11). -/
def finishShelf (s : State) : State :=
  if s.ann.shelfDue && !s.shelfExpiring then
    s.setAnn { s.ann with
      shelf := s.ann.shelf.map (fun x => { x with seconds := x.seconds - 1 }), shelfDue := false }
  else s

/-! ## Join and removal (R44, R55, R84) -/

/-- An alarm-capable point joins its group in QUIET (R55, R84). -/
def annJoin (n : Nat) (e : Entry) (s : State) : State :=
  if e.alarmCapable then
    s.setAnn { s.ann with records := s.ann.records.put n ⟨.quiet, e.cls, e.group⟩ }
  else s

/-- The Annunciator's part of a removal (R44): list, mark, shelf and counts without events, the record
discarded, the summary lamp and the horn decided afresh; a board second due at the shelf follows where it then
only counts (log 11). -/
def annRemove (n : Nat) (s : State) : State :=
  match s.ann.records.look n with
  | none => s
  | some r =>
    let s := if r.state.onList then leaveList n r.group s else s
    let s := setCounts r.group ((s.counts r.group).exit r.state) s
    let s := s.setAnn { s.ann with
      records := s.ann.records.del n
      shelf := s.ann.shelf.filter (fun x => x.point != n) }
    decideHorn (finishShelf (handSummary r.group s))

/-! ## Acknowledge, clear, shelve, silence (R89, R90, R98 to R106) -/

/-- The condition of a point, as the Evaluator holds it (R62). -/
def State.isAbnormal (s : State) (n : Nat) : Bool :=
  match s.evaluator.values.look n with
  | some v => v.condition != .normal
  | none => false

/-- A point comes off the shelf (R104, R105): the record leaves and the state is chosen from the
condition, `abnormal` where it is abnormal and QUIET where it is normal. -/
def unshelve (n : Nat) (abnormal : AnnState) (detail : Nat) (origin : Origin) (s : State) : State :=
  let s := s.setAnn { s.ann with shelf := s.ann.shelf.filter (fun x => x.point != n) }
  record .unshelved origin n detail (transition n (if s.isAbnormal n then abnormal else .quiet) s)

/-- An acknowledge of one point (R89, R105). -/
def ackPoint (origin : Origin) (n : Nat) (s : State) : State :=
  match s.annState n with
  | some .new => record .acked origin n 0 (transition n .standing s)
  | some .fleeting => record .acked origin n 0 (transition n .returned s)
  | some .shelved => finishShelf (unshelve n .standing 1 origin s)
  | some .quiet | some .standing | some .returned | none => s

/-- A clear of one point (R90). -/
def clearPoint (origin : Origin) (n : Nat) (s : State) : State :=
  match s.annState n with
  | some .returned => record .cleared origin n 0 (transition n .quiet s)
  | some .new | some .fleeting | some .shelved | some .quiet | some .standing | none => s

/-- One step carried over a fixed list of points, in its order (R99, R100). -/
def overPoints (act : Nat → State → State) (points : List Nat) (s : State) : State :=
  points.foldl (fun s n => act n s) s

/-- The group of a point's annunciation record. -/
def State.groupOf (s : State) (n : Nat) : Option Nat := (s.ann.records.look n).map AnnRec.group

/-- The points in RETURNED, in ascending number (R100). -/
def State.returnedPoints (s : State) : List Nat :=
  (s.ann.records.filter (fun e => e.2.state == .returned)).map Prod.fst

/-- The checks of a point scope: installed, and alarm-capable (R98); none where both hold. -/
def State.pointRefusal (s : State) (n : Nat) : Option Nat :=
  if (s.point n).status ≠ .installed then some notInstalled
  else if (s.ann.records.look n).isNone then some noAlarm
  else none

/-- The checks of a shelve in their order (R98). -/
def State.shelveRefusal (s : State) (n : Nat) : Option Nat :=
  match s.pointRefusal n with
  | some reason => some reason
  | none =>
    if s.ann.shelveMinutes = 0 then some shelvingDisabled
    else if Config.shelfDepth ≤ s.ann.shelf.length ∧ ¬ s.ann.shelf.any (fun x => x.point == n) then
      some shelfFull
    else none

/-- The points an acknowledge acts on, in list order; a point scope names its point (R98, R99). -/
def State.ackTargets (s : State) : Scope → List Nat
  | .board => s.ann.unack
  | .group g => s.ann.unack.filter (fun n => s.groupOf n == some g)
  | .point n => [n]

/-- The points a clear acts on, in ascending number (R98, R100). -/
def State.clearTargets (s : State) : Scope → List Nat
  | .board => s.returnedPoints
  | .group g => s.returnedPoints.filter (fun n => s.groupOf n == some g)
  | .point n => [n]

/-- The refusal of a scope: only a point scope can be refused (R98). -/
def State.scopeRefusal (s : State) : Scope → Option Nat
  | .board | .group _ => none
  | .point n => s.pointRefusal n

/-- An acknowledge and its answer: none for accepted, else the reason (R98, R99). -/
def acknowledge (scope : Scope) (origin : Origin) (s : State) : State × Option Nat :=
  match s.scopeRefusal scope with
  | some reason => (s, some reason)
  | none => (decideHorn (overPoints (ackPoint origin) (s.ackTargets scope) s), none)

/-- A clear and its answer (R98, R100). -/
def clear (scope : Scope) (origin : Origin) (s : State) : State × Option Nat :=
  match s.scopeRefusal scope with
  | some reason => (s, some reason)
  | none => (decideHorn (overPoints (clearPoint origin) (s.clearTargets scope) s), none)

/-- A shelve that passes its checks: the record joins the end of the shelf with minutes × 60 seconds,
leaving its place where the point is already shelved, which is a reshelve (R103). -/
def shelveAccepted (n : Nat) (origin : Origin) (s : State) : State :=
  let m := s.ann.shelveMinutes
  let s := s.setAnn { s.ann with
    shelf := s.ann.shelf.filter (fun x => x.point != n) ++ [⟨n, m * 60⟩] }
  decideHorn (finishShelf (record .shelved origin n m (transition n .shelved s)))

/-- A shelve and its answer (R98, R103). -/
def shelve (n : Nat) (origin : Origin) (s : State) : State × Option Nat :=
  match s.shelveRefusal n with
  | some reason => (s, some reason)
  | none => (shelveAccepted n origin s, none)

/-- A silence, always accepted (R98, R106). -/
def silence (s : State) : State := decideHorn (s.setAnn { s.ann with silence := true })

/-! ## The board second at the shelf (R104) -/

/-- The shelf after every record has lost one second: the records that stay, and the points that expire, in shelf order. -/
def lowerShelf (l : List ShelfRec) : List ShelfRec × List Nat :=
  let lowered := l.map (fun x => { x with seconds := x.seconds - 1 })
  (lowered.filter (fun x => x.seconds != 0),
    (lowered.filter (fun x => x.seconds == 0)).map ShelfRec.point)

/-- The board second's one step at the shelf (R104). -/
def shelfSecond (s : State) : State :=
  let l := lowerShelf s.ann.shelf
  let s := s.setAnn { s.ann with shelf := l.1, shelfDue := false }
  decideHorn (overPoints (fun n => unshelve n .new 0 .part) l.2 s)

end Sys2Proof.Machine
end

