-- ==== Sys2Proof/Machine/Evaluator.lean ====
section
/-! DEFINITION. The Point Evaluator (04): the judging of values, display patterns, the board second at a point, and its commands' shared steps. -/

namespace Sys2Proof.Machine

/-! ## ANALOGUE arithmetic (R67 to R72) -/

/-- The clamp c(x) (R67). -/
def clampSpan (e : Entry) (x : Int) : Int :=
  if x < e.zero then e.zero else if x > e.full then e.full else x

/-- The count k(x) (R67). -/
def barCount (e : Entry) (x : Int) : Nat :=
  let span : Int := (e.full : Int) - e.zero
  (((clampSpan e x - e.zero) * (2 * e.barLength) + span) / (2 * span)).toNat

/-- The displayed count after a later value (R68). -/
def nextCount (e : Entry) (d r : Nat) : Nat :=
  let ka := barCount e ((r : Int) - e.hysteresis)
  let kb := barCount e ((r : Int) + e.hysteresis)
  if ka > d then ka else if kb < d then kb else d

/-- The high flag after a value (R70). -/
def nextHigh (e : Entry) (flag : Bool) (r : Nat) : Bool :=
  e.highEnabled &&
    (if flag then !decide ((r : Int) < (e.highLimit : Int) - e.deadband) else decide (e.highLimit ≤ r))

/-- The low flag after a value (R71). -/
def nextLow (e : Entry) (flag : Bool) (r : Nat) : Bool :=
  e.lowEnabled &&
    (if flag then !decide (e.lowLimit + e.deadband < r) else decide (r ≤ e.lowLimit))

/-- The condition of an ANALOGUE point from the flags after a value and the condition held before (R72). -/
def analogueCondition (old : Condition) (high low : Bool) : Condition :=
  match old with
  | .abnormal .low => if low then .abnormal .low else if high then .abnormal .high else .normal
  | _ => if high then .abnormal .high else if low then .abnormal .low else .normal

/-! ## VALVE (R73, R74, R76) -/

/-- The position of a raw value (R73). -/
def positionOf (r : Nat) : Position :=
  match r with
  | 0 => .travel
  | 1 => .opened
  | 2 => .closed
  | _ => .discrepant

/-- The travel timer after a value (R74). -/
def nextTimer (e : Entry) (old : Position) (timer : Option Nat) (new : Position) : Option Nat :=
  if new = .travel then
    if old = .travel then timer else if 0 < e.travel then some e.travel else none
  else none

/-- The condition of a VALVE point (R76). -/
def valveCondition (pos : Position) (overrun : Bool) : Condition :=
  match pos with
  | .discrepant => .abnormal .discrepant
  | .travel => if overrun then .abnormal .overrun else .normal
  | .opened | .closed => .normal

/-! ## DISCRETE (R65, R66) -/

/-- The condition of a DISCRETE point (R65, R66). -/
def discreteCondition (e : Entry) (r : Nat) : Condition :=
  if e.mode = some .level ∧ r = e.active then .abnormal .level else .normal

/-- A qualifying edge (R66). -/
def qualifyingEdge (e : Entry) (previous r : Nat) : Bool :=
  match e.mode with
  | some .rising => previous == 0 && r == 1
  | some .falling => previous == 1 && r == 0
  | some .both => previous != r
  | some .level | some .none | none => false

/-! ## Judging a value -/

/-- The alarm report of a change of condition (R62, R65, R72, R76). -/
def reportOf (old new : Condition) : Report :=
  match old, new with
  | .normal, .abnormal c => .onset c
  | .abnormal _, .normal => .ret
  | .abnormal c, .abnormal c' => if c = c' then .none else .causeChange c'
  | .normal, .normal => .none

/-- The kind's items and the condition after a later value r (R61, step 2). -/
def judgeLater (e : Entry) (v : ValueRec) (r : Nat) : KindState × Condition :=
  match v.kind with
  | .discrete => (.discrete, discreteCondition e r)
  | .analogue d high low =>
    let high' := nextHigh e high r
    let low' := nextLow e low r
    (.analogue (nextCount e d r) high' low', analogueCondition v.condition high' low')
  | .valve pos timer overrun =>
    let pos' := positionOf r
    let overrun' := overrun && pos' == .travel
    (.valve pos' (nextTimer e pos timer pos') overrun', valveCondition pos' overrun')

/-- The kind's items and the condition from a first value r (R82). -/
def judgeFirst (e : Entry) (r : Nat) : KindState × Condition :=
  match e.kind with
  | some .analogue =>
    let high := nextHigh e false r
    let low := nextLow e false r
    (.analogue (barCount e r) high low, analogueCondition .normal high low)
  | some .valve =>
    let pos := positionOf r
    (.valve pos (nextTimer e .closed none pos) false, valveCondition pos false)
  | some .discrete | none => (.discrete, discreteCondition e r)

/-- The alarm report of a later value (R61 step 2, R66). -/
def laterReport (e : Entry) (v : ValueRec) (r : Nat) (new : Condition) : Report :=
  if v.kind = .discrete ∧ qualifyingEdge e v.last r then .momentary else reportOf v.condition new

/-! ## Display patterns (R64, R69, R73, R79) -/

/-- The pattern of bar lamp i of a fresh ANALOGUE point (R69). -/
def barPattern (e : Entry) (d r i : Nat) : Pattern :=
  if e.marking ∧ e.full < r ∧ i = e.barLength - 1 then .slow
  else if e.marking ∧ r < e.zero ∧ i = 0 then .slow
  else if i < d then .steady
  else .off

/-- The pattern of bar lamp i of a stale ANALOGUE point (R79). -/
def staleBarPattern (d i : Nat) : Pattern := if i < max d 1 then .stale else .off

/-- The open and the closed lamp of a fresh VALVE point (R73). -/
def valvePatterns : Position → List Pattern
  | .opened => [.steady, .off]
  | .closed => [.off, .steady]
  | .travel => [.slow, .slow]
  | .discrepant => [.fast, .fast]

/-- The patterns of a point's display lamps, in their order (R63). -/
def displayPatterns (e : Entry) (kind : KindState) (r : Nat) (stale : Bool) : List Pattern :=
  match kind with
  | .discrete => [if stale then .stale else if r = e.active then .steady else .off]
  | .analogue d _ _ =>
    (List.range e.barLength).map (fun i => if stale then staleBarPattern d i else barPattern e d r i)
  | .valve pos _ _ => if stale then [.stale, .stale] else valvePatterns pos

/-- The patterns of a list of lamps are handed to the Pattern Generator (R63). -/
def handPatterns (lamps : List (Nat × Pattern)) (s : State) : State :=
  lamps.foldl (fun s e => setPattern e.1 e.2 s) s

/-- The display patterns of a record are handed and held (R61 step 3, R63). -/
def handDisplay (e : Entry) (v : ValueRec) (s : State) : State :=
  handPatterns (e.displayLamps.zip v.handed) s

/-- A value record with its display patterns decided from its other items. -/
def ValueRec.withPatterns (v : ValueRec) (e : Entry) : ValueRec :=
  { v with handed := displayPatterns e v.kind v.last v.stale }

def setValue (n : Nat) (v : ValueRec) (s : State) : State :=
  s.setEvaluator { s.evaluator with values := s.evaluator.values.put n v }

/-! ## The evaluation of a value for one point (R61) -/

/-- Step 1 of R61: a stale point becomes fresh, with its event and its report (R80). -/
def freshen (n : Nat) (e : Entry) (v : ValueRec) (s : State) : State :=
  if v.stale then freshReport e.group (record .fresh .part n 0 s) else s

/-- The value record after a later value (R61): age 0 and fresh, judged, displayed, the raw value held. -/
def laterRecord (e : Entry) (v : ValueRec) (r : Nat) : ValueRec :=
  let j := judgeLater e v r
  ValueRec.withPatterns
    { v with last := r, kind := j.1, condition := j.2, age := 0, stale := false } e

/-- A later value is judged for a point that has a value record; any other point is not among the item's
points (R45, R61). -/
def judgeValue (w : Word) (n : Nat) (s : State) : State :=
  match s.evaluator.values.look n, s.entryOf n with
  | some v, some e =>
    let r := e.field w
    let v' := laterRecord e v r
    let s := setValue n v' (freshen n e v s)
    takeReport n (laterReport e v r v'.condition) (handDisplay e v' s)
  | _, _ => s

/-- The value record of a first value (R82). -/
def firstRecord (e : Entry) (r : Nat) : ValueRec :=
  let j := judgeFirst e r
  ValueRec.withPatterns
    { last := r, kind := j.1, condition := j.2, age := 0, stale := false, handed := [] } e

/-! ## The board second at one point (R77, R78, R75, R81) -/

/-- The board second brings the age up to the timeout (R77, R78). -/
def ValueRec.staling (v : ValueRec) (e : Entry) : Bool :=
  decide (0 < e.timeout) && !v.stale && decide (e.timeout ≤ v.age + 1)

/-- The board second takes the travel timer from 1 to 0 (R75). -/
def ValueRec.expiring (v : ValueRec) : Bool :=
  match v.kind with
  | .valve _ (some t) _ => decide (t ≤ 1)
  | .valve _ none _ | .discrete | .analogue _ _ _ => false

/-- The age is counted (R77). -/
def ValueRec.countAge (v : ValueRec) (e : Entry) : ValueRec :=
  if 0 < e.timeout ∧ v.stale = false then { v with age := min 255 (v.age + 1) } else v

/-- The travel timer is counted and, at 0, expires: overrun, abnormal with OVERRUN (R74, R75). -/
def ValueRec.countTimer (v : ValueRec) : ValueRec :=
  match v.kind with
  | .valve pos (some t) overrun =>
    if t ≤ 1 then { v with kind := .valve pos none true, condition := .abnormal .overrun }
    else { v with kind := .valve pos (some (t - 1)) overrun }
  | .valve _ none _ | .discrete | .analogue _ _ _ => v

/-- The point becomes stale: flag, event, report, stale patterns (R78, R79). -/
def becomeStale (n : Nat) (e : Entry) (v : ValueRec) (s : State) : State :=
  let v' := ValueRec.withPatterns { v with stale := true } e
  handDisplay e v' (staleReport e.group (record .stale .part n 0 (setValue n v' s)))

/-- The age and the staleness at a board second (R77, R78). -/
def ageAt (n : Nat) (e : Entry) (v : ValueRec) (s : State) : State :=
  if v.staling e then becomeStale n e (v.countAge e) s else setValue n (v.countAge e) s

/-- The travel timer and its expiry at a board second (R74, R75). -/
def timerAt (n : Nat) (s : State) : State :=
  match s.evaluator.values.look n with
  | some v =>
    let s := setValue n v.countTimer s
    if v.expiring then takeReport n (.onset .overrun) s else s
  | none => s

/-- The board second is no longer due at the point. -/
def dropDue (n : Nat) (s : State) : State :=
  s.setEvaluator { s.evaluator with
    secondDue := s.evaluator.secondDue.filter (fun m => m != n) }

/-- The board second's one step at a point: the age and staleness, then the travel timer and its expiry (R81). -/
def secondAt (n : Nat) (s : State) : State :=
  match s.evaluator.values.look n, s.entryOf n with
  | some v, some e => timerAt n (ageAt n e v (dropDue n s))
  | _, _ => dropDue n s

/-- The board second has more to do at the point than to count: it becomes stale or its timer expires. -/
def State.crossing (s : State) (n : Nat) : Bool :=
  match s.evaluator.values.look n, s.entryOf n with
  | some v, some e => v.staling e || v.expiring
  | _, _ => false

/-- A board second still due at the point, where it has no more to do than to count (log 11). -/
def finishSecond (n : Nat) (s : State) : State :=
  if s.evaluator.secondDue.contains n && !s.crossing n then secondAt n s else s

/-- The evaluation of a later value for one point (R61). A board second still due at the point is then
taken after the value (R81): at once, unless it still brings the point to an end that has a command. -/
def evaluateLater (w : Word) (n : Nat) (s : State) : State := finishSecond n (judgeValue w n s)

/-- The board second is handed to the Evaluator and the Annunciator (R110). What an earlier board second
has still to do is done first. Where only counting is to be done it is done here; a point that becomes
stale or overruns, and a shelf with an expiring record, are left due (log 11). -/
def handSecond (s : State) : State :=
  let s := overPoints secondAt s.evaluator.secondDue s
  let s := if s.ann.shelfDue then shelfSecond s else s
  let points := s.evaluator.values.map Prod.fst
  let due := points.filter s.crossing
  let s := overPoints secondAt (points.filter (fun n => !s.crossing n)) s
  let s := s.setEvaluator { s.evaluator with secondDue := due }
  if s.shelfExpiring then s.setAnn { s.ann with shelfDue := true } else shelfSecond s

/-! ## Taking source items (R10, R54, R59) -/

/-- The points of an address, in ascending number (R52, R59). -/
def State.pointsAt (s : State) (a : Addr) : List Nat :=
  (s.loader.watch.filter (fun p => p.1 == a.toNat)).map Prod.snd

/-- Some installing point has the address as its source (R54). -/
def State.installingAt (s : State) (a : Addr) : Bool :=
  (s.pointsAt a).any (fun n => (s.point n).installing)

/-- The source item at the front of the capture queue, where the Evaluator can take it (R10, R54). -/
def State.sourceItem (s : State) : Option CaptureItem :=
  match s.path.capture with
  | item :: _ =>
    if item.partialItem = false ∧ regionOffset s.path.base item.addr = none
        ∧ s.installingAt item.addr = false then some item
    else none
  | [] => none

/-- The front item leaves the capture queue (R7, R10). -/
def popCapture (s : State) : State := s.setPath { s.path with capture := s.path.capture.tail }

/-- The Evaluator takes the source item at the front, and the set of points is fixed (R59). -/
def takeSourceItem (s : State) : State :=
  match s.evaluator.item, s.sourceItem with
  | none, some item =>
    (popCapture s).setEvaluator { s.evaluator with
      item := some ⟨item.data, s.pointsAt item.addr⟩ }
  | _, _ => s

/-- The evaluation of the item in progress is carried for the next `k` of its points; after the last
one the Evaluator is free (R59). -/
def evaluateItem (k : Nat) (s : State) : State :=
  match s.evaluator.item with
  | none => s
  | some it =>
    let s := overPoints (evaluateLater it.data) (it.points.take k) s
    s.setEvaluator { s.evaluator with
      item := if it.points.drop k = [] then none else some ⟨it.data, it.points.drop k⟩ }

end Sys2Proof.Machine
end

