-- ==== Sys2Proof/Machine/PatternGen.lean ====
section
/-! DEFINITION. The Pattern Generator (06) and the frames of the Chain Controller (07): board modes, the lamp test, exchanges and lamp sensing, and the tick with all that it brings. -/

namespace Sys2Proof.Machine

/-! ## Board modes (R117 to R122) -/

/-- A change of mode with its MODE event: out of DARK a settle begins, into DARK a settle is abandoned
(R117, R118, R120, R121). -/
def changeMode (new : Mode) (detail : Nat) (origin : Origin) (s : State) : State :=
  let settling := match s.gen.mode, new with
    | _, .dark => false
    | .dark, .lit | .dark, .dim => true
    | .lit, .lit | .lit, .dim | .dim, .lit | .dim, .dim => s.gen.settling
  let settleCount := match s.gen.mode, new with
    | _, .dark => 0
    | .dark, .lit | .dark, .dim => 0
    | .lit, .lit | .lit, .dim | .dim, .lit | .dim, .dim => s.gen.settleCount
  record .mode origin new.code detail
    (s.setGen { s.gen with mode := new, settling := settling, settleCount := settleCount })

/-- A k8 request (R118): a request that changes nothing records no event. -/
def requestMode (new : Mode) (s : State) : State :=
  if s.gen.mode = new then s else changeMode new 2 .remote s

/-- A DIM request (R119), with the MODE detail and origin of its source (R117). -/
def requestDim (detail : Nat) (origin : Origin) (s : State) : State :=
  match s.gen.mode with
  | .lit => changeMode .dim detail origin s
  | .dim => changeMode .lit detail origin s
  | .dark => s

/-- A wake request: in DARK the mode becomes LIT with a settle begun, else it is disregarded (R121). -/
def wake (detail : Nat) (origin : Origin) (s : State) : State :=
  if s.gen.mode = .dark then changeMode .lit detail origin s else s

/-- A TEST request loads the lamp test timer (R116). -/
def requestTest (s : State) : State := s.setGen { s.gen with testTimer := 1000 }

/-! ## Chain states (R127, R135) -/

def setChain (c : ChainId) (x : Chain) (s : State) : State := s.setChains (s.chains.set c x)

/-- A card count handed over acts on the chain (R127); a count of 0 voids an exchange in flight (R130). -/
def Chain.withCount (x : Chain) (n : Nat) : Chain :=
  if n = 0 then
    { count := 0, state := .idle, bad := 0, prev := none,
      exchange := x.exchange.map (fun e => { e with void := true }) }
  else
    match x.state with
    | .idle => { x with count := n, state := .ok, bad := 0, prev := none }
    | .ok | .faulted => { x with count := n }

/-- The Loader hands a clamped card count to a chain (R25, R127); the board fault lamp follows (R114). -/
def handCount (c : ChainId) (n : Nat) (s : State) : State :=
  decideFaultLamp (setChain c ((s.chains.get c).withCount n) s)

/-! ## Frame slots (R115, R130) -/

/-- Whether an output is on in the frames of this frame slot (R115). -/
def State.outputOn (s : State) (lamp : Nat) : Bool :=
  s.testRunning || (s.patternOf lamp).litIn s.gen.phase

/-- The lamp bits of a chain's frame, card 0 first (R115, R130). -/
def State.chainBits (s : State) (c : ChainId) (n : Nat) : List Bool :=
  (List.range (64 * n)).map (fun i => s.outputOn (chainIndex c * 1024 + i))

/-- The dim value of the frames: set in DIM, clear in LIT and during a lamp test (R115). -/
def State.frameDim (s : State) : Bool := s.gen.mode == .dim && !s.testRunning

/-- The sections of an outbound frame: 8 lamp bytes and the control byte of each card (R130, 10.7). -/
def outboundSections (n : Nat) (bits : List Bool) (dim : Bool) : List Byte :=
  (List.range n).flatMap (fun k =>
    (List.range 8).map (fun b => byteOfBits ((bits.drop (64 * k + 8 * b)).take 8))
      ++ [if dim then 1 else 0])

/-- The exchange a chain begins, its content fixed now (R115, R130), with the record it will be judged against (R131). -/
def State.newExchange (s : State) (c : ChainId) (x : Chain) : Exchange where
  sent := ⟨x.count, s.chainBits c x.count⟩
  dim := s.frameDim
  frame := closeFrame (outboundSections x.count (s.chainBits c x.count) s.frameDim)
  record := x.prev
  void := false

/-- A chain that is not IDLE begins one exchange (R130). One still in flight stays (log 9). -/
def beginExchange (s : State) (c : ChainId) (x : Chain) : Chain :=
  if x.state = .idle ∨ x.exchange.isSome then x
  else { x with exchange := some (s.newExchange c x) }

/-- A frame slot: frame content is given unless the board is DARK or settling (R115). -/
def giveFrames (s : State) : State :=
  if s.gen.mode = .dark ∨ s.gen.settling then s
  else
    s.setChains { s.chains with
      a := beginExchange s .a s.chains.a
      b := beginExchange s .b s.chains.b
      c := beginExchange s .c s.chains.c
      d := beginExchange s .d s.chains.d }

/-! ## The lamp cards (R128, R129) -/

/-- The frame as it stands at card k: damage before a card reaches every card beyond it (R128). -/
def frameAtCard (arrivals : List (Nat × List Byte)) (sent : List Byte) (k : Nat) : List Byte :=
  arrivals.foldl (fun f e => if e.1 ≤ k then e.2 else f) sent

/-- The 64 outputs a section gives (10.7). -/
def sectionOutputs (frame : List Byte) (k : Nat) : BitVec 64 :=
  byteAt frame (9 * k + 7) ++ byteAt frame (9 * k + 6) ++ byteAt frame (9 * k + 5)
    ++ byteAt frame (9 * k + 4) ++ byteAt frame (9 * k + 3) ++ byteAt frame (9 * k + 2)
    ++ byteAt frame (9 * k + 1) ++ byteAt frame (9 * k)

/-- A card judges a frame of n sections at the latch strobe (R128). A card at or beyond the count keeps
its outputs and dim state; its status is that of the frame's CRC (log 12). -/
def Card.takeFrame (card : Card) (n k : Nat) (frame : List Byte) : Card :=
  if frameGood n frame then
    if k < n then ⟨sectionOutputs frame k, (sectionTail frame k).getLsbD 0, false⟩
    else { card with rejected := false }
  else { card with rejected := true }

/-- The latch strobe at the 16 card places of a chain (R128). -/
def strobe (c : ChainId) (n : Nat) (arrivals : List (Nat × List Byte)) (sent : List Byte)
    (cards : Table Card) : Table Card :=
  (List.range 16).foldl (fun t k =>
    t.assign Card.off (cardPlace c k)
      ((t.val Card.off (cardPlace c k)).takeFrame n k (frameOfLength n (frameAtCard arrivals sent k))))
    cards

/-- The return frame the cards send: a sense bit is 1 where the output is on and the lamp draws no
current, and the status byte reports a rejected frame (R129, 10.7). -/
def cardsReturn (s : State) (c : ChainId) (n : Nat) (noCurrent : List Nat) : List Byte :=
  closeFrame ((List.range n).flatMap (fun k =>
    (List.range 8).map (fun b =>
        byteOfBits ((List.range 8).map (fun j =>
          (s.card c k).outputs.getLsbD (8 * b + j) && noCurrent.contains (lampAt c k (8 * b + j)))))
      ++ [if (s.card c k).rejected then 1 else 0]))

/-! ## Judging a return frame (R132 to R137) -/

/-- A change of a lamp's fault flag: the lamp fault count, handed to the Event Unit at each change, the image
word, the board fault lamp and an event (R114, R137, R139, R171). -/
def flagMoved (kind : EventKind) (lamp count : Nat) (s : State) : State :=
  record kind .part lamp 0 (decideFaultLamp (touchWord (lamp / 4)
    (syncStatus (s.setChains { s.chains with faultCount := count }))))

/-- A lamp's fail count is set, and with it its fault flag (R137). -/
def setFail (lamp count : Nat) (s : State) : State :=
  let was := s.chains.faulty lamp
  let s := s.setChains { s.chains with fails := s.chains.fails.assign 0 lamp count }
  match was, count == 2 with
  | false, true => flagMoved .lampFault lamp (s.chains.faultCount + 1) s
  | true, false => flagMoved .lampRestored lamp (s.chains.faultCount - 1) s
  | true, true | false, false => s

/-- The fail count after a judged frame (R137). -/
def nextFail (count : Nat) (noCurrent : Bool) : Nat :=
  if noCurrent then min 2 (count + 1) else 0

/-- A judged lamp (R137). -/
def judgeLamp (lamp : Nat) (noCurrent : Bool) (s : State) : State :=
  setFail lamp (nextFail (s.chains.fails.val 0 lamp) noCurrent) s

/-- The sense data of a good frame judged against the record, card by card and lamp by lamp, where the
card accepted its last frame and the record commanded the lamp on (R136). -/
def judgeSense (c : ChainId) (n : Nat) (prev : SentFrame) (frame : List Byte) (s : State) : State :=
  let judged := (List.range (64 * n)).filter (fun i =>
    !(sectionTail frame (i / 64)).getLsbD 0 && prev.bits.getD i false)
  judged.foldl (fun s i =>
    judgeLamp (chainIndex c * 1024 + i) (sectionBit frame (i / 64) (i % 64)) s) s

/-- A bad return frame (R133). -/
def badReturn (c : ChainId) (s : State) : State :=
  let x := s.chains.get c
  match x.state with
  | .ok =>
    if x.bad < 2 then setChain c { x with bad := x.bad + 1 } s
    else
      record .chainFault .part (chainIndex c) 0
        (decideFaultLamp (setChain c { x with bad := 3, state := .faulted } s))
  | .faulted | .idle => s

/-- A good return frame: the chain is OK with bad count 0 (R134). -/
def goodReturn (c : ChainId) (s : State) : State :=
  let x := s.chains.get c
  match x.state with
  | .faulted =>
    record .chainRestored .part (chainIndex c) 0
      (decideFaultLamp (setChain c { x with bad := 0, state := .ok } s))
  | .ok | .idle => setChain c { x with bad := 0 } s

/-- A return frame judged (R132 to R136): the sense data only where the record stood when the exchange
began and has the same card count (R131). -/
def judgeReturn (c : ChainId) (x : Exchange) (frame : List Byte) (s : State) : State :=
  if frameGood x.sent.count frame then
    let s := goodReturn c s
    match x.record with
    | some prev =>
      if prev.count = x.sent.count then judgeSense c x.sent.count prev frame s else s
    | none => s
  else badReturn c s

/-- The exchange is over and its sent bits are the chain's previous frame record (R130, R131). -/
def closeExchange (c : ChainId) (prev : Option SentFrame) (s : State) : State :=
  setChain c { s.chains.get c with exchange := none, prev := prev } s

/-- The end of an exchange (R130): the latch strobe at the cards, the return frame judged, the record
made. Where the chain was made IDLE meanwhile the return is discarded unjudged. -/
def endExchange (c : ChainId) (arrivals : List (Nat × List Byte)) (noCurrent : List Nat)
    (received : Option (List Byte)) (s : State) : State :=
  match (s.chains.get c).exchange with
  | none => s
  | some x =>
    let n := x.sent.count
    let frame := frameOfLength n (received.getD (cardsReturn s c n noCurrent))
    let s := s.setCards (strobe c n arrivals x.frame s.cards)
    if x.void then closeExchange c (s.chains.get c).prev s
    else closeExchange c (some x.sent) (judgeReturn c x frame s)

/-! ## The tick (R109) -/

/-- A phase boundary: phase tick count 0, the next phase, a waiting FLASH taken in (R111). -/
def passBoundary (s : State) : State :=
  s.setGen { s.gen with
    phaseTicks := 0
    phase := s.gen.phase + 1
    flash := s.gen.waitingFlash.getD s.gen.flash
    waitingFlash := none }

/-- One piece of a tick's work. -/
def runWork (w : TickWork) (s : State) : State :=
  match w with
  | .keyRelease =>
    s.setPanel { s.panel with held := false, pressCount := 0, releaseCount := 3 }
  | .phaseBoundary => passBoundary s
  | .settleEnd => s.setGen { s.gen with settling := false, settleCount := 0 }
  | .lampTestEnd => s.setGen { s.gen with testTimer := 0 }
  | .frameSlot => giveFrames s
  | .boardSecond => handSecond (s.setGen { s.gen with seconds := s.gen.seconds + 1 })

/-- Pieces of work in their order. -/
def runAll (l : List TickWork) (s : State) : State := l.foldl (fun s w => runWork w s) s

/-- The tick under way is carried to its end, its reports and requests included (R109: each tick is one
event, in its order). Every command that is not itself a piece of the tick starts from here (log 7). -/
def finishTick (s : State) : State :=
  if s.gen.tickWork = [] then s
  else settle (runAll s.gen.tickWork (s.setGen { s.gen with tickWork := [] }))

/-- The tick under way is carried through one of its pieces, the earlier ones first; a piece that is not
due does not occur. -/
def runThrough (w : TickWork) (s : State) : State :=
  if s.gen.tickWork.contains w then
    runAll (s.gen.tickWork.takeWhile (fun x => x != w) ++ [w])
      (s.setGen { s.gen with tickWork := (s.gen.tickWork.dropWhile (fun x => x != w)).drop 1 })
  else s

/-- The phase tick count reaches the phase length at this tick (R111). -/
def PatternGen.atBoundary (g : PatternGen) : Bool := decide (phaseLength g.flash ≤ g.phaseTicks + 1)

/-- The settle count reaches 256 at this tick (R122). -/
def PatternGen.atSettleEnd (g : PatternGen) : Bool := g.settling && decide (256 ≤ g.settleCount + 1)

/-- What the tick just counted has to do, in R109's order, the panel's release first (R143). -/
def PatternGen.workOf (g : PatternGen) (released : Bool) (number : Nat) : List TickWork :=
  (if released then [.keyRelease] else [])
    ++ (if g.atBoundary then [.phaseBoundary] else [])
    ++ (if g.atSettleEnd then [.settleEnd] else [])
    ++ (if g.testTimer = 1 then [.lampTestEnd] else [])
    ++ (if number % 2 = 0 then [.frameSlot] else [])
    ++ (if number % 100 = 0 then [.boardSecond] else [])

/-- The tick counted: every counter that does not reach its end at this tick moves, and the work of the
ends is due (R109, R111, R116, R122). -/
def PatternGen.tick (g : PatternGen) (released : Bool) : PatternGen :=
  { g with
    tickCount := g.tickCount + 1
    frameMarker := decide ((g.tickCount + 1) % 2 = 0)
    phaseTicks := if g.atBoundary then g.phaseTicks else g.phaseTicks + 1
    settleCount := if g.settling ∧ ¬ g.atSettleEnd then g.settleCount + 1 else g.settleCount
    testTimer := if g.testTimer ≤ 1 then g.testTimer else g.testTimer - 1
    tickWork := g.workOf released (g.tickCount + 1) }

/-- The third released scan in HELD (R143). -/
def Panel.releases (p : Panel) (down : List Key) : Bool :=
  p.held && down.isEmpty && decide (3 ≤ p.releaseCount + 1)

/-- One scan of the key matrix (R143, R144); the release itself is work of the tick. -/
def Panel.scan (p : Panel) (down : List Key) : Panel :=
  if p.held then
    if down.isEmpty then
      if p.releases down then p else { p with releaseCount := p.releaseCount + 1 }
    else { p with releaseCount := 0 }
  else if down.isEmpty then { p with pressCount := 0 }
  else if 3 ≤ p.pressCount + 1 then
    { p with pressCount := 3, held := true, releaseCount := 0,
             presses := p.presses ++ (highestKey down).toList }
  else { p with pressCount := p.pressCount + 1 }

/-- A tick (R109, R143, R158): the counters, the key scan, and the display sent. While a board reset is
asserted no tick is made. -/
def countTick (down : List Key) (s : State) : State :=
  if s.path.inReset then s
  else
    let panel := s.panel.scan down
    (s.setGen (s.gen.tick (s.panel.releases down))).setPanel { panel with shown := panel.display }

/-- One whole command: the tick under way is finished first, and reports and requests follow last. -/
def whole (f : State → State) (s : State) : Result := .next (settle (f (finishTick s)))

/-! ## The commands of this block -/

/-- TICK (R109, R143, R158). -/
def execTick (rows0 rows1 rows2 : Byte) (s : State) : Result :=
  whole (countTick (keysDown rows0 rows1 rows2)) s

/-- PHASE_BOUNDARY (R111). -/
def execPhaseBoundary (s : State) : Result := .next (settle (runThrough .phaseBoundary s))

/-- SETTLE_END (R122). -/
def execSettleEnd (s : State) : Result := .next (settle (runThrough .settleEnd s))

/-- LAMP_TEST_END (R116). -/
def execLampTestEnd (s : State) : Result := .next (settle (runThrough .lampTestEnd s))

/-- FRAME_SLOT (R115, R130). -/
def execFrameSlot (s : State) : Result := .next (settle (runThrough .frameSlot s))

/-- BOARD_SECOND (R110). -/
def execBoardSecond (s : State) : Result := .next (settle (runThrough .boardSecond s))

/-- KEY_RELEASE (R143). -/
def execKeyRelease (s : State) : Result := .next (settle (runThrough .keyRelease s))

/-- WAKE_BY_ALARM: the Pattern Generator takes one wake request of the Annunciator (R97, R121). DESIGN
CHOICE (log 13): a request handed before a deconfigure and not yet taken is still taken after it. -/
def takeWakeRequest (s : State) : State :=
  if s.gen.wakeRequests = 0 then s
  else wake 3 .part (s.setGen { s.gen with wakeRequests := s.gen.wakeRequests - 1 })

def execWakeByAlarm (s : State) : Result := whole takeWakeRequest s

/-- EXCHANGE_END (R130). -/
def execExchangeEnd (c : ChainId) (arrivals : List (Nat × List Byte)) (noCurrent : List Nat)
    (received : Option (List Byte)) (s : State) : Result :=
  whole (endExchange c arrivals noCurrent received) s

/-- SHELF_EXPIRY: the board second's step at the shelf (R104). -/
def execShelfExpiry (s : State) : Result :=
  whole (fun s => if s.ann.shelfDue then shelfSecond s else s) s

/-- BECOMES_STALE: the board second's step at a point that it makes stale (R78, R81). -/
def State.staleDue (s : State) (n : Nat) : Bool :=
  s.evaluator.secondDue.contains n &&
    (match s.evaluator.values.look n, s.entryOf n with
      | some v, some e => v.staling e
      | _, _ => false)

def execBecomesStale (n : Nat) (s : State) : Result :=
  whole (fun s => if s.staleDue n then secondAt n s else s) s

/-- TRAVEL_TIMER_EXPIRY: the board second's step at a point whose travel timer it expires (R75, R81). -/
def State.expiryDue (s : State) (n : Nat) : Bool :=
  s.evaluator.secondDue.contains n &&
    (match s.evaluator.values.look n with
      | some v => v.expiring
      | none => false)

def execTravelTimerExpiry (n : Nat) (s : State) : Result :=
  whole (fun s => if s.expiryDue n then secondAt n s else s) s

/-- SOURCE_ITEM_EVALUATION (R59, R61): the front source item is taken where the Evaluator is free, and
its evaluation carried for the next `points` points of its set. -/
def execSourceItemEvaluation (points : Nat) (s : State) : Result :=
  whole (fun s => evaluateItem points (takeSourceItem s)) s

end Sys2Proof.Machine
end

