-- ==== Sys2Proof/Machine/Loader.lean ====
section
/-! DEFINITION. The Configuration Loader (02, 03): sweeps, settings passes, group lamps, point reloads, validation, install, removal, deconfiguring and the region dispatcher. -/

namespace Sys2Proof.Machine

/-! ## Removal (R44) -/

/-- The Evaluator's part of a removal (R44, R83). -/
def evaluatorRemove (n g : Nat) (s : State) : State :=
  match s.evaluator.values.look n with
  | none => s
  | some v =>
    let s := s.setEvaluator { s.evaluator with
      values := s.evaluator.values.del n
      secondDue := s.evaluator.secondDue.filter (fun m => m != n) }
    if v.stale then freshReport g s else s

/-- A list of lamps is released (R44, R50). -/
def releaseLamps (lamps : List Nat) (s : State) : State :=
  lamps.foldl (fun s l => releaseLamp l s) s

/-- Every pair of a point leaves the watch index (R52). -/
def dropPairs (n : Nat) (s : State) : State :=
  s.setLoader { s.loader with watch := s.loader.watch.filter (fun p => p.2 != n) }

/-- An INSTALLED point taken off the board without events, every owner dropping its part (R44). -/
def removePoint (n : Nat) (s : State) : State :=
  match s.entryOf n with
  | none => s
  | some e =>
    let s := evaluatorRemove n e.group (annRemove n s)
    let s := releaseLamps e.lamps (dropPairs n s)
    let s := setPoint n PointRec.absent s
    s.setLoader { s.loader with installed := s.loader.installed - 1 }

/-! ## Validation (R46 to R49) -/

/-- Checks 1 to 5, on the entry's words alone (R47); the reason code of the first that fails. -/
def wordCheck (base : Addr) (e : Entry) : Option Nat :=
  if e.kind = none then some 1
  else if 16 < e.shift + e.width ∨ (e.kind = some .discrete ∧ e.width ≠ 1)
      ∨ (e.kind = some .valve ∧ e.width ≠ 2) then some 2
  else if e.kind = some .discrete ∧ e.mode = none then some 3
  else if e.kind = some .analogue ∧ e.full ≤ e.zero then some 4
  else if (regionOffset base e.source).isSome then some 5
  else none

/-- Checks 6 to 8, on the point's lamps (R48). -/
def lampCheck (s : State) (e : Entry) : Option Nat :=
  if ¬ e.lamps.all s.chains.present then some 6
  else if e.alarmLamp.any (fun l => e.displayLamps.contains l) then some 7
  else if e.lamps.any (fun l => (s.loader.claims.look l).isSome) then some 8
  else none

/-- The reason a validation fails with, or none (R47, R48). -/
def validate (s : State) (e : Entry) : Option Nat :=
  match wordCheck s.path.base e with
  | some reason => some reason
  | none => lampCheck s e

/-- The point's lamps are claimed (R48, R53). -/
def claimPoint (n : Nat) (e : Entry) (s : State) : State :=
  let s := e.displayLamps.foldl (fun s l => claimLamp (.display n) l s) s
  match e.alarmLamp with
  | some l => claimLamp (.alarm n) l s
  | none => s

/-- The rejected count follows a record that is no longer REJECTED (R57). -/
def leaveRejected (before : PointStatus) (s : State) : State :=
  match before with
  | .rejected _ => s.setLoader { s.loader with rejected := s.loader.rejected - 1 }
  | .absent | .installed => s

/-- A validated point goes on into install (R53): lamps claimed, pair joined, install flag set, the words
held, and the source read next. -/
def beginInstall (n : Nat) (e : Entry) (before : PointStatus) (s : State) : State :=
  let s := claimPoint n e (leaveRejected before s)
  let s := s.setLoader { s.loader with watch := insertPair (e.source.toNat, n) s.loader.watch }
  let s := setPoint n ⟨.absent, some e, true⟩ s
  s.setLoader { s.loader with reload := some ⟨n, [], .source⟩ }

/-- Nothing is left to load in SWEEPING: the state becomes RUNNING with SWEEP_DONE (R24). -/
def sweepCheck (s : State) : State :=
  if s.loader.cfg = .sweeping ∧ s.loader.pendingPoints = [] ∧ s.loader.pass = none
      ∧ s.loader.reload = none then
    record .sweepDone .part s.loader.installed 0
      (s.setLoader { s.loader with cfg := .running })
  else s

/-- The reload ends (03, 3.3). -/
def endReload (s : State) : State :=
  sweepCheck (s.setLoader { s.loader with reload := none })

/-- A failed validation (R49): REJECTED with the words held; no event where the entry was identical and
the reason is the one already held. -/
def rejectPoint (n : Nat) (e : Entry) (reason : Nat) (before : PointStatus) (identical : Bool)
    (s : State) : State :=
  let s := setPoint n ⟨.rejected reason, some e, false⟩ s
  let s := match before with
    | .rejected _ => s
    | .absent | .installed => s.setLoader { s.loader with rejected := s.loader.rejected + 1 }
  endReload
    (if identical ∧ before = .rejected reason then s
     else record .entryRejected .part n reason s)

/-- Validation of the words read, with its claims, in the judgement's step (R47 to R49, R53). -/
def validatePoint (n : Nat) (e : Entry) (before : PointStatus) (identical : Bool) (s : State) : State :=
  match validate s e with
  | some reason => rejectPoint n e reason before identical s
  | none => beginInstall n e before s

/-- The judgement of an entry read with its enable bit clear (R43). -/
def judgeDisabled (n : Nat) (s : State) : State :=
  match (s.point n).status with
  | .absent => endReload s
  | .installed => endReload (removePoint n s)
  | .rejected reason => endReload (leaveRejected (.rejected reason) (setPoint n PointRec.absent s))

/-- The judgement of an enabled entry (R43). -/
def judgeEnabled (n : Nat) (e : Entry) (identical : Bool) (s : State) : State :=
  match (s.point n).status with
  | .absent => validatePoint n e .absent false s
  | .installed =>
    if identical then endReload s else validatePoint n e .absent false (removePoint n s)
  | .rejected reason => validatePoint n e (.rejected reason) identical s

/-- The judgement of a point reload (R43): the revalidation mark is cleared, whatever the row. A reload
whose words make no entry does not arise. -/
def judge (n : Nat) (words : List Word) (s : State) : State :=
  let identical := match entryOf words, (s.point n).held with
    | some e, some h => decide (e = h) && !s.loader.marked.contains n
    | _, _ => false
  let s := s.setLoader { s.loader with marked := s.loader.marked.filter (fun m => m != n) }
  match words with
  | [] => s
  | w15 :: _ =>
    if enabledWord w15 then
      match entryOf words with
      | some e => judgeEnabled n e identical s
      | none => s
    else judgeDisabled n s

/-- A word of the entry has been read (R41): a clear enable bit or the twelfth word leads to the judgement. -/
def takeEntryWord (w : Word) (s : State) : State :=
  match s.loader.reload with
  | none => s
  | some r =>
    let words := r.words ++ [w]
    let s := s.setLoader { s.loader with reload := some { r with words := words } }
    if (words.length = 1 ∧ ¬ enabledWord w) ∨ words.length = 12 then judge r.point words s else s

/-- The source word that the reload waits for has been read: it goes to the Evaluator as the first value
(R54). -/
def takeSourceWord (w : Word) (s : State) : State :=
  match s.loader.reload with
  | none => s
  | some r =>
    if r.stage = .source then
      (s.setLoader { s.loader with reload := some { r with stage := .value } }).setEvaluator
        { s.evaluator with firstValue := some (r.point, w) }
    else s

/-- The first value is evaluated (R55, R82): INSTALLED, joined to its group in QUIET, the value record
built and displayed, and an abnormal first value reported; the reload ends. -/
def evaluateFirst (n : Nat) (w : Word) (s : State) : State :=
  match s.entryOf n with
  | none => s
  | some e =>
    let v := firstRecord e (e.field w)
    let s := setPoint n ⟨.installed, some e, false⟩ s
    let s := s.setLoader { s.loader with installed := s.loader.installed + 1 }
    let s := handDisplay e v (setValue n v (annJoin n e s))
    let s := takeReport n (reportOf .normal v.condition) s
    endReload (s.setEvaluator { s.evaluator with firstValue := none })

/-- The Evaluator judges a first value when it has finished the item it is working on (R54). -/
def takeFirstValue (s : State) : State :=
  match s.evaluator.firstValue, s.evaluator.item with
  | some (n, w), none => evaluateFirst n w s
  | _, _ => s

/-! ## Lamp settings (R28, R29) -/

/-- Where a lamp setting is held: the board fault lamp or a lamp of a group. -/
inductive SettingPlace where
  | boardFault
  | summary (g : Nat)
  | stale (g : Nat)
  deriving DecidableEq, Repr

def SettingPlace.owner : SettingPlace → Owner
  | .boardFault => .boardFault
  | .summary g => .summary g
  | .stale g => .stale g

def State.settingAt (s : State) : SettingPlace → LampSetting
  | .boardFault => s.loader.faultLamp
  | .summary g => (s.settings g).summary
  | .stale g => (s.settings g).staleLamp

def holdSetting (p : SettingPlace) (x : LampSetting) (s : State) : State :=
  match p with
  | .boardFault => s.setLoader { s.loader with faultLamp := x }
  | .summary g => setSettings g { s.settings g with summary := x } s
  | .stale g => setSettings g { s.settings g with staleLamp := x } s

/-- Subject and detail of the GROUP_LAMP_REFUSED event (R28, R29). -/
def SettingPlace.refusal : SettingPlace → Nat × Nat
  | .boardFault => (0xFFFF, 3)
  | .summary g => (g, 1)
  | .stale g => (g, 2)

/-- The owner of a lamp just claimed hands its pattern (R96, R113, R114). -/
def handClaimed (p : SettingPlace) (s : State) : State :=
  match p with
  | .boardFault => decideFaultLamp s
  | .summary g => handSummary g s
  | .stale g => handStale g s

/-- The unchanged and held case of R28. -/
def State.settingStands (s : State) (held : LampSetting) (new : Option Nat) : Bool :=
  match new with
  | some lamp => decide (held.lamp = some lamp) && held.granted && s.chains.present lamp
  | none => false

/-- A new lamp setting judged against the claim table (R28 steps 2 to 5). -/
def takeSetting (p : SettingPlace) (new : Option Nat) (s : State) : State :=
  match new with
  | none => holdSetting p LampSetting.none s
  | some lamp =>
    if ¬ s.chains.present lamp ∨ (s.loader.claims.look lamp).isSome then
      record .groupLampRefused .part p.refusal.1 p.refusal.2 (holdSetting p ⟨some lamp, false⟩ s)
    else handClaimed p (claimLamp p.owner lamp (holdSetting p ⟨some lamp, true⟩ s))

/-- A lamp setting judged (R28, R29). -/
def judgeSetting (p : SettingPlace) (new : Option Nat) (s : State) : State :=
  let held := s.settingAt p
  if s.settingStands held new then s
  else
    let s := match held.claimed with
      | some lamp => releaseLamp lamp (holdSetting p { held with granted := false } s)
      | none => s
    takeSetting p new s

/-- g0 of a group: horn enable and wake enable (R29); the horn is decided with the new setting. -/
def takeEnables (g : Nat) (w : Word) (s : State) : State :=
  decideHorn (setSettings g { s.settings g with horn := w.getLsbD 0, wake := w.getLsbD 1 } s)

/-- g1 or g2 of a group (R29). -/
def takeGroupLamp (g word : Nat) (w : Word) (s : State) : State :=
  judgeSetting (if word = 1 then .summary g else .stale g) (lampField w) s

/-! ## Sweeps and full reloads (R21 to R33) -/

/-- Every point not on the pending list is appended, in ascending number (R22, R32, R40). -/
def appendAll (l : List Nat) : List Nat :=
  l ++ (List.range Config.pointCount).filter (fun n => !l.contains n)

/-- A sweep begins (R21), with the MODE report owed since the board reset (R122). -/
def beginSweep (s : State) : State :=
  let s := s.setLoader { s.loader with
    cfg := .sweeping, pass := some ⟨true, .k1, true, false⟩ }
  let s := s.setEvents { s.events with
    owed19 := true, owed20 := true, owed21 := true, owed22 := true }
  let s := s.setGen { s.gen with dirty := List.range Config.imageWords }
  if s.gen.modeOwed then
    record .mode .part s.gen.mode.code 5 (s.setGen { s.gen with modeOwed := false })
  else s

/-- The read after one of a settings pass, in the order of R22 or R32; none after the last. `ring` is
whether k16 to k18 are read after k5. -/
def ConfigRead.after (ring : Bool) : ConfigRead → Option ConfigRead
  | .k1 => some .k2
  | .k2 => some .k3
  | .k3 => some .k4
  | .k4 => some .k5
  | .k5 => if ring then some .k16 else some (.group 0 0)
  | .k16 => some .k17
  | .k17 => some .k18
  | .k18 => some (.group 0 0)
  | .group g w =>
    if w < 2 then some (.group g (w + 1))
    else if g + 1 < Config.groupCount then some (.group (g + 1) 0)
    else none
  | .k0 | .entry _ _ | .source _ _ => none

/-- The last step of a settings pass: a sweep's appends the points (R22, step 7). -/
def endPass (p : Pass) (s : State) : State :=
  sweepCheck (s.setLoader { s.loader with
    pass := none
    pendingPoints := if p.sweep then appendAll s.loader.pendingPoints else s.loader.pendingPoints })

/-- A read of the pass has been acted on: the pass goes on, restarts at k2, or ends (R22, R32). -/
def advancePass (done : ConfigRead) (s : State) : State :=
  match s.loader.pass with
  | none => s
  | some p =>
    let p := if done = .k18 then { p with ring := false } else p
    if p.restart then
      s.setLoader { s.loader with pass := some { p with next := .k2, restart := false } }
    else
      match done.after p.ring with
      | some r => s.setLoader { s.loader with pass := some { p with next := r } }
      | none => endPass p s

/-- Two card counts of a settings pass (R25); a change found by a full reload marks every point (R33). -/
def takeCounts (first second : ChainId) (w : Word) (s : State) : State :=
  let m := cardCountField w false
  let n := cardCountField w true
  let changed := decide ((s.chains.get first).count ≠ m) || decide ((s.chains.get second).count ≠ n)
  let full := match s.loader.pass with
    | some p => !p.sweep
    | none => false
  let s := handCount second n (handCount first m s)
  if changed && full then
    s.setLoader { s.loader with marked := List.range Config.pointCount }
  else s

/-- k4: FLASH waits for the next phase boundary, the shelve minutes go to the Annunciator (R26, R111). -/
def takeFlashShelve (w : Word) (s : State) : State :=
  (s.setGen { s.gen with waitingFlash := some (flashField w) }).setAnn
    { s.ann with shelveMinutes := shelveField w }

/-- k16, k17, k18 of a sweep (R27, R165, R166). -/
def takeRingValue (r : ConfigRead) (w : Word) (s : State) : State :=
  match r with
  | .k16 => s.setEvents { s.events with head := w.extractLsb' 0 8 }
  | .k17 => s.setEvents { s.events with tail := w.extractLsb' 0 8 }
  | .k18 =>
    let lost := min 65535 (w.toNat + s.events.sweepDiscards)
    s.setEvents { s.events with
      lost := lost, sweepDiscards := 0, ringHeld := true
      k18Owed := s.events.k18Owed || decide (lost ≠ w.toNat) }
  | .k0 | .k1 | .k2 | .k3 | .k4 | .k5 | .group _ _ | .entry _ _ | .source _ _ => s

/-- A pass read is waiting or under way (R32). -/
def State.passReadOut (s : State) : Bool :=
  (match s.path.requests.config with
    | some r => r.ofPass
    | none => false)
  || s.busyWith (fun w => match w with
    | .config r => r.ofPass
    | .reread | .ring _ | .status _ | .image _ => false)

/-- The settings pass after a generation change: due anew, or restarted at k2 once its current word
access has completed (R32). -/
def passRestarted (out : Bool) : Option Pass → Pass
  | none => ⟨false, .k2, false, false⟩
  | some p => if out then { p with restart := true } else { p with next := .k2 }

/-- A full reload (R32). -/
def fullReload (s : State) : State :=
  s.setLoader { s.loader with
    pass := some (passRestarted s.passReadOut s.loader.pass)
    pendingPoints := appendAll s.loader.pendingPoints
    cfg := .sweeping }

/-- A captured k1 write in SWEEPING or RUNNING (R31). -/
def takeGeneration (w : Word) (s : State) : State :=
  match s.loader.generation with
  | none => s
  | some g =>
    if w = g then s
    else fullReload (s.setLoader { s.loader with generation := some w })

/-- The board is deconfigured (R35, R36). DEDUCED (log 17): the completion of every access under way but the
capture re-read is disregarded. DESIGN CHOICE (log 13): a wake request not yet taken stands. -/
def deconfigure (s : State) : State :=
  { s with
    loader := .afterReset
    evaluator := { s.evaluator with values := [], firstValue := none, secondDue := [] }
    ann := { Annunciator.afterReset with shelveMinutes := s.ann.shelveMinutes }
    gen := { s.gen with patterns := [], dirty := [], servedChanged := false }
    events := { s.events with
      queue := [], ringHeld := false, sweepDiscards := 0, inProgress := none, k18Owed := false
      owed19 := false, owed20 := false, owed21 := false, owed22 := false }
    path := { s.path with
      requests := { Requests.none with reread := s.path.requests.reread }
      partAccess := s.path.partAccess.map (fun a =>
        { a with disregard := a.disregard || !a.work.isReread }) } }

/-- A captured k0 write (R34). -/
def takeSignature (w : Word) (s : State) : State :=
  if s.configured then if w = signature then s else deconfigure s
  else if w = signature then beginSweep s else s

/-- A captured w15 write (R38, R40). -/
def takeControlWord (n : Nat) (s : State) : State :=
  if s.loader.pendingPoints.contains n then s
  else s.setLoader { s.loader with pendingPoints := s.loader.pendingPoints ++ [n] }

/-! ## The region dispatcher (R10, R37) -/

/-- The region item at the front of the capture queue, ready to be handed on: its word and its data. -/
def State.regionItem (s : State) : Option (RegionWord × Word) :=
  match s.path.capture with
  | item :: _ =>
    if item.partialItem then none
    else ((regionOffset s.path.base item.addr).bind regionWordAt).map (fun r => (r, item.data))
  | [] => none

/-- The front region item is handed to the owner that `sel` names; in UNCONFIGURED every item but a k0
item is discarded (R37). -/
def handOn {α : Type} (sel : RegionWord → Word → Option α) (act : α → Word → State → State)
    (s : State) : State :=
  match s.regionItem with
  | none => s
  | some (r, w) =>
    match sel r w with
    | none => s
    | some x =>
      if s.configured ∨ r = .k0 then act x w (popCapture s) else popCapture s

/-- The front item is the one header word. -/
def onWord (want : RegionWord) (r : RegionWord) (_ : Word) : Option Unit :=
  if r = want then some () else none

/-- The front item is w15 of an entry. -/
def onControl : RegionWord → Word → Option Nat
  | .control n, _ => some n
  | _, _ => none

/-- The front item is word `i` of a group record. -/
def onGroup (i : Nat) : RegionWord → Word → Option Nat
  | .group g w, _ => if w = i then some g else none
  | _, _ => none

/-! ## The Loader's commands -/

/-- SIGNATURE_WRITE (R34). -/
def execSignatureWrite (s : State) : Result :=
  whole (handOn (onWord .k0) (fun _ w => takeSignature w)) s

/-- GENERATION_WRITE (R31). -/
def execGenerationWrite (s : State) : Result :=
  whole (handOn (onWord .k1) (fun _ w => takeGeneration w)) s

/-- MODE_REQUEST (R118). -/
def execModeRequest (s : State) : Result :=
  whole (handOn (onWord .k8) (fun _ w => requestMode (modeField w))) s

/-- PANEL_LOCK_WRITE (R142, R147). -/
def execPanelLockWrite (s : State) : Result :=
  whole (handOn (onWord .k9) (fun _ w s => s.setPanel { s.panel with lock := w.getLsbD 0 })) s

/-- CONTROL_WORD_WRITE (R38). -/
def execControlWordWrite (s : State) : Result :=
  whole (handOn onControl (fun n _ => takeControlWord n)) s

/-- GROUP_ENABLE_WRITE (R29). -/
def execGroupEnableWrite (s : State) : Result :=
  whole (handOn (onGroup 0) (fun g w => takeEnables g w)) s

/-- SUMMARY_LAMP_WRITE (R29). -/
def execSummaryLampWrite (s : State) : Result :=
  whole (handOn (onGroup 1) (fun g w => takeGroupLamp g 1 w)) s

/-- STALE_LAMP_WRITE (R29). -/
def execStaleLampWrite (s : State) : Result :=
  whole (handOn (onGroup 2) (fun g w => takeGroupLamp g 2 w)) s

/-- GROUP_ACK_REQUEST: the answer is discarded (R162). -/
def execGroupAckRequest (s : State) : Result :=
  whole (handOn (onGroup 3) (fun g _ s => (acknowledge (.group g) .groupRequest s).1)) s

/-- GROUP_CLEAR_REQUEST: the answer is discarded (R162). -/
def execGroupClearRequest (s : State) : Result :=
  whole (handOn (onGroup 4) (fun g _ s => (clear (.group g) .groupRequest s).1)) s

/-- FIRST_VALUE (R55, R82). -/
def execFirstValue (s : State) : Result := whole takeFirstValue s

end Sys2Proof.Machine
end

