-- ==== Sys2Proof/Machine/MemPath.lean ====
section
/-! DEFINITION. The Memory Path (01): front-end accesses and their holds, the watch decision, the RAM arbiter with the part's word accesses and their completions, and the resets. -/

namespace Sys2Proof.Machine

/-! ## The watch decision (R5, R6) -/

/-- A write to an address would be watched now; never while a board reset is asserted (R14). -/
def State.watched (s : State) (a : Addr) : Bool :=
  if s.path.inReset then false
  else
    match regionOffset s.path.base a with
    | some off =>
      match regionWordAt off with
      | some r => s.configured || r == .k0
      | none => false
    | none => s.loader.watch.any (fun p => p.1 == a.toNat)

/-- The capture queue has a free place (R7). -/
def State.captureRoom (s : State) : Bool := decide (s.path.capture.length < Config.captureDepth)

/-! ## Front-end accesses (R1 to R3, R8) -/

def setAccess (x : Option HeldAccess) (s : State) : State := s.setPath { s.path with access := x }

/-- A write reaches RAM (R1). -/
def storeWord (a : Addr) (w : Word) (lanes : BitVec 2) (s : State) : State :=
  s.setRam (s.ram.writeLanes a w lanes)

/-- A watched write joins the end of the capture queue (R7). -/
def capture (a : Addr) (w : Word) (lanes : BitVec 2) (s : State) : State :=
  s.setPath { s.path with capture := s.path.capture ++ [⟨a, w, lanes, lanes != bothLanes⟩] }

/-- A write comes to be taken (R1, R5, R7, R8): watched with a full queue it is held, else it is forwarded,
and captured where it is watched. -/
def takeWrite (a : Addr) (w : Word) (lanes : BitVec 2) (s : State) : State :=
  if s.watched a then
    if s.captureRoom then capture a w lanes (storeWord a w lanes (setAccess none s))
    else setAccess (some ⟨a, .write w lanes, .fullQueue⟩) s
  else storeWord a w lanes (setAccess none s)

/-- The image word that answers a read of an address: a lamp image word of the dirty set (R2). -/
def State.dirtyImage (s : State) (a : Addr) : Option Nat :=
  match (regionOffset s.path.base a).bind imageIndex with
  | some w => if s.gen.dirty.contains w then some w else none
  | none => none

/-- What a read of an address returns now (R2). -/
def State.readValue (s : State) (a : Addr) : Word :=
  match s.dirtyImage a with
  | some w => s.imageWord w
  | none => s.ram.readWord a

/-- A read is taken: HD[15:0] is driven, nothing of the part changes (R2). -/
def takeRead (a : Addr) (s : State) : State :=
  s.setPath { s.path with access := none, hostData := s.readValue a }

/-- An access is taken, against the state as it now stands (R2, R5). -/
def takeAccess (a : Addr) (k : AccessKind) (s : State) : State :=
  match k with
  | .write w lanes => takeWrite a w lanes s
  | .read => takeRead a s

/-- The access waits for no part word access: the port is idle, or an image read needs no port (R3). -/
def State.portFree (s : State) (a : Addr) : AccessKind → Bool
  | .write _ _ => s.path.partAccess.isNone
  | .read => s.path.partAccess.isNone || (s.dirtyImage a).isSome

/-- The front-end begins an access (R3). While HRST# is asserted the part begins none (R16). -/
def beginAccess (a : Addr) (k : AccessKind) (s : State) : State :=
  if s.path.hostReset then s
  else if s.portFree a k then takeAccess a k s
  else setAccess (some ⟨a, k, .partWord⟩) s

/-- A posted access: R8 has at most one outstanding, so one posted while another is held is a fault. -/
def postAccess (a : Addr) (k : AccessKind) (s : State) : Result :=
  if s.path.access.isSome then .fault .accessWhileHeld
  else whole (beginAccess a k) s

/-- FRONT_END_WRITE (R1). -/
def execFrontEndWrite (a : Addr) (w : Word) (lanes : BitVec 2) (s : State) : Result :=
  postAccess a (.write w lanes) s

/-- FRONT_END_READ (R2). -/
def execFrontEndRead (a : Addr) (s : State) : Result := postAccess a .read s

/-- A held access comes to be taken. A write that a board reset released from a full queue only reaches RAM:
it was judged then (R15); any other access is judged now (R5). -/
def takeFromHold (h : HeldAccess) (s : State) : State :=
  match h.reason, h.kind with
  | .releasedWrite, .write w lanes => storeWord h.addr w lanes (setAccess none s)
  | .releasedWrite, .read => takeRead h.addr s
  | .partWord, k | .fullQueue, k | .released, k => takeAccess h.addr k s

/-- An access that waits for a part word is taken once that word has ended (R3, R15). DESIGN CHOICE (log
18): R3 has an access held until the word ends, and an image read answered from the held value never held; a
read already held, whose image word joins the dirty set during the hold, stays held to the word's end and is
then answered from the held value. -/
def takeHeld (s : State) : State :=
  match s.path.access with
  | some h =>
    if h.reason ≠ .fullQueue ∧ s.path.partAccess.isNone then takeFromHold h s else s
  | none => s

/-- HELD_ACCESS_TAKEN (R3). -/
def execHeldAccessTaken (s : State) : Result := whole takeHeld s

/-- A write held for a full queue, where a place is free: it is judged again and taken, or waits for the
part word under way (R8). -/
def releaseHeld (s : State) : State :=
  match s.path.access with
  | some h =>
    if h.reason = .fullQueue ∧ s.captureRoom then
      if s.path.partAccess.isSome then setAccess (some { h with reason := .partWord }) s
      else takeAccess h.addr h.kind s
    else s
  | none => s

/-- HELD_WRITE_RELEASE (R8). -/
def execHeldWriteRelease (s : State) : Result := whole releaseHeld s

/-! ## Resets (R14 to R16) -/

/-- The blocks of the part after a board reset; RAM, the cards and what the panel shows stand (R14, R19, R141, R158). -/
def resetBlocks (s : State) : State :=
  { s with
    loader := .afterReset
    evaluator := .afterReset
    ann := .afterReset
    gen := .afterReset
    chains := .afterReset
    panel := .afterReset s.panel.shown
    events := .afterReset }

/-- The Memory Path at a board reset (R15): the queue is emptied, the requests are withdrawn, a part word
under way runs on with its completion disregarded. -/
def resetPath (s : State) : State :=
  s.setPath { s.path with
    inReset := true
    capture := []
    requests := Requests.none
    partAccess := s.path.partAccess.map (fun a => { a with disregard := true }) }

/-- What an access waits for once a board reset has released HWAIT with a part word under way (R15). -/
def HoldReason.afterRelease : HoldReason → HoldReason
  | .partWord | .released => .released
  | .fullQueue | .releasedWrite => .releasedWrite

/-- A board reset releases HWAIT: an access that is held is taken, a write among them unwatched, or waits
without HWAIT for the end of the part word under way (R15). DEDUCED (log 21): that such an access is
outstanding until that word ends, and how it is judged then. -/
def releaseAtReset (s : State) : State :=
  match s.path.access with
  | some h =>
    if s.path.partAccess.isSome then setAccess (some { h with reason := h.reason.afterRelease }) s
    else takeFromHold h s
  | none => s

def boardReset (s : State) : State := releaseAtReset (resetPath (resetBlocks s))

/-- BOARD_RESET: BRST# asserted (R15, R19). -/
def execBoardReset (s : State) : Result := whole boardReset s

/-- The end of a board reset (R4, R14): the straps are sampled and the k0 read is raised. -/
def endBoardReset (straps : BitVec 2) (s : State) : State :=
  if s.path.inReset then
    s.setPath { s.path with
      inReset := false
      base := baseOfStraps straps
      requests := { s.path.requests with config := some .k0 } }
  else s

/-- BOARD_RESET_END (R4, R14). -/
def execBoardResetEnd (straps : BitVec 2) (s : State) : Result := whole (endBoardReset straps) s

/-- HOST_RESET: HRST# asserted; a held access is abandoned (R16). -/
def execHostReset (s : State) : Result :=
  whole (fun s => s.setPath { s.path with access := none, hostReset := true }) s

/-- HOST_RESET_RELEASE: HRST# released (R16). -/
def execHostResetRelease (s : State) : Result :=
  whole (fun s => s.setPath { s.path with hostReset := false }) s

/-! ## The RAM arbiter: grants (R12, R13) -/

/-- A front-end access is under way for the arbiter: one held for a full queue counts only once a place
is free, when it is about to be taken (R8, R12). -/
def State.frontEndUnderWay (s : State) : Bool :=
  match s.path.access with
  | some h => h.reason != .fullQueue || s.captureRoom
  | none => false

/-- A part word access starts. -/
def startAccess (work : PartWork) (a : Addr) (w : Word) (s : State) : State :=
  s.setPath { s.path with partAccess := some ⟨work, a, w, false⟩ }

/-- The address of a ring writer's word (R167, 10.3, 10.5). -/
def RingWrite.address (base : Addr) (head : BitVec 8) : RingWrite → Addr
  | .word i => regionAddr base (ringOffset + head.toNat * 4 + i)
  | .k18 => regionAddr base (headerOffset + 18)
  | .head => regionAddr base (headerOffset + 16)

/-- The capture re-read starts (R9). -/
def grantReread (a : Addr) (s : State) : State :=
  startAccess .reread a (s.ram.readWord a)
    (s.setPath { s.path with requests := { s.path.requests with reread := none } })

/-- A ring write starts: a word of the front record, the lost count with its owed flag cleared, or the
head (R165, R167). -/
def grantRing (w : RingWrite) (s : State) : State :=
  let s := s.setPath { s.path with requests := { s.path.requests with ring := none } }
  let a := w.address s.path.base s.events.head
  match w with
  | .word i =>
    match s.events.queue with
    | r :: _ => startAccess (.ring w) a (r.word i) s
    | [] => s
  | .k18 =>
    startAccess (.ring w) a (BitVec.ofNat 16 s.events.lost)
      (s.setEvents { s.events with k18Owed := false })
  | .head => startAccess (.ring w) a (s.events.nextHead.setWidth 16) s

/-- A configuration read starts (R22, R41, R53). -/
def grantConfig (r : ConfigRead) (s : State) : State :=
  let s := s.setPath { s.path with requests := { s.path.requests with config := none } }
  startAccess (.config r) (r.address s.path.base) (s.ram.readWord (r.address s.path.base)) s

/-- A status word is no longer owed (R171). -/
def EventUnit.paid (e : EventUnit) : StatusWord → EventUnit
  | .k19 => { e with owed19 := false }
  | .k20 => { e with owed20 := false }
  | .k21 => { e with owed21 := false }
  | .k22 => { e with owed22 := false }

/-- A status write starts with the copy held now (R171). -/
def grantStatus (w : StatusWord) (s : State) : State :=
  let s := s.setPath { s.path with requests := { s.path.requests with status := none } }
  startAccess (.status w) (regionAddr s.path.base (headerOffset + w.header))
    (s.events.copies.word w) (s.setEvents (s.events.paid w))

/-- An image write starts with the image value held now (R125, R126). -/
def grantImage (w : Nat) (s : State) : State :=
  let s := s.setPath { s.path with requests := { s.path.requests with image := none } }
  startAccess (.image w) (regionAddr s.path.base (imageOffset + w)) (s.imageWord w)
    (s.setGen { s.gen with servedChanged := false })

/-- The arbiter may start a part word access now (R12, R14). -/
def State.slotIdle (s : State) : Bool :=
  !s.path.inReset && s.path.partAccess.isNone && !s.frontEndUnderWay

/-- The waiting request of highest priority is served (R12). -/
def serveHighest (s : State) : State :=
  match s.path.requests.reread with
  | some a => grantReread a s
  | none =>
    match s.path.requests.ring with
    | some w => grantRing w s
    | none =>
      match s.path.requests.config with
      | some r => grantConfig r s
      | none =>
        match s.path.requests.status with
        | some w => grantStatus w s
        | none =>
          match s.path.requests.image with
          | some w => grantImage w s
          | none => s

/-- PART_ACCESS_GRANT (R12). -/
def execPartAccessGrant (s : State) : Result :=
  whole (fun s => if s.slotIdle then serveHighest s else s) s

/-! ## The RAM arbiter: completions (R12, R15, R36) -/

/-- The work writes its word (R13). -/
def PartWork.writes : PartWork → Bool
  | .reread | .config _ => false
  | .ring _ | .status _ | .image _ => true

/-- The word access ends: a write has reached RAM, both lanes (R13). -/
def endAccess (a : PartAccess) (s : State) : State :=
  let s := s.setPath { s.path with partAccess := none }
  if a.work.writes then storeWord a.addr a.data bothLanes s else s

/-- The completion of the access that `sel` names: the requester acts on it unless it disregards it (R12,
R15, R36). -/
def complete {α : Type} (sel : PartWork → Option α) (act : α → Word → State → State)
    (s : State) : State :=
  match s.path.partAccess with
  | none => s
  | some a =>
    match sel a.work with
    | none => s
    | some x => if a.disregard then endAccess a s else act x a.data (endAccess a s)

/-- The re-read replaces the data of the item at the front (R9). -/
def rereadDone (w : Word) (s : State) : State :=
  match s.path.capture with
  | item :: rest =>
    s.setPath { s.path with capture := { item with data := w, partialItem := false } :: rest }
  | [] => s

def onReread : PartWork → Option Unit
  | .reread => some ()
  | .ring _ | .config _ | .status _ | .image _ => none

/-- CAPTURE_REREAD_DONE (R9). -/
def execCaptureRereadDone (s : State) : Result :=
  whole (complete onReread (fun _ w => rereadDone w)) s

/-- A configuration read of some kind. -/
def onConfig (p : ConfigRead → Bool) : PartWork → Option ConfigRead
  | .config r => if p r then some r else none
  | .reread | .ring _ | .status _ | .image _ => none

/-- The k0 read after a board reset is judged (R20). -/
def judgeK0 (w : Word) (s : State) : State :=
  if w = signature ∧ s.loader.cfg = .unconfigured then beginSweep s else s

/-- K0_READ_DONE (R20). -/
def execK0ReadDone (s : State) : Result :=
  whole (complete (onConfig (fun r => r == .k0)) (fun _ w => judgeK0 w)) s

/-- The completion of a read of the settings pass: the word is acted on, then the pass goes on (R22, R32). -/
def passRead (act : ConfigRead → Word → State → State) (r : ConfigRead) (w : Word) (s : State) : State :=
  advancePass r (act r w s)

/-- k1 becomes the held generation (R22, step 1). -/
def holdGeneration (w : Word) (s : State) : State :=
  s.setLoader { s.loader with generation := some w }

/-- GENERATION_READ (R22). -/
def execGenerationRead (s : State) : Result :=
  whole (complete (onConfig (fun r => r == .k1)) (passRead (fun _ => holdGeneration))) s

/-- k2 carries chains A and B, k3 chains C and D (R25). -/
def countsRead (r : ConfigRead) (w : Word) (s : State) : State :=
  if r = .k2 then takeCounts .a .b w s else takeCounts .c .d w s

/-- CARD_COUNT_READ (R25). -/
def execCardCountRead (s : State) : Result :=
  whole (complete (onConfig (fun r => r == .k2 || r == .k3)) (passRead countsRead)) s

/-- FLASH_SHELVE_READ (R26). -/
def execFlashShelveRead (s : State) : Result :=
  whole (complete (onConfig (fun r => r == .k4)) (passRead (fun _ => takeFlashShelve))) s

/-- BOARD_FAULT_LAMP_READ (R28). -/
def execBoardFaultLampRead (s : State) : Result :=
  whole (complete (onConfig (fun r => r == .k5))
    (passRead (fun _ w => judgeSetting .boardFault (lampField w)))) s

/-- RING_VALUES_READ (R27). -/
def execRingValuesRead (s : State) : Result :=
  whole (complete (onConfig (fun r => r == .k16 || r == .k17 || r == .k18)) (passRead takeRingValue)) s

/-- The read is of word g0. -/
def ConfigRead.isEnables : ConfigRead → Bool
  | .group _ w => w == 0
  | .k0 | .k1 | .k2 | .k3 | .k4 | .k5 | .k16 | .k17 | .k18 | .entry _ _ | .source _ _ => false

/-- The read is of word g1 or g2. -/
def ConfigRead.isGroupLamp : ConfigRead → Bool
  | .group _ w => w == 1 || w == 2
  | .k0 | .k1 | .k2 | .k3 | .k4 | .k5 | .k16 | .k17 | .k18 | .entry _ _ | .source _ _ => false

/-- A group word read in a settings pass acts as a dispatched write of it does (R29). -/
def groupRead (r : ConfigRead) (w : Word) (s : State) : State :=
  match r with
  | .group g word => if word = 0 then takeEnables g w s else takeGroupLamp g word w s
  | .k0 | .k1 | .k2 | .k3 | .k4 | .k5 | .k16 | .k17 | .k18 | .entry _ _ | .source _ _ => s

/-- GROUP_SETTINGS_READ (R29). -/
def execGroupSettingsRead (s : State) : Result :=
  whole (complete (onConfig ConfigRead.isEnables) (passRead groupRead)) s

/-- GROUP_LAMP_READ (R29). -/
def execGroupLampRead (s : State) : Result :=
  whole (complete (onConfig ConfigRead.isGroupLamp) (passRead groupRead)) s

def ConfigRead.isEntry : ConfigRead → Bool
  | .entry _ _ => true
  | .k0 | .k1 | .k2 | .k3 | .k4 | .k5 | .k16 | .k17 | .k18 | .group _ _ | .source _ _ => false

def ConfigRead.isSource : ConfigRead → Bool
  | .source _ _ => true
  | .k0 | .k1 | .k2 | .k3 | .k4 | .k5 | .k16 | .k17 | .k18 | .group _ _ | .entry _ _ => false

/-- ENTRY_READ_DONE (R41, R43). -/
def execEntryReadDone (s : State) : Result :=
  whole (complete (onConfig ConfigRead.isEntry) (fun _ => takeEntryWord)) s

/-- SOURCE_READ_DONE (R54). -/
def execSourceReadDone (s : State) : Result :=
  whole (complete (onConfig ConfigRead.isSource) (fun _ => takeSourceWord)) s

def onImage : PartWork → Option Nat
  | .image w => some w
  | .reread | .ring _ | .config _ | .status _ => none

/-- The image write of word w has completed: it leaves the dirty set unless it has changed since it was
served (R125, R126). -/
def imageDone (w : Nat) (s : State) : State :=
  s.setGen { s.gen with
    lastWord := w
    dirty := if s.gen.servedChanged then s.gen.dirty else s.gen.dirty.filter (fun v => v != w) }

/-- IMAGE_WRITE_DONE (R125). -/
def execImageWriteDone (s : State) : Result :=
  whole (complete onImage (fun w _ => imageDone w)) s

def onRing (p : RingWrite → Bool) : PartWork → Option RingWrite
  | .ring w => if p w then some w else none
  | .reread | .config _ | .status _ | .image _ => none

def RingWrite.isWord : RingWrite → Bool
  | .word _ => true
  | .k18 | .head => false

/-- A word of the record in progress has been written (R167). -/
def ringWordDone (s : State) : State :=
  s.setEvents { s.events with inProgress := s.events.inProgress.map (fun k => k + 1) }

/-- RING_WORD_WRITE_DONE (R167). -/
def execRingWordWriteDone (s : State) : Result :=
  whole (complete (onRing RingWrite.isWord) (fun _ _ => ringWordDone)) s

/-- The head write has completed: the head advances and the record leaves the queue (R164, R167). -/
def headDone (s : State) : State :=
  s.setEvents { s.events with
    head := s.events.nextHead, queue := s.events.queue.tail, inProgress := none }

/-- HEAD_WRITE_DONE (R167). -/
def execHeadWriteDone (s : State) : Result :=
  whole (complete (onRing (fun w => w == .head)) (fun _ _ => headDone)) s

def onStatus : PartWork → Option StatusWord
  | .status w => some w
  | .reread | .ring _ | .config _ | .image _ => none

/-- STATUS_WRITE_DONE: the writer may raise its next request (R171). -/
def execStatusWriteDone (s : State) : Result :=
  whole (complete onStatus (fun _ _ s => s)) s

/-- K18_WRITE_DONE: the writer may raise its next request (R167). -/
def execK18WriteDone (s : State) : Result :=
  whole (complete (onRing (fun w => w == .k18)) (fun _ _ s => s)) s

end Sys2Proof.Machine
end

