-- ==== Sys2Proof/Machine/Panel.lean ====
section
/-! DEFINITION. The Key Panel Controller (08): the stages of a press, the entry buffer, ENTER, and the panel's events. -/

namespace Sys2Proof.Machine

/-! ## The panel's answers (R155, R156) -/

/-- The entry buffer is emptied. -/
def Panel.emptied (p : Panel) : Panel := { p with command := none, digits := [] }

/-- A refusal of the panel: the buffer is emptied and the reason stands as the error reason (R155, R156). -/
def panelError (reason : Nat) (s : State) : State :=
  s.setPanel { s.panel.emptied with error := some reason }

/-- A refusal with its COMMAND_ERROR event (R155). -/
def refusePress (code reason : Nat) (s : State) : State :=
  panelError reason (record .commandError .panel code reason s)

/-- An executed press with its COMMAND event (R155). -/
def reportPress (code detail : Nat) (s : State) : State :=
  record .command .panel code detail s

/-- The outcome of an operation the panel issued at ENTER; the buffer is empty afterwards (R151, R155). -/
def answerPress (code detail : Nat) (r : State × Option Nat) : State :=
  match r.2 with
  | none => (reportPress code detail r.1).setPanel r.1.panel.emptied
  | some reason => refusePress code reason r.1

/-! ## The stages of a press (R145) -/

/-- The press is taken off the list of presses to be handled. -/
def popPress (s : State) : State := s.setPanel { s.panel with presses := s.panel.presses.tail }

/-- The panel lock refuses a key: every key but SILENCE and TEST (R147). -/
def Key.lockable : Key → Bool
  | .silence | .test => false
  | .digit _ | .enter | .ack | .clear | .group | .shelve | .dim => true

/-- A recognised press through its stages: wake, error indication, unconfigured, lock, key (R145 to R147). -/
def handlePress (key : Key) (act : State → State) (s : State) : State :=
  if s.gen.mode = .dark then wake 4 .panel s
  else if s.panel.error.isSome then s.setPanel { s.panel with error := none }
  else if s.loader.cfg = .unconfigured then panelError panelUnconfigured s
  else if s.panel.lock ∧ key.lockable then refusePress key.code panelLocked s
  else act s

/-- The press at the front is of a key that `sel` names: it is handled (R144, R145). A press that is not
there is not handled (log 6). -/
def onPress (sel : Key → Bool) (act : Key → State → State) (s : State) : State :=
  match s.panel.presses with
  | key :: _ => if sel key then handlePress key (act key) (popPress s) else s
  | [] => s

/-! ## The entry buffer (R148, R149) -/

/-- A digit joins the list, the oldest of three leaving first (R148). -/
def joinDigit (digits : List (BitVec 4)) (d : BitVec 4) : List (BitVec 4) :=
  (if digits.length < 3 then digits else digits.drop 1) ++ [d]

def Key.isDigit : Key → Bool
  | .digit _ => true
  | .enter | .ack | .clear | .silence | .test | .group | .shelve | .dim => false

/-- A data key (R148). -/
def dataKey (key : Key) (s : State) : State :=
  match key, s.panel.command with
  | .digit d, some _ => s.setPanel { s.panel with digits := joinDigit s.panel.digits d }
  | _, _ => refusePress 0 digitWithoutCommand s

/-- DATA_KEY (R148). -/
def execDataKey (s : State) : Result := whole (onPress Key.isDigit dataKey) s

/-- A command key becomes the pending command, its digits emptied (R149). -/
def pendCommand (c : EntryCommand) (s : State) : State :=
  s.setPanel { s.panel with command := some c, digits := [] }

/-- ACK_KEY (R149). -/
def execAckKey (s : State) : Result :=
  whole (onPress (fun k => k == .ack) (fun _ => pendCommand .ack)) s

/-- CLEAR_KEY (R149). -/
def execClearKey (s : State) : Result :=
  whole (onPress (fun k => k == .clear) (fun _ => pendCommand .clear)) s

/-- GROUP_KEY (R149). -/
def execGroupKey (s : State) : Result :=
  whole (onPress (fun k => k == .group) (fun _ => pendCommand .group)) s

/-- SHELVE_KEY (R149). -/
def execShelveKey (s : State) : Result :=
  whole (onPress (fun k => k == .shelve) (fun _ => pendCommand .shelve)) s

/-! ## SILENCE, TEST, DIM (R150) -/

/-- SILENCE_KEY (R150). -/
def execSilenceKey (s : State) : Result :=
  whole (onPress (fun k => k == .silence) (fun key s => reportPress key.code 0 (silence s))) s

/-- TEST_KEY (R150). -/
def execTestKey (s : State) : Result :=
  whole (onPress (fun k => k == .test) (fun key s => reportPress key.code 0 (requestTest s))) s

/-- DIM_KEY (R150): the MODE event carries detail 1 and origin panel (R117). -/
def execDimKey (s : State) : Result :=
  whole (onPress (fun k => k == .dim) (fun key s => reportPress key.code 0 (requestDim 1 .panel s))) s

/-! ## ENTER (R151 to R154) -/

/-- The operand of ENTER: the number of the digits, or none where there are none. -/
def Panel.operand (p : Panel) : Option Nat :=
  if p.digits = [] then none else some (digitsNumber p.digits)

/-- The scope and the COMMAND operand of a digitless ACK or CLEAR (R152). -/
def Panel.digitless (p : Panel) : Scope × Nat :=
  match p.selected with
  | none => (.board, 0xFFFF)
  | some g => (.group g, 0x8000 + g)

/-- ENTER with ACK or CLEAR pending (R152). -/
def enterScope (code : Nat) (op : Scope → Origin → State → State × Option Nat) (s : State) : State :=
  match s.panel.operand with
  | none => answerPress code s.panel.digitless.2 (op s.panel.digitless.1 .panel s)
  | some n =>
    if n ≤ 0x6FF then answerPress code n (op (.point n) .panel s)
    else refusePress code operandRange s

/-- ENTER with GROUP pending (R153). -/
def enterGroup (s : State) : State :=
  match s.panel.operand with
  | none =>
    let s := s.setPanel { s.panel.emptied with selected := none }
    reportPress EntryCommand.group.code 0xFFFF s
  | some g =>
    if g ≤ 0x3F then
      let s := s.setPanel { s.panel.emptied with selected := some g }
      reportPress EntryCommand.group.code g s
    else refusePress EntryCommand.group.code operandRange s

/-- ENTER with SHELVE pending (R154). -/
def enterShelve (s : State) : State :=
  match s.panel.operand with
  | none => refusePress EntryCommand.shelve.code operandMissing s
  | some n =>
    if n ≤ 0x6FF then answerPress EntryCommand.shelve.code n (shelve n .panel s)
    else refusePress EntryCommand.shelve.code operandRange s

/-- An ENTER press with a given command pending, through the stages of a press. -/
def onEnter (pending : Option EntryCommand) (act : State → State) (s : State) : State :=
  if s.panel.command = pending then onPress (fun k => k == .enter) (fun _ => act) s else s

/-- ENTER_NO_COMMAND (R151). -/
def execEnterNoCommand (s : State) : Result := whole (onEnter none (refusePress 0 noCommand)) s

/-- ENTER_ACK (R152). -/
def execEnterAck (s : State) : Result :=
  whole (onEnter (some .ack) (enterScope EntryCommand.ack.code acknowledge)) s

/-- ENTER_CLEAR (R152). -/
def execEnterClear (s : State) : Result :=
  whole (onEnter (some .clear) (enterScope EntryCommand.clear.code clear)) s

/-- ENTER_GROUP (R153). -/
def execEnterGroup (s : State) : Result := whole (onEnter (some .group) enterGroup) s

/-- ENTER_SHELVE (R154). -/
def execEnterShelve (s : State) : Result := whole (onEnter (some .shelve) enterShelve) s

end Sys2Proof.Machine
end

