-- ==== Sys2Proof/Machine/Remote.lean ====
section
/-! DEFINITION. The Event Unit's commands (09): the remote operand, the remote commands, the tail and the lost count. -/

namespace Sys2Proof.Machine

/-! ## The remote operand and the remote commands (R159 to R161) -/

/-- REMOTE_OPERAND_WRITE (R159). -/
def execRemoteOperandWrite (s : State) : Result :=
  whole (handOn (onWord .k10) (fun _ w s => s.setEvents { s.events with operand := w })) s

/-- The front item is a k11 write of a given command code, judged by the whole word (R160). -/
def onRemote (p : Nat → Bool) (r : RegionWord) (w : Word) : Option Unit :=
  if r = .k11 ∧ p w.toNat then some () else none

/-- A remote command that is executed: one COMMAND event with the held operand as detail (R161). -/
def remoteDone (code : Nat) (s : State) : State :=
  record .command .remote code s.events.operand.toNat s

/-- A remote command that is refused: only its COMMAND_ERROR event (R161). -/
def remoteError (subject reason : Nat) (s : State) : State :=
  record .commandError .remote subject reason s

/-- The answer of the Annunciator to a remote command (R161). -/
def answerRemote (code : Nat) (r : State × Option Nat) : State :=
  match r.2 with
  | none => remoteDone code r.1
  | some reason => remoteError code reason r.1

/-- A remote acknowledge or clear with the held operand as its scope (R160). -/
def remoteScoped (code : Nat) (op : Scope → Origin → State → State × Option Nat) (s : State) : State :=
  match remoteScope s.events.operand with
  | some scope => answerRemote code (op scope .remote s)
  | none => remoteError code operandRange s

/-- REMOTE_ACK (R160). -/
def execRemoteAck (s : State) : Result :=
  whole (handOn (onRemote (fun c => c == 1)) (fun _ _ => remoteScoped 1 acknowledge)) s

/-- REMOTE_CLEAR (R160). -/
def execRemoteClear (s : State) : Result :=
  whole (handOn (onRemote (fun c => c == 2)) (fun _ _ => remoteScoped 2 clear)) s

/-- REMOTE_SILENCE (R160). -/
def execRemoteSilence (s : State) : Result :=
  whole (handOn (onRemote (fun c => c == 3)) (fun _ _ s => remoteDone 3 (silence s))) s

/-- REMOTE_TEST (R160): accepted in every board mode. -/
def execRemoteTest (s : State) : Result :=
  whole (handOn (onRemote (fun c => c == 4)) (fun _ _ s => remoteDone 4 (requestTest s))) s

/-- REMOTE_GROUP: refused with UNKNOWN_COMMAND (R160). -/
def execRemoteGroup (s : State) : Result :=
  whole (handOn (onRemote (fun c => c == 5)) (fun _ w => remoteError w.toNat unknownCommand)) s

/-- A remote shelve of the point the held operand names (R160). -/
def remoteShelve (s : State) : State :=
  if s.events.operand.toNat ≤ 0x6FF then
    answerRemote 6 (shelve s.events.operand.toNat .remote s)
  else remoteError 6 operandRange s

/-- REMOTE_SHELVE (R160). -/
def execRemoteShelve (s : State) : Result :=
  whole (handOn (onRemote (fun c => c == 6)) (fun _ _ => remoteShelve)) s

/-- REMOTE_DIM (R160): the MODE event carries detail 2 and origin remote (R117, R161). -/
def execRemoteDim (s : State) : Result :=
  whole (handOn (onRemote (fun c => c == 7)) (fun _ _ s => remoteDone 7 (requestDim 2 .remote s))) s

/-- REMOTE_UNKNOWN_COMMAND: any word that is none of 0001h to 0007h (R160). -/
def execRemoteUnknownCommand (s : State) : Result :=
  whole (handOn (onRemote (fun c => c == 0 || decide (7 < c)))
    (fun _ w => remoteError w.toNat unknownCommand)) s

/-! ## The tail and the lost count (R165, R168) -/

/-- The held tail takes the low 8 bits; a waiting head write that would equal the new tail is withdrawn (R168). -/
def takeTail (w : Word) (s : State) : State :=
  let tail := w.extractLsb' 0 8
  let s := s.setEvents { s.events with tail := tail }
  if s.path.requests.ring = some .head ∧ s.events.nextHead = tail then
    s.setPath { s.path with requests := { s.path.requests with ring := none } }
  else s

/-- TAIL_WRITE (R168). -/
def execTailWrite (s : State) : Result := whole (handOn (onWord .k17) (fun _ => takeTail)) s

/-- LOST_COUNT_WRITE: the lost count becomes the whole word and a k18 write becomes owed (R165). -/
def execLostCountWrite (s : State) : Result :=
  whole (handOn (onWord .k18)
    (fun _ w s => s.setEvents { s.events with lost := w.toNat, k18Owed := true })) s

end Sys2Proof.Machine
end

