-- ==== Sys2Proof/Machine/Dispatch.lean ====
section
/-! DEFINITION. One command dispatched to its meaning. -/

namespace Sys2Proof.Machine

def exec (i : Instr) (s : State) : Host.Outcome State Fault Refusal :=
  match i with
  | .frontEndWrite addr data lanes => Sys2Proof.Machine.execFrontEndWrite addr data lanes s
  | .frontEndRead addr => Sys2Proof.Machine.execFrontEndRead addr s
  | .heldAccessTaken => Sys2Proof.Machine.execHeldAccessTaken s
  | .heldWriteRelease => Sys2Proof.Machine.execHeldWriteRelease s
  | .boardReset => Sys2Proof.Machine.execBoardReset s
  | .boardResetEnd straps => Sys2Proof.Machine.execBoardResetEnd straps s
  | .hostReset => Sys2Proof.Machine.execHostReset s
  | .partAccessGrant => Sys2Proof.Machine.execPartAccessGrant s
  | .captureRereadDone => Sys2Proof.Machine.execCaptureRereadDone s
  | .k0ReadDone => Sys2Proof.Machine.execK0ReadDone s
  | .signatureWrite => Sys2Proof.Machine.execSignatureWrite s
  | .generationWrite => Sys2Proof.Machine.execGenerationWrite s
  | .modeRequest => Sys2Proof.Machine.execModeRequest s
  | .panelLockWrite => Sys2Proof.Machine.execPanelLockWrite s
  | .remoteOperandWrite => Sys2Proof.Machine.execRemoteOperandWrite s
  | .remoteAck => Sys2Proof.Machine.execRemoteAck s
  | .remoteClear => Sys2Proof.Machine.execRemoteClear s
  | .remoteSilence => Sys2Proof.Machine.execRemoteSilence s
  | .remoteTest => Sys2Proof.Machine.execRemoteTest s
  | .remoteGroup => Sys2Proof.Machine.execRemoteGroup s
  | .remoteShelve => Sys2Proof.Machine.execRemoteShelve s
  | .remoteDim => Sys2Proof.Machine.execRemoteDim s
  | .remoteUnknownCommand => Sys2Proof.Machine.execRemoteUnknownCommand s
  | .tailWrite => Sys2Proof.Machine.execTailWrite s
  | .lostCountWrite => Sys2Proof.Machine.execLostCountWrite s
  | .controlWordWrite => Sys2Proof.Machine.execControlWordWrite s
  | .groupEnableWrite => Sys2Proof.Machine.execGroupEnableWrite s
  | .summaryLampWrite => Sys2Proof.Machine.execSummaryLampWrite s
  | .staleLampWrite => Sys2Proof.Machine.execStaleLampWrite s
  | .groupAckRequest => Sys2Proof.Machine.execGroupAckRequest s
  | .groupClearRequest => Sys2Proof.Machine.execGroupClearRequest s
  | .generationRead => Sys2Proof.Machine.execGenerationRead s
  | .cardCountRead => Sys2Proof.Machine.execCardCountRead s
  | .flashShelveRead => Sys2Proof.Machine.execFlashShelveRead s
  | .boardFaultLampRead => Sys2Proof.Machine.execBoardFaultLampRead s
  | .ringValuesRead => Sys2Proof.Machine.execRingValuesRead s
  | .groupSettingsRead => Sys2Proof.Machine.execGroupSettingsRead s
  | .groupLampRead => Sys2Proof.Machine.execGroupLampRead s
  | .entryReadDone => Sys2Proof.Machine.execEntryReadDone s
  | .sourceReadDone => Sys2Proof.Machine.execSourceReadDone s
  | .firstValue => Sys2Proof.Machine.execFirstValue s
  | .sourceItemEvaluation points => Sys2Proof.Machine.execSourceItemEvaluation points s
  | .tick rows0 rows1 rows2 => Sys2Proof.Machine.execTick rows0 rows1 rows2 s
  | .phaseBoundary => Sys2Proof.Machine.execPhaseBoundary s
  | .settleEnd => Sys2Proof.Machine.execSettleEnd s
  | .lampTestEnd => Sys2Proof.Machine.execLampTestEnd s
  | .frameSlot => Sys2Proof.Machine.execFrameSlot s
  | .boardSecond => Sys2Proof.Machine.execBoardSecond s
  | .becomesStale point => Sys2Proof.Machine.execBecomesStale point s
  | .travelTimerExpiry point => Sys2Proof.Machine.execTravelTimerExpiry point s
  | .shelfExpiry => Sys2Proof.Machine.execShelfExpiry s
  | .wakeByAlarm => Sys2Proof.Machine.execWakeByAlarm s
  | .exchangeEnd chain arrivals noCurrent received => Sys2Proof.Machine.execExchangeEnd chain arrivals noCurrent received s
  | .imageWriteDone => Sys2Proof.Machine.execImageWriteDone s
  | .ringWordWriteDone => Sys2Proof.Machine.execRingWordWriteDone s
  | .headWriteDone => Sys2Proof.Machine.execHeadWriteDone s
  | .keyRelease => Sys2Proof.Machine.execKeyRelease s
  | .dataKey => Sys2Proof.Machine.execDataKey s
  | .ackKey => Sys2Proof.Machine.execAckKey s
  | .clearKey => Sys2Proof.Machine.execClearKey s
  | .groupKey => Sys2Proof.Machine.execGroupKey s
  | .shelveKey => Sys2Proof.Machine.execShelveKey s
  | .silenceKey => Sys2Proof.Machine.execSilenceKey s
  | .testKey => Sys2Proof.Machine.execTestKey s
  | .dimKey => Sys2Proof.Machine.execDimKey s
  | .enterNoCommand => Sys2Proof.Machine.execEnterNoCommand s
  | .enterAck => Sys2Proof.Machine.execEnterAck s
  | .enterClear => Sys2Proof.Machine.execEnterClear s
  | .enterGroup => Sys2Proof.Machine.execEnterGroup s
  | .enterShelve => Sys2Proof.Machine.execEnterShelve s
  | .hostResetRelease => Sys2Proof.Machine.execHostResetRelease s
  | .statusWriteDone => Sys2Proof.Machine.execStatusWriteDone s
  | .k18WriteDone => Sys2Proof.Machine.execK18WriteDone s

end Sys2Proof.Machine
end

