-- ==== Sys2Proof/Machine/Step.lean ====
section
/-! DEFINITION. One step of the machine: the command at the front of the queue. -/

namespace Sys2Proof.Machine

/-- The command at the front of the queue is run on the state with the queue's rest; with an empty queue
the block idles (log 1). -/
def step (s : State) : Host.Outcome State Fault Refusal :=
  match s.pending with
  | [] => .next s
  | c :: rest => exec c { s with pending := rest }

/-- The command that a word spells is put at the front of the queue; no row of the table gives bits, so no
word spells one. -/
def State.withFetchWord (s : State) (nbits w : Nat) : State :=
  match decodeTableWord nbits w with
  | some c => { s with pending := c :: s.pending }
  | none => s

end Sys2Proof.Machine
end

