-- ==== Sys2Proof/Safety.lean ====
section
/-! DEFINITION. What the statements are made of: the parts of the state, the frame relation, and the invariants. -/

namespace Sys2Proof.Machine

/-! ## Frames -/

/-- The parts of the state: one for each field of each block. -/
inductive Part where
  | pending | ram | pathInReset | pathHostReset | pathBase | pathAccess | pathCapture
  | pathRequests | pathPartAccess | pathHostData | loaderCfg | loaderGeneration | loaderFaultLamp
  | loaderGroups | loaderPass | loaderPendingPoints | loaderPoints | loaderMarked | loaderReload
  | loaderClaims | loaderWatch | loaderInstalled | loaderRejected | evaluatorValues
  | evaluatorItem | evaluatorFirstValue | evaluatorSecondDue | annRecords | annUnack | annGroups
  | annShelf | annShelveMinutes | annSilence | annHornClass | annShelfDue | genTickCount
  | genSeconds | genFrameMarker | genPhase | genPhaseTicks | genFlash | genWaitingFlash | genMode
  | genSettling | genSettleCount | genTestTimer | genPatterns | genDirty | genLastWord
  | genServedChanged | genModeOwed | genWakeRequests | genTickWork | chainsA | chainsB | chainsC
  | chainsD | chainsFails | chainsFaultCount | panelHeld | panelPressCount | panelReleaseCount
  | panelPresses | panelCommand | panelDigits | panelSelected | panelError | panelLock
  | panelTestOn | panelSilenceOn | panelDimOn | panelShown | eventsOperand | eventsQueue
  | eventsHead | eventsTail | eventsRingHeld | eventsLost | eventsSweepDiscards
  | eventsInProgress | eventsK18Owed | eventsCopies | eventsOwed19 | eventsOwed20 | eventsOwed21
  | eventsOwed22 | cards
  deriving DecidableEq, Repr

/-- A part is the same in two states. -/
def Part.same (p : Part) (s t : State) : Prop :=
  match p with
  | .pending => t.pending = s.pending
  | .ram => t.ram = s.ram
  | .pathInReset => t.path.inReset = s.path.inReset
  | .pathHostReset => t.path.hostReset = s.path.hostReset
  | .pathBase => t.path.base = s.path.base
  | .pathAccess => t.path.access = s.path.access
  | .pathCapture => t.path.capture = s.path.capture
  | .pathRequests => t.path.requests = s.path.requests
  | .pathPartAccess => t.path.partAccess = s.path.partAccess
  | .pathHostData => t.path.hostData = s.path.hostData
  | .loaderCfg => t.loader.cfg = s.loader.cfg
  | .loaderGeneration => t.loader.generation = s.loader.generation
  | .loaderFaultLamp => t.loader.faultLamp = s.loader.faultLamp
  | .loaderGroups => t.loader.groups = s.loader.groups
  | .loaderPass => t.loader.pass = s.loader.pass
  | .loaderPendingPoints => t.loader.pendingPoints = s.loader.pendingPoints
  | .loaderPoints => t.loader.points = s.loader.points
  | .loaderMarked => t.loader.marked = s.loader.marked
  | .loaderReload => t.loader.reload = s.loader.reload
  | .loaderClaims => t.loader.claims = s.loader.claims
  | .loaderWatch => t.loader.watch = s.loader.watch
  | .loaderInstalled => t.loader.installed = s.loader.installed
  | .loaderRejected => t.loader.rejected = s.loader.rejected
  | .evaluatorValues => t.evaluator.values = s.evaluator.values
  | .evaluatorItem => t.evaluator.item = s.evaluator.item
  | .evaluatorFirstValue => t.evaluator.firstValue = s.evaluator.firstValue
  | .evaluatorSecondDue => t.evaluator.secondDue = s.evaluator.secondDue
  | .annRecords => t.ann.records = s.ann.records
  | .annUnack => t.ann.unack = s.ann.unack
  | .annGroups => t.ann.groups = s.ann.groups
  | .annShelf => t.ann.shelf = s.ann.shelf
  | .annShelveMinutes => t.ann.shelveMinutes = s.ann.shelveMinutes
  | .annSilence => t.ann.silence = s.ann.silence
  | .annHornClass => t.ann.hornClass = s.ann.hornClass
  | .annShelfDue => t.ann.shelfDue = s.ann.shelfDue
  | .genTickCount => t.gen.tickCount = s.gen.tickCount
  | .genSeconds => t.gen.seconds = s.gen.seconds
  | .genFrameMarker => t.gen.frameMarker = s.gen.frameMarker
  | .genPhase => t.gen.phase = s.gen.phase
  | .genPhaseTicks => t.gen.phaseTicks = s.gen.phaseTicks
  | .genFlash => t.gen.flash = s.gen.flash
  | .genWaitingFlash => t.gen.waitingFlash = s.gen.waitingFlash
  | .genMode => t.gen.mode = s.gen.mode
  | .genSettling => t.gen.settling = s.gen.settling
  | .genSettleCount => t.gen.settleCount = s.gen.settleCount
  | .genTestTimer => t.gen.testTimer = s.gen.testTimer
  | .genPatterns => t.gen.patterns = s.gen.patterns
  | .genDirty => t.gen.dirty = s.gen.dirty
  | .genLastWord => t.gen.lastWord = s.gen.lastWord
  | .genServedChanged => t.gen.servedChanged = s.gen.servedChanged
  | .genModeOwed => t.gen.modeOwed = s.gen.modeOwed
  | .genWakeRequests => t.gen.wakeRequests = s.gen.wakeRequests
  | .genTickWork => t.gen.tickWork = s.gen.tickWork
  | .chainsA => t.chains.a = s.chains.a
  | .chainsB => t.chains.b = s.chains.b
  | .chainsC => t.chains.c = s.chains.c
  | .chainsD => t.chains.d = s.chains.d
  | .chainsFails => t.chains.fails = s.chains.fails
  | .chainsFaultCount => t.chains.faultCount = s.chains.faultCount
  | .panelHeld => t.panel.held = s.panel.held
  | .panelPressCount => t.panel.pressCount = s.panel.pressCount
  | .panelReleaseCount => t.panel.releaseCount = s.panel.releaseCount
  | .panelPresses => t.panel.presses = s.panel.presses
  | .panelCommand => t.panel.command = s.panel.command
  | .panelDigits => t.panel.digits = s.panel.digits
  | .panelSelected => t.panel.selected = s.panel.selected
  | .panelError => t.panel.error = s.panel.error
  | .panelLock => t.panel.lock = s.panel.lock
  | .panelTestOn => t.panel.testOn = s.panel.testOn
  | .panelSilenceOn => t.panel.silenceOn = s.panel.silenceOn
  | .panelDimOn => t.panel.dimOn = s.panel.dimOn
  | .panelShown => t.panel.shown = s.panel.shown
  | .eventsOperand => t.events.operand = s.events.operand
  | .eventsQueue => t.events.queue = s.events.queue
  | .eventsHead => t.events.head = s.events.head
  | .eventsTail => t.events.tail = s.events.tail
  | .eventsRingHeld => t.events.ringHeld = s.events.ringHeld
  | .eventsLost => t.events.lost = s.events.lost
  | .eventsSweepDiscards => t.events.sweepDiscards = s.events.sweepDiscards
  | .eventsInProgress => t.events.inProgress = s.events.inProgress
  | .eventsK18Owed => t.events.k18Owed = s.events.k18Owed
  | .eventsCopies => t.events.copies = s.events.copies
  | .eventsOwed19 => t.events.owed19 = s.events.owed19
  | .eventsOwed20 => t.events.owed20 = s.events.owed20
  | .eventsOwed21 => t.events.owed21 = s.events.owed21
  | .eventsOwed22 => t.events.owed22 = s.events.owed22
  | .cards => t.cards = s.cards

/-- At most the listed parts differ. -/
def Changes (parts : List Part) (s t : State) : Prop := ∀ p, p ∉ parts → p.same s t

/-- The parts in which the lamp image is kept: patterns, dirty set, and whether the word under way has
changed (R113, R125). -/
def imageParts : List Part := [.genPatterns, .genDirty, .genServedChanged]

/-- The parts a produced event may change (R164, R165). -/
def eventParts : List Part :=
  [.eventsQueue, .eventsLost, .eventsSweepDiscards, .eventsK18Owed]

/-- The parts a transition of the Annunciator may change (R86, R92 to R97, R106). -/
def transitionParts : List Part :=
  [.annRecords, .annUnack, .annGroups, .annSilence, .genWakeRequests] ++ imageParts

/-- The parts an alarm report may change: a transition, its event and the horn class (R86, R107). -/
def reportParts : List Part := transitionParts ++ eventParts ++ [.annHornClass]

/-- The parts an operation of the Annunciator may change: those of a report, and the shelf (R98 to R105). -/
def operationParts : List Part := .annShelf :: .annShelfDue :: reportParts

/-- The parts in which the Event Unit's copies of its owners' reports stand (R170, R171). -/
def statusParts : List Part :=
  [.eventsCopies, .eventsOwed19, .eventsOwed20, .eventsOwed21, .eventsOwed22]

/-- The parts in which the reports and requests at the end of every command stand, with the record and the
reload that a request begins (R12, R23, R157, R167, R170, R171). -/
def settleParts : List Part :=
  statusParts ++ [.panelTestOn, .panelSilenceOn, .panelDimOn, .pathRequests, .eventsInProgress,
   .loaderPendingPoints, .loaderReload]

/-- The parts a grant of the arbiter changes, with the end of the command (R12). -/
def grantedParts : List Part := .pathPartAccess :: settleParts

/-- The parts a change of board mode may change (R117 to R122). -/
def modeParts : List Part := [.genMode, .genSettling, .genSettleCount] ++ eventParts

/-- The parts an exchange's end may change (R128 to R139). -/
def exchangeParts : List Part :=
  [.chainsA, .chainsB, .chainsC, .chainsD, .chainsFails, .chainsFaultCount, .cards]
    ++ imageParts ++ eventParts ++ statusParts

/-- The parts a value or a board second may change at one point (R61, R77, R81). -/
def pointParts : List Part := [.evaluatorValues, .evaluatorSecondDue] ++ reportParts

/-- The parts a board second may change in the Evaluator and the Annunciator (R77, R81, R104). -/
def secondParts : List Part :=
  [.evaluatorValues, .evaluatorSecondDue] ++ operationParts

/-- The parts the work of one tick may change (R109). -/
def workParts : List Part :=
  [.panelHeld, .panelPressCount, .panelReleaseCount, .genPhaseTicks, .genPhase, .genFlash,
   .genWaitingFlash, .genSettling, .genSettleCount, .genTestTimer, .genSeconds,
   .chainsA, .chainsB, .chainsC, .chainsD] ++ secondParts

/-- The parts the finishing of a tick may change. -/
def tickParts : List Part := .genTickWork :: workParts

/-- The parts a settings pass or a point reload may change, the card counts apart (R22 to R57). -/
def loaderParts : List Part :=
  [.loaderCfg, .loaderPass, .loaderPendingPoints, .loaderPoints, .loaderMarked, .loaderReload,
   .loaderClaims, .loaderWatch, .loaderInstalled, .loaderRejected,
   .evaluatorValues, .evaluatorSecondDue, .annRecords, .annUnack, .annGroups, .annShelf,
   .annShelfDue, .annHornClass] ++ imageParts ++ eventParts

/-! ## The situations that the statements speak of -/

/-- No part of a tick is left to do. -/
abbrev State.tickDone (s : State) : Prop := s.gen.tickWork = []

/-- The board is SWEEPING or RUNNING. -/
abbrev State.onBoard (s : State) : Prop := s.loader.cfg ≠ .unconfigured

/-- The item at the front of the capture queue is a region item, ready: its word and its data (R10, R37). -/
abbrev State.front (s : State) (r : RegionWord) (w : Word) : Prop := s.regionItem = some (r, w)

/-- A part word access is under way and its completion is not disregarded (R12). -/
abbrev State.underWay (s : State) (work : PartWork) (a : Addr) (w : Word) : Prop :=
  s.path.partAccess = some ⟨work, a, w, false⟩

/-- The RAM port after a part read has ended. -/
def State.portFreed (s : State) : State := s.setPath { s.path with partAccess := none }

/-- The RAM port and RAM after a part write has ended: the whole word stored (R13). -/
def State.partWritten (s : State) (a : Addr) (w : Word) : State :=
  s.portFreed.setRam (s.ram.writeLanes a w bothLanes)

/-- The recognised press is of this key, and no stage before the key decides it (R145). -/
abbrev State.keyReaches (s : State) (key : Key) : Prop :=
  s.panel.presses.head? = some key ∧ s.gen.mode ≠ .dark ∧ s.panel.error = none ∧ s.onBoard
    ∧ (s.panel.lock = false ∨ key = .silence ∨ key = .test)

/-- The event record that an event becomes, its time added (R163). -/
def State.eventOf (s : State) (kind : EventKind) (origin : Origin) (subject detail : Nat) : EventRecord :=
  ⟨kind, origin, BitVec.ofNat 16 subject, BitVec.ofNat 16 detail, s.gen.seconds.setWidth 16⟩

/-- A group count after a member's transition: one less where the member left the condition counted, one
more where it entered it (R94). -/
def countMoved (count : Nat) (left entered : Bool) : Nat :=
  count - (if left then 1 else 0) + (if entered then 1 else 0)

/-- A member of group g has gone from one annunciation state to another: R94's table of the four counts; the
stale count and every other group stand. -/
def State.countsMoved (s t : State) (g : Nat) (old new : AnnState) : Prop :=
  (t.counts g).unack =
      countMoved (s.counts g).unack (old == .new || old == .fleeting) (new == .new || new == .fleeting)
    ∧ (t.counts g).standing = countMoved (s.counts g).standing (old == .standing) (new == .standing)
    ∧ (t.counts g).returned = countMoved (s.counts g).returned (old == .returned) (new == .returned)
    ∧ (t.counts g).shelved = countMoved (s.counts g).shelved (old == .shelved) (new == .shelved)
    ∧ (t.counts g).stale = (s.counts g).stale
    ∧ ∀ h, h ≠ g → t.counts h = s.counts h

/-- The summary lamp's pattern by R96, from a group's counts. -/
def State.summaryShows (t : State) (g lamp : Nat) : Prop :=
  t.patternOf lamp =
    if 0 < (t.counts g).unack then .fast
    else if 0 < (t.counts g).standing then .steady
    else if 0 < (t.counts g).returned then .slow
    else .off

/-- A point of group g is in a new annunciation state: its alarm lamp shows R88's pattern, where it holds one
(another lamp than the group's summary lamp, as a lamp has one owner, R50), and the summary lamp R96's. -/
def State.lampsFollow (s t : State) (n g : Nat) (new : AnnState) : Prop :=
  (∀ e lamp, s.entryOf n = some e → e.alarmLamp = some lamp →
      (s.settings g).summary.claimed ≠ some lamp →
      t.patternOf lamp = match new with
        | .quiet | .shelved => .off
        | .new | .fleeting => if (t.counts g).firstUp = some n then .first else .fast
        | .standing => .steady
        | .returned => .slow)
    ∧ ∀ lamp, (s.settings g).summary.claimed = some lamp → t.summaryShows g lamp

/-- The point with this record has gone to a new annunciation state between two states, with what R88, R94
and R96 say of its group's counts and of the lamps. -/
def State.moved (s t : State) (n : Nat) (r : AnnRec) (new : AnnState) : Prop :=
  s.countsMoved t r.group r.state new ∧ s.lampsFollow t n r.group new

/-- A lamp of a point or of its group g that is no display lamp of the point, as a lamp has one owner (R48,
R50): the point's alarm lamp, or the group's summary or stale lamp. -/
def State.besideDisplay (s : State) (e : Entry) (g lamp : Nat) : Prop :=
  e.alarmLamp = some lamp ∨ (s.settings g).summary.claimed = some lamp
    ∨ (s.settings e.group).staleLamp.claimed = some lamp

/-- Between two states a point's display patterns have been handed and held (R61 step 3, R63, R113): its i-th
display lamp shows the i-th pattern, and no lamp changes but these and the lamps beside them. -/
def State.displayed (s t : State) (e : Entry) (g : Nat) (patterns : List Pattern) : Prop :=
  (∀ (i lamp : Nat) (p : Pattern), e.displayLamps[i]? = some lamp → patterns[i]? = some p →
      ¬ s.besideDisplay e g lamp → t.patternOf lamp = p)
    ∧ ∀ lamp, lamp ∉ e.displayLamps → ¬ s.besideDisplay e g lamp → t.patternOf lamp = s.patternOf lamp

/-- The onset of an OVERRUN at a point, taken on state u: state, list, events, and the counts and lamps of the
transition where there is one (R75, R86, R88, R94, R96). -/
def State.overrunTaken (u t : State) (n : Nat) : Prop :=
  t.annState n = (takeReport n (.onset .overrun) u).annState n
    ∧ t.ann.unack = (takeReport n (.onset .overrun) u).ann.unack
    ∧ t.events.queue = (takeReport n (.onset .overrun) u).events.queue
    ∧ t.events.lost = (takeReport n (.onset .overrun) u).events.lost
    ∧ (∀ r new kind detail, u.ann.records.look n = some r →
        (Report.onset .overrun).effect r.state = some (new, kind, detail) → u.moved t n r new)
    ∧ (u.annState n = some .quiet → t.annState n = some .new ∧ t.ann.unack = u.ann.unack ++ [n]
        ∧ (u.onBoard → u.events.queue.length < 32 →
            t.events.queue = u.events.queue ++ [u.eventOf .raised .part n 5]))
    ∧ (u.annState n = some .shelved → t.annState n = some .shelved ∧ t.events.queue = u.events.queue)

/-- What becomes of shelf records l that an operation leaves: as they are; or, where a board second is still due
and would make none of them expire, each with that second counted (R104, log 11). -/
def State.shelfLeft (s : State) (l : List ShelfRec) : List ShelfRec :=
  if s.ann.shelfDue = true ∧ ∀ x ∈ l, 1 < x.seconds then
    l.map (fun x => { x with seconds := x.seconds - 1 })
  else l

/-- Between two states an operation has left the shelf with the records l; a board second stays due only where
one of them expires at it (R104, log 11). -/
def State.shelfBecomes (s t : State) (l : List ShelfRec) : Prop :=
  t.ann.shelf = s.shelfLeft l
    ∧ (t.ann.shelfDue = true ↔ s.ann.shelfDue = true ∧ ∃ x ∈ l, x.seconds ≤ 1)

/-- One requester of the RAM port at the end of a command: a request that waits stands; with none waiting, none is
raised beside an access of its own under way, and else the one it wants (R12). -/
def requestFollows {α : Type} (waiting : Option α) (underWay : Prop) (want now : Option α) : Prop :=
  (∀ r, waiting = some r → now = some r)
    ∧ (waiting = none → underWay → now = none)
    ∧ (waiting = none → ¬ underWay → now = want)

/-- The lamp events of a good return judged against the record, lamp by lamp (R136, R137): LAMP_FAULT where a
judged lamp draws no current a second time, LAMP_RESTORED where a faulty one draws current. -/
def State.lampEvents (s : State) (c : ChainId) (prev : SentFrame) (frame : List Byte) : List EventRecord :=
  (List.range (64 * prev.count)).filterMap (fun i =>
    let lamp := chainIndex c * 1024 + i
    if (sectionTail frame (i / 64)).getLsbD 0 = false ∧ prev.bits.getD i false = true then
      if sectionBit frame (i / 64) (i % 64) then
        if s.chains.fails.val 0 lamp = 1 then some (s.eventOf .lampFault .part lamp 0) else none
      else if s.chains.fails.val 0 lamp = 2 then some (s.eventOf .lampRestored .part lamp 0) else none
    else none)

/-- Checks 1 to 4 of a validation pass: kind, field, mode and span (R47). -/
abbrev Entry.fieldsPass (e : Entry) : Prop :=
  e.kind ≠ none ∧ e.shift + e.width ≤ 16
    ∧ (e.kind = some .discrete → e.width = 1 ∧ e.mode ≠ none) ∧ (e.kind = some .valve → e.width = 2)
    ∧ (e.kind = some .analogue → e.zero < e.full)

/-- The command that handles a press of a key, ENTER by the pending command (R151). -/
def handlerOf (key : Key) (pending : Option EntryCommand) : Instr :=
  match key, pending with
  | .digit _, _ => .dataKey
  | .ack, _ => .ackKey
  | .clear, _ => .clearKey
  | .group, _ => .groupKey
  | .shelve, _ => .shelveKey
  | .silence, _ => .silenceKey
  | .test, _ => .testKey
  | .dim, _ => .dimKey
  | .enter, none => .enterNoCommand
  | .enter, some .ack => .enterAck
  | .enter, some .clear => .enterClear
  | .enter, some .group => .enterGroup
  | .enter, some .shelve => .enterShelve

/-- The command that ends a part word access, by its work (95). -/
def enderOf : PartWork → Instr
  | .reread => .captureRereadDone
  | .ring (.word _) => .ringWordWriteDone
  | .ring .head => .headWriteDone
  | .ring .k18 => .k18WriteDone
  | .config .k0 => .k0ReadDone
  | .config .k1 => .generationRead
  | .config .k2 => .cardCountRead
  | .config .k3 => .cardCountRead
  | .config .k4 => .flashShelveRead
  | .config .k5 => .boardFaultLampRead
  | .config .k16 => .ringValuesRead
  | .config .k17 => .ringValuesRead
  | .config .k18 => .ringValuesRead
  | .config (.group _ 0) => .groupSettingsRead
  | .config (.group _ (_ + 1)) => .groupLampRead
  | .config (.entry _ _) => .entryReadDone
  | .config (.source _ _) => .sourceReadDone
  | .status _ => .statusWriteDone
  | .image _ => .imageWriteDone

/-- The commands that are pieces of a tick (R109, R143). -/
def tickPieces : List Instr :=
  [.phaseBoundary, .settleEnd, .lampTestEnd, .frameSlot, .boardSecond, .keyRelease]

/-! ## Invariants -/

/-- The lengths and counts the spec bounds (R7, R102, R164, R165). -/
def State.bounded (s : State) : Prop :=
  s.path.capture.length ≤ 64 ∧ s.events.queue.length ≤ 32 ∧ s.ann.shelf.length ≤ 32
    ∧ s.events.lost ≤ 65535 ∧ s.events.sweepDiscards ≤ 65535

/-- A DARK board does not settle, and the Pattern Generator's counters keep their ranges (R111, R116,
R120, R122). -/
def PatternGen.legal (g : PatternGen) : Prop :=
  (g.settling = true → g.mode ≠ .dark) ∧ g.settleCount < 256 ∧ g.testTimer ≤ 1000
    ∧ g.phaseTicks < phaseLength g.flash

/-- A chain's count and bad count go with its state (R25, R127, R133 to R135). -/
def Chain.legal (x : Chain) : Prop :=
  x.count ≤ 16
    ∧ match x.state with
      | .idle => x.count = 0 ∧ x.bad = 0
      | .ok => x.count ≠ 0 ∧ x.bad ≤ 2
      | .faulted => x.count ≠ 0 ∧ x.bad = 3

/-- The four chains are legal and no fail count passes 2 (R137). -/
def Chains.legal (c : Chains) : Prop :=
  c.a.legal ∧ c.b.legal ∧ c.c.legal ∧ c.d.legal ∧ ∀ lamp, c.fails.val 0 lamp ≤ 2

/-- The lamp fault count is the number of lamps whose fault flag is set (R137, R139). -/
def Chains.faultsCounted (c : Chains) : Prop :=
  c.fails.canonical 0 = true ∧ c.faultCount = (c.fails.filter (fun e => e.2 == 2)).length

/-- The entry buffer, the selected group, the error reason and the scan counts keep their ranges (R142,
R143, R148). -/
def Panel.legal (p : Panel) : Prop :=
  p.digits.length ≤ 3 ∧ (p.command = none → p.digits = [])
    ∧ (∀ g, p.selected = some g → g < 64) ∧ (∀ r, p.error = some r → 1 ≤ r ∧ r ≤ 10)
    ∧ p.pressCount ≤ 3 ∧ p.releaseCount ≤ 3

/-- What holds while a reset input is asserted: no access under HRST# (R16); under BRST# an empty capture
queue, an unconfigured board, and only disregarded part words (R14, R15). -/
def State.resetsHold (s : State) : Prop :=
  (s.path.hostReset = true → s.path.access = none)
    ∧ (s.path.inReset = true →
        s.path.capture = [] ∧ s.loader.cfg = .unconfigured ∧ s.path.requests = Requests.none
          ∧ ∀ a, s.path.partAccess = some a → a.disregard = true)

/-- The unacknowledged list holds each point in NEW or FLEETING once, and no other (R92). -/
def State.listExact (s : State) : Prop :=
  s.ann.unack.Nodup
    ∧ ∀ n, n ∈ s.ann.unack ↔ s.annState n = some .new ∨ s.annState n = some .fleeting

/-- The shelf holds each point in SHELVED once, and no other (R102). -/
def State.shelfExact (s : State) : Prop :=
  (s.ann.shelf.map ShelfRec.point).Nodup
    ∧ ∀ n, n ∈ s.ann.shelf.map ShelfRec.point ↔ s.annState n = some .shelved

/-- A board second left due at the shelf has a record that it makes expire; no other is left due (R104, log 11). -/
def State.dueExpires (s : State) : Prop := s.ann.shelfDue = true → s.shelfExpiring = true

/-- A point with an annunciation record is INSTALLED and has its held words; a point whose source word is
awaited, or whose first value is, has none yet (R39, R44, R53 to R55, R84). -/
def State.joined (s : State) : Prop :=
  (∀ n, s.annState n ≠ none → (s.point n).status = .installed ∧ s.entryOf n ≠ none)
    ∧ (∀ n w, s.evaluator.firstValue = some (n, w) → s.annState n = none)
    ∧ ∀ r, s.loader.reload = some r → r.stage ≠ .entry → s.annState r.point = none

/-- The invariant of the machine. -/
structure State.Inv (s : State) : Prop where
  memory : s.ram.wf = true
  bounds : s.bounded
  gen : s.gen.legal
  chains : s.chains.legal
  faults : s.chains.faultsCounted
  panel : s.panel.legal
  resets : s.resetsHold
  pendingOnce : s.loader.pendingPoints.Nodup
  values : s.evaluator.values.sorted = true
  records : s.ann.records.sorted = true
  dirty : s.gen.dirty.Pairwise (· < ·)
  list : s.listExact
  shelf : s.shelfExact
  due : s.dueExpires
  joined : s.joined

end Sys2Proof.Machine
end

