-- ==== Sys2Proof/Certificates/Slice0/Obligations.lean ====
section
/-! DEFINITION. The statements about the machine, one Prop each. -/

open Sys2Proof Sys2Proof.Machine

/-! ## The machine as a whole -/

/-- The command at the front of the queue is run on the state with the queue's rest. -/
def Obligations.StepRunsTheFrontCommand : Prop :=
  ∀ (c : Instr) (rest : List Instr) (s : State),
    step { s with pending := c :: rest } = exec c { s with pending := rest }

/-- DESIGN CHOICE (log 1): with an empty queue the block idles. -/
def Claim.StepIdlesOnAnEmptyQueue : Prop :=
  ∀ s : State, s.pending = [] → step s = .next s

/-- DESIGN CHOICE (log 7): every command that is not a piece of a tick acts as if the tick under way had
been finished first; a finished tick has nothing left to do. -/
def Claim.EveryCommandFinishesTheTickFirst : Prop :=
  (∀ s : State, (finishTick s).tickDone)
    ∧ ∀ (c : Instr) (s : State), c ∉ tickPieces → exec c s = exec c (finishTick s)

/-- The model's two choices about steps: an empty queue idles (log 1), and a command that is not a piece of a
tick finishes the tick under way first (log 7). -/
def Obligations.TheModelsStepChoices : Prop :=
  Claim.StepIdlesOnAnEmptyQueue ∧ Claim.EveryCommandFinishesTheTickFirst

/-- No command touches the queue of commands (log 1, DESIGN CHOICE). -/
def Claim.NoCommandTouchesTheQueue : Prop :=
  ∀ (c : Instr) (s t : State), exec c s = .next t → t.pending = s.pending

/-- After every command the Event Unit's copies and the panel's three inputs are what their owners hold: the
model's reading (log 19, DEDUCED) of R157, R170 and R171. -/
def Claim.ReportsAreCurrentAfterEveryCommand : Prop :=
  ∀ (c : Instr) (s t : State), exec c s = .next t →
    t.events.copies = t.reported ∧ t.panel.testOn = t.testRunning
      ∧ t.panel.silenceOn = t.ann.silence ∧ t.panel.dimOn = (t.gen.mode == .dim)

/-- Every command completes, but for a front-end access posted while another is held, which is the model's one
fault. The model's choice (log 6, DESIGN CHOICE): a command whose occasion is absent completes, and R8, by
which no two accesses are outstanding together, is kept by that fault. -/
def Claim.OnlyASecondHeldAccessStops : Prop :=
  (∀ (c : Instr) (s : State),
    (s.path.access = none ∨ (∀ a w l, c ≠ .frontEndWrite a w l) ∧ ∀ a, c ≠ .frontEndRead a) →
    ∃ t, exec c s = .next t)
  ∧ ∀ s : State, s.path.access.isSome = true →
      (∀ a w l, exec (.frontEndWrite a w l) s = .fault .accessWhileHeld)
      ∧ ∀ a, exec (.frontEndRead a) s = .fault .accessWhileHeld

/-- Every command completes, but for a second access posted while one is held, which faults, and none touches
the queue of commands: the model's choices (log 6 and log 1). -/
def Obligations.EveryCommandCompletes : Prop :=
  Claim.NoCommandTouchesTheQueue ∧ Claim.OnlyASecondHeldAccessStops

/-- What ends every command changes the copies, the owed flags, the panel's inputs and the requests, and
begins a record or a reload; a word becomes owed where a report changes it in SWEEPING or RUNNING. -/
def Claim.SettlingOnlyReportsAndRequests : Prop :=
  ∀ s : State, Changes settleParts s (settle s)
    ∧ (settle s).events.owed19 =
        (s.events.owed19 || (s.configured && s.events.copies != { s.reported with
          installed := s.events.copies.installed, rejected := s.events.copies.rejected,
          faults := s.events.copies.faults }))
    ∧ (settle s).events.owed20 =
        (s.events.owed20 || (s.configured && s.events.copies.installed != s.loader.installed))
    ∧ (settle s).events.owed21 =
        (s.events.owed21 || (s.configured && s.events.copies.rejected != s.loader.rejected))
    ∧ (settle s).events.owed22 =
        (s.events.owed22 || (s.configured && s.events.copies.faults != s.chains.faultCount))
    ∧ (s.configured = false → (settle s).events.owed19 = s.events.owed19)

/-- The Loader takes the point at the front of the pending list, and its reload begins, in the step that
raises its first read; nothing else of the Loader moves (R23, R40; log 15, DEDUCED). -/
def Claim.ReloadBeginsWhenChosen : Prop :=
  ∀ s : State,
    (∀ n rest, s.onBoard → s.path.requests.config = none → s.busyWith PartWork.isConfig = false →
      s.loader.reload = none → s.loader.pass = none → s.loader.pendingPoints = n :: rest → n ∉ rest →
      (settle s).path.requests.config = some (.entry n 0)
        ∧ (settle s).loader =
          { s.loader with pendingPoints := rest, reload := some ⟨n, [], .entry⟩ })
    ∧ (∀ p, s.onBoard → s.path.requests.config = none → s.busyWith PartWork.isConfig = false →
      s.loader.reload = none → s.loader.pass = some p → p.next.ofPass = true →
      (settle s).path.requests.config = some p.next ∧ (settle s).loader = s.loader)
    ∧ ((s.path.requests.config ≠ none ∨ s.loader.reload ≠ none ∨ s.loader.cfg = .unconfigured
        ∨ s.busyWith PartWork.isConfig = true ∨ s.loader.pendingPoints = [] ∧ s.loader.pass = none) →
      (settle s).loader = s.loader)

/-- The requests that stand at the end of every command, requester by requester: the re-read of a partial item at
the front (R9); in SWEEPING and RUNNING the ring writer's choice once the ring values are held (R167), the Loader's
next read (R23), the owed status word of lowest offset (R171) and the image writer's choice (R126). With the first
word of a record, that record is in progress (R167, case 4). An access whose completion is disregarded is not under
way for its requester: the model's choice (log 17). -/
def Claim.RequestsRaised : Prop :=
  ∀ s t : State, t = settle s →
    requestFollows s.path.requests.reread (∃ a d, s.underWay .reread a d)
        (match s.path.capture with
          | item :: _ => if item.partialItem then some item.addr else none
          | [] => none)
        t.path.requests.reread
    ∧ requestFollows s.path.requests.ring (∃ w a d, s.underWay (.ring w) a d)
        (if s.onBoard ∧ s.events.ringHeld = true then s.events.wantRing else none)
        t.path.requests.ring
    ∧ requestFollows s.path.requests.config (∃ r a d, s.underWay (.config r) a d)
        (if s.onBoard then s.loader.wantConfig else none)
        t.path.requests.config
    ∧ requestFollows s.path.requests.status (∃ w a d, s.underWay (.status w) a d)
        (if s.onBoard then
          if t.events.owed19 then some .k19
          else if t.events.owed20 then some .k20
          else if t.events.owed21 then some .k21
          else if t.events.owed22 then some .k22
          else none
        else none)
        t.path.requests.status
    ∧ requestFollows s.path.requests.image (∃ w a d, s.underWay (.image w) a d)
        (if s.onBoard then s.gen.wantImage else none)
        t.path.requests.image
    ∧ (∀ i, t.path.requests.ring = some (.word i) → s.events.inProgress = none →
        t.events.inProgress = some 0)
    ∧ ((∀ i, t.path.requests.ring ≠ some (.word i)) ∨ s.events.inProgress ≠ none →
        t.events.inProgress = s.events.inProgress)

/-- The Loader's next read: a reload's next word or its source word, else the pass's, else the first word of the
point at the front of the pending list (R23, R41, R54). -/
def Claim.LoaderReads : Prop :=
  ∀ l : Loader,
    (∀ r, l.reload = some r → r.stage = .entry →
      l.wantConfig = some (.entry r.point r.words.length))
    ∧ (∀ r e, l.reload = some r → r.stage = .source →
      (l.points.val PointRec.absent r.point).held = some e →
      l.wantConfig = some (.source r.point e.source))
    ∧ (∀ r, l.reload = some r → r.stage = .value → l.wantConfig = none)
    ∧ (∀ p, l.reload = none → l.pass = some p → l.wantConfig = some p.next)
    ∧ (∀ n rest, l.reload = none → l.pass = none → l.pendingPoints = n :: rest →
      l.wantConfig = some (.entry n 0))
    ∧ (l.reload = none → l.pass = none → l.pendingPoints = [] → l.wantConfig = none)

/-- What the owners report to the Event Unit (R170, R171). -/
def Claim.Reported : Prop :=
  ∀ s : State,
    s.reported.cfg = s.loader.cfg ∧ s.reported.mode = s.gen.mode
      ∧ s.reported.settling = s.gen.settling
      ∧ (s.reported.test = true ↔ 0 < s.gen.testTimer) ∧ s.reported.silence = s.ann.silence
      ∧ (s.reported.horn = true ↔ s.ann.hornClass ≠ none)
      ∧ s.reported.chainA = s.chains.a.state ∧ s.reported.chainB = s.chains.b.state
      ∧ s.reported.chainC = s.chains.c.state ∧ s.reported.chainD = s.chains.d.state
      ∧ s.reported.installed = s.loader.installed ∧ s.reported.rejected = s.loader.rejected
      ∧ s.reported.faults = s.chains.faultCount
      ∧ (s.testRunning = true ↔ 0 < s.gen.testTimer)

/-- What ends every command: reports, owed words, the requests of all five requesters, and the record or the
reload that a request begins (R9, R12, R23, R40, R126, R157, R167, R170, R171). That all of it happens in the step of
the command is the model's reading (log 19, and log 15 for the reload; both DEDUCED); that a disregarded access holds
no request back is its choice (log 17). -/
def Obligations.ReportsAndRequestsAfterEveryCommand : Prop :=
  Claim.ReportsAreCurrentAfterEveryCommand ∧ Claim.SettlingOnlyReportsAndRequests
    ∧ Claim.ReloadBeginsWhenChosen ∧ Claim.RequestsRaised ∧ Claim.LoaderReads ∧ Claim.Reported

/-- The state right after a board reset: R19's table, R122, R142 and 09 9.7. The straps, HRST# and HD are
the model's choice (logs 3 and 4). -/
def Obligations.ResetLeavesTheSpecifiedState : Prop :=
  State.reset.loader = Loader.afterReset
    ∧ State.reset.loader.cfg = .unconfigured ∧ State.reset.loader.generation = none
    ∧ State.reset.chains.a.count = 0 ∧ State.reset.chains.b.count = 0
    ∧ State.reset.chains.c.count = 0 ∧ State.reset.chains.d.count = 0
    ∧ State.reset.ann = Annunciator.afterReset ∧ State.reset.ann.shelveMinutes = 0
    ∧ State.reset.gen.mode = .lit ∧ State.reset.gen.settling = true
    ∧ State.reset.gen.settleCount = 0 ∧ State.reset.gen.flash = 1 ∧ State.reset.gen.phase = 0
    ∧ State.reset.gen.dirty = [] ∧ State.reset.gen.lastWord = 1023
    ∧ State.reset.gen.modeOwed = true
    ∧ State.reset.panel.lock = false ∧ State.reset.panel.command = none
    ∧ State.reset.panel.selected = none ∧ State.reset.panel.error = none
    ∧ State.reset.events.operand = 0 ∧ State.reset.events.queue = []
    ∧ State.reset.events.ringHeld = false
    ∧ State.reset.path.capture = [] ∧ State.reset.path.partAccess = none
    ∧ State.reset.path.requests = ⟨none, none, some .k0, none, none⟩

def Obligations.InvariantHoldsAtReset : Prop := State.reset.Inv

/-- Every step keeps the invariant: RAM canonical, every queue and count in its bound, the modes, chains
and panel legal, the lamp fault count exact, the resets' holds, no point twice on the pending list, the
value records and the annunciation records in rising order of points, the dirty set in rising order, the
unacknowledged list and the shelf exact (R92, R102), every annunciation record with an INSTALLED point; and no board
second left due at the shelf but one at which a record expires, the model's own invariant (log 11). -/
def Obligations.EveryStepKeepsTheInvariant : Prop :=
  ∀ s t : State, s.Inv → step s = .next t → t.Inv

/-! ## The Memory Path -/

/-- The board region: 32,768 words from the base on, a word's offset its address less the base (R4); the lamp image
words (10.6); and the image word of an address that is in the dirty set (R2). -/
def Claim.BoardRegion : Prop :=
  (∀ (base a : Addr) (off : Nat),
    regionOffset base a = some off ↔ a.toNat = base.toNat + off ∧ off < 0x8000)
  ∧ (∀ off w : Nat, imageIndex off = some w ↔ off = 0x7640 + w ∧ w < 1024)
  ∧ ∀ (s : State) (a : Addr) (w : Nat), s.dirtyImage a = some w ↔
      (regionOffset s.path.base a).bind imageIndex = some w ∧ w ∈ s.gen.dirty

/-- The words that can be watched, by their offsets (R6, R17, 10.2 to 10.4), and the region item at the front of the
capture queue: an item of such a word that is not partial (R9, R10). -/
def Claim.RegionWords : Prop :=
  [0x7000, 0x7001, 0x7008, 0x7009, 0x700A, 0x700B, 0x7011, 0x7012].map regionWordAt =
      [some .k0, some .k1, some .k8, some .k9, some .k10, some .k11, some .k17, some .k18]
    ∧ (∀ n, n < 1792 → regionWordAt (n * 16 + 15) = some (.control n))
    ∧ (∀ g i, g < 64 → i ≤ 4 → regionWordAt (0x7040 + g * 8 + i) = some (.group g i))
    ∧ (∀ off, regionWordAt off ≠ none → off ∈ [0x7000, 0x7001, 0x7008, 0x7009, 0x700A, 0x700B, 0x7011, 0x7012]
        ∨ (∃ n, n < 1792 ∧ off = n * 16 + 15) ∨ ∃ g i, g < 64 ∧ i ≤ 4 ∧ off = 0x7040 + g * 8 + i)
    ∧ ∀ (s : State) (r : RegionWord) (w : Word), s.front r w ↔
        ∃ item rest off, s.path.capture = item :: rest ∧ item.partialItem = false ∧ item.data = w
          ∧ regionOffset s.path.base item.addr = some off ∧ regionWordAt off = some r

/-- The watched words: R6's list in the region, the sources of the watch index outside it (R5). -/
def Claim.WatchDecision : Prop :=
  ∀ (s : State) (a : Addr), s.path.inReset = false →
    (∀ off, regionOffset s.path.base a = some off →
      (s.watched a = true ↔
        off = 0x7000 ∨ (s.onBoard ∧
          (off ∈ [0x7001, 0x7008, 0x7009, 0x700A, 0x700B, 0x7011, 0x7012]
            ∨ (off < 0x7000 ∧ off % 16 = 15)
            ∨ (0x7040 ≤ off ∧ off < 0x7240 ∧ (off - 0x7040) % 8 ≤ 4)))))
    ∧ (regionOffset s.path.base a = none →
        (s.watched a = true ↔ ∃ p ∈ s.loader.watch, p.1 = a.toNat))

/-- The board region and its words by offset, and which of them are watched (R2, R4 to R6, R10, R17). -/
def Obligations.WatchDecision : Prop :=
  Claim.WatchDecision ∧ Claim.BoardRegion ∧ Claim.RegionWords

/-- A front-end write with the port free: not watched, it reaches RAM alone; watched with a place free,
it reaches RAM and joins the end of the capture queue; watched with 64 items queued, it is held (R1, R7, R8). -/
def Claim.FrontEndWrite : Prop :=
  ∀ (s : State) (a : Addr) (w : Word) (l : BitVec 2),
    s.tickDone → s.path.access = none → s.path.hostReset = false → s.path.partAccess = none →
    (s.watched a = false →
      exec (.frontEndWrite a w l) s = .next (settle (s.setRam (s.ram.writeLanes a w l))))
    ∧ (s.watched a = true → s.path.capture.length < 64 →
      exec (.frontEndWrite a w l) s = .next (settle
        ((s.setRam (s.ram.writeLanes a w l)).setPath { s.path with
          capture := s.path.capture ++ [⟨a, w, l, l != 3⟩] })))
    ∧ (s.watched a = true → ¬ s.path.capture.length < 64 →
      exec (.frontEndWrite a w l) s = .next (settle
        (s.setPath { s.path with access := some ⟨a, .write w l, .fullQueue⟩ })))

/-- A write stores the enabled lanes and keeps every other byte of RAM, the other lane of the word with
them (R1). -/
def Claim.WriteStoresTheEnabledLanes : Prop :=
  ∀ (m : Memory) (a : Addr) (w : Word) (l : BitVec 2),
    (l.getLsbD 0 = true → (m.writeLanes a w l).readByte (cellOf a 0) = w.extractLsb' 0 8)
    ∧ (l.getLsbD 1 = true → (m.writeLanes a w l).readByte (cellOf a 1) = w.extractLsb' 8 8)
    ∧ ∀ k, (k = cellOf a 0 → l.getLsbD 0 = false) → (k = cellOf a 1 → l.getLsbD 1 = false) →
        (m.writeLanes a w l).readByte k = m.readByte k

/-- A front-end write and the bytes it stores (R1, R7, R8). -/
def Obligations.FrontEndWrites : Prop :=
  Claim.FrontEndWrite ∧ Claim.WriteStoresTheEnabledLanes

/-- A read with the port free drives the RAM word, or the held value of an image word in the dirty set,
and changes nothing else (R2). -/
def Obligations.FrontEndRead : Prop :=
  ∀ (s : State) (a : Addr),
    s.tickDone → s.path.access = none → s.path.hostReset = false → s.path.partAccess = none →
    (∀ w, (regionOffset s.path.base a).bind imageIndex = some w → w ∈ s.gen.dirty →
      exec (.frontEndRead a) s = .next (settle
        (s.setPath { s.path with hostData := s.imageWord w })))
    ∧ ((∀ w, (regionOffset s.path.base a).bind imageIndex = some w → w ∉ s.gen.dirty) →
      exec (.frontEndRead a) s = .next (settle
        (s.setPath { s.path with hostData := s.ram.readWord a })))

/-- An access that begins during a part word access is held, but for a read of a dirty image word (R3). -/
def Claim.AccessHeldBehindAPartWord : Prop :=
  ∀ (s : State) (a : Addr) (w : Word) (l : BitVec 2) (p : PartAccess),
    s.tickDone → s.path.access = none → s.path.hostReset = false → s.path.partAccess = some p →
    exec (.frontEndWrite a w l) s = .next (settle
        (s.setPath { s.path with access := some ⟨a, .write w l, .partWord⟩ }))
    ∧ (s.dirtyImage a = none → exec (.frontEndRead a) s = .next (settle
        (s.setPath { s.path with access := some ⟨a, .read, .partWord⟩ })))
    ∧ (∀ i, s.dirtyImage a = some i → exec (.frontEndRead a) s = .next (settle
        (s.setPath { s.path with hostData := s.imageWord i })))

/-- A held access is taken, once its part word has ended or its place is free, exactly as if it were posted
now: HELD_ACCESS_TAKEN and HELD_WRITE_RELEASE answer what the posting answers (R3, R5, R8). The clauses on an
access that a board reset has released from HWAIT are the model's reading of R15 (log 21, DEDUCED). -/
def Claim.HeldAccessIsTakenAfresh : Prop :=
  ∀ (s : State) (h : HeldAccess),
    s.tickDone → s.path.access = some h → s.path.hostReset = false → s.path.partAccess = none →
    ((h.reason = .partWord ∨ h.reason = .released →
        exec .heldAccessTaken s = .next (settle (takeAccess h.addr h.kind s)))
      ∧ (∀ w l, h.reason = .releasedWrite → h.kind = .write w l → exec .heldAccessTaken s = .next (settle
          ((s.setRam (s.ram.writeLanes h.addr w l)).setPath { s.path with access := none })))
      ∧ (h.reason = .fullQueue → s.path.capture.length < 64 →
          exec .heldWriteRelease s = .next (settle (takeAccess h.addr h.kind s))))
    ∧ (∀ w l, h.kind = .write w l → exec (.frontEndWrite h.addr w l)
          (s.setPath { s.path with access := none })
        = .next (settle (takeAccess h.addr h.kind (s.setPath { s.path with access := none }))))
    ∧ (∀ w l, h.kind = .write w l → s.watched h.addr = false →
        takeAccess h.addr h.kind s =
          (s.setRam (s.ram.writeLanes h.addr w l)).setPath { s.path with access := none })
    ∧ (∀ w l, h.kind = .write w l → s.watched h.addr = true → s.path.capture.length < 64 →
        takeAccess h.addr h.kind s =
          (s.setRam (s.ram.writeLanes h.addr w l)).setPath { s.path with
            access := none, capture := s.path.capture ++ [⟨h.addr, w, l, l != 3⟩] })
    ∧ (∀ w l, h.kind = .write w l → s.watched h.addr = true → ¬ s.path.capture.length < 64 →
        takeAccess h.addr h.kind s =
          s.setPath { s.path with access := some ⟨h.addr, .write w l, .fullQueue⟩ })
    ∧ (∀ i, h.kind = .read → s.dirtyImage h.addr = some i → takeAccess h.addr h.kind s =
        s.setPath { s.path with access := none, hostData := s.imageWord i })
    ∧ (h.kind = .read → s.dirtyImage h.addr = none → takeAccess h.addr h.kind s =
        s.setPath { s.path with access := none, hostData := s.ram.readWord h.addr })

/-- An access still held: a write held for a full queue waits while there is no place (R8), and, once there is one,
for the part word under way, if there is one (R3, R8); no held access is taken during a part word (R3). -/
def Claim.HeldAccessWaits : Prop :=
  ∀ (s : State) (h : HeldAccess), s.tickDone → s.path.access = some h →
    (h.reason = .fullQueue → ¬ s.path.capture.length < 64 →
      exec .heldWriteRelease s = .next (settle s))
    ∧ (∀ p, h.reason = .fullQueue → s.path.capture.length < 64 → s.path.partAccess = some p →
      exec .heldWriteRelease s = .next (settle
        (s.setPath { s.path with access := some { h with reason := .partWord } })))
    ∧ (∀ p, s.path.partAccess = some p → exec .heldAccessTaken s = .next (settle s))

/-- HWAIT is asserted while an access is held behind a part word or for a full queue, and for no other reason
(R3, R8); a host reset and a board reset release it (R15, R16). That HWAIT falls at a board reset while an
access still waits for a part word is the model's reading (log 21, DEDUCED). -/
def Claim.Hwait : Prop :=
  (∀ s : State, s.hwait = true ↔
      ∃ h, s.path.access = some h ∧ (h.reason = .partWord ∨ h.reason = .fullQueue))
    ∧ (∀ (s t : State) (a : Addr) (w : Word) (l : BitVec 2), s.tickDone → s.path.access = none →
        exec (.frontEndWrite a w l) s = .next t →
        (t.hwait = true ↔ s.path.hostReset = false
          ∧ (s.path.partAccess ≠ none ∨ s.watched a = true ∧ ¬ s.path.capture.length < 64)))
    ∧ (∀ (s t : State) (a : Addr), s.tickDone → s.path.access = none →
        exec (.frontEndRead a) s = .next t →
        (t.hwait = true ↔
          s.path.hostReset = false ∧ s.path.partAccess ≠ none ∧ s.dirtyImage a = none))
    ∧ (∀ s t : State, exec .hostReset s = .next t ∨ exec .boardReset s = .next t → t.hwait = false)
    ∧ ∀ (c : Instr) (s t : State), (∀ a w l, c ≠ .frontEndWrite a w l) → (∀ a, c ≠ .frontEndRead a) →
        c ≠ .heldAccessTaken → exec c s = .next t → t.hwait = true → s.hwait = true

/-- How a front-end access comes to be held, HWAIT, how the access waits and how it is taken, a read and a write (R2,
R3, R5, R7, R8, R15, R16; what becomes of an access that a board reset finds behind a part word is log 21's reading;
the answer to a held read whose image word joins the dirty set during the hold is log 18's choice). -/
def Obligations.HeldAccesses : Prop :=
  Claim.AccessHeldBehindAPartWord ∧ Claim.HeldAccessIsTakenAfresh ∧ Claim.HeldAccessWaits ∧ Claim.Hwait

/-- A host reset abandons the held access, which reaches neither RAM nor the queue; until its release no
access begins (R16). -/
def Claim.HostReset : Prop :=
  ∀ s : State, s.tickDone →
    exec .hostReset s = .next (settle (s.setPath { s.path with access := none, hostReset := true }))
    ∧ exec .hostResetRelease s = .next (settle (s.setPath { s.path with hostReset := false }))
    ∧ (s.path.hostReset = true → s.path.access = none → ∀ a w l,
        exec (.frontEndWrite a w l) s = .next (settle s) ∧ exec (.frontEndRead a) s = .next (settle s))

/-- A board reset puts every block into its reset state and empties the queue; RAM, the cards and what the
panel shows stand; a part word under way runs on disregarded; HWAIT is released, a held access being taken
where the port is free, a write among them to RAM alone (R14, R15, R19, R141). The model's choices among the
reset values: the clear frame slot marker of t.gen (log 22, DESIGN CHOICE), the ring head, tail and lost count
0 of t.events (log 4, DESIGN CHOICE). The model's reading: what a held access waits for where a part word is
under way (log 21, DEDUCED). -/
def Claim.BoardReset : Prop :=
  ∀ s : State, s.tickDone →
    ∃ t, exec .boardReset s = .next t
      ∧ t.loader = .afterReset ∧ t.evaluator = .afterReset ∧ t.ann = .afterReset
      ∧ t.gen = .afterReset ∧ t.chains = .afterReset ∧ t.events = .afterReset
      ∧ t.panel = .afterReset s.panel.shown ∧ t.cards = s.cards
      ∧ t.path.inReset = true ∧ t.path.capture = [] ∧ t.path.requests = Requests.none
      ∧ t.path.partAccess = s.path.partAccess.map (fun a => { a with disregard := true })
      ∧ t.path.hostReset = s.path.hostReset ∧ t.path.base = s.path.base
      ∧ t.hwait = false
      ∧ (s.path.access = none → t.ram = s.ram ∧ t.path.access = none)
      ∧ (∀ h w l, s.path.access = some h → h.kind = .write w l → s.path.partAccess = none →
          t.ram = s.ram.writeLanes h.addr w l ∧ t.path.access = none)
      ∧ (∀ h, s.path.access = some h → h.kind = .read → s.path.partAccess = none →
          t.ram = s.ram ∧ t.path.access = none ∧ t.path.hostData = s.ram.readWord h.addr)
      ∧ (∀ h p, s.path.access = some h → s.path.partAccess = some p →
          t.ram = s.ram ∧ t.path.access = some { h with reason := match h.reason with
            | .partWord | .released => .released
            | .fullQueue | .releasedWrite => .releasedWrite })

/-- The end of a board reset samples the straps and raises the k0 read (R4, R14). -/
def Claim.BoardResetEnd : Prop :=
  (baseOfStraps 0).toNat = 0x60000 ∧ (baseOfStraps 1).toNat = 0x68000
    ∧ (baseOfStraps 2).toNat = 0x70000 ∧ (baseOfStraps 3).toNat = 0x78000
    ∧ ∀ (s : State) (straps : BitVec 2), s.tickDone → s.path.inReset = true →
      exec (.boardResetEnd straps) s = .next (settle (s.setPath { s.path with
        inReset := false, base := baseOfStraps straps,
        requests := { s.path.requests with config := some .k0 } }))

/-- The host reset, the board reset and its end (R4, R14 to R16, R19). The model's choices in it: the reset
value of the frame slot marker (log 22), of the ring head, the tail and the lost count (log 4), and the reading
of R15 where a part word is under way (log 21). -/
def Obligations.Resets : Prop :=
  Claim.HostReset ∧ Claim.BoardReset ∧ Claim.BoardResetEnd

/-- When the arbiter may start a part word access: no board reset, the port idle, and no front-end access under
way, one held for a full capture queue not counted (R12, R14); otherwise a grant changes nothing. -/
def Claim.GrantNeedsAnIdleSlot : Prop :=
  ∀ s : State,
    (s.slotIdle = true ↔ s.path.inReset = false ∧ s.path.partAccess = none
      ∧ ∀ h, s.path.access = some h → h.reason = .fullQueue ∧ ¬ s.path.capture.length < 64)
    ∧ (s.tickDone → s.slotIdle = false → exec .partAccessGrant s = .next (settle s))

/-- In an idle slot the waiting request of highest priority is served: which word, and with what data
(R9, R12, R125, R126, R165, R167, R171). A served status word is no longer owed, a served k18 no longer owed,
and a served image word counts as unchanged from then on. -/
def Claim.GrantServesTheHighestRequest : Prop :=
  ∀ s : State, s.tickDone → s.slotIdle = true →
    (∀ a, s.path.requests.reread = some a →
      exec .partAccessGrant s = .next (settle (s.setPath { s.path with
        requests := { s.path.requests with reread := none }
        partAccess := some ⟨.reread, a, s.ram.readWord a, false⟩ })))
    ∧ (∀ i r q, s.path.requests.reread = none → s.path.requests.ring = some (.word i) →
        s.events.queue = r :: q →
      exec .partAccessGrant s = .next (settle (s.setPath { s.path with
        requests := { s.path.requests with ring := none }
        partAccess := some ⟨.ring (.word i),
          regionAddr s.path.base (0x7240 + s.events.head.toNat * 4 + i), r.word i, false⟩ })))
    ∧ (s.path.requests.reread = none → s.path.requests.ring = some .k18 →
      exec .partAccessGrant s = .next (settle ((s.setPath { s.path with
        requests := { s.path.requests with ring := none }
        partAccess := some ⟨.ring .k18, regionAddr s.path.base 0x7012,
          BitVec.ofNat 16 s.events.lost, false⟩ }).setEvents { s.events with k18Owed := false })))
    ∧ (s.path.requests.reread = none → s.path.requests.ring = some .head →
      exec .partAccessGrant s = .next (settle (s.setPath { s.path with
        requests := { s.path.requests with ring := none }
        partAccess := some ⟨.ring .head, regionAddr s.path.base 0x7010,
          (s.events.head + 1).setWidth 16, false⟩ })))
    ∧ (∀ r, s.path.requests.reread = none → s.path.requests.ring = none →
        s.path.requests.config = some r →
      exec .partAccessGrant s = .next (settle (s.setPath { s.path with
        requests := { s.path.requests with config := none }
        partAccess := some ⟨.config r, r.address s.path.base,
          s.ram.readWord (r.address s.path.base), false⟩ })))
    ∧ (∀ w, s.path.requests.reread = none → s.path.requests.ring = none →
        s.path.requests.config = none → s.path.requests.status = some w →
      exec .partAccessGrant s = .next (settle ((s.setPath { s.path with
        requests := { s.path.requests with status := none }
        partAccess := some ⟨.status w, regionAddr s.path.base (0x7000 + w.header),
          s.events.copies.word w, false⟩ }).setEvents (match w with
            | .k19 => { s.events with owed19 := false }
            | .k20 => { s.events with owed20 := false }
            | .k21 => { s.events with owed21 := false }
            | .k22 => { s.events with owed22 := false }))))
    ∧ (∀ w, s.path.requests.reread = none → s.path.requests.ring = none →
        s.path.requests.config = none → s.path.requests.status = none →
        s.path.requests.image = some w →
      exec .partAccessGrant s = .next (settle ((s.setPath { s.path with
        requests := { s.path.requests with image := none }
        partAccess := some ⟨.image w, regionAddr s.path.base (0x7640 + w), s.imageWord w, false⟩ }).setGen
          { s.gen with servedChanged := false })))

/-- The status words by their fields: k19 by 10.3's table, k20 to k22 the three counts (R170, R171). -/
def Claim.StatusWords : Prop :=
  ∀ c : StatusCopies,
    (c.word .k19).extractLsb' 0 2 =
        (match c.cfg with | .unconfigured => 0 | .sweeping => 1 | .running => 2)
      ∧ (c.word .k19).extractLsb' 2 2 = (match c.mode with | .lit => 0 | .dim => 1 | .dark => 2)
      ∧ (c.word .k19).getLsbD 4 = c.settling ∧ (c.word .k19).getLsbD 5 = c.test
      ∧ (c.word .k19).getLsbD 6 = c.silence ∧ (c.word .k19).getLsbD 7 = c.horn
      ∧ (c.word .k19).extractLsb' 8 2 = (match c.chainA with | .idle => 0 | .ok => 1 | .faulted => 2)
      ∧ (c.word .k19).extractLsb' 10 2 = (match c.chainB with | .idle => 0 | .ok => 1 | .faulted => 2)
      ∧ (c.word .k19).extractLsb' 12 2 = (match c.chainC with | .idle => 0 | .ok => 1 | .faulted => 2)
      ∧ (c.word .k19).extractLsb' 14 2 = (match c.chainD with | .idle => 0 | .ok => 1 | .faulted => 2)
      ∧ c.word .k20 = BitVec.ofNat 16 c.installed ∧ c.word .k21 = BitVec.ofNat 16 c.rejected
      ∧ c.word .k22 = BitVec.ofNat 16 c.faults
      ∧ [StatusWord.k19, .k20, .k21, .k22].map StatusWord.header = [19, 20, 21, 22]

/-- The words of an event record: kind code and origin in e0, the bits above them 0, then subject, detail and time
(10.5), with R163's kind codes 01h to 12h and origins 0 to 3. -/
def Claim.EventWords : Prop :=
  (∀ r : EventRecord,
    (r.word 0).extractLsb' 0 8 = BitVec.ofNat 8 r.kind.code
      ∧ (r.word 0).extractLsb' 8 2 =
          (match r.origin with | .part => 0 | .panel => 1 | .remote => 2 | .groupRequest => 3)
      ∧ (r.word 0).extractLsb' 10 6 = 0
      ∧ r.word 1 = r.subject ∧ r.word 2 = r.detail ∧ r.word 3 = r.time)
  ∧ [EventKind.raised, .returned, .acked, .cleared, .stale, .fresh, .shelved, .unshelved, .command,
      .commandError, .entryRejected, .groupLampRefused, .lampFault, .lampRestored, .chainFault,
      .chainRestored, .mode, .sweepDone].map EventKind.code =
    [0x01, 0x02, 0x03, 0x04, 0x05, 0x06, 0x07, 0x08, 0x09, 0x0A, 0x0B, 0x0C, 0x0D, 0x0E, 0x0F, 0x10, 0x11, 0x12]

/-- The addresses of the Loader's reads: the header words, the group words, the words of an entry in the order w15,
w0 to w10, each by its offset, and a source word by its own address (R4, R17, R22, R41, R53). -/
def Claim.ReadAddresses : Prop :=
  (∀ (base : Addr) (off : Nat), base.toNat + off < 0x80000 →
    (regionAddr base off).toNat = base.toNat + off)
  ∧ ∀ base : Addr,
    [ConfigRead.k0, .k1, .k2, .k3, .k4, .k5, .k16, .k17, .k18].map (ConfigRead.address base) =
        [0x7000, 0x7001, 0x7002, 0x7003, 0x7004, 0x7005, 0x7010, 0x7011, 0x7012].map (regionAddr base)
      ∧ (∀ g w, (ConfigRead.group g w).address base = regionAddr base (0x7040 + g * 8 + w))
      ∧ (∀ n, (ConfigRead.entry n 0).address base = regionAddr base (n * 16 + 15)
          ∧ ∀ i, (ConfigRead.entry n (i + 1)).address base = regionAddr base (n * 16 + i))
      ∧ ∀ n a, (ConfigRead.source n a).address base = a

/-- The arbiter's grants, the status words by their fields, the words of an event record and the addresses of the
configuration reads (R4, R9, R12, R14, R17, R22, R41, R53, R125, R126, R163, R165, R167, R170, R171, 10.5).
What settles after each, the taking of a
report or the raising of a request in the same step, is the model's reading (log 19, and log 15 for a reload
that begins; both DEDUCED), and so is the held flag of an image word unchanged since its grant (log 17). -/
def Obligations.GrantServesTheHighestRequest : Prop :=
  Claim.GrantNeedsAnIdleSlot ∧ Claim.GrantServesTheHighestRequest ∧ Claim.StatusWords
    ∧ Claim.EventWords ∧ Claim.ReadAddresses

/-- A part write that completes has stored its whole word, both lanes, without being captured; the image
writer, the ring writer and the status writer then go on as their rules say (R13, R125, R164, R167, R171). -/
def Claim.PartWriteCompletes : Prop :=
  ∀ (s : State) (a : Addr) (d : Word), s.tickDone →
    (∀ w, s.underWay (.status w) a d →
      exec .statusWriteDone s = .next (settle (s.partWritten a d)))
    ∧ (s.underWay (.ring .k18) a d → exec .k18WriteDone s = .next (settle (s.partWritten a d)))
    ∧ (∀ i k, s.underWay (.ring (.word i)) a d → s.events.inProgress = some k →
      exec .ringWordWriteDone s = .next (settle ((s.partWritten a d).setEvents
        { s.events with inProgress := some (k + 1) })))
    ∧ (s.underWay (.ring .head) a d →
      exec .headWriteDone s = .next (settle ((s.partWritten a d).setEvents
        { s.events with head := s.events.head + 1, queue := s.events.queue.tail, inProgress := none })))
    ∧ (∀ w, s.underWay (.image w) a d →
      exec .imageWriteDone s = .next (settle ((s.partWritten a d).setGen
        { s.gen with
          lastWord := w
          dirty := if s.gen.servedChanged then s.gen.dirty
            else s.gen.dirty.filter (fun v => v != w) })))

/-- The capture re-read replaces the data of the partial item at the front, which is then ready (R9). -/
def Claim.CaptureReread : Prop :=
  ∀ (s : State) (a : Addr) (d : Word) (item : CaptureItem) (rest : List CaptureItem),
    s.tickDone → s.underWay .reread a d → s.path.capture = item :: rest →
    exec .captureRereadDone s = .next (settle (s.setPath { s.path with
      partAccess := none, capture := { item with data := d, partialItem := false } :: rest }))

/-- A completion that its requester disregards only ends the access, a write reaching RAM; a completion
with no such access under way changes nothing (R15, R36, log 6). -/
def Claim.DisregardedCompletion : Prop :=
  (∀ (s : State) (p : PartAccess), s.tickDone → s.path.partAccess = some p → p.disregard = true →
    (∀ g w, p.work = .config (.group g w) → w ≤ 2) →
    exec (enderOf p.work) s = .next (settle
      (if p.work.writes then s.partWritten p.addr p.data else s.portFreed)))
  ∧ (∀ (s : State) (w : PartWork), s.tickDone → s.path.partAccess = none →
      exec (enderOf w) s = .next (settle s))

/-- The completions of part word accesses that are not configuration reads, and the disregarded ones. -/
def Obligations.PartAccessCompletes : Prop :=
  Claim.PartWriteCompletes ∧ Claim.CaptureReread ∧ Claim.DisregardedCompletion

/-! ## Sweeps, settings and lamp claims -/

/-- A sweep begins: SWEEPING, a whole settings pass due, every status word owed, every image word dirty,
and the MODE event of the board reset where it is owed (R21, R122). -/
def Claim.SweepBegins : Prop :=
  ∀ s : State,
    (beginSweep s).loader.cfg = .sweeping
      ∧ (beginSweep s).loader.pass = some ⟨true, .k1, true, false⟩
      ∧ (beginSweep s).events.owed19 = true ∧ (beginSweep s).events.owed20 = true
      ∧ (beginSweep s).events.owed21 = true ∧ (beginSweep s).events.owed22 = true
      ∧ (∀ w, w ∈ (beginSweep s).gen.dirty ↔ w < 1024)
      ∧ (beginSweep s).gen.modeOwed = false
      ∧ (s.gen.modeOwed = false → (beginSweep s).events.queue = s.events.queue)
      ∧ (s.gen.modeOwed = true → s.events.queue.length < 32 →
          (beginSweep s).events.queue = s.events.queue ++
            [⟨.mode, .part, BitVec.ofNat 16 s.gen.mode.code, 5, s.gen.seconds.setWidth 16⟩])
      ∧ Changes ([.loaderCfg, .loaderPass, .eventsOwed19, .eventsOwed20, .eventsOwed21, .eventsOwed22,
          .genDirty, .genModeOwed] ++ eventParts) s (beginSweep s)

/-- The k0 read after a board reset begins a sweep where it returns 4E47h, else nothing (R20). -/
def Claim.K0Read : Prop :=
  ∀ (s : State) (a : Addr) (w : Word),
    s.tickDone → s.underWay (.config .k0) a w → s.loader.cfg = .unconfigured →
    (w = 0x4E47 → exec .k0ReadDone s = .next (settle (beginSweep s.portFreed)))
    ∧ (w ≠ 0x4E47 → exec .k0ReadDone s = .next (settle s.portFreed))

/-- A sweep and the k0 read that begins one (R20, R21, R122). -/
def Obligations.SweepFromTheK0Read : Prop :=
  Claim.SweepBegins ∧ Claim.K0Read

/-- A dispatched k0 item: the six cells of R34's table, SWEEPING and RUNNING alike. -/
def Claim.SignatureWrite : Prop :=
  ∀ (s : State) (w : Word), s.tickDone → s.front .k0 w →
    (s.loader.cfg = .unconfigured → w = 0x4E47 →
      exec .signatureWrite s = .next (settle (beginSweep (popCapture s))))
    ∧ (s.loader.cfg = .unconfigured → w ≠ 0x4E47 →
      exec .signatureWrite s = .next (settle (popCapture s)))
    ∧ (s.onBoard → w = 0x4E47 → exec .signatureWrite s = .next (settle (popCapture s)))
    ∧ (s.onBoard → w ≠ 0x4E47 →
      exec .signatureWrite s = .next (settle (deconfigure (popCapture s))))

/-- Deconfiguring, owner by owner (R35), and the work in flight (R36). The model's readings: every access under
way but the capture re-read is disregarded, where R36 says so of the Loader's reads and R125 of an image write
(log 17, DEDUCED); a wake request not yet taken stands (log 13, DESIGN CHOICE). -/
def Claim.Deconfigure : Prop :=
  ∀ s : State,
    (deconfigure s).loader = .afterReset ∧ (deconfigure s).evaluator.values = []
      ∧ (deconfigure s).ann.records = [] ∧ (deconfigure s).ann.unack = []
      ∧ (deconfigure s).ann.shelf = [] ∧ (deconfigure s).ann.silence = false
      ∧ (deconfigure s).ann.hornClass = none ∧ (∀ g, (deconfigure s).counts g = GroupCounts.zero)
      ∧ (∀ lamp, (deconfigure s).patternOf lamp = .off) ∧ (deconfigure s).gen.dirty = []
      ∧ (deconfigure s).gen.mode = s.gen.mode ∧ (deconfigure s).gen.settling = s.gen.settling
      ∧ (deconfigure s).gen.settleCount = s.gen.settleCount
      ∧ (deconfigure s).gen.testTimer = s.gen.testTimer ∧ (deconfigure s).gen.phase = s.gen.phase
      ∧ (deconfigure s).gen.phaseTicks = s.gen.phaseTicks ∧ (deconfigure s).gen.flash = s.gen.flash
      ∧ (deconfigure s).gen.waitingFlash = s.gen.waitingFlash
      ∧ (deconfigure s).gen.wakeRequests = s.gen.wakeRequests
      ∧ (deconfigure s).chains = s.chains ∧ (deconfigure s).panel = s.panel
      ∧ (deconfigure s).ann.shelveMinutes = s.ann.shelveMinutes
      ∧ (deconfigure s).events.queue = [] ∧ (deconfigure s).events.ringHeld = false
      ∧ (deconfigure s).events.sweepDiscards = 0
      ∧ (deconfigure s).events.inProgress = none ∧ (deconfigure s).events.k18Owed = false
      ∧ (deconfigure s).events.owed19 = false ∧ (deconfigure s).events.owed20 = false
      ∧ (deconfigure s).events.owed21 = false ∧ (deconfigure s).events.owed22 = false
      ∧ (deconfigure s).events.head = s.events.head ∧ (deconfigure s).events.tail = s.events.tail
      ∧ (deconfigure s).events.lost = s.events.lost ∧ (deconfigure s).events.operand = s.events.operand
      ∧ (deconfigure s).ram = s.ram ∧ (deconfigure s).path.capture = s.path.capture
      ∧ (∀ p, s.path.partAccess = some p → p.work ≠ .reread →
          (deconfigure s).path.partAccess = some { p with disregard := true })
      ∧ (∀ p, s.path.partAccess = some p → p.work = .reread →
          (deconfigure s).path.partAccess = some p)
      ∧ (deconfigure s).path.requests = { Requests.none with reread := s.path.requests.reread }

/-- A dispatched k0 item and the deconfiguring it may cause (R34 to R36; the model's readings of log 13 and
log 17 in the clauses Claim.Deconfigure names). -/
def Obligations.SignatureWrites : Prop :=
  Claim.SignatureWrite ∧ Claim.Deconfigure

/-- The read after each read of a settings pass, as R22 and R32 order them, 8 and 192 reads in a sweep. Once
k18 has been read, a pass that is restarted does not read k16 to k18 again: the model's reading (log 16,
DEDUCED). -/
def Claim.SettingsPassOrder : Prop :=
  (∀ (s : State) (p : Pass) (r next : ConfigRead), s.loader.pass = some p → p.restart = false →
      r ≠ .k18 → r.after p.ring = some next →
      advancePass r s = s.setLoader { s.loader with pass := some { p with next := next } })
    ∧ (∀ (s : State) (p : Pass) (r : ConfigRead), s.loader.pass = some p → p.restart = true → r ≠ .k18 →
      advancePass r s = s.setLoader { s.loader with
        pass := some { p with next := .k2, restart := false } })
    ∧ (∀ (s : State) (p : Pass), s.loader.pass = some p →
      (p.restart = false → advancePass .k18 s = s.setLoader { s.loader with
          pass := some { p with ring := false, next := .group 0 0 } })
      ∧ (p.restart = true → advancePass .k18 s = s.setLoader { s.loader with
          pass := some { p with ring := false, next := .k2, restart := false } }))
    ∧ (∀ ring, ConfigRead.after ring .k1 = some .k2 ∧ ConfigRead.after ring .k2 = some .k3
        ∧ ConfigRead.after ring .k3 = some .k4 ∧ ConfigRead.after ring .k4 = some .k5)
    ∧ ConfigRead.after true .k5 = some .k16 ∧ ConfigRead.after true .k16 = some .k17
    ∧ ConfigRead.after true .k17 = some .k18 ∧ ConfigRead.after false .k18 = some (.group 0 0)
    ∧ ConfigRead.after false .k5 = some (.group 0 0)
    ∧ (∀ ring g, ConfigRead.after ring (.group g 0) = some (.group g 1)
        ∧ ConfigRead.after ring (.group g 1) = some (.group g 2)
        ∧ (g < 63 → ConfigRead.after ring (.group g 2) = some (.group (g + 1) 0)))
    ∧ ∀ ring, ConfigRead.after ring (.group 63 2) = none

/-- The lamp that a word k5, g1 or g2 sets: none where its present bit is clear, else the lamp of bits 11 to 0 (R28,
R29, 10.3, 10.4); and the lamp a setting holds by a granted claim. -/
def Claim.LampField : Prop :=
  (∀ w : Word,
    (w.getLsbD 15 = false → lampField w = none)
    ∧ (w.getLsbD 15 = true → lampField w = some (w.extractLsb' 0 12).toNat))
  ∧ ∀ (x : LampSetting) (lamp : Nat), x.claimed = some lamp ↔ x.granted = true ∧ x.lamp = some lamp

/-- The reads of a settings pass complete: each word is acted on, then the pass goes on (R22, R25 to R29). The lamp
that k5, g1 or g2 names is Claim.LampField's. -/
def Claim.SettingsReads : Prop :=
  ∀ (s : State) (a : Addr) (w : Word), s.tickDone →
    (s.underWay (.config .k1) a w → exec .generationRead s = .next (settle (advancePass .k1
        (s.portFreed.setLoader { s.loader with generation := some w }))))
    ∧ (s.underWay (.config .k2) a w → exec .cardCountRead s = .next (settle (advancePass .k2
        (takeCounts .a .b w s.portFreed))))
    ∧ (s.underWay (.config .k3) a w → exec .cardCountRead s = .next (settle (advancePass .k3
        (takeCounts .c .d w s.portFreed))))
    ∧ (s.underWay (.config .k4) a w → exec .flashShelveRead s = .next (settle (advancePass .k4
        ((s.portFreed.setGen { s.gen with waitingFlash := some (w.extractLsb' 0 2) }).setAnn
          { s.ann with shelveMinutes := min 240 (w.extractLsb' 8 8).toNat }))))
    ∧ (s.underWay (.config .k5) a w → exec .boardFaultLampRead s = .next (settle (advancePass .k5
        (judgeSetting .boardFault (lampField w) s.portFreed))))
    ∧ (∀ g, s.underWay (.config (.group g 0)) a w → exec .groupSettingsRead s =
        .next (settle (advancePass (.group g 0) (takeEnables g w s.portFreed))))
    ∧ (∀ g, s.underWay (.config (.group g 1)) a w → exec .groupLampRead s =
        .next (settle (advancePass (.group g 1) (judgeSetting (.summary g) (lampField w) s.portFreed))))
    ∧ (∀ g, s.underWay (.config (.group g 2)) a w → exec .groupLampRead s =
        .next (settle (advancePass (.group g 2) (judgeSetting (.stale g) (lampField w) s.portFreed))))

/-- The three ring values of a sweep: the low 8 bits of k16 and of k17; k18 plus the sweep discards, at
most 65,535, from which on the values are held (R27, R165, R166). -/
def Claim.RingValuesRead : Prop :=
  ∀ (s : State) (a : Addr) (w : Word), s.tickDone →
    (s.underWay (.config .k16) a w → exec .ringValuesRead s = .next (settle (advancePass .k16
        (s.portFreed.setEvents { s.events with head := w.extractLsb' 0 8 }))))
    ∧ (s.underWay (.config .k17) a w → exec .ringValuesRead s = .next (settle (advancePass .k17
        (s.portFreed.setEvents { s.events with tail := w.extractLsb' 0 8 }))))
    ∧ (s.underWay (.config .k18) a w → exec .ringValuesRead s = .next (settle (advancePass .k18
        (s.portFreed.setEvents { s.events with
          lost := min 65535 (w.toNat + s.events.sweepDiscards), sweepDiscards := 0, ringHeld := true,
          k18Owed := s.events.k18Owed
            || decide (min 65535 (w.toNat + s.events.sweepDiscards) ≠ w.toNat) }))))

/-- The end of a settings pass: a sweep's appends every point not on the pending list, in ascending order,
behind those on it (R22, step 7); a full reload's appends none. -/
def Claim.SettingsPassEnds : Prop :=
  ∀ (s : State) (p : Pass) (r : ConfigRead), s.loader.pass = some p → p.restart = false →
    r.after p.ring = none →
    (p.sweep = true → advancePass r s = s.setLoader { s.loader with
        pass := none
        pendingPoints := s.loader.pendingPoints
          ++ (List.range 1792).filter (fun n => !s.loader.pendingPoints.contains n) })
    ∧ (p.sweep = false → advancePass r s = sweepCheck (s.setLoader { s.loader with pass := none }))

/-- SWEEPING becomes RUNNING with SWEEP_DONE, its subject the installed count, as soon as the pending list is
empty, no settings pass is due or under way and no point reload is under way (R24). -/
def Claim.SweepDone : Prop :=
  ∀ s : State,
    (s.loader.cfg = .sweeping → s.loader.pendingPoints = [] → s.loader.pass = none →
      s.loader.reload = none →
      sweepCheck s = record .sweepDone .part s.loader.installed 0
        (s.setLoader { s.loader with cfg := .running }))
    ∧ (s.loader.cfg ≠ .sweeping ∨ s.loader.pendingPoints ≠ [] ∨ s.loader.pass ≠ none
        ∨ s.loader.reload ≠ none → sweepCheck s = s)
    ∧ endReload s = sweepCheck (s.setLoader { s.loader with reload := none })

/-- The order of a settings pass, what each of its reads does, how it ends, and the end of a sweep (R22, R24 to
R29, R32, R165, R166; the ring values at a restart by log 16). -/
def Obligations.SettingsPass : Prop :=
  Claim.SettingsPassOrder ∧ Claim.SettingsReads ∧ Claim.LampField ∧ Claim.RingValuesRead
    ∧ Claim.SettingsPassEnds ∧ Claim.SweepDone

/-- A card count handed over acts on the chain by R127's table. -/
def Claim.CardCountActsOnTheChain : Prop :=
  ∀ (x : Chain) (n : Nat),
    (n = 0 → (x.withCount n).state = .idle ∧ (x.withCount n).count = 0 ∧ (x.withCount n).bad = 0
      ∧ (x.withCount n).prev = none)
    ∧ (n ≠ 0 → x.state = .idle → (x.withCount n).state = .ok ∧ (x.withCount n).count = n
      ∧ (x.withCount n).bad = 0 ∧ (x.withCount n).prev = none)
    ∧ (n ≠ 0 → x.state ≠ .idle → x.withCount n = { x with count := n })

/-- Two card counts of a settings pass, A and B of k2 or C and D of k3: clamped to 16, handed to the chains, and
a change of any of the four found by a full reload marks every point (R25, R33); the board fault lamp is decided
with the chain states that follow (R114, R127, R135). -/
def Claim.CardCountsAreClampedAndMark : Prop :=
  ∀ (s : State) (w : Word),
    ((takeCounts .a .b w s).chains.a = s.chains.a.withCount (min 16 (w.extractLsb' 0 5).toNat))
    ∧ ((takeCounts .a .b w s).chains.b = s.chains.b.withCount (min 16 (w.extractLsb' 8 5).toNat))
    ∧ ((takeCounts .c .d w s).chains.c = s.chains.c.withCount (min 16 (w.extractLsb' 0 5).toNat))
    ∧ ((takeCounts .c .d w s).chains.d = s.chains.d.withCount (min 16 (w.extractLsb' 8 5).toNat))
    ∧ (∀ p, s.loader.pass = some p → p.sweep = false →
        (s.chains.a.count ≠ min 16 (w.extractLsb' 0 5).toNat
          ∨ s.chains.b.count ≠ min 16 (w.extractLsb' 8 5).toNat) →
        ∀ n, n < 1792 → n ∈ (takeCounts .a .b w s).loader.marked)
    ∧ (∀ p, s.loader.pass = some p → p.sweep = false →
        (s.chains.c.count ≠ min 16 (w.extractLsb' 0 5).toNat
          ∨ s.chains.d.count ≠ min 16 (w.extractLsb' 8 5).toNat) →
        ∀ n, n < 1792 → n ∈ (takeCounts .c .d w s).loader.marked)
    ∧ (∀ p, s.loader.pass = some p → p.sweep = true →
        (takeCounts .a .b w s).loader.marked = s.loader.marked
          ∧ (takeCounts .c .d w s).loader.marked = s.loader.marked)
    ∧ (s.chains.a.count = min 16 (w.extractLsb' 0 5).toNat →
        s.chains.b.count = min 16 (w.extractLsb' 8 5).toNat →
        (takeCounts .a .b w s).loader.marked = s.loader.marked)
    ∧ (s.chains.c.count = min 16 (w.extractLsb' 0 5).toNat →
        s.chains.d.count = min 16 (w.extractLsb' 8 5).toNat →
        (takeCounts .c .d w s).loader.marked = s.loader.marked)
    ∧ ∀ l, s.loader.faultLamp.claimed = some l →
        (takeCounts .a .b w s).patternOf l = (takeCounts .a .b w s).faultPattern
          ∧ (takeCounts .c .d w s).patternOf l = (takeCounts .c .d w s).faultPattern

/-- Card counts: clamped, handed to the chains, the board fault lamp decided, and the points marked at a full
reload (R25, R33, R114, R127). -/
def Obligations.CardCounts : Prop :=
  Claim.CardCountActsOnTheChain ∧ Claim.CardCountsAreClampedAndMark

/-- A lamp setting judged by the steps of R28, for the board fault lamp and the lamps of a group (R29); a lamp
just claimed shows what its owner hands (R96, R114). -/
def Claim.LampSettingIsJudged : Prop :=
  ∀ (s : State) (p : SettingPlace) (lamp : Nat),
    (s.settingAt p = ⟨some lamp, true⟩ → s.chains.present lamp = true →
      judgeSetting p (some lamp) s = s)
    ∧ (∀ new, (s.settingAt p).granted = true → (s.settingAt p).lamp = some lamp →
        (new ≠ some lamp ∨ s.chains.present lamp = false) →
        judgeSetting p new s =
          judgeSetting p new (releaseLamp lamp (holdSetting p ⟨some lamp, false⟩ s)))
    ∧ ((s.settingAt p).granted = false → judgeSetting p none s = holdSetting p ⟨none, false⟩ s)
    ∧ ((s.settingAt p).granted = false →
        (s.chains.present lamp = false ∨ (s.loader.claims.look lamp).isSome = true) →
        judgeSetting p (some lamp) s = record .groupLampRefused .part p.refusal.1 p.refusal.2
          (holdSetting p ⟨some lamp, false⟩ s))
    ∧ ((s.settingAt p).granted = false → s.chains.present lamp = true → s.loader.claims.look lamp = none →
        (judgeSetting p (some lamp) s).settingAt p = ⟨some lamp, true⟩
          ∧ (judgeSetting p (some lamp) s).loader.claims.look lamp = some p.owner
          ∧ (p = .boardFault → (judgeSetting p (some lamp) s).patternOf lamp = s.faultPattern)
          ∧ (∀ g, p = .summary g → (judgeSetting p (some lamp) s).summaryShows g lamp)
          ∧ (∀ g, p = .stale g → (judgeSetting p (some lamp) s).patternOf lamp =
              if 0 < (s.counts g).stale then .steady else .off)
          ∧ ∀ other, other ≠ lamp →
            (judgeSetting p (some lamp) s).loader.claims.look other = s.loader.claims.look other
            ∧ (judgeSetting p (some lamp) s).patternOf other = s.patternOf other)
    ∧ (∀ g, SettingPlace.boardFault.refusal = (0xFFFF, 3) ∧ (SettingPlace.summary g).refusal = (g, 1)
        ∧ (SettingPlace.stale g).refusal = (g, 2))

/-- A released lamp is unowned and OFF, and no other lamp changes (R28, R50, R113). -/
def Claim.ReleasedLampIsOff : Prop :=
  ∀ (s : State) (lamp : Nat),
    (releaseLamp lamp s).loader.claims.look lamp = none ∧ (releaseLamp lamp s).patternOf lamp = .off
      ∧ (∀ other, other ≠ lamp →
          (releaseLamp lamp s).loader.claims.look other = s.loader.claims.look other
          ∧ (releaseLamp lamp s).patternOf other = s.patternOf other)
      ∧ Changes (.loaderClaims :: imageParts) s (releaseLamp lamp s)

/-- A lamp setting's word, the setting judged, the lamp it claims and the one it releases (R28, R29, R50, R96, R113,
R114, 10.3, 10.4). -/
def Obligations.LampSettings : Prop :=
  Claim.LampField ∧ Claim.LampSettingIsJudged ∧ Claim.ReleasedLampIsOff

/-- A dispatched write of g0, g1 or g2 acts on the group (R29, R37). -/
def Claim.GroupSettingWrites : Prop :=
  ∀ (s : State) (g : Nat) (w : Word), s.tickDone → s.onBoard →
    (s.front (.group g 0) w →
      exec .groupEnableWrite s = .next (settle (takeEnables g w (popCapture s)))
        ∧ ((takeEnables g w (popCapture s)).settings g).horn = w.getLsbD 0
        ∧ ((takeEnables g w (popCapture s)).settings g).wake = w.getLsbD 1
        ∧ (∀ other, other ≠ g → (takeEnables g w (popCapture s)).settings other = s.settings other)
        ∧ Changes [.pathCapture, .loaderGroups, .annHornClass] s (takeEnables g w (popCapture s)))
    ∧ (s.front (.group g 1) w → exec .summaryLampWrite s =
        .next (settle (judgeSetting (.summary g) (lampField w) (popCapture s))))
    ∧ (s.front (.group g 2) w → exec .staleLampWrite s =
        .next (settle (judgeSetting (.stale g) (lampField w) (popCapture s))))

/-- A dispatched write of g0, g1 or g2, with the lamp that g1 and g2 set (R28, R29, R37, 10.4). -/
def Obligations.GroupSettingWrites : Prop :=
  Claim.GroupSettingWrites ∧ Claim.LampField

/-- A dispatched k1 item: no effect before the sweep's own read or where it is equal; else the value is
held and a full reload begins (R31, R32). -/
def Obligations.GenerationWrite : Prop :=
  ∀ (s : State) (w : Word), s.tickDone → s.onBoard → s.front .k1 w →
    (s.loader.generation = none → exec .generationWrite s = .next (settle (popCapture s)))
    ∧ (s.loader.generation = some w → exec .generationWrite s = .next (settle (popCapture s)))
    ∧ (∀ g, s.loader.generation = some g → g ≠ w →
      ∃ t, exec .generationWrite s = .next (settle t)
        ∧ t.loader.generation = some w ∧ t.loader.cfg = .sweeping
        ∧ (s.loader.pass = none → t.loader.pass = some ⟨false, .k2, false, false⟩)
        ∧ (∀ p, s.loader.pass = some p → ∃ q, t.loader.pass = some q ∧ q.sweep = p.sweep
            ∧ q.ring = p.ring ∧ (q.restart = true ∨ q.next = .k2))
        ∧ t.loader.pendingPoints = s.loader.pendingPoints
          ++ (List.range 1792).filter (fun n => !s.loader.pendingPoints.contains n)
        ∧ t.loader.reload = s.loader.reload
        ∧ Changes [.pathCapture, .loaderGeneration, .loaderPass, .loaderPendingPoints, .loaderCfg] s t)

/-- A dispatched control word: the point joins the end of the pending list, once (R38). -/
def Obligations.ControlWordWrite : Prop :=
  ∀ (s : State) (n : Nat) (w : Word), s.tickDone → s.onBoard → s.front (.control n) w →
    (n ∈ s.loader.pendingPoints → exec .controlWordWrite s = .next (settle (popCapture s)))
    ∧ (n ∉ s.loader.pendingPoints → exec .controlWordWrite s = .next (settle
        ((popCapture s).setLoader { s.loader with pendingPoints := s.loader.pendingPoints ++ [n] })))

/-- In UNCONFIGURED every region item but a k0 item is discarded: it leaves the queue and nothing else
comes of it (R37). -/
def Obligations.UnconfiguredDispatchDiscards : Prop :=
  ∀ (s : State) (r : RegionWord) (w : Word), s.tickDone → s.loader.cfg = .unconfigured → s.front r w →
    (r = .k1 → exec .generationWrite s = .next (settle (popCapture s)))
    ∧ (r = .k8 → exec .modeRequest s = .next (settle (popCapture s)))
    ∧ (r = .k9 → exec .panelLockWrite s = .next (settle (popCapture s)))
    ∧ (r = .k10 → exec .remoteOperandWrite s = .next (settle (popCapture s)))
    ∧ (r = .k11 → w = 1 → exec .remoteAck s = .next (settle (popCapture s)))
    ∧ (r = .k11 → w = 2 → exec .remoteClear s = .next (settle (popCapture s)))
    ∧ (r = .k11 → w = 3 → exec .remoteSilence s = .next (settle (popCapture s)))
    ∧ (r = .k11 → w = 4 → exec .remoteTest s = .next (settle (popCapture s)))
    ∧ (r = .k11 → w = 5 → exec .remoteGroup s = .next (settle (popCapture s)))
    ∧ (r = .k11 → w = 6 → exec .remoteShelve s = .next (settle (popCapture s)))
    ∧ (r = .k11 → w = 7 → exec .remoteDim s = .next (settle (popCapture s)))
    ∧ (r = .k11 → w = 0 ∨ 7 < w.toNat →
      exec .remoteUnknownCommand s = .next (settle (popCapture s)))
    ∧ (r = .k17 → exec .tailWrite s = .next (settle (popCapture s)))
    ∧ (r = .k18 → exec .lostCountWrite s = .next (settle (popCapture s)))
    ∧ (∀ n, r = .control n → exec .controlWordWrite s = .next (settle (popCapture s)))
    ∧ (∀ g, r = .group g 0 → exec .groupEnableWrite s = .next (settle (popCapture s)))
    ∧ (∀ g, r = .group g 1 → exec .summaryLampWrite s = .next (settle (popCapture s)))
    ∧ (∀ g, r = .group g 2 → exec .staleLampWrite s = .next (settle (popCapture s)))
    ∧ (∀ g, r = .group g 3 → exec .groupAckRequest s = .next (settle (popCapture s)))
    ∧ (∀ g, r = .group g 4 → exec .groupClearRequest s = .next (settle (popCapture s)))

/-! ## Point reloads -/

/-- Checks 1 to 5 on an entry's words, and checks 6 to 8 on its lamps, in their order, each with its reason
code; an entry that passes all eight has none (R47, R48). -/
def Obligations.ValidationOrder : Prop :=
  ∀ (s : State) (e : Entry),
    (e.kind = none → validate s e = some 1)
    ∧ (∀ k, e.kind = some k → 16 < e.shift + e.width → validate s e = some 2)
    ∧ (e.kind = some .discrete → e.shift + e.width ≤ 16 → e.width ≠ 1 → validate s e = some 2)
    ∧ (e.kind = some .valve → e.shift + e.width ≤ 16 → e.width ≠ 2 → validate s e = some 2)
    ∧ (e.kind = some .discrete → e.shift + e.width ≤ 16 → e.width = 1 → e.mode = none →
        validate s e = some 3)
    ∧ (e.kind = some .analogue → e.shift + e.width ≤ 16 → e.full ≤ e.zero → validate s e = some 4)
    ∧ (e.fieldsPass →
        ((∃ off, regionOffset s.path.base e.source = some off) → validate s e = some 5)
        ∧ (regionOffset s.path.base e.source = none → wordCheck s.path.base e = none))
    ∧ (wordCheck s.path.base e = none →
        e.fieldsPass ∧ regionOffset s.path.base e.source = none)
    ∧ (e.fieldsPass → regionOffset s.path.base e.source = none →
        ((∃ l ∈ e.lamps, s.chains.present l = false) → validate s e = some 6)
        ∧ ((∀ l ∈ e.lamps, s.chains.present l = true) →
            (∃ l ∈ e.displayLamps, e.alarmLamp = some l) → validate s e = some 7)
        ∧ ((∀ l ∈ e.lamps, s.chains.present l = true) →
            (∀ l ∈ e.displayLamps, e.alarmLamp ≠ some l) →
            (∃ l ∈ e.lamps, (s.loader.claims.look l).isSome = true) → validate s e = some 8)
        ∧ ((∀ l ∈ e.lamps, s.chains.present l = true ∧ s.loader.claims.look l = none) →
            (∀ l ∈ e.displayLamps, e.alarmLamp ≠ some l) → validate s e = none))

/-- A word of an entry has been read: the reload goes on, or its last word leads to the judgement (R41). -/
def Claim.EntryRead : Prop :=
  ∀ (s : State) (a : Addr) (w : Word) (n i : Nat) (words : List Word),
    s.tickDone → s.underWay (.config (.entry n i)) a w → s.loader.reload = some ⟨n, words, .entry⟩ →
    (((words = [] ∧ w.getLsbD 15 = true) ∨ (words ≠ [] ∧ words.length < 11)) →
      exec .entryReadDone s = .next (settle
        (s.portFreed.setLoader { s.loader with reload := some ⟨n, words ++ [w], .entry⟩ })))
    ∧ (((words = [] ∧ w.getLsbD 15 = false) ∨ words.length = 11) →
      exec .entryReadDone s = .next (settle (judge n (words ++ [w])
        (s.portFreed.setLoader { s.loader with reload := some ⟨n, words ++ [w], .entry⟩ }))))

/-- The judgement of a point reload by the record before and the entry read; the revalidation mark is cleared,
whatever the row, and a marked point's entry is never identical (R33, R43). -/
def Claim.JudgementTable : Prop :=
  ∀ (s u : State) (n : Nat), u = s.setLoader { s.loader with
      marked := s.loader.marked.filter (fun m => m != n) } →
    (∀ words, (judge n words s).loader.marked = u.loader.marked)
    ∧ (∀ w15 : Word, w15.getLsbD 15 = false →
      ((s.point n).status = .absent → judge n [w15] s = endReload u)
      ∧ ((s.point n).status = .installed → judge n [w15] s = endReload (removePoint n u))
      ∧ (∀ r, (s.point n).status = .rejected r → judge n [w15] s = endReload
          ((setPoint n PointRec.absent u).setLoader { (setPoint n PointRec.absent u).loader with
            rejected := s.loader.rejected - 1 })))
    ∧ (∀ (words : List Word) (e : Entry), entryOf words = some e → e.w15.getLsbD 15 = true →
      ((s.point n).status = .absent → judge n words s = validatePoint n e .absent false u)
      ∧ ((s.point n).status = .installed → (s.point n).held = some e → n ∉ s.loader.marked →
          judge n words s = endReload u)
      ∧ ((s.point n).status = .installed → ((s.point n).held ≠ some e ∨ n ∈ s.loader.marked) →
          judge n words s = validatePoint n e .absent false (removePoint n u))
      ∧ (∀ r, (s.point n).status = .rejected r → (s.point n).held = some e → n ∉ s.loader.marked →
          judge n words s = validatePoint n e (.rejected r) true u)
      ∧ (∀ r, (s.point n).status = .rejected r →
          ((s.point n).held ≠ some e ∨ n ∈ s.loader.marked) →
          judge n words s = validatePoint n e (.rejected r) false u))

/-- The reading of an entry and the judgement it leads to (R33, R41, R43). -/
def Obligations.EntryRead : Prop :=
  Claim.EntryRead ∧ Claim.JudgementTable

/-- A validated point goes on into install: its lamps claimed for it, its pair on the watch index, the
install flag set with the words held, and the source word its next read (R53); a point that was REJECTED leaves
the rejected count (R49, R57). -/
def Claim.InstallBegins : Prop :=
  ∀ (s t : State) (n : Nat) (e : Entry) (before : PointStatus) (identical : Bool),
    validate s e = none → t = validatePoint n e before identical s →
    (∀ l ∈ e.displayLamps, t.loader.claims.look l = some (.display n))
    ∧ (∀ l, e.alarmLamp = some l → t.loader.claims.look l = some (.alarm n))
    ∧ (∀ l, l ∉ e.lamps → t.loader.claims.look l = s.loader.claims.look l)
    ∧ (e.source.toNat, n) ∈ t.loader.watch
    ∧ t.point n = ⟨.absent, some e, true⟩ ∧ (∀ m, m ≠ n → t.point m = s.point m)
    ∧ t.loader.reload = some ⟨n, [], .source⟩ ∧ t.loader.wantConfig = some (.source n e.source)
    ∧ Changes [.loaderClaims, .loaderRejected, .loaderWatch, .loaderPoints, .loaderReload] s t
    ∧ t.loader.rejected = (match before with
        | .rejected _ => s.loader.rejected - 1
        | .absent | .installed => s.loader.rejected)

/-- A failed check makes the point REJECTED with its reason, without claims or a pair, and one more rejected
point where it was not REJECTED before; the event is kept back only where the same reason was held for an
identical entry; where nothing is left to load, the sweep ends behind it (R24, R49, R57). -/
def Claim.EntryIsRejected : Prop :=
  ∀ (s t : State) (n reason : Nat) (e : Entry) (before : PointStatus) (identical : Bool),
    validate s e = some reason → t = validatePoint n e before identical s →
    t.point n = ⟨.rejected reason, some e, false⟩ ∧ (∀ m, m ≠ n → t.point m = s.point m)
    ∧ t.loader.rejected = (match before with
        | .rejected _ => s.loader.rejected
        | .absent | .installed => s.loader.rejected + 1)
    ∧ t.loader.reload = none ∧ t.loader.claims = s.loader.claims ∧ t.loader.watch = s.loader.watch
    ∧ (s.loader.cfg = .running
        ∨ s.loader.cfg = .sweeping ∧ (s.loader.pendingPoints ≠ [] ∨ s.loader.pass ≠ none) →
      t.loader.cfg = s.loader.cfg
      ∧ (identical = true ∧ before = .rejected reason → t.events = s.events)
      ∧ (¬ (identical = true ∧ before = .rejected reason) → s.events.queue.length < 32 →
          t.events.queue = s.events.queue ++ [s.eventOf .entryRejected .part n reason]))
    ∧ (s.loader.cfg = .sweeping → s.loader.pendingPoints = [] → s.loader.pass = none →
      t.loader.cfg = .running
      ∧ (identical = true ∧ before = .rejected reason → s.events.queue.length < 32 →
          t.events.queue = s.events.queue ++ [s.eventOf .sweepDone .part s.loader.installed 0])
      ∧ (¬ (identical = true ∧ before = .rejected reason) → s.events.queue.length < 31 →
          t.events.queue = s.events.queue ++ [s.eventOf .entryRejected .part n reason,
            s.eventOf .sweepDone .part s.loader.installed 0]))

/-- What follows a validation: the install begins, or the entry is rejected (R24, R49, R53, R57). -/
def Obligations.JudgedEntries : Prop :=
  Claim.InstallBegins ∧ Claim.EntryIsRejected

/-- An INSTALLED point is removed without events by every owner in one step (R44, R83): its group loses it from
the count of its state and, where it is stale, from the stale count (R94, R95), with the lamps that follow (R96).
Where the point's shelf record alone would have expired at a board second still due, that second is counted at the
rest of the shelf at once (log 11). -/
def Obligations.RemovalIsSilent : Prop :=
  ∀ (s t : State) (n : Nat) (e : Entry), s.entryOf n = some e → t = removePoint n s →
    t.events = s.events
    ∧ t.point n = PointRec.absent ∧ (∀ m, m ≠ n → t.point m = s.point m)
    ∧ t.loader.installed = s.loader.installed - 1
    ∧ (∀ p ∈ t.loader.watch, p.2 ≠ n) ∧ (∀ p ∈ s.loader.watch, p.2 ≠ n → p ∈ t.loader.watch)
    ∧ (∀ l ∈ e.lamps, t.loader.claims.look l = none ∧ t.patternOf l = .off)
    ∧ t.evaluator.values.look n = none ∧ t.ann.records.look n = none
    ∧ (s.listExact → n ∉ t.ann.unack)
    ∧ (s.shelfExact → n ∉ t.ann.shelf.map ShelfRec.point)
    ∧ (s.ann.records.look n ≠ none → s.shelfBecomes t (s.ann.shelf.filter (fun x => x.point != n)))
    ∧ (∀ m, m ≠ n → t.evaluator.values.look m = s.evaluator.values.look m
        ∧ t.ann.records.look m = s.ann.records.look m)
    ∧ (∀ g, (t.counts g).unack = countMoved (s.counts g).unack (s.groupOf n == some g
            && (s.annState n == some .new || s.annState n == some .fleeting)) false
        ∧ (t.counts g).standing = countMoved (s.counts g).standing
            (s.groupOf n == some g && s.annState n == some .standing) false
        ∧ (t.counts g).returned = countMoved (s.counts g).returned
            (s.groupOf n == some g && s.annState n == some .returned) false
        ∧ (t.counts g).shelved = countMoved (s.counts g).shelved
            (s.groupOf n == some g && s.annState n == some .shelved) false
        ∧ (t.counts g).stale = countMoved (s.counts g).stale
            (g == e.group && (s.evaluator.values.look n).any ValueRec.stale) false)
    ∧ (∀ g lamp, s.groupOf n = some g → (s.settings g).summary.claimed = some lamp → lamp ∉ e.lamps →
        (s.settings e.group).staleLamp.claimed ≠ some lamp → t.summaryShows g lamp)
    ∧ (∀ v lamp, s.evaluator.values.look n = some v → v.stale = true →
        (s.settings e.group).staleLamp.claimed = some lamp → lamp ∉ e.lamps →
        t.patternOf lamp = if 0 < (t.counts e.group).stale then .steady else .off)

/-- The source word that a reload waits for goes to the Evaluator as the first value (R54); a completion that
no reload waits for only ends the access (log 6). -/
def Claim.SourceRead : Prop :=
  ∀ (s : State) (a b : Addr) (w : Word) (r : Reload),
    s.tickDone → s.underWay (.config (.source r.point b)) a w → s.loader.reload = some r →
    (r.stage = .source → exec .sourceReadDone s = .next (settle
      ((s.portFreed.setLoader { s.loader with reload := some { r with stage := .value } }).setEvaluator
        { s.evaluator with firstValue := some (r.point, w) })))
    ∧ (r.stage ≠ .source → exec .sourceReadDone s = .next (settle s.portFreed))

/-- The judging of a first value, by kind (R82). -/
def Claim.FirstJudged : Prop :=
  ∀ (e : Entry) (r : Nat),
    (e.kind = some .discrete → judgeFirst e r =
      (.discrete, if e.mode = some .level ∧ r = e.active then .abnormal .level else .normal))
    ∧ (e.kind = some .analogue → ∀ high low : Bool,
        (high = true ↔ e.highEnabled = true ∧ e.highLimit ≤ r) →
        (low = true ↔ e.lowEnabled = true ∧ r ≤ e.lowLimit) →
        judgeFirst e r = (.analogue (barCount e r) high low,
          if high then .abnormal .high else if low then .abnormal .low else .normal))
    ∧ (e.kind = some .valve → judgeFirst e r =
      (.valve (positionOf r)
          (if positionOf r = .travel ∧ 0 < e.travel then some e.travel else none) false,
        if positionOf r = .discrepant then .abnormal .discrepant else .normal))

/-- The first value is evaluated: INSTALLED, one more installed point, the value record built from the
value alone, its patterns held for its display lamps (R63, R113), an alarm-capable point QUIET or, where the
value is abnormal, NEW at the end of the list, with RAISED and its cause, its group's counts and the lamps moved (R82,
R86, R88, R91, R92, R94, R96); a normal first value records nothing. The reload ends (R55), and where nothing is left
to load the sweep ends behind it, with SWEEP_DONE (R24). -/
def Claim.FirstValue : Prop :=
  ∀ (s : State) (n : Nat) (w : Word) (e : Entry),
    s.tickDone → s.evaluator.firstValue = some (n, w) → s.evaluator.item = none → s.entryOf n = some e →
    ∃ t, exec .firstValue s = .next (settle t)
      ∧ t.point n = ⟨.installed, some e, false⟩ ∧ (∀ m, m ≠ n → t.point m = s.point m)
      ∧ t.loader.installed = s.loader.installed + 1 ∧ t.loader.reload = none
      ∧ t.evaluator.firstValue = none
      ∧ (∃ v, t.evaluator.values.look n = some v ∧ v.last = e.field w ∧ v.age = 0 ∧ v.stale = false
          ∧ v.condition = (judgeFirst e (e.field w)).2 ∧ v.kind = (judgeFirst e (e.field w)).1
          ∧ v.handed = displayPatterns e v.kind (e.field w) false
          ∧ (e.alarmCapable = true → t.annState n =
              some (if v.condition = .normal then .quiet else .new))
          ∧ (e.alarmCapable = true → v.condition ≠ .normal →
              s.moved t n ⟨.quiet, e.cls, e.group⟩ .new)
          ∧ (v.condition = .normal ∨ e.alarmCapable = false ∧ s.ann.records.look n = none →
              t.ann.groups = s.ann.groups)
          ∧ (e.alarmCapable = true ∨ s.ann.records.look n = none →
              s.displayed t e e.group v.handed))
      ∧ (e.alarmCapable = false → s.ann.records.look n = none → t.ann.records = s.ann.records)
      ∧ (∀ m, m ≠ n → t.evaluator.values.look m = s.evaluator.values.look m)
      ∧ (∀ c, e.alarmCapable = true → (judgeFirst e (e.field w)).2 = .abnormal c →
          t.ann.unack = s.ann.unack ++ [n])
      ∧ ((judgeFirst e (e.field w)).2 = .normal ∨ e.alarmCapable = false ∧ s.ann.records.look n = none →
          t.ann.unack = s.ann.unack)
      ∧ (s.loader.cfg = .running
          ∨ s.loader.cfg = .sweeping ∧ (s.loader.pendingPoints ≠ [] ∨ s.loader.pass ≠ none) →
        t.loader.cfg = s.loader.cfg
        ∧ (∀ c, e.alarmCapable = true → (judgeFirst e (e.field w)).2 = .abnormal c →
            s.events.queue.length < 32 →
            t.events.queue = s.events.queue ++ [s.eventOf .raised .part n c.code])
        ∧ ((judgeFirst e (e.field w)).2 = .normal
              ∨ e.alarmCapable = false ∧ s.ann.records.look n = none →
            t.events = s.events))
      ∧ (s.loader.cfg = .sweeping → s.loader.pendingPoints = [] → s.loader.pass = none →
        t.loader.cfg = .running
        ∧ (∀ c, e.alarmCapable = true → (judgeFirst e (e.field w)).2 = .abnormal c →
            s.events.queue.length < 31 →
            t.events.queue = s.events.queue ++ [s.eventOf .raised .part n c.code,
              s.eventOf .sweepDone .part (s.loader.installed + 1) 0])
        ∧ ((judgeFirst e (e.field w)).2 = .normal
              ∨ e.alarmCapable = false ∧ s.ann.records.look n = none →
            s.events.queue.length < 32 →
            t.events.queue = s.events.queue ++
              [s.eventOf .sweepDone .part (s.loader.installed + 1) 0]))

/-- The source word of an install and its evaluation as the first value, by kind, with its alarm and the end of a
sweep behind it (R24, R54, R55, R82, R86, R91, R92). -/
def Obligations.FirstValues : Prop :=
  Claim.SourceRead ∧ Claim.FirstJudged ∧ Claim.FirstValue

/-! ## Point evaluation -/

/-- The fields of an entry by the bits that hold them, and the entry of the 12 words read (10.2, R41). -/
def Claim.EntryFields : Prop :=
  (∀ w15 w0 w1 w2 w3 w4 w5 w6 w7 w8 w9 w10 : Word,
    entryOf [w15, w0, w1, w2, w3, w4, w5, w6, w7, w8, w9, w10] =
      some ⟨w0, w1, w2, w3, w4, w5, w6, w7, w8, w9, w10, w15⟩)
  ∧ ∀ e : Entry,
    e.source.toNat = (e.w1.extractLsb' 0 3).toNat * 65536 + e.w0.toNat
      ∧ ((e.w1.extractLsb' 12 2).toNat = 0 → e.kind = some .discrete)
      ∧ ((e.w1.extractLsb' 12 2).toNat = 1 → e.kind = some .analogue)
      ∧ ((e.w1.extractLsb' 12 2).toNat = 2 → e.kind = some .valve)
      ∧ ((e.w1.extractLsb' 12 2).toNat = 3 → e.kind = none)
      ∧ e.cls = (e.w1.extractLsb' 14 2).toNat + 1
      ∧ e.firstLamp = (e.w2.extractLsb' 0 12).toNat ∧ e.barLength = (e.w2.extractLsb' 12 4).toNat + 1
      ∧ ((e.w3.extractLsb' 12 3).toNat = 0 → e.mode = some .none)
      ∧ ((e.w3.extractLsb' 12 3).toNat = 1 → e.mode = some .level)
      ∧ ((e.w3.extractLsb' 12 3).toNat = 2 → e.mode = some .rising)
      ∧ ((e.w3.extractLsb' 12 3).toNat = 3 → e.mode = some .falling)
      ∧ ((e.w3.extractLsb' 12 3).toNat = 4 → e.mode = some .both)
      ∧ (5 ≤ (e.w3.extractLsb' 12 3).toNat → e.mode = none)
      ∧ e.active = (e.w4.extractLsb' 0 1).toNat ∧ e.travel = (e.w4.extractLsb' 0 8).toNat
      ∧ e.zero = e.w4.toNat ∧ e.full = e.w5.toNat ∧ e.hysteresis = e.w6.toNat
      ∧ e.highLimit = e.w7.toNat ∧ e.lowLimit = e.w8.toNat ∧ e.deadband = e.w9.toNat
      ∧ e.highEnabled = e.w10.getLsbD 0 ∧ e.lowEnabled = e.w10.getLsbD 1 ∧ e.marking = e.w10.getLsbD 2
      ∧ e.timeout = (e.w15.extractLsb' 0 8).toNat ∧ e.group = (e.w15.extractLsb' 8 6).toNat

/-- The field of a point (R60). -/
def Claim.FieldOfAPoint : Prop :=
  ∀ (e : Entry) (w : Word),
    e.field w = w.toNat / 2 ^ e.shift % 2 ^ e.width ∧ e.field w ≤ 2 ^ e.width - 1
      ∧ e.shift = (e.w1.extractLsb' 4 4).toNat ∧ e.width = (e.w1.extractLsb' 8 4).toNat + 1

/-- The fields of an entry, and the field of a point that a word holds (R41, R60, 10.2). -/
def Obligations.FieldOfAPoint : Prop :=
  Claim.FieldOfAPoint ∧ Claim.EntryFields

/-- The evaluation of a value for a point leaves its record as R61 says: fresh, age 0, the raw value held, the
kind's items and the condition judged, the patterns held for the display lamps (R63, R113); FRESH and the alarm
report are handed as one step each, and the records of other points stand.
A board second still due at the point (log 11) is then taken after the value (R81): at
once where it only counts, else it stays due. -/
def Claim.LaterValue : Prop :=
  ∀ (s : State) (n : Nat) (w : Word) (v : ValueRec) (e : Entry),
    s.evaluator.values.look n = some v → s.entryOf n = some e →
    (∃ v', v'.last = e.field w ∧ v'.age = 0 ∧ v'.stale = false
      ∧ v'.kind = (judgeLater e v (e.field w)).1 ∧ v'.condition = (judgeLater e v (e.field w)).2
      ∧ v'.handed = displayPatterns e v'.kind (e.field w) false
      ∧ (∀ g, (∀ r, s.ann.records.look n = some r → r.group = g) →
          s.displayed (evaluateLater w n s) e g v'.handed)
      ∧ (n ∉ s.evaluator.secondDue → (evaluateLater w n s).evaluator.values.look n = some v')
      ∧ (n ∈ s.evaluator.secondDue → (v'.staling e = true ∨ v'.expiring = true) →
          (evaluateLater w n s).evaluator.values.look n = some v'
          ∧ n ∈ (evaluateLater w n s).evaluator.secondDue)
      ∧ (n ∈ s.evaluator.secondDue → v'.staling e = false → v'.expiring = false →
          n ∉ (evaluateLater w n s).evaluator.secondDue
          ∧ ∃ v'', (evaluateLater w n s).evaluator.values.look n = some v''
            ∧ v''.age = (if 0 < e.timeout then 1 else 0)
            ∧ v''.kind = (match v'.kind with
              | .valve pos (some t) ov => .valve pos (some (t - 1)) ov
              | k => k)
            ∧ v''.last = v'.last ∧ v''.stale = false ∧ v''.condition = v'.condition
            ∧ v''.handed = v'.handed)
      ∧ (evaluateLater w n s).annState n =
          (takeReport n (laterReport e v (e.field w) v'.condition) s).annState n
      ∧ (evaluateLater w n s).ann.unack =
          (takeReport n (laterReport e v (e.field w) v'.condition) s).ann.unack
      ∧ (evaluateLater w n s).events = (takeReport n (laterReport e v (e.field w) v'.condition)
          (if v.stale then record .fresh .part n 0 s else s)).events)
    ∧ (∀ m, m ≠ n → (evaluateLater w n s).evaluator.values.look m = s.evaluator.values.look m)
    ∧ (∀ m, m ≠ n → (evaluateLater w n s).annState m = s.annState m)
    ∧ (v.stale = true →
        ((evaluateLater w n s).counts e.group).stale = (s.counts e.group).stale - 1)
    ∧ (v.stale = false →
        ((evaluateLater w n s).counts e.group).stale = (s.counts e.group).stale)
    ∧ Changes pointParts s (evaluateLater w n s)

/-- The judging of a DISCRETE value: the level of R65, the edges of R66. -/
def Claim.DiscreteJudged : Prop :=
  ∀ (e : Entry) (v : ValueRec) (r : Nat), v.kind = .discrete →
    (judgeLater e v r).1 = .discrete
    ∧ (e.mode = some .level → (judgeLater e v r).2 =
        (if r = e.active then .abnormal .level else .normal))
    ∧ (e.mode ≠ some .level → (judgeLater e v r).2 = .normal)
    ∧ (e.mode = some .level → v.condition = .normal → r = e.active →
        laterReport e v r (judgeLater e v r).2 = .onset .level)
    ∧ (e.mode = some .level → v.condition = .abnormal .level → r ≠ e.active →
        laterReport e v r (judgeLater e v r).2 = .ret)
    ∧ (e.mode = some .level →
        ((v.condition = .normal ∧ r ≠ e.active) ∨ (v.condition = .abnormal .level ∧ r = e.active)) →
        laterReport e v r (judgeLater e v r).2 = .none)
    ∧ (v.condition = .normal → e.mode ≠ some .level →
      ((e.mode = some .rising ∨ e.mode = some .both) → v.last = 0 → r = 1 →
        laterReport e v r (judgeLater e v r).2 = .momentary)
      ∧ ((e.mode = some .falling ∨ e.mode = some .both) → v.last = 1 → r = 0 →
        laterReport e v r (judgeLater e v r).2 = .momentary)
      ∧ (e.mode = some .rising → ¬ (v.last = 0 ∧ r = 1) →
        laterReport e v r (judgeLater e v r).2 = .none)
      ∧ (e.mode = some .falling → ¬ (v.last = 1 ∧ r = 0) →
        laterReport e v r (judgeLater e v r).2 = .none)
      ∧ (v.last = r → laterReport e v r (judgeLater e v r).2 = .none)
      ∧ ((e.mode = some .none ∨ e.mode = none) → laterReport e v r (judgeLater e v r).2 = .none))

/-- The judging of an ANALOGUE value: the displayed count, the two flags and the condition they give (R61, R68,
R70 to R72). -/
def Claim.AnalogueJudged : Prop :=
  ∀ (e : Entry) (v : ValueRec) (r d : Nat) (high low : Bool), v.kind = .analogue d high low →
    judgeLater e v r =
      (.analogue (nextCount e d r) (nextHigh e high r) (nextLow e low r),
        analogueCondition v.condition (nextHigh e high r) (nextLow e low r))

/-- The judging of a VALVE value: the rows of R76's table, with the timer of R74. -/
def Claim.ValveJudged : Prop :=
  ∀ (e : Entry) (v : ValueRec) (r : Nat) (pos : Position) (timer : Option Nat) (ov : Bool),
    v.kind = .valve pos timer ov →
    (positionOf 0 = .travel ∧ positionOf 1 = .opened ∧ positionOf 2 = .closed
      ∧ positionOf 3 = .discrepant)
    ∧ (∀ new, positionOf r = new → new = .opened ∨ new = .closed →
      judgeLater e v r = (.valve new none false, .normal))
    ∧ (positionOf r = .travel → pos ≠ .travel → ov = false →
      judgeLater e v r = (.valve .travel (if 0 < e.travel then some e.travel else none) false, .normal))
    ∧ (positionOf r = .travel → pos = .travel →
      judgeLater e v r = (.valve .travel timer ov, if ov then .abnormal .overrun else .normal))
    ∧ (positionOf r = .discrepant →
      judgeLater e v r = (.valve .discrepant none false, .abnormal .discrepant))

/-- The alarm report of a later value from the condition held before and the condition after, edges apart
(R62, R65, R72, R76). -/
def Claim.ReportOfAChange : Prop :=
  ∀ (e : Entry) (v : ValueRec) (r : Nat), v.kind ≠ .discrete →
    (v.condition = .normal → laterReport e v r .normal = .none)
    ∧ (∀ c, v.condition = .normal → laterReport e v r (.abnormal c) = .onset c)
    ∧ (∀ c, v.condition = .abnormal c → laterReport e v r .normal = .ret)
    ∧ (∀ c, v.condition = .abnormal c → laterReport e v r (.abnormal c) = .none)
    ∧ (∀ c c', v.condition = .abnormal c → c ≠ c' →
        laterReport e v r (.abnormal c') = .causeChange c')

/-- The points of an address: those with a pair of it on the watch index; an item waits while one of them is
installing (R51, R54, R59). -/
def Claim.PointsOfAnAddress : Prop :=
  ∀ (s : State) (a : Addr),
    (∀ n, n ∈ s.pointsAt a ↔ (a.toNat, n) ∈ s.loader.watch)
    ∧ (s.installingAt a = true ↔ ∃ n, (a.toNat, n) ∈ s.loader.watch ∧ (s.point n).installing = true)

/-- The Evaluator takes the source item at the front, its set of points fixed then, and evaluates it for
them; with the last point it is free again (R10, R59). -/
def Claim.SourceItemEvaluation : Prop :=
  (∀ (s t : State) (item : CaptureItem) (rest : List CaptureItem) (k : Nat),
    s.tickDone → s.evaluator.item = none → s.path.capture = item :: rest → item.partialItem = false →
    regionOffset s.path.base item.addr = none → s.installingAt item.addr = false →
    (s.pointsAt item.addr).length ≤ k →
    t = overPoints (evaluateLater item.data) (s.pointsAt item.addr)
        ((s.setPath { s.path with capture := rest }).setEvaluator
          { s.evaluator with item := some ⟨item.data, s.pointsAt item.addr⟩ }) →
    exec (.sourceItemEvaluation k) s = .next (settle (t.setEvaluator { t.evaluator with item := none }))
      ∧ t.path.capture = rest
      ∧ Changes ([.pathCapture, .evaluatorItem] ++ pointParts) s t)
  ∧ (∀ (s : State) (it : ItemInProgress) (k : Nat), s.tickDone → s.evaluator.item = some it →
      exec (.sourceItemEvaluation k) s = .next (settle (evaluateItem k s)))

/-- A source item and its evaluation at one point: the judging of each kind and the report handed (R10, R59,
R61, R62, R65, R66, R68, R70 to R72, R74, R76, R81; that a due board second's counting follows at once is log 11). -/
def Obligations.LaterValues : Prop :=
  Claim.LaterValue ∧ Claim.PointsOfAnAddress ∧ Claim.SourceItemEvaluation
    ∧ Claim.DiscreteJudged ∧ Claim.AnalogueJudged
    ∧ Claim.ValveJudged ∧ Claim.ReportOfAChange

/-- The bar count k(x) = floor(((c(x) − Z) × 2N + (F − Z)) / (2 × (F − Z))) lies from 0 to N and rises with
x; the displayed count moves only by k(r − H) and k(r + H) (R67, R68). -/
def Claim.BarCounts : Prop :=
  (∀ (e : Entry) (x y : Int), e.zero < e.full →
    barCount e x ≤ e.barLength ∧ (x ≤ y → barCount e x ≤ barCount e y)
      ∧ (x ≤ e.zero → barCount e x = 0) ∧ ((e.full : Int) ≤ x → barCount e x = e.barLength)
      ∧ ((e.zero : Int) ≤ x → x ≤ e.full → (barCount e x : Int) =
          ((x - e.zero) * (2 * e.barLength) + (e.full - e.zero)) / (2 * (e.full - e.zero))))
  ∧ ∀ (e : Entry) (d r : Nat),
    (d < barCount e ((r : Int) - e.hysteresis) →
      nextCount e d r = barCount e ((r : Int) - e.hysteresis))
    ∧ (barCount e ((r : Int) - e.hysteresis) ≤ d → barCount e ((r : Int) + e.hysteresis) < d →
      nextCount e d r = barCount e ((r : Int) + e.hysteresis))
    ∧ (barCount e ((r : Int) - e.hysteresis) ≤ d → d ≤ barCount e ((r : Int) + e.hysteresis) →
      nextCount e d r = d)

/-- The high and the low flag with their deadband, and the condition they give (R70 to R72). -/
def Claim.LimitFlags : Prop :=
  ∀ (e : Entry) (r : Nat),
    (e.highEnabled = false → ∀ b, nextHigh e b r = false)
    ∧ (e.highEnabled = true → (nextHigh e false r = true ↔ e.highLimit ≤ r)
        ∧ (nextHigh e true r = false ↔ (r : Int) < (e.highLimit : Int) - e.deadband))
    ∧ (e.lowEnabled = false → ∀ b, nextLow e b r = false)
    ∧ (e.lowEnabled = true → (nextLow e false r = true ↔ r ≤ e.lowLimit)
        ∧ (nextLow e true r = false ↔ e.lowLimit + e.deadband < r))
    ∧ ∀ old : Condition, analogueCondition old false false = .normal
        ∧ analogueCondition old true false = .abnormal .high
        ∧ analogueCondition old false true = .abnormal .low
        ∧ analogueCondition .normal true true = .abnormal .high
        ∧ analogueCondition (.abnormal .low) true true = .abnormal .low
        ∧ analogueCondition (.abnormal .high) true true = .abnormal .high

/-- Bar counts, hysteresis and limit flags (R67, R68, R70 to R72). -/
def Obligations.AnalogueArithmetic : Prop :=
  Claim.BarCounts ∧ Claim.LimitFlags

/-- The display lamps of each kind (R46): one lamp, a bar of N from the first lamp on, an open and a closed lamp. -/
def Claim.DisplayLamps : Prop :=
  ∀ e : Entry,
    (e.kind = some .discrete → e.displayLamps = [e.firstLamp])
    ∧ (e.kind = some .analogue → e.displayLamps.length = e.barLength
        ∧ ∀ i, i < e.barLength → e.displayLamps[i]? = some (e.firstLamp + i))
    ∧ (e.kind = some .valve → e.displayLamps = [e.firstLamp, e.firstLamp + 1])

/-- Which points are alarm-capable, the alarm lamp, and the lamps of a point (R46). -/
def Claim.AlarmLamps : Prop :=
  ∀ e : Entry,
    (e.alarmCapable = true ↔
      (e.kind = some .discrete ∧ (e.mode = some .level ∨ e.mode = some .rising ∨ e.mode = some .falling
        ∨ e.mode = some .both))
      ∨ (e.kind = some .analogue ∧ (e.highEnabled = true ∨ e.lowEnabled = true))
      ∨ e.kind = some .valve)
    ∧ (∀ lamp, e.alarmLamp = some lamp ↔ e.alarmCapable = true ∧ e.w3.getLsbD 15 = true
        ∧ lamp = (e.w3.extractLsb' 0 12).toNat)
    ∧ e.lamps = e.displayLamps ++ e.alarmLamp.toList

/-- A lamp is present where its card's number is below its chain's card count: 1,024 lamps a chain, 64 a card (R25). -/
def Claim.LampsPresent : Prop :=
  (∀ (c : Chains) (lamp : Nat), c.present lamp = true ↔
    ∃ k, lamp / 1024 = chainIndex k ∧ lamp % 1024 / 64 < (c.get k).count)
  ∧ [ChainId.a, .b, .c, .d].map chainIndex = [0, 1, 2, 3]
  ∧ ∀ c : Chains, c.get .a = c.a ∧ c.get .b = c.b ∧ c.get .c = c.c ∧ c.get .d = c.d

/-- The patterns of each kind, fresh and stale (R64, R69, R73, R79). -/
def Claim.PatternsOfAKind : Prop :=
  ∀ (e : Entry) (r : Nat) (kind : KindState),
    (kind = .discrete → displayPatterns e kind r false = [if r = e.active then .steady else .off]
        ∧ displayPatterns e kind r true = [.stale])
    ∧ (∀ pos timer ov, kind = .valve pos timer ov → displayPatterns e kind r true = [.stale, .stale]
        ∧ displayPatterns e kind r false = match pos with
            | .opened => [.steady, .off]
            | .closed => [.off, .steady]
            | .travel => [.slow, .slow]
            | .discrepant => [.fast, .fast])
    ∧ (∀ d high low, kind = .analogue d high low → e.marking = false →
        ∀ i, i < e.barLength →
          (displayPatterns e kind r false).getD i .off = (if i < d then .steady else .off)
          ∧ (displayPatterns e kind r true).getD i .off = (if i < max d 1 then .stale else .off))
    ∧ (∀ d high low, kind = .analogue d high low → e.marking = true →
        ∀ i, i < e.barLength →
          (displayPatterns e kind r false).getD i .off =
            (if e.full < r ∧ i = e.barLength - 1 then .slow
             else if r < e.zero ∧ i = 0 then .slow
             else if i < d then .steady else .off)
          ∧ (displayPatterns e kind r true).getD i .off = (if i < max d 1 then .stale else .off))
    ∧ (∀ d high low stale, kind = .analogue d high low →
        (displayPatterns e kind r stale).length = e.barLength)

/-- The lamps of a point, which lamps are present, and the display of each kind, fresh and stale (R25, R46, R64, R69,
R73, R79). -/
def Obligations.DisplayPatterns : Prop :=
  Claim.DisplayLamps ∧ Claim.AlarmLamps ∧ Claim.LampsPresent ∧ Claim.PatternsOfAKind

/-- When a board second brings a point to an end: it becomes stale where its timeout is not 0, it is fresh and its age
reaches the timeout (R77, R78); its travel timer expires where it stands at 1 (R75). -/
def Claim.EndsOfABoardSecond : Prop :=
  (∀ (v : ValueRec) (e : Entry),
    (v.staling e = true ↔ 0 < e.timeout ∧ v.stale = false ∧ e.timeout ≤ v.age + 1)
    ∧ (v.expiring = true ↔ ∃ pos t ov, v.kind = .valve pos (some t) ov ∧ t ≤ 1))
  ∧ ∀ (s : State) (n : Nat), s.crossing n = true ↔ ∃ v e, s.evaluator.values.look n = some v
      ∧ s.entryOf n = some e ∧ (v.staling e = true ∨ v.expiring = true)

/-- BECOMES_STALE at a point that the board second makes stale: flag, patterns held and handed for the display
lamps, stale count and stale lamp, event (R63, R78, R79, R95, R96); a travel timer that stays above 0 is counted
too (R74, R81). -/
def Claim.BecomesStale : Prop :=
  ∀ (s : State) (n : Nat) (v : ValueRec) (e : Entry),
    s.tickDone → n ∈ s.evaluator.secondDue → s.evaluator.values.look n = some v →
    s.entryOf n = some e → v.staling e = true → v.expiring = false →
    ∃ t, exec (.becomesStale n) s = .next t
      ∧ (∃ v', t.evaluator.values.look n = some v' ∧ v'.stale = true
          ∧ v'.age = min 255 (v.age + 1) ∧ v'.last = v.last ∧ v'.condition = v.condition
          ∧ v'.handed = displayPatterns e v.kind v.last true
          ∧ (∀ pos p ov, v.kind = .valve pos (some p) ov → v'.kind = .valve pos (some (p - 1)) ov)
          ∧ ((∀ pos p ov, v.kind ≠ .valve pos (some p) ov) → v'.kind = v.kind))
      ∧ (∀ g, s.displayed t e g (displayPatterns e v.kind v.last true))
      ∧ (t.counts e.group).stale = (s.counts e.group).stale + 1
      ∧ (∀ lamp, (s.settings e.group).staleLamp.claimed = some lamp → lamp ∉ e.displayLamps →
          t.patternOf lamp = .steady)
      ∧ (∀ g, g ≠ e.group → t.counts g = s.counts g)
      ∧ n ∉ t.evaluator.secondDue ∧ t.ann.records = s.ann.records
      ∧ (s.onBoard → s.events.queue.length < 32 → t.events.queue = s.events.queue ++
          [⟨.stale, .part, BitVec.ofNat 16 n, 0, s.gen.seconds.setWidth 16⟩])
      ∧ (∀ m, m ≠ n → t.evaluator.values.look m = s.evaluator.values.look m)

/-- TRAVEL_TIMER_EXPIRY at a valve whose timer the board second takes to 0: the timer absent, overrun set,
abnormal with OVERRUN, an onset reported (R75), RAISED with cause 5 at a QUIET point (R86, R91). -/
def Claim.TravelTimerExpiry : Prop :=
  ∀ (s : State) (n : Nat) (v : ValueRec) (e : Entry) (pos : Position) (ov : Bool),
    s.tickDone → n ∈ s.evaluator.secondDue → s.evaluator.values.look n = some v →
    s.entryOf n = some e → v.kind = .valve pos (some 1) ov → v.staling e = false →
    ∃ t, exec (.travelTimerExpiry n) s = .next t
      ∧ (∃ v', t.evaluator.values.look n = some v' ∧ v'.kind = .valve pos none true
          ∧ v'.condition = .abnormal .overrun ∧ v'.handed = v.handed ∧ v'.last = v.last
          ∧ v'.stale = v.stale
          ∧ v'.age = if 0 < e.timeout ∧ v.stale = false then min 255 (v.age + 1) else v.age)
      ∧ s.overrunTaken t n
      ∧ (∀ lamp, e.alarmLamp ≠ some lamp →
          (∀ r, s.ann.records.look n = some r → (s.settings r.group).summary.claimed ≠ some lamp) →
          t.patternOf lamp = s.patternOf lamp)
      ∧ n ∉ t.evaluator.secondDue
      ∧ (∀ m, m ≠ n → t.evaluator.values.look m = s.evaluator.values.look m
          ∧ t.annState m = s.annState m)

/-- A point that one board second makes stale and whose travel timer it takes to 0: one step, STALE with the
stale patterns and the group's stale count first, then the expiry with its onset (R75, R78, R81). Either command
carries that step (log 11). -/
def Claim.StaleThenExpiry : Prop :=
  ∀ (s : State) (n : Nat) (v : ValueRec) (e : Entry) (pos : Position) (ov : Bool),
    s.tickDone → n ∈ s.evaluator.secondDue → s.evaluator.values.look n = some v →
    s.entryOf n = some e → v.kind = .valve pos (some 1) ov → v.staling e = true →
    ∃ t, exec (.becomesStale n) s = .next t ∧ exec (.travelTimerExpiry n) s = .next t
      ∧ (∃ v', t.evaluator.values.look n = some v' ∧ v'.stale = true
          ∧ v'.age = min 255 (v.age + 1) ∧ v'.last = v.last ∧ v'.kind = .valve pos none true
          ∧ v'.condition = .abnormal .overrun ∧ v'.handed = [.stale, .stale])
      ∧ (∀ g, (∀ r, s.ann.records.look n = some r → r.group = g) →
          s.displayed t e g [.stale, .stale])
      ∧ (t.counts e.group).stale = (s.counts e.group).stale + 1
      ∧ (∀ lamp, (s.settings e.group).staleLamp.claimed = some lamp → lamp ∉ e.displayLamps →
          e.alarmLamp ≠ some lamp →
          (∀ r, s.ann.records.look n = some r → (s.settings r.group).summary.claimed ≠ some lamp) →
          t.patternOf lamp = .steady)
      ∧ (staleReport e.group (record .stale .part n 0 s)).overrunTaken t n
      ∧ (s.onBoard → s.events.queue.length < 31 →
          (s.annState n = some .quiet → t.events.queue = s.events.queue ++
            [s.eventOf .stale .part n 0, s.eventOf .raised .part n 5])
          ∧ (s.annState n = some .shelved →
            t.events.queue = s.events.queue ++ [s.eventOf .stale .part n 0]))
      ∧ n ∉ t.evaluator.secondDue
      ∧ (∀ m, m ≠ n → t.evaluator.values.look m = s.evaluator.values.look m
          ∧ t.annState m = s.annState m)

/-- The two ends that a board second reaches at a point, when, each alone and both at once (R63, R77, R75, R78, R79, R81,
R86, R91, R95, R96). -/
def Obligations.BoardSecondAtAPoint : Prop :=
  Claim.EndsOfABoardSecond ∧ Claim.BecomesStale ∧ Claim.TravelTimerExpiry ∧ Claim.StaleThenExpiry

/-! ## Annunciation -/

/-- The four alarm reports: the cells of R86's table as state and list; a cell of no change leaves the
whole state; a SHELVED point takes no transition (R87); other points stand. -/
def Claim.AlarmReportTable : Prop :=
  ∀ (s : State) (n : Nat) (c : Cause),
    (s.annState n = some .quiet →
      (takeReport n (.onset c) s).annState n = some .new
      ∧ (takeReport n (.onset c) s).ann.unack = s.ann.unack ++ [n]
      ∧ (takeReport n .momentary s).annState n = some .fleeting
      ∧ (takeReport n .momentary s).ann.unack = s.ann.unack ++ [n]
      ∧ takeReport n .ret s = s ∧ takeReport n (.causeChange c) s = s)
    ∧ (s.annState n = some .new →
      (takeReport n .ret s).annState n = some .fleeting
      ∧ (takeReport n .ret s).ann.unack = s.ann.unack
      ∧ (takeReport n (.causeChange c) s).annState n = some .new
      ∧ (takeReport n (.causeChange c) s).ann.unack = s.ann.unack
      ∧ takeReport n (.onset c) s = s)
    ∧ (s.annState n = some .fleeting →
      (takeReport n (.onset c) s).annState n = some .new
      ∧ (takeReport n (.onset c) s).ann.unack = s.ann.unack
      ∧ (takeReport n .momentary s).annState n = some .fleeting
      ∧ (takeReport n .momentary s).ann.unack = s.ann.unack
      ∧ takeReport n .ret s = s ∧ takeReport n (.causeChange c) s = s)
    ∧ (s.annState n = some .standing →
      (takeReport n .ret s).annState n = some .returned
      ∧ (takeReport n .ret s).ann.unack = s.ann.unack
      ∧ (takeReport n (.causeChange c) s).annState n = some .new
      ∧ (takeReport n (.causeChange c) s).ann.unack = s.ann.unack ++ [n]
      ∧ takeReport n (.onset c) s = s)
    ∧ (s.annState n = some .returned →
      (takeReport n (.onset c) s).annState n = some .new
      ∧ (takeReport n (.onset c) s).ann.unack = s.ann.unack ++ [n]
      ∧ (takeReport n .momentary s).annState n = some .fleeting
      ∧ (takeReport n .momentary s).ann.unack = s.ann.unack ++ [n]
      ∧ takeReport n .ret s = s ∧ takeReport n (.causeChange c) s = s)
    ∧ (s.annState n = some .shelved → ∀ rep, takeReport n rep s = s)
    ∧ (∀ rep m, m ≠ n → (takeReport n rep s).annState m = s.annState m)
    ∧ ∀ rep, Changes reportParts s (takeReport n rep s)

/-- The events of R86's table: one RAISED with the cause of the onset or the cause change, one RAISED with EDGE
for a momentary onset, one RETURNED for a return (R86, R91). -/
def Claim.AlarmReportEvents : Prop :=
  (∀ (s : State) (n : Nat) (c : Cause),
    ((s.annState n = some .quiet ∨ s.annState n = some .fleeting ∨ s.annState n = some .returned) →
      (takeReport n (.onset c) s).events = (record .raised .part n c.code s).events
      ∧ (takeReport n .momentary s).events = (record .raised .part n 6 s).events)
    ∧ ((s.annState n = some .new ∨ s.annState n = some .standing) →
      (takeReport n .ret s).events = (record .returned .part n 0 s).events
      ∧ (takeReport n (.causeChange c) s).events = (record .raised .part n c.code s).events))
  ∧ Cause.high.code = 1 ∧ Cause.low.code = 2 ∧ Cause.level.code = 3 ∧ Cause.discrepant.code = 4
  ∧ Cause.overrun.code = 5 ∧ Cause.edge.code = 6

/-- A transition, through which every change of annunciation state goes, and an alarm report that takes one:
the counts of the group, the alarm lamp and the summary lamp (R88, R94, R96); no other lamp changes. -/
def Claim.TransitionMoves : Prop :=
  ∀ (s : State) (n : Nat) (new : AnnState) (r : AnnRec), s.ann.records.look n = some r →
    s.moved (transition n new s) n r new
    ∧ (∀ lamp, (∀ e, s.entryOf n = some e → e.alarmLamp ≠ some lamp) →
        (s.settings r.group).summary.claimed ≠ some lamp →
        (transition n new s).patternOf lamp = s.patternOf lamp)
    ∧ ∀ rep kind detail, rep.effect r.state = some (new, kind, detail) →
        s.moved (takeReport n rep s) n r new

/-- A stale and a fresh report: the group's stale count and its stale lamp; every other count, group and lamp
stands (R95, R96). -/
def Claim.StaleReports : Prop :=
  ∀ (s : State) (g : Nat),
    (staleReport g s).counts g = { s.counts g with stale := (s.counts g).stale + 1 }
    ∧ (freshReport g s).counts g = { s.counts g with stale := (s.counts g).stale - 1 }
    ∧ (∀ h, h ≠ g → (staleReport g s).counts h = s.counts h ∧ (freshReport g s).counts h = s.counts h)
    ∧ (∀ lamp, (s.settings g).staleLamp.claimed = some lamp →
        (staleReport g s).patternOf lamp = .steady
        ∧ (freshReport g s).patternOf lamp = if 1 < (s.counts g).stale then .steady else .off)
    ∧ ∀ lamp, (s.settings g).staleLamp.claimed ≠ some lamp →
        (staleReport g s).patternOf lamp = s.patternOf lamp
        ∧ (freshReport g s).patternOf lamp = s.patternOf lamp

/-- The four alarm reports: states, list and events, group counts and lamps; the stale and the fresh report
(R86 to R88, R91, R94 to R96). -/
def Obligations.AlarmReports : Prop :=
  Claim.AlarmReportTable ∧ Claim.AlarmReportEvents ∧ Claim.TransitionMoves ∧ Claim.StaleReports

/-- Every operation of the Annunciator keeps the unacknowledged list exact: each NEW or FLEETING point
once, and no other point (R92). -/
def Claim.UnacknowledgedListStaysExact : Prop :=
  ∀ s : State, s.listExact →
    (∀ n rep, (takeReport n rep s).listExact)
    ∧ (∀ x o, (acknowledge x o s).1.listExact) ∧ (∀ x o, (clear x o s).1.listExact)
    ∧ (∀ n o, (shelve n o s).1.listExact) ∧ (shelfSecond s).listExact ∧ (silence s).listExact
    ∧ (∀ n, (annRemove n s).listExact)
    ∧ ∀ n e, s.annState n = none → (annJoin n e s).listExact

/-- Every operation of the Annunciator keeps the shelf exact: each SHELVED point once, and no other (R102). -/
def Claim.ShelfStaysExact : Prop :=
  ∀ s : State, s.shelfExact →
    (∀ n rep, (takeReport n rep s).shelfExact)
    ∧ (∀ x o, (acknowledge x o s).1.shelfExact) ∧ (∀ x o, (clear x o s).1.shelfExact)
    ∧ (∀ n o, (shelve n o s).1.shelfExact) ∧ (shelfSecond s).shelfExact
    ∧ (∀ n, (annRemove n s).shelfExact)
    ∧ ∀ n e, s.annState n = none → (annJoin n e s).shelfExact

/-- Membership of the unacknowledged list and of the shelf goes with the state (R92, R102). -/
def Obligations.ListAndShelfStayExact : Prop :=
  Claim.UnacknowledgedListStaysExact ∧ Claim.ShelfStaysExact

/-- A board acknowledge takes every member off the list, NEW to STANDING and FLEETING to RETURNED, leaves
every other point, and silences the horn's class; a group acknowledge leaves other groups' members; both leave the
shelf (R99). -/
def Claim.BoardAndGroupAcknowledge : Prop :=
  ∀ (s : State) (o : Origin) (g : Nat), s.listExact →
    (acknowledge .board o s).2 = none ∧ (acknowledge (.group g) o s).2 = none
    ∧ (acknowledge .board o s).1.ann.unack = []
    ∧ (acknowledge .board o s).1.ann.hornClass = none
    ∧ (∀ x, x = .board ∨ x = .group g → (acknowledge x o s).1.ann.shelf = s.ann.shelf
        ∧ (acknowledge x o s).1.ann.shelfDue = s.ann.shelfDue)
    ∧ (∀ n, (acknowledge .board o s).1.annState n = match s.annState n with
        | some .new => some .standing
        | some .fleeting => some .returned
        | x => x)
    ∧ (acknowledge (.group g) o s).1.ann.unack = s.ann.unack.filter (fun n => s.groupOf n != some g)
    ∧ (∀ n, (acknowledge (.group g) o s).1.annState n =
        if s.groupOf n = some g then
          match s.annState n with
          | some .new => some .standing
          | some .fleeting => some .returned
          | x => x
        else s.annState n)

/-- An acknowledge in point scope: the states of R89, the operator unshelve of R105 with the shelf it leaves, and
the refusals of R98. Where the unshelved point's record alone would have expired at a board second still due, that
second is counted at the rest of the shelf at once (log 11). -/
def Claim.PointAcknowledge : Prop :=
  ∀ (s : State) (o : Origin) (n : Nat),
    ((s.point n).status ≠ .installed → acknowledge (.point n) o s = (s, some 5))
    ∧ ((s.point n).status = .installed → s.annState n = none →
        acknowledge (.point n) o s = (s, some 6))
    ∧ ((s.point n).status = .installed → s.annState n ≠ none →
        (acknowledge (.point n) o s).2 = none
        ∧ (acknowledge (.point n) o s).1.annState n = (match s.annState n with
          | some .new => some .standing
          | some .fleeting => some .returned
          | some .shelved => some (if s.isAbnormal n then .standing else .quiet)
          | x => x)
        ∧ (s.annState n = some .shelved → s.shelfBecomes (acknowledge (.point n) o s).1
            (s.ann.shelf.filter (fun x => x.point != n)))
        ∧ (s.annState n ≠ some .shelved →
            (acknowledge (.point n) o s).1.ann.shelf = s.ann.shelf
            ∧ (acknowledge (.point n) o s).1.ann.shelfDue = s.ann.shelfDue)
        ∧ (s.listExact → n ∉ (acknowledge (.point n) o s).1.ann.unack))
    ∧ (∀ m, m ≠ n → (acknowledge (.point n) o s).1.annState m = s.annState m)
    ∧ Changes operationParts s (acknowledge (.point n) o s).1

/-- The events of an acknowledge: one ACKED each, in list order and with its origin; for a SHELVED point one
UNSHELVED with detail 1; none for a point in another state (R89, R91, R99, R105). -/
def Claim.AcknowledgeEvents : Prop :=
  ∀ (s : State) (o : Origin) (g n : Nat), s.onBoard → s.listExact →
    (s.events.queue.length + s.ann.unack.length ≤ 32 →
      (acknowledge .board o s).1.events.queue = s.events.queue
        ++ s.ann.unack.map (fun m => s.eventOf .acked o m 0)
      ∧ (acknowledge (.group g) o s).1.events.queue = s.events.queue
        ++ (s.ann.unack.filter (fun m => s.groupOf m == some g)).map (fun m => s.eventOf .acked o m 0))
    ∧ ((s.point n).status = .installed → s.events.queue.length < 32 →
      ((s.annState n = some .new ∨ s.annState n = some .fleeting) →
        (acknowledge (.point n) o s).1.events.queue = s.events.queue ++ [s.eventOf .acked o n 0])
      ∧ (s.annState n = some .shelved →
        (acknowledge (.point n) o s).1.events.queue = s.events.queue ++ [s.eventOf .unshelved o n 1])
      ∧ ((s.annState n = some .quiet ∨ s.annState n = some .standing ∨ s.annState n = some .returned) →
        (acknowledge (.point n) o s).1.events = s.events))

/-- The counts and lamps of an acknowledge of one point, which a board or group acknowledge takes for each of
its points in turn (R88, R89, R94, R96, R105). -/
def Claim.AcknowledgeMoves : Prop :=
  ∀ (s t : State) (o : Origin) (n : Nat) (r : AnnRec), s.ann.records.look n = some r →
    (t = ackPoint o n s ∨ (s.point n).status = .installed ∧ t = (acknowledge (.point n) o s).1) →
    (r.state = .new → s.moved t n r .standing)
    ∧ (r.state = .fleeting → s.moved t n r .returned)
    ∧ (r.state = .shelved → s.moved t n r (if s.isAbnormal n then .standing else .quiet))
    ∧ (r.state = .quiet ∨ r.state = .standing ∨ r.state = .returned →
        t.ann.groups = s.ann.groups ∧ t.gen = s.gen)

/-- An acknowledge in each scope: states, list and events, counts and lamps (R88, R89, R91, R94, R96, R98, R99,
R105). -/
def Obligations.Acknowledge : Prop :=
  Claim.BoardAndGroupAcknowledge ∧ Claim.PointAcknowledge ∧ Claim.AcknowledgeEvents
    ∧ Claim.AcknowledgeMoves

/-- A clear of one point: RETURNED goes to QUIET with a CLEARED event of the clear's origin; in every other
state nothing changes and nothing is recorded; either way it is accepted (R90). -/
def Obligations.ClearOfAPoint : Prop :=
  ∀ (s : State) (o : Origin) (n : Nat),
    (s.annState n = some .returned →
      (clearPoint o n s).annState n = some .quiet
      ∧ (s.onBoard → s.events.queue.length < 32 → (clearPoint o n s).events.queue = s.events.queue ++
          [⟨.cleared, o, BitVec.ofNat 16 n, 0, s.gen.seconds.setWidth 16⟩])
      ∧ ∀ m, m ≠ n → (clearPoint o n s).annState m = s.annState m)
    ∧ (s.annState n ≠ some .returned → clearPoint o n s = s)
    ∧ ((s.point n).status = .installed → s.annState n ≠ none →
        clear (.point n) o s = (decideHorn (clearPoint o n s), none))

/-- A clear takes the RETURNED points of its scope to QUIET and no other, and leaves the list and the shelf; its
refusals (R90, R98, R100). -/
def Claim.ClearedStates : Prop :=
  ∀ (s : State) (o : Origin) (g n : Nat),
    (clear .board o s).2 = none ∧ (clear (.group g) o s).2 = none
    ∧ (∀ m, (clear .board o s).1.annState m =
        if s.annState m = some .returned then some .quiet else s.annState m)
    ∧ (∀ m, (clear (.group g) o s).1.annState m =
        if s.annState m = some .returned ∧ s.groupOf m = some g then some .quiet else s.annState m)
    ∧ ((s.point n).status ≠ .installed → clear (.point n) o s = (s, some 5))
    ∧ ((s.point n).status = .installed → s.annState n = none → clear (.point n) o s = (s, some 6))
    ∧ ((s.point n).status = .installed → s.annState n = some .returned →
        (clear (.point n) o s).1.annState n = some .quiet)
    ∧ ∀ x, (clear x o s).1.ann.unack = s.ann.unack ∧ (clear x o s).1.ann.shelf = s.ann.shelf

/-- The events of a clear: one CLEARED for each point it takes to QUIET, in ascending point number and with its
origin (R91, R100). -/
def Claim.ClearEvents : Prop :=
  ∀ (s : State) (o : Origin) (g : Nat), s.ann.records.sorted = true →
    s.returnedPoints.Pairwise (· < ·)
    ∧ (∀ n, n ∈ s.returnedPoints ↔ s.annState n = some .returned)
    ∧ (s.onBoard → s.events.queue.length + s.returnedPoints.length ≤ 32 →
      (clear .board o s).1.events.queue = s.events.queue
        ++ s.returnedPoints.map (fun m => s.eventOf .cleared o m 0)
      ∧ (clear (.group g) o s).1.events.queue = s.events.queue
        ++ (s.returnedPoints.filter (fun m => s.groupOf m == some g)).map
          (fun m => s.eventOf .cleared o m 0))

/-- The counts and lamps of a clear of one point, which a board or group clear takes for each of its points in
turn (R88, R90, R94, R96). -/
def Claim.ClearMoves : Prop :=
  ∀ (s t : State) (o : Origin) (n : Nat) (r : AnnRec), s.ann.records.look n = some r →
    (t = clearPoint o n s ∨ (s.point n).status = .installed ∧ t = (clear (.point n) o s).1) →
    (r.state = .returned → s.moved t n r .quiet)
    ∧ (r.state ≠ .returned → t.ann.groups = s.ann.groups ∧ t.gen = s.gen)

/-- A clear in each scope: states and events, counts and lamps (R88, R90, R91, R94, R96, R98, R100). -/
def Obligations.Clear : Prop :=
  Claim.ClearedStates ∧ Claim.ClearEvents ∧ Claim.ClearMoves

/-- A shelve: its checks in their order with their reasons, and the shelving or reshelving, with the counts and
lamps that follow (R88, R94, R96, R98, R103). Where a reshelved point's record alone would have expired at a board
second still due, that second is counted at the shelf behind the reshelve, in the same step (log 11). -/
def Obligations.Shelve : Prop :=
  ∀ (s : State) (o : Origin) (n : Nat),
    ((s.point n).status ≠ .installed → shelve n o s = (s, some 5))
    ∧ ((s.point n).status = .installed → s.annState n = none → shelve n o s = (s, some 6))
    ∧ ((s.point n).status = .installed → s.annState n ≠ none → s.ann.shelveMinutes = 0 →
        shelve n o s = (s, some 8))
    ∧ ((s.point n).status = .installed → s.annState n ≠ none → s.ann.shelveMinutes ≠ 0 →
        32 ≤ s.ann.shelf.length → (∀ x ∈ s.ann.shelf, x.point ≠ n) → shelve n o s = (s, some 7))
    ∧ ((s.point n).status = .installed → s.annState n ≠ none → s.ann.shelveMinutes ≠ 0 →
        (s.ann.shelf.length < 32 ∨ ∃ x ∈ s.ann.shelf, x.point = n) →
        (shelve n o s).2 = none ∧ (shelve n o s).1.annState n = some .shelved
        ∧ (∀ r, s.ann.records.look n = some r → s.moved (shelve n o s).1 n r .shelved)
        ∧ s.shelfBecomes (shelve n o s).1
            (s.ann.shelf.filter (fun x => x.point != n) ++ [⟨n, s.ann.shelveMinutes * 60⟩])
        ∧ (s.listExact → (shelve n o s).1.ann.unack = s.ann.unack.filter (fun m => m != n))
        ∧ (s.onBoard → s.events.queue.length < 32 → (shelve n o s).1.events.queue = s.events.queue ++
            [⟨.shelved, o, BitVec.ofNat 16 n, BitVec.ofNat 16 s.ann.shelveMinutes,
              s.gen.seconds.setWidth 16⟩]))
    ∧ ∀ m, m ≠ n → (shelve n o s).1.annState m = s.annState m

/-- SHELF_EXPIRY: the board second lowers every record of the shelf by one; a record that reaches 0 leaves,
its point NEW where it is abnormal and QUIET where it is normal, each with an UNSHELVED event, detail 0 and
origin part, in shelf order; in that order the abnormal ones join the end of the list (R91, R92, R104). -/
def Claim.ShelfExpiry : Prop :=
  ∀ s : State, s.tickDone → s.ann.shelfDue = true → s.shelfExact →
    ∃ t, exec .shelfExpiry s = .next t
      ∧ t.ann.shelf = (s.ann.shelf.map (fun x => { x with seconds := x.seconds - 1 })).filter
          (fun x => x.seconds != 0)
      ∧ t.ann.shelfDue = false
      ∧ (∀ x ∈ s.ann.shelf, x.seconds ≤ 1 →
          t.annState x.point = some (if s.isAbnormal x.point then .new else .quiet))
      ∧ (∀ n, (∀ x ∈ s.ann.shelf, x.point = n → 1 < x.seconds) → t.annState n = s.annState n)
      ∧ t.ann.unack = s.ann.unack ++ (s.ann.shelf.filter
          (fun x => decide (x.seconds ≤ 1) && s.isAbnormal x.point)).map ShelfRec.point
      ∧ (s.onBoard → s.events.queue.length + s.ann.shelf.length ≤ 32 →
          t.events.queue = s.events.queue ++
            (s.ann.shelf.filter (fun x => decide (x.seconds ≤ 1))).map
              (fun x => s.eventOf .unshelved .part x.point 0))
      ∧ t.evaluator = s.evaluator

/-- The counts and lamps of a point that comes off the shelf, at an expiry and by an operator (R88, R94, R96,
R104, R105). -/
def Claim.UnshelveMoves : Prop :=
  ∀ (s : State) (n detail : Nat) (o : Origin) (abnormal : AnnState) (r : AnnRec),
    s.ann.records.look n = some r →
    s.moved (unshelve n abnormal detail o s) n r (if s.isAbnormal n then abnormal else .quiet)

/-- The board second at the shelf, with the order in which its points join the list, and the counts and lamps of each
point that comes off it (R88, R91, R92, R94, R96, R104). -/
def Obligations.ShelfExpiry : Prop :=
  Claim.ShelfExpiry ∧ Claim.UnshelveMoves

/-- The horn class: none where the silence flag is set; else the lowest class among the members whose
group is horn-enabled, where it is 1, 2 or 3 (R107); and the HORN output of each class (R108). -/
def Obligations.HornClass : Prop :=
  ∀ s : State,
    (s.ann.silence = true → (decideHorn s).ann.hornClass = none)
    ∧ (s.ann.silence = false → ∀ c, (decideHorn s).ann.hornClass = some c ↔
        c ≤ 3 ∧ (∃ n ∈ s.ann.unack, s.hornMember n = some c)
          ∧ ∀ n ∈ s.ann.unack, ∀ d, s.hornMember n = some d → c ≤ d)
    ∧ (∀ n c, s.hornMember n = some c ↔ ∃ r, s.ann.records.look n = some r ∧ r.cls = c
        ∧ (s.settings r.group).horn = true)
    ∧ (s.ann.hornClass = none → s.horn = false) ∧ (s.ann.hornClass = some 1 → s.horn = true)
    ∧ (s.ann.hornClass = some 2 → (s.horn = true ↔ s.gen.phase.toNat ∈ [0, 1, 4, 5]))
    ∧ (s.ann.hornClass = some 3 → (s.horn = true ↔ s.gen.phase.toNat ∈ [0, 1, 2, 3]))

/-- A point that joins the list stands at its end, takes the first-up mark where its group had no member,
clears the silence flag where the group is horn-enabled, and hands a wake request where the new indicator
of a wake-enabled group rises (R92, R93, R97, R106). -/
def Obligations.JoiningTheList : Prop :=
  ∀ (s : State) (n g : Nat),
    (joinList n g s).ann.unack = s.ann.unack ++ [n]
    ∧ ((s.counts g).unack = 0 → ((joinList n g s).counts g).firstUp = some n)
    ∧ ((s.counts g).unack ≠ 0 → (joinList n g s).counts g = s.counts g)
    ∧ ((s.settings g).horn = true → (joinList n g s).ann.silence = false)
    ∧ ((s.settings g).horn = false → (joinList n g s).ann.silence = s.ann.silence)
    ∧ (joinList n g s).gen.wakeRequests = s.gen.wakeRequests +
        (if (s.counts g).unack = 0 ∧ (s.settings g).wake = true then 1 else 0)
    ∧ (leaveList n g s).ann.unack = s.ann.unack.filter (fun m => m != n)
    ∧ ((s.counts g).firstUp = some n → ((leaveList n g s).counts g).firstUp = none)
    ∧ ((s.counts g).firstUp ≠ some n → (leaveList n g s).counts g = s.counts g)
    ∧ ∀ h, h ≠ g → (joinList n g s).counts h = s.counts h ∧ (leaveList n g s).counts h = s.counts h

/-! ## Board modes and the tick -/

/-- R117's table: k8 requests, DIM requests, wakes, with the MODE event of each change. -/
def Claim.ModeTable : Prop :=
  ∀ (s : State) (d : Nat) (o : Origin),
    (∀ m, s.gen.mode = m → requestMode m s = s)
    ∧ (s.gen.mode ≠ .dark → requestMode .dark s = record .mode .remote 2 2
        (s.setGen { s.gen with mode := .dark, settling := false, settleCount := 0 }))
    ∧ (s.gen.mode = .dark → requestMode .lit s = record .mode .remote 0 2
        (s.setGen { s.gen with mode := .lit, settling := true, settleCount := 0 }))
    ∧ (s.gen.mode = .dark → requestMode .dim s = record .mode .remote 1 2
        (s.setGen { s.gen with mode := .dim, settling := true, settleCount := 0 }))
    ∧ (s.gen.mode = .lit → requestMode .dim s =
        record .mode .remote 1 2 (s.setGen { s.gen with mode := .dim }))
    ∧ (s.gen.mode = .dim → requestMode .lit s =
        record .mode .remote 0 2 (s.setGen { s.gen with mode := .lit }))
    ∧ (s.gen.mode = .lit → requestDim d o s =
        record .mode o 1 d (s.setGen { s.gen with mode := .dim }))
    ∧ (s.gen.mode = .dim → requestDim d o s =
        record .mode o 0 d (s.setGen { s.gen with mode := .lit }))
    ∧ (s.gen.mode = .dark → requestDim d o s = s)
    ∧ (s.gen.mode = .dark → wake d o s = record .mode o 0 d
        (s.setGen { s.gen with mode := .lit, settling := true, settleCount := 0 }))
    ∧ (s.gen.mode ≠ .dark → wake d o s = s)

/-- A dispatched k8 item requests the mode of its lowest two bits, 3 as DARK; a wake request handed by the
Annunciator is taken with detail 3 (R118, R121). -/
def Claim.ModeCommands : Prop :=
  (∀ (s : State) (w : Word), s.tickDone → s.onBoard → s.front .k8 w →
    ((w.extractLsb' 0 2 : BitVec 2) = 0 →
      exec .modeRequest s = .next (settle (requestMode .lit (popCapture s))))
    ∧ ((w.extractLsb' 0 2 : BitVec 2) = 1 →
      exec .modeRequest s = .next (settle (requestMode .dim (popCapture s))))
    ∧ ((w.extractLsb' 0 2 : BitVec 2) = 2 ∨ (w.extractLsb' 0 2 : BitVec 2) = 3 →
      exec .modeRequest s = .next (settle (requestMode .dark (popCapture s)))))
  ∧ ∀ (s : State) (k : Nat), s.tickDone → s.gen.wakeRequests = k + 1 →
      exec .wakeByAlarm s =
        .next (settle (wake 3 .part (s.setGen { s.gen with wakeRequests := k })))

/-- LSUP: high while the mode is LIT or DIM and while an exchange is in flight on any chain; low while a board
reset is asserted, and high again at its end (R123). -/
def Claim.LampSupply : Prop :=
  (∀ s : State, s.lsup = true ↔ s.path.inReset = false
      ∧ (s.gen.mode ≠ .dark ∨ ∃ c, (s.chains.get c).exchange ≠ none))
    ∧ ∀ (s t u : State) (straps : BitVec 2), exec .boardReset s = .next t →
        exec (.boardResetEnd straps) t = .next u → t.lsup = false ∧ u.lsup = true

/-- The board modes, the commands that request them, and the lamp supply (R117 to R121, R123). -/
def Obligations.BoardModes : Prop :=
  Claim.ModeTable ∧ Claim.ModeCommands ∧ Claim.LampSupply

/-- A tick: every counter that does not reach its end moves, the ends it reaches are due as pieces in R109's
order, the third released scan is due as the panel's release, the keys are scanned and the display is sent
(R109 to R111, R116, R122, R143, R158). That a tick's ends are pieces of their own, the release before the
others, and that no tick is made while a board reset is asserted is log 7. -/
def Obligations.Tick : Prop :=
  ∀ (s : State) (r0 r1 r2 : Byte), s.tickDone →
    (s.path.inReset = true → exec (.tick r0 r1 r2) s = .next (settle s))
    ∧ (s.path.inReset = false → ∃ t, exec (.tick r0 r1 r2) s = .next (settle t)
      ∧ t.gen.tickCount = s.gen.tickCount + 1
      ∧ (t.gen.frameMarker = true ↔ (s.gen.tickCount + 1) % 2 = 0)
      ∧ (s.gen.phaseTicks + 1 < 2 ^ (3 + s.gen.flash.toNat) →
          t.gen.phaseTicks = s.gen.phaseTicks + 1 ∧ .phaseBoundary ∉ t.gen.tickWork)
      ∧ (2 ^ (3 + s.gen.flash.toNat) ≤ s.gen.phaseTicks + 1 → .phaseBoundary ∈ t.gen.tickWork)
      ∧ (s.gen.settling = true → s.gen.settleCount + 1 < 256 →
          t.gen.settleCount = s.gen.settleCount + 1 ∧ .settleEnd ∉ t.gen.tickWork)
      ∧ (s.gen.settling = true → 256 ≤ s.gen.settleCount + 1 → .settleEnd ∈ t.gen.tickWork)
      ∧ (1 < s.gen.testTimer → t.gen.testTimer = s.gen.testTimer - 1 ∧ .lampTestEnd ∉ t.gen.tickWork)
      ∧ (s.gen.testTimer = 1 → .lampTestEnd ∈ t.gen.tickWork)
      ∧ (.frameSlot ∈ t.gen.tickWork ↔ (s.gen.tickCount + 1) % 2 = 0)
      ∧ (.boardSecond ∈ t.gen.tickWork ↔ (s.gen.tickCount + 1) % 100 = 0)
      ∧ t.gen.tickWork.Sublist
          [.keyRelease, .phaseBoundary, .settleEnd, .lampTestEnd, .frameSlot, .boardSecond]
      ∧ t.panel.shown = (s.panel.scan (keysDown r0 r1 r2)).display
      ∧ t.panel.presses = (s.panel.scan (keysDown r0 r1 r2)).presses
      ∧ t.panel.held = (s.panel.scan (keysDown r0 r1 r2)).held
      ∧ t.panel.pressCount = (s.panel.scan (keysDown r0 r1 r2)).pressCount
      ∧ t.panel.releaseCount = (s.panel.scan (keysDown r0 r1 r2)).releaseCount
      ∧ (.keyRelease ∈ t.gen.tickWork ↔ s.panel.releases (keysDown r0 r1 r2) = true)
      ∧ t.gen.seconds = s.gen.seconds ∧ t.gen.patterns = s.gen.patterns ∧ t.chains = s.chains
      ∧ t.loader = s.loader ∧ t.ann = s.ann ∧ t.evaluator = s.evaluator ∧ t.ram = s.ram)

/-- The pieces of a tick, each where it is the next one due (R109 to R111, R115, R116, R122, R143). -/
def Claim.TickPieces : Prop :=
  ∀ (s : State) (rest : List TickWork),
    (s.gen.tickWork = .phaseBoundary :: rest → exec .phaseBoundary s = .next (settle (s.setGen
      { s.gen with phaseTicks := 0, phase := s.gen.phase + 1,
                   flash := s.gen.waitingFlash.getD s.gen.flash, waitingFlash := none,
                   tickWork := rest })))
    ∧ (s.gen.tickWork = .settleEnd :: rest → exec .settleEnd s = .next (settle (s.setGen
      { s.gen with settling := false, settleCount := 0, tickWork := rest })))
    ∧ (s.gen.tickWork = .lampTestEnd :: rest → exec .lampTestEnd s = .next (settle (s.setGen
      { s.gen with testTimer := 0, tickWork := rest })))
    ∧ (s.gen.tickWork = .frameSlot :: rest → exec .frameSlot s = .next (settle (giveFrames
      (s.setGen { s.gen with tickWork := rest }))))
    ∧ (s.gen.tickWork = .boardSecond :: rest → exec .boardSecond s = .next (settle (handSecond
      (s.setGen { s.gen with seconds := s.gen.seconds + 1, tickWork := rest }))))
    ∧ (s.gen.tickWork = .keyRelease :: rest → exec .keyRelease s = .next (settle
      ((s.setGen { s.gen with tickWork := rest }).setPanel
        { s.panel with held := false, pressCount := 0, releaseCount := 3 })))

/-- A board second at the Evaluator: a point at which it only counts has its age and its travel timer
counted at once; a point that becomes stale or overruns is left due (R77, log 11). -/
def Claim.BoardSecondCounts : Prop :=
  ∀ (s : State) (n : Nat) (v : ValueRec) (e : Entry),
    s.evaluator.secondDue = [] → s.ann.shelfDue = false → s.evaluator.values.sorted = true →
    s.evaluator.values.look n = some v → s.entryOf n = some e →
    (s.crossing n = false → ∃ v', (handSecond s).evaluator.values.look n = some v'
      ∧ v'.age = (if 0 < e.timeout ∧ v.stale = false then min 255 (v.age + 1) else v.age)
      ∧ (∀ pos t ov, v.kind = .valve pos (some t) ov → v'.kind = .valve pos (some (t - 1)) ov)
      ∧ v'.stale = v.stale ∧ v'.condition = v.condition ∧ v'.last = v.last
      ∧ n ∉ (handSecond s).evaluator.secondDue)
    ∧ (s.crossing n = true → n ∈ (handSecond s).evaluator.secondDue
      ∧ (handSecond s).evaluator.values.look n = some v)

/-- A board second at the shelf: where no record expires, each loses one second at once; where one expires, the
shelf is left due as it stands (R104, log 11). Where nothing is due from before, a board second only counts: of
the Evaluator and the Annunciator it changes no more than the value records, the shelf, the horn class decided
afresh, and what is due. -/
def Claim.BoardSecondAtTheShelf : Prop :=
  ∀ s : State, s.ann.shelfDue = false →
    ((∀ x ∈ s.ann.shelf, 1 < x.seconds) →
      (handSecond s).ann.shelf = s.ann.shelf.map (fun x => { x with seconds := x.seconds - 1 })
      ∧ (handSecond s).ann.shelfDue = false)
    ∧ ((∃ x ∈ s.ann.shelf, x.seconds ≤ 1) →
      (handSecond s).ann.shelf = s.ann.shelf ∧ (handSecond s).ann.shelfDue = true)
    ∧ (s.evaluator.secondDue = [] → s.evaluator.values.sorted = true →
      Changes [.evaluatorValues, .evaluatorSecondDue, .annShelf, .annShelfDue, .annHornClass]
        s (handSecond s))

/-- What the pieces of a tick do, and a board second at the Evaluator and at the shelf (R77, R104, R109 to R111,
R115, R116, R122, R143; what is left due is log 11). -/
def Obligations.WorkOfATick : Prop :=
  Claim.TickPieces ∧ Claim.BoardSecondCounts ∧ Claim.BoardSecondAtTheShelf

/-- The scan of the keys: the matrix positions (10.8), WAITING and HELD with their counts (R143), and the
highest-ranked key of the third pressed scan in R144's rank order. -/
def Obligations.KeyScan : Prop :=
  (∀ (p : Panel) (down : List Key),
    (p.held = false → down = [] → (p.scan down).pressCount = 0 ∧ (p.scan down).held = false)
    ∧ (p.held = false → down ≠ [] → p.pressCount < 2 →
        (p.scan down).pressCount = p.pressCount + 1 ∧ (p.scan down).held = false
          ∧ (p.scan down).presses = p.presses)
    ∧ (p.held = false → down ≠ [] → 2 ≤ p.pressCount →
        (p.scan down).held = true ∧ (p.scan down).releaseCount = 0
          ∧ (p.scan down).presses = p.presses ++ (highestKey down).toList)
    ∧ (p.held = true → down ≠ [] → (p.scan down).releaseCount = 0 ∧ (p.scan down).held = true
          ∧ (p.scan down).presses = p.presses)
    ∧ (p.held = true → down = [] → p.releaseCount < 2 →
        (p.scan down).releaseCount = p.releaseCount + 1 ∧ p.releases down = false)
    ∧ (p.held = true → down = [] → 2 ≤ p.releaseCount → p.releases down = true))
  ∧ (∀ (down : List Key) (k : Key), highestKey down = some k →
      k ∈ down ∧ ∀ j ∈ down, keyRank.idxOf k ≤ keyRank.idxOf j)
  ∧ (∀ down : List Key, down ≠ [] → (highestKey down).isSome = true)
  ∧ keyRank = [.enter, .ack, .clear, .silence, .test, .group, .shelve, .dim,
      .digit 0xF, .digit 0xE, .digit 0xD, .digit 0xC, .digit 0xB, .digit 0xA, .digit 9, .digit 8,
      .digit 7, .digit 6, .digit 5, .digit 4, .digit 3, .digit 2, .digit 1, .digit 0]
  ∧ ∀ r0 r1 r2 : Byte,
    (∀ i, i < 8 →
      (.digit (BitVec.ofNat 4 i) ∈ keysDown r0 r1 r2 ↔ r0.getLsbD i = false)
      ∧ (.digit (BitVec.ofNat 4 (8 + i)) ∈ keysDown r0 r1 r2 ↔ r1.getLsbD i = false))
    ∧ (.enter ∈ keysDown r0 r1 r2 ↔ r2.getLsbD 0 = false)
    ∧ (.ack ∈ keysDown r0 r1 r2 ↔ r2.getLsbD 1 = false)
    ∧ (.clear ∈ keysDown r0 r1 r2 ↔ r2.getLsbD 2 = false)
    ∧ (.silence ∈ keysDown r0 r1 r2 ↔ r2.getLsbD 3 = false)
    ∧ (.test ∈ keysDown r0 r1 r2 ↔ r2.getLsbD 4 = false)
    ∧ (.group ∈ keysDown r0 r1 r2 ↔ r2.getLsbD 5 = false)
    ∧ (.shelve ∈ keysDown r0 r1 r2 ↔ r2.getLsbD 6 = false)
    ∧ (.dim ∈ keysDown r0 r1 r2 ↔ r2.getLsbD 7 = false)

/-! ## Patterns, frames and chains -/

/-- The six patterns: their codes and the phases in which each is lit (R112). -/
def Obligations.PatternPhases : Prop :=
  ∀ p : BitVec 3,
    Pattern.off.litIn p = false ∧ Pattern.steady.litIn p = true
    ∧ (Pattern.fast.litIn p = true ↔ p.toNat ∈ [0, 1, 4, 5])
    ∧ (Pattern.slow.litIn p = true ↔ p.toNat ∈ [0, 1, 2, 3])
    ∧ (Pattern.first.litIn p = true ↔ p.toNat ∈ [0, 2, 4, 6])
    ∧ (Pattern.stale.litIn p = true ↔ p.toNat = 0)
    ∧ Pattern.off.code = 0 ∧ Pattern.steady.code = 1 ∧ Pattern.fast.code = 2
    ∧ Pattern.slow.code = 3 ∧ Pattern.first.code = 4 ∧ Pattern.stale.code = 5

/-- A frame slot: nothing is given while DARK or settling; else each chain that is not IDLE and has no
exchange in flight begins one, an output on where the lamp test runs or its pattern is lit, the frame's
sections carrying those bits and the dim value (R115, R130). A chain whose exchange is still in flight stays as
it is: the model's reading (log 9, DEDUCED), not R130's words. -/
def Claim.FrameSlot : Prop :=
  ∀ (s : State) (c : ChainId),
    ((s.gen.mode = .dark ∨ s.gen.settling = true) → giveFrames s = s)
    ∧ (s.gen.mode ≠ .dark → s.gen.settling = false →
      ((s.chains.get c).state = .idle → (giveFrames s).chains.get c = s.chains.get c)
      ∧ ((s.chains.get c).exchange.isSome = true → (giveFrames s).chains.get c = s.chains.get c)
      ∧ ((s.chains.get c).state ≠ .idle → (s.chains.get c).exchange = none →
          ∃ x, (giveFrames s).chains.get c = { s.chains.get c with exchange := some x }
            ∧ x.sent.count = (s.chains.get c).count
            ∧ x.sent.bits.length = 64 * (s.chains.get c).count
            ∧ (∀ i, i < 64 * (s.chains.get c).count → x.sent.bits.getD i false =
                (s.testRunning
                  || (s.patternOf (chainIndex c * 1024 + i)).litIn s.gen.phase))
            ∧ (x.dim = true ↔ s.gen.mode = .dim ∧ s.testRunning = false)
            ∧ x.frame.length = 9 * (s.chains.get c).count + 2
            ∧ frameGood (s.chains.get c).count x.frame = true
            ∧ (∀ k j, k < (s.chains.get c).count → j < 64 →
                sectionBit x.frame k j = x.sent.bits.getD (64 * k + j) false)
            ∧ (∀ k, k < (s.chains.get c).count → sectionTail x.frame k = if x.dim then 1 else 0)
            ∧ x.record = (s.chains.get c).prev ∧ x.void = false))
    ∧ Changes [.chainsA, .chainsB, .chainsC, .chainsD] s (giveFrames s)

/-- The CRC: its start, the eight shifts with A001h that each byte takes, its check value (R173); a frame is good
where its two closing bytes, the low one first, hold the CRC of its sections (R132), and every closed frame is. -/
def Claim.FrameCrc : Prop :=
  crc [] = 0xFFFF
    ∧ (∀ (l : List Byte) (b : Byte), crc (l ++ [b]) = crcShift^[8] (crc l ^^^ b.setWidth 16))
    ∧ (∀ r : Word, crcShift r = if r.getLsbD 0 then (r >>> 1) ^^^ 0xA001 else r >>> 1)
    ∧ (∀ (n : Nat) (frame : List Byte), frameGood n frame = true ↔
        (crc (frame.take (9 * n))).toNat =
          (frame.getD (9 * n) 0).toNat + 256 * (frame.getD (9 * n + 1) 0).toNat)
    ∧ crc [0x31, 0x32, 0x33, 0x34, 0x35, 0x36, 0x37, 0x38, 0x39] = 0x4B37
    ∧ ∀ (n : Nat) (sections : List Byte), sections.length = 9 * n →
      frameGood n (closeFrame sections) = true ∧ (closeFrame sections).length = 9 * n + 2

/-- A card at the latch strobe: a good frame's section is taken, a bad frame rejected (R128). A card at or beyond
the count keeps its outputs and its dim state at a good frame, and reports it accepted: the model's choice (log 12). -/
def Claim.CardTakesItsSection : Prop :=
  ∀ (card : Card) (n k : Nat) (frame : List Byte),
    (frameGood n frame = true → k < n →
      (∀ j, j < 64 → (card.takeFrame n k frame).outputs.getLsbD j = sectionBit frame k j)
      ∧ (card.takeFrame n k frame).dim = (sectionTail frame k).getLsbD 0
      ∧ (card.takeFrame n k frame).rejected = false)
    ∧ (frameGood n frame = true → n ≤ k → card.takeFrame n k frame = { card with rejected := false })
    ∧ (frameGood n frame = false → card.takeFrame n k frame = { card with rejected := true })
    ∧ (∀ j, sectionBit frame k j = (frame.getD (9 * k + j / 8) 0).getLsbD (j % 8))
    ∧ sectionTail frame k = frame.getD (9 * k + 8) 0

/-- The latch strobe at a chain's 16 card places: each takes the frame as it stands there, and the cards of the other
chains stand. The frame at a place is what the last damage at or before it left, and the sent frame where there is
none (R128); a shorter frame is filled with 00h and a longer one cut, the model's choice (log 10). -/
def Claim.CardsAtTheStrobe : Prop :=
  (∀ (c : ChainId) (n : Nat) (arrivals : List (Nat × List Byte)) (sent : List Byte) (cards : Table Card),
    (∀ k, k < 16 → (strobe c n arrivals sent cards).val Card.off (chainIndex c * 16 + k) =
      (cards.val Card.off (chainIndex c * 16 + k)).takeFrame n k
        (frameOfLength n (frameAtCard arrivals sent k)))
    ∧ ∀ place, (∀ k, k < 16 → place ≠ chainIndex c * 16 + k) →
        (strobe c n arrivals sent cards).val Card.off place = cards.val Card.off place)
  ∧ (∀ (arrivals : List (Nat × List Byte)) (sent : List Byte) (k : Nat),
    ((∀ x ∈ arrivals, k < x.1) → frameAtCard arrivals sent k = sent)
    ∧ ∀ before j damaged after, arrivals = before ++ (j, damaged) :: after → j ≤ k →
        (∀ x ∈ after, k < x.1) → frameAtCard arrivals sent k = damaged)
  ∧ ∀ (n : Nat) (bytes : List Byte), (frameOfLength n bytes).length = 9 * n + 2
      ∧ ∀ i, i < 9 * n + 2 → (frameOfLength n bytes).getD i 0 = bytes.getD i 0

/-- What the cards return: a sense bit is 1 where the output is on and its lamp draws no current, the status byte
reports whether the last frame was rejected, and the frame is closed by its CRC (R129, R130, 10.7). How a card lights a
lamp: not at all without the lamp supply or with its output off, else with the card's dim state (R129). -/
def Claim.CardsReturn : Prop :=
  (∀ (s : State) (c : ChainId) (n : Nat) (noCurrent : List Nat),
    (cardsReturn s c n noCurrent).length = 9 * n + 2
    ∧ frameGood n (cardsReturn s c n noCurrent) = true
    ∧ ∀ k, k < n →
      (∀ j, j < 64 → (sectionBit (cardsReturn s c n noCurrent) k j = true ↔
        (s.card c k).outputs.getLsbD j = true ∧ chainIndex c * 1024 + k * 64 + j ∈ noCurrent))
      ∧ sectionTail (cardsReturn s c n noCurrent) k = if (s.card c k).rejected then 1 else 0)
  ∧ (∀ (s : State) (c : ChainId) (k : Nat), s.card c k = s.cards.val Card.off (chainIndex c * 16 + k))
  ∧ ∀ (s : State) (c : ChainId) (k j : Nat), k < 16 → j < 64 →
      s.lampLight (chainIndex c * 1024 + k * 64 + j) =
        if s.lsup = true ∧ (s.card c k).outputs.getLsbD j = true then some (s.card c k).dim else none

/-- The frames of a frame slot, their CRC, how the cards of a chain take one and what they return (R115, R128 to R130,
R132, R173). The model's choices: an exchange still in flight (log 9), a frame of another length (log 10), a card at or
beyond the count (log 12). -/
def Obligations.FramesAndCards : Prop :=
  Claim.FrameSlot ∧ Claim.FrameCrc ∧ Claim.CardTakesItsSection ∧ Claim.CardsAtTheStrobe ∧ Claim.CardsReturn

/-- The end of an exchange: a bad return counts towards FAULTED (R133), a good one makes the chain OK with
bad count 0 (R134), the sent bits become the record (R131), a voided exchange is discarded (R130). -/
def Claim.ExchangeEnds : Prop :=
  ∀ (s : State) (c : ChainId) (arrivals : List (Nat × List Byte)) (noCurrent : List Nat)
    (received : Option (List Byte)) (x : Exchange) (frame : List Byte),
    s.tickDone → (s.chains.get c).exchange = some x →
    frame = frameOfLength x.sent.count (received.getD (cardsReturn s c x.sent.count noCurrent)) →
    ∃ t, exec (.exchangeEnd c arrivals noCurrent received) s = .next t
      ∧ (t.chains.get c).exchange = none ∧ (t.chains.get c).count = (s.chains.get c).count
      ∧ t.cards = strobe c x.sent.count arrivals x.frame s.cards
      ∧ (∀ d, d ≠ c → t.chains.get d = s.chains.get d)
      ∧ (x.void = true → t.chains.get c = { s.chains.get c with exchange := none }
          ∧ t.events.queue = s.events.queue ∧ t.events.lost = s.events.lost
          ∧ Changes ([.chainsA, .chainsB, .chainsC, .chainsD, .cards] ++ settleParts) s t)
      ∧ (x.void = false → (t.chains.get c).prev = some x.sent)
      ∧ (x.void = false → frameGood x.sent.count frame = false →
          t.chains.fails = s.chains.fails ∧ t.chains.faultCount = s.chains.faultCount
          ∧ ((s.chains.get c).state = .ok → (s.chains.get c).bad < 2 →
              (t.chains.get c).state = .ok ∧ (t.chains.get c).bad = (s.chains.get c).bad + 1)
          ∧ ((s.chains.get c).state = .ok → 2 ≤ (s.chains.get c).bad →
              (t.chains.get c).state = .faulted ∧ (t.chains.get c).bad = 3)
          ∧ ((s.chains.get c).state = .faulted →
              (t.chains.get c).state = .faulted ∧ (t.chains.get c).bad = (s.chains.get c).bad))
      ∧ (x.void = false → frameGood x.sent.count frame = true →
          (t.chains.get c).bad = 0
          ∧ ((s.chains.get c).state ≠ .idle → (t.chains.get c).state = .ok)
          ∧ (x.record = none → t.chains.fails = s.chains.fails))
      ∧ Changes (exchangeParts ++ settleParts) s t

/-- The lamps a good return judges: those of a card whose status byte reports its last frame accepted, where the
record that stood when the exchange began has the exchange's card count and commanded the lamp on; every other
lamp keeps its fail count (R131, R136, R137). -/
def Claim.LampsJudged : Prop :=
  ∀ (s t : State) (c : ChainId) (arrivals : List (Nat × List Byte)) (noCurrent : List Nat)
    (received : Option (List Byte)) (x : Exchange) (frame : List Byte),
    s.tickDone → (s.chains.get c).exchange = some x → x.void = false →
    frame = frameOfLength x.sent.count (received.getD (cardsReturn s c x.sent.count noCurrent)) →
    frameGood x.sent.count frame = true → exec (.exchangeEnd c arrivals noCurrent received) s = .next t →
    (∀ prev, x.record = some prev → prev.count = x.sent.count →
      (∀ i, i < 64 * x.sent.count → t.chains.fails.val 0 (chainIndex c * 1024 + i) =
        if (sectionTail frame (i / 64)).getLsbD 0 = false ∧ prev.bits.getD i false = true then
          if sectionBit frame (i / 64) (i % 64) then
            min 2 (s.chains.fails.val 0 (chainIndex c * 1024 + i) + 1)
          else 0
        else s.chains.fails.val 0 (chainIndex c * 1024 + i))
      ∧ ∀ lamp, (∀ i, i < 64 * x.sent.count → lamp ≠ chainIndex c * 1024 + i) →
          t.chains.fails.val 0 lamp = s.chains.fails.val 0 lamp)
    ∧ ((x.record = none ∨ ∃ prev, x.record = some prev ∧ prev.count ≠ x.sent.count) →
        t.chains.fails = s.chains.fails ∧ t.chains.faultCount = s.chains.faultCount)

/-- The events of an exchange's end: CHAIN_FAULT at the third bad return, CHAIN_RESTORED at the good return of
a FAULTED chain, then LAMP_FAULT and LAMP_RESTORED of the lamps that a good return judges against a record of its
card count, and no other, as many as the queue has places for (R133 to R137, R164). -/
def Claim.ChainEvents : Prop :=
  ∀ (s t : State) (c : ChainId) (arrivals : List (Nat × List Byte)) (noCurrent : List Nat)
    (received : Option (List Byte)) (x : Exchange) (frame : List Byte),
    s.tickDone → s.onBoard → (s.chains.get c).exchange = some x → x.void = false →
    frame = frameOfLength x.sent.count (received.getD (cardsReturn s c x.sent.count noCurrent)) →
    exec (.exchangeEnd c arrivals noCurrent received) s = .next t → s.events.queue.length < 32 →
    (frameGood x.sent.count frame = false → (s.chains.get c).state = .ok → 2 ≤ (s.chains.get c).bad →
      t.events.queue = s.events.queue ++ [s.eventOf .chainFault .part (chainIndex c) 0])
    ∧ (frameGood x.sent.count frame = false →
      ((s.chains.get c).state ≠ .ok ∨ (s.chains.get c).bad < 2) → t.events.queue = s.events.queue)
    ∧ (frameGood x.sent.count frame = true → (s.chains.get c).state = .faulted →
      (s.events.queue ++ [s.eventOf .chainRestored .part (chainIndex c) 0]) <+: t.events.queue
      ∧ ((x.record = none ∨ ∃ prev, x.record = some prev ∧ prev.count ≠ x.sent.count) →
        t.events.queue = s.events.queue ++ [s.eventOf .chainRestored .part (chainIndex c) 0]))
    ∧ (frameGood x.sent.count frame = true → (s.chains.get c).state ≠ .faulted →
      (x.record = none ∨ ∃ prev, x.record = some prev ∧ prev.count ≠ x.sent.count) →
      t.events.queue = s.events.queue)
    ∧ (∀ prev, frameGood x.sent.count frame = true → s.chains.legal → x.record = some prev →
      prev.count = x.sent.count →
      t.events.queue = s.events.queue ++
        ((if (s.chains.get c).state = .faulted then
            [s.eventOf .chainRestored .part (chainIndex c) 0] else [])
          ++ s.lampEvents c prev frame).take (32 - s.events.queue.length))

/-- The board fault lamp at a change of a chain's state, where one is claimed: STEADY at CHAIN_FAULT, decided
afresh at CHAIN_RESTORED (R114, R135). -/
def Claim.ChainFaultLamp : Prop :=
  ∀ (s t : State) (c : ChainId) (arrivals : List (Nat × List Byte)) (noCurrent : List Nat)
    (received : Option (List Byte)) (x : Exchange) (frame : List Byte) (lamp : Nat),
    s.tickDone → (s.chains.get c).exchange = some x → x.void = false →
    frame = frameOfLength x.sent.count (received.getD (cardsReturn s c x.sent.count noCurrent)) →
    exec (.exchangeEnd c arrivals noCurrent received) s = .next t →
    s.loader.faultLamp.claimed = some lamp →
    (frameGood x.sent.count frame = false → (s.chains.get c).state = .ok → 2 ≤ (s.chains.get c).bad →
      t.patternOf lamp = .steady)
    ∧ (frameGood x.sent.count frame = true → (s.chains.get c).state = .faulted →
      t.patternOf lamp = t.faultPattern)

/-- The end of an exchange: the cards at the strobe and what they return, the chain's state and record, the lamps
judged, the events and the board fault lamp (R114, R128 to R131, R133 to R137). The model's choices: a frame of another
length (log 10), a card at or beyond the count (log 12). -/
def Obligations.ExchangeEnd : Prop :=
  Claim.ExchangeEnds ∧ Claim.CardTakesItsSection ∧ Claim.CardsAtTheStrobe ∧ Claim.CardsReturn
    ∧ Claim.LampsJudged ∧ Claim.ChainEvents ∧ Claim.ChainFaultLamp

/-- A judged lamp: R137's table of fail count, fault flag, event and lamp fault count; a change of the flag
makes the image word dirty (R124, R125) and decides the board fault lamp, and each change of the lamp fault count
is handed to the Event Unit and makes k22 owed (R139, R171); no other lamp's count, flag or pattern moves. That
each single judged lamp's change is a report of its own, so that the copy and k22 follow it at once, is the
model's reading (log 19, DEDUCED). The board fault lamp's pattern is STEADY while the lamp fault count is above 0
or a chain is FAULTED, else OFF (R114). -/
def Obligations.JudgedLamp : Prop :=
  ∀ (s : State) (lamp : Nat),
    (s.chains.fails.val 0 lamp = 0 →
      (judgeLamp lamp true s).chains.fails.val 0 lamp = 1
      ∧ (judgeLamp lamp true s).chains.faultCount = s.chains.faultCount
      ∧ (judgeLamp lamp true s).events = s.events)
    ∧ (s.chains.fails.val 0 lamp = 1 →
      (judgeLamp lamp true s).chains.fails.val 0 lamp = 2
      ∧ (judgeLamp lamp true s).chains.faulty lamp = true
      ∧ (judgeLamp lamp true s).chains.faultCount = s.chains.faultCount + 1
      ∧ (judgeLamp lamp true s).events.copies.faults = s.chains.faultCount + 1
      ∧ (s.onBoard → s.events.copies.faults = s.chains.faultCount →
          (judgeLamp lamp true s).events.owed22 = true)
      ∧ (s.onBoard → s.events.queue.length < 32 → (judgeLamp lamp true s).events.queue =
          s.events.queue ++ [⟨.lampFault, .part, BitVec.ofNat 16 lamp, 0, s.gen.seconds.setWidth 16⟩])
      ∧ (s.onBoard → lamp / 4 ∈ (judgeLamp lamp true s).gen.dirty)
      ∧ (∀ l, s.loader.faultLamp.claimed = some l →
          (judgeLamp lamp true s).patternOf l = (judgeLamp lamp true s).faultPattern))
    ∧ (s.chains.fails.val 0 lamp = 2 →
      (judgeLamp lamp true s).chains.fails.val 0 lamp = 2
      ∧ (judgeLamp lamp true s).chains.faultCount = s.chains.faultCount
      ∧ (judgeLamp lamp true s).events = s.events
      ∧ (judgeLamp lamp false s).chains.fails.val 0 lamp = 0
      ∧ (judgeLamp lamp false s).chains.faultCount = s.chains.faultCount - 1
      ∧ (judgeLamp lamp false s).events.copies.faults = s.chains.faultCount - 1
      ∧ (s.onBoard → s.events.copies.faults = s.chains.faultCount → 0 < s.chains.faultCount →
          (judgeLamp lamp false s).events.owed22 = true)
      ∧ (s.onBoard → s.events.queue.length < 32 → (judgeLamp lamp false s).events.queue =
          s.events.queue ++
            [⟨.lampRestored, .part, BitVec.ofNat 16 lamp, 0, s.gen.seconds.setWidth 16⟩])
      ∧ (s.onBoard → lamp / 4 ∈ (judgeLamp lamp false s).gen.dirty)
      ∧ (∀ l, s.loader.faultLamp.claimed = some l →
          (judgeLamp lamp false s).patternOf l = (judgeLamp lamp false s).faultPattern))
    ∧ (s.chains.fails.val 0 lamp < 2 →
      (judgeLamp lamp false s).chains.fails.val 0 lamp = 0
      ∧ (judgeLamp lamp false s).chains.faultCount = s.chains.faultCount
      ∧ (judgeLamp lamp false s).events = s.events)
    ∧ (∀ b, (judgeLamp lamp b s).chains.faulty lamp =
        decide ((judgeLamp lamp b s).chains.fails.val 0 lamp = 2))
    ∧ (∀ b other, other ≠ lamp →
        (judgeLamp lamp b s).chains.fails.val 0 other = s.chains.fails.val 0 other
        ∧ (judgeLamp lamp b s).chains.faulty other = s.chains.faulty other)
    ∧ (∀ b other, s.loader.faultLamp.claimed ≠ some other →
        (judgeLamp lamp b s).patternOf other = s.patternOf other)
    ∧ ∀ u : State,
        ((0 < u.chains.faultCount ∨ ∃ c, (u.chains.get c).state = .faulted) → u.faultPattern = .steady)
        ∧ (u.chains.faultCount = 0 → (∀ c, (u.chains.get c).state ≠ .faulted) → u.faultPattern = .off)

/-- The lamp image: each nibble of a word is its lamp's pattern code with the fault flag above it (R124);
a pattern handed for a lamp is held, and every other lamp's stands (R113); a changed word of a configured board is
dirty (R125); the writer takes the next dirty word upward from the
last one written, around from 1023 to 0 (R126). -/
def Obligations.LampImage : Prop :=
  (∀ (s : State) (lamp : Nat),
    (s.imageWord (lamp / 4)).extractLsb' (4 * (lamp % 4)) 4 =
      BitVec.ofNat 4 ((s.patternOf lamp).code + if s.chains.faulty lamp then 8 else 0))
  ∧ (∀ (s : State) (lamp : Nat) (p : Pattern),
      (setPattern lamp p s).patternOf lamp = p
      ∧ (∀ other, other ≠ lamp → (setPattern lamp p s).patternOf other = s.patternOf other)
      ∧ (s.onBoard → s.patternOf lamp ≠ p → lamp / 4 ∈ (setPattern lamp p s).gen.dirty)
      ∧ (∀ w ∈ s.gen.dirty, w ∈ (setPattern lamp p s).gen.dirty)
      ∧ (s.loader.cfg = .unconfigured → (setPattern lamp p s).gen.dirty = s.gen.dirty))
  ∧ ∀ g : PatternGen, g.dirty.Pairwise (· < ·) →
      (g.wantImage = none ↔ g.dirty = [])
      ∧ ∀ w, g.wantImage = some w → w ∈ g.dirty
        ∧ (g.lastWord < w → ∀ v ∈ g.dirty, g.lastWord < v → w ≤ v)
        ∧ (w ≤ g.lastWord → ∀ v ∈ g.dirty, v ≤ g.lastWord ∧ w ≤ v)

/-! ## The panel -/

/-- The stages of a press before its key: wake, error indication, unconfigured, panel lock, the press ended
by the first that decides it (R145 to R147, R156). -/
def Claim.PressStages : Prop :=
  ∀ (s : State) (key : Key), s.tickDone → s.panel.presses.head? = some key →
    (s.gen.mode = .dark → exec (handlerOf key s.panel.command) s =
        .next (settle (wake 4 .panel (popPress s))))
    ∧ (s.gen.mode ≠ .dark → s.panel.error.isSome = true → exec (handlerOf key s.panel.command) s =
        .next (settle (s.setPanel
          { s.panel with presses := s.panel.presses.tail, error := none })))
    ∧ (s.gen.mode ≠ .dark → s.panel.error = none → s.loader.cfg = .unconfigured →
        exec (handlerOf key s.panel.command) s = .next (settle (s.setPanel
          { s.panel with presses := s.panel.presses.tail, command := none, digits := [],
                         error := some 0x0A })))
    ∧ (s.gen.mode ≠ .dark → s.panel.error = none → s.onBoard → s.panel.lock = true →
        key ≠ .silence → key ≠ .test →
        exec (handlerOf key s.panel.command) s =
          .next (settle (refusePress key.code 0x09 (popPress s))))

/-- A refusal of the panel: COMMAND_ERROR with origin panel, the buffer emptied, the reason standing, the
selected group left (R155, R156). -/
def Claim.PanelRefusal : Prop :=
  ∀ (s : State) (code reason : Nat),
    (refusePress code reason s).panel =
      { s.panel with command := none, digits := [], error := some reason }
    ∧ (s.onBoard → s.events.queue.length < 32 → (refusePress code reason s).events.queue =
        s.events.queue ++ [⟨.commandError, .panel, BitVec.ofNat 16 code, BitVec.ofNat 16 reason,
          s.gen.seconds.setWidth 16⟩])
    ∧ Changes ([.panelCommand, .panelDigits, .panelError] ++ eventParts) s (refusePress code reason s)

/-- The keys of the entry buffer: a data key joins the digits, the newest three kept, or is refused with
02h (R148); ACK, CLEAR, GROUP and SHELVE become pending with no digits (R149). -/
def Obligations.EntryKeys : Prop :=
  ∀ s : State, s.tickDone →
    (∀ d c, s.keyReaches (.digit d) → s.panel.command = some c → s.panel.digits.length < 3 →
      exec .dataKey s = .next (settle (s.setPanel { s.panel with
        presses := s.panel.presses.tail, digits := s.panel.digits ++ [d] })))
    ∧ (∀ d c x y z, s.keyReaches (.digit d) → s.panel.command = some c → s.panel.digits = [x, y, z] →
      exec .dataKey s = .next (settle (s.setPanel { s.panel with
        presses := s.panel.presses.tail, digits := [y, z, d] })))
    ∧ (∀ d, s.keyReaches (.digit d) → s.panel.command = none →
      exec .dataKey s = .next (settle (refusePress 0 0x02 (popPress s))))
    ∧ (s.keyReaches .ack → exec .ackKey s = .next (settle (s.setPanel { s.panel with
        presses := s.panel.presses.tail, command := some .ack, digits := [] })))
    ∧ (s.keyReaches .clear → exec .clearKey s = .next (settle (s.setPanel { s.panel with
        presses := s.panel.presses.tail, command := some .clear, digits := [] })))
    ∧ (s.keyReaches .group → exec .groupKey s = .next (settle (s.setPanel { s.panel with
        presses := s.panel.presses.tail, command := some .group, digits := [] })))
    ∧ (s.keyReaches .shelve → exec .shelveKey s = .next (settle (s.setPanel { s.panel with
        presses := s.panel.presses.tail, command := some .shelve, digits := [] })))

/-- SILENCE, TEST and DIM act at the press and record COMMAND with detail 0 (R106, R116, R119, R150). -/
def Obligations.OperationKeys : Prop :=
  ∀ s : State, s.tickDone →
    (s.keyReaches .silence → exec .silenceKey s = .next (settle (record .command .panel 3 0
      ((popPress s).setAnn { s.ann with silence := true, hornClass := none }))))
    ∧ (s.keyReaches .test → exec .testKey s = .next (settle (record .command .panel 4 0
      ((popPress s).setGen { s.gen with testTimer := 1000 }))))
    ∧ (s.keyReaches .dim → exec .dimKey s = .next (settle (record .command .panel 7 0
      (requestDim 1 .panel (popPress s)))))

/-- ENTER with nothing pending, and with GROUP pending (R151, R153). -/
def Claim.EnterWithoutOperation : Prop :=
  ∀ s : State, s.tickDone → s.keyReaches .enter →
    (s.panel.command = none →
      exec .enterNoCommand s = .next (settle (refusePress 0 0x01 (popPress s))))
    ∧ (s.panel.command = some .group → s.panel.digits = [] →
      exec .enterGroup s = .next (settle (record .command .panel 5 0xFFFF (s.setPanel { s.panel with
        presses := s.panel.presses.tail, command := none, digits := [], selected := none }))))
    ∧ (s.panel.command = some .group → s.panel.digits ≠ [] → digitsNumber s.panel.digits ≤ 0x3F →
      exec .enterGroup s = .next (settle (record .command .panel 5 (digitsNumber s.panel.digits)
        (s.setPanel { s.panel with
          presses := s.panel.presses.tail, command := none, digits := [],
          selected := some (digitsNumber s.panel.digits) }))))
    ∧ (s.panel.command = some .group → s.panel.digits ≠ [] → 0x3F < digitsNumber s.panel.digits →
      exec .enterGroup s = .next (settle (refusePress 5 0x04 (popPress s))))

/-- The answer to an operation issued at ENTER: COMMAND with the operand and an empty buffer, or the refusal
with the reason (R151, R155). -/
def Claim.EnterAnswers : Prop :=
  ∀ (s : State) (code detail reason : Nat),
    answerPress code detail (s, none) =
      (record .command .panel code detail s).setPanel { s.panel with command := none, digits := [] }
    ∧ answerPress code detail (s, some reason) = refusePress code reason s

/-- ENTER with ACK or CLEAR pending: the scope is the point of the digits, else the selected group, else
the board (R152); with SHELVE pending: the point of the digits (R154). -/
def Claim.EnterOperations : Prop :=
  ∀ s : State, s.tickDone → s.keyReaches .enter →
    (s.panel.command = some .ack → s.panel.digits = [] → s.panel.selected = none →
      exec .enterAck s =
        .next (settle (answerPress 1 0xFFFF (acknowledge .board .panel (popPress s)))))
    ∧ (∀ g, s.panel.command = some .ack → s.panel.digits = [] → s.panel.selected = some g →
      exec .enterAck s =
        .next (settle (answerPress 1 (0x8000 + g) (acknowledge (.group g) .panel (popPress s)))))
    ∧ (s.panel.command = some .ack → s.panel.digits ≠ [] → digitsNumber s.panel.digits ≤ 0x6FF →
      exec .enterAck s = .next (settle (answerPress 1 (digitsNumber s.panel.digits)
        (acknowledge (.point (digitsNumber s.panel.digits)) .panel (popPress s)))))
    ∧ (s.panel.command = some .ack → s.panel.digits ≠ [] → 0x6FF < digitsNumber s.panel.digits →
      exec .enterAck s = .next (settle (refusePress 1 0x04 (popPress s))))
    ∧ (s.panel.command = some .clear → s.panel.digits = [] → s.panel.selected = none →
      exec .enterClear s =
        .next (settle (answerPress 2 0xFFFF (clear .board .panel (popPress s)))))
    ∧ (∀ g, s.panel.command = some .clear → s.panel.digits = [] → s.panel.selected = some g →
      exec .enterClear s =
        .next (settle (answerPress 2 (0x8000 + g) (clear (.group g) .panel (popPress s)))))
    ∧ (s.panel.command = some .clear → s.panel.digits ≠ [] → digitsNumber s.panel.digits ≤ 0x6FF →
      exec .enterClear s = .next (settle (answerPress 2 (digitsNumber s.panel.digits)
        (clear (.point (digitsNumber s.panel.digits)) .panel (popPress s)))))
    ∧ (s.panel.command = some .clear → s.panel.digits ≠ [] → 0x6FF < digitsNumber s.panel.digits →
      exec .enterClear s = .next (settle (refusePress 2 0x04 (popPress s))))
    ∧ (s.panel.command = some .shelve → s.panel.digits = [] →
      exec .enterShelve s = .next (settle (refusePress 6 0x03 (popPress s))))
    ∧ (s.panel.command = some .shelve → s.panel.digits ≠ [] → digitsNumber s.panel.digits ≤ 0x6FF →
      exec .enterShelve s = .next (settle (answerPress 6 (digitsNumber s.panel.digits)
        (shelve (digitsNumber s.panel.digits) .panel (popPress s)))))
    ∧ (s.panel.command = some .shelve → s.panel.digits ≠ [] → 0x6FF < digitsNumber s.panel.digits →
      exec .enterShelve s = .next (settle (refusePress 6 0x04 (popPress s))))

/-- The number of the digits typed, the oldest the most significant (R148). -/
def Claim.NumberTyped : Prop :=
  ∀ x y z : BitVec 4,
    digitsNumber [x] = x.toNat ∧ digitsNumber [x, y] = 16 * x.toNat + y.toNat
      ∧ digitsNumber [x, y, z] = 256 * x.toNat + 16 * y.toNat + z.toNat

/-- ENTER with nothing pending and with each command pending, and the number typed (R148, R151 to R155). -/
def Obligations.EnterKey : Prop :=
  Claim.NumberTyped ∧ Claim.EnterWithoutOperation ∧ Claim.EnterAnswers ∧ Claim.EnterOperations

/-- The display: E and the reason with every indicator lit while an error stands (R156); else the pending
command, the digits typed or the selected group, and the three inputs (R157); the 22 bits in their order, the
indicators and then the three codes, each most significant bit first (R174). -/
def Obligations.PanelDisplay : Prop :=
  ∀ p : Panel,
    (∀ r, p.error = some r → p.indicators = List.replicate 7 true
      ∧ p.positions = [0x0E, (BitVec.ofNat 4 (r / 16)).setWidth 5, (BitVec.ofNat 4 r).setWidth 5])
    ∧ (p.error = none →
      p.indicators = [decide (p.command = some .ack), decide (p.command = some .clear), p.silenceOn,
        p.testOn, decide (p.command = some .group ∨ (p.command = none ∧ p.selected ≠ none)),
        decide (p.command = some .shelve), p.dimOn])
    ∧ (p.error = none → p.command = none → p.selected = none → p.positions = [0x10, 0x10, 0x10])
    ∧ (∀ g, p.error = none → p.command = none → p.selected = some g →
        p.positions = [0x10, (BitVec.ofNat 4 (g / 16)).setWidth 5, (BitVec.ofNat 4 g).setWidth 5])
    ∧ (∀ c, p.error = none → p.command = some c → p.digits = [] → p.positions = [0x10, 0x10, 0x10])
    ∧ (∀ c x, p.error = none → p.command = some c → p.digits = [x] →
        p.positions = [0x10, 0x10, x.setWidth 5])
    ∧ (∀ c x y, p.error = none → p.command = some c → p.digits = [x, y] →
        p.positions = [0x10, x.setWidth 5, y.setWidth 5])
    ∧ (∀ c x y z, p.error = none → p.command = some c → p.digits = [x, y, z] →
        p.positions = [x.setWidth 5, y.setWidth 5, z.setWidth 5])
    ∧ (∀ l m r : BitVec 5, p.positions = [l, m, r] → p.display = p.indicators ++
        [l.getLsbD 4, l.getLsbD 3, l.getLsbD 2, l.getLsbD 1, l.getLsbD 0,
         m.getLsbD 4, m.getLsbD 3, m.getLsbD 2, m.getLsbD 1, m.getLsbD 0,
         r.getLsbD 4, r.getLsbD 3, r.getLsbD 2, r.getLsbD 1, r.getLsbD 0])
    ∧ p.indicators.length = 7 ∧ (p.digits.length ≤ 3 → p.display.length = 22)

/-- A dispatched k9 item: the panel lock takes the word's lowest bit (R142). -/
def Claim.PanelLockWrite : Prop :=
  ∀ (s : State) (w : Word), s.tickDone → s.onBoard → s.front .k9 w →
    exec .panelLockWrite s = .next (settle
      ((popCapture s).setPanel { s.panel with lock := w.getLsbD 0 }))

/-- The stages of a press, a refusal of the panel, and the panel lock (R142, R145 to R147, R155, R156). -/
def Obligations.PressesAndTheLock : Prop :=
  Claim.PressStages ∧ Claim.PanelRefusal ∧ Claim.PanelLockWrite

/-! ## Remote commands, events and the ring -/

/-- The held remote operand: a dispatched k10 item makes it the whole word, with no event and no answer; in
UNCONFIGURED the item is discarded; every other command but a board reset leaves it; after a board reset it
is 0000h (R159). -/
def Obligations.RemoteOperandWrite : Prop :=
  (∀ (s : State) (w : Word), s.tickDone → s.front .k10 w →
    (s.onBoard → exec .remoteOperandWrite s = .next (settle
      ((popCapture s).setEvents { s.events with operand := w })))
    ∧ (s.loader.cfg = .unconfigured →
      exec .remoteOperandWrite s = .next (settle (popCapture s))))
  ∧ (∀ (c : Instr) (s t : State), c ≠ .remoteOperandWrite → c ≠ .boardReset →
      exec c s = .next t → t.events.operand = s.events.operand)
  ∧ ∀ s t : State, exec .boardReset s = .next t → t.events.operand = 0

/-- The operands of a remote ACK or CLEAR (R160). -/
def Claim.RemoteScopes : Prop :=
  ∀ w : Word,
    (w = 0xFFFF → remoteScope w = some .board)
    ∧ (0x8000 ≤ w.toNat → w.toNat ≤ 0x803F → remoteScope w = some (.group (w.toNat - 0x8000)))
    ∧ (w.toNat ≤ 0x6FF → remoteScope w = some (.point w.toNat))
    ∧ (0x6FF < w.toNat → w.toNat < 0x8000 → remoteScope w = none)
    ∧ (0x803F < w.toNat → w ≠ 0xFFFF → remoteScope w = none)

/-- The eight remote commands: the operation issued with origin remote and the held operand, then COMMAND
or COMMAND_ERROR (R160, R161). -/
def Claim.RemoteCommands : Prop :=
  ∀ (s : State) (w : Word), s.tickDone → s.onBoard → s.front .k11 w →
    (∀ x, w = 1 → remoteScope s.events.operand = some x →
      exec .remoteAck s =
        .next (settle (answerRemote 1 (acknowledge x .remote (popCapture s)))))
    ∧ (w = 1 → remoteScope s.events.operand = none → exec .remoteAck s =
        .next (settle (record .commandError .remote 1 0x04 (popCapture s))))
    ∧ (∀ x, w = 2 → remoteScope s.events.operand = some x →
      exec .remoteClear s = .next (settle (answerRemote 2 (clear x .remote (popCapture s)))))
    ∧ (w = 2 → remoteScope s.events.operand = none → exec .remoteClear s =
        .next (settle (record .commandError .remote 2 0x04 (popCapture s))))
    ∧ (w = 3 → exec .remoteSilence s = .next (settle (record .command .remote 3 s.events.operand.toNat
        ((popCapture s).setAnn { s.ann with silence := true, hornClass := none }))))
    ∧ (w = 4 → exec .remoteTest s = .next (settle (record .command .remote 4 s.events.operand.toNat
        ((popCapture s).setGen { s.gen with testTimer := 1000 }))))
    ∧ (w = 5 → exec .remoteGroup s =
        .next (settle (record .commandError .remote 5 0x0B (popCapture s))))
    ∧ (w = 6 → s.events.operand.toNat ≤ 0x6FF → exec .remoteShelve s =
        .next (settle (answerRemote 6 (shelve s.events.operand.toNat .remote (popCapture s)))))
    ∧ (w = 6 → 0x6FF < s.events.operand.toNat → exec .remoteShelve s =
        .next (settle (record .commandError .remote 6 0x04 (popCapture s))))
    ∧ (w = 7 → exec .remoteDim s = .next (settle (record .command .remote 7 s.events.operand.toNat
        (requestDim 2 .remote (popCapture s)))))
    ∧ (w = 7 → (requestDim 2 .remote (popCapture s)).gen.mode = (match s.gen.mode with
          | .lit => .dim
          | .dim => .lit
          | .dark => .dark))
    ∧ (w = 0 ∨ 7 < w.toNat → exec .remoteUnknownCommand s =
        .next (settle (record .commandError .remote w.toNat 0x0B (popCapture s))))

/-- The answer to an operation of a remote command (R161). -/
def Claim.RemoteAnswers : Prop :=
  ∀ (s : State) (code reason : Nat),
    answerRemote code (s, none) = record .command .remote code s.events.operand.toNat s
    ∧ answerRemote code (s, some reason) = record .commandError .remote code reason s

/-- A dispatched g3 or g4 item: an acknowledge or a clear of the group with origin group request, its
answer discarded (R162). -/
def Claim.GroupRequests : Prop :=
  ∀ (s : State) (g : Nat) (w : Word), s.tickDone → s.onBoard →
    (s.front (.group g 3) w → exec .groupAckRequest s =
      .next (settle (acknowledge (.group g) .groupRequest (popCapture s)).1))
    ∧ (s.front (.group g 4) w → exec .groupClearRequest s =
      .next (settle (clear (.group g) .groupRequest (popCapture s)).1))

/-- The eight remote commands and the two group requests (R160 to R162). -/
def Obligations.RemoteAndGroupRequests : Prop :=
  Claim.RemoteScopes ∧ Claim.RemoteCommands ∧ Claim.RemoteAnswers ∧ Claim.GroupRequests

/-- A produced event: discarded uncounted in UNCONFIGURED; else it joins a queue with a place, or is
counted as lost, or as a sweep discard before the ring values are held (R163 to R165). -/
def Obligations.EventIsTaken : Prop :=
  ∀ (s : State) (k : EventKind) (o : Origin) (a d : Nat),
    (s.loader.cfg = .unconfigured → record k o a d s = s)
    ∧ (s.onBoard → s.events.queue.length < 32 → record k o a d s = s.setEvents { s.events with
        queue := s.events.queue ++ [⟨k, o, BitVec.ofNat 16 a, BitVec.ofNat 16 d,
          s.gen.seconds.setWidth 16⟩] })
    ∧ (s.onBoard → ¬ s.events.queue.length < 32 → s.events.ringHeld = true → s.events.lost < 65535 →
        record k o a d s =
          s.setEvents { s.events with lost := s.events.lost + 1, k18Owed := true })
    ∧ (s.onBoard → ¬ s.events.queue.length < 32 → s.events.ringHeld = true →
        s.events.lost = 65535 → record k o a d s = s)
    ∧ (s.onBoard → ¬ s.events.queue.length < 32 → s.events.ringHeld = false → record k o a d s =
        s.setEvents { s.events with sweepDiscards := min 65535 (s.events.sweepDiscards + 1) })

/-- The ring writer's choice: the first case of R167 that holds; no request is raised without the ring
values or in UNCONFIGURED. That the next word of a record in progress comes before an owed k18 write is the
model's reading (log 23, DEDUCED), against R167's closing sentence. -/
def Claim.RingWriterChoice : Prop :=
  (∀ e : EventUnit,
    (∀ k, e.inProgress = some k → k < 4 → e.wantRing = some (.word k))
    ∧ ((e.inProgress = none ∨ e.inProgress = some 4) → e.k18Owed = true → e.wantRing = some .k18)
    ∧ (e.inProgress = some 4 → e.k18Owed = false → e.head + 1 ≠ e.tail → e.wantRing = some .head)
    ∧ (e.inProgress = none → e.k18Owed = false → e.queue ≠ [] → e.head + 1 ≠ e.tail →
        e.wantRing = some (.word 0))
    ∧ ((e.inProgress = none ∨ e.inProgress = some 4) → e.k18Owed = false → e.head + 1 = e.tail →
        e.wantRing = none)
    ∧ (e.inProgress = none → e.k18Owed = false → e.queue = [] → e.wantRing = none))
  ∧ ∀ s : State, (s.loader.cfg = .unconfigured ∨ s.events.ringHeld = false) →
      (settle s).path.requests.ring = s.path.requests.ring

/-- A dispatched k17 item sets the tail; after it no head write equal to the held tail is waiting (R168). -/
def Claim.TailWrite : Prop :=
  ∀ (s : State) (w : Word), s.tickDone → s.onBoard → s.front .k17 w →
    ∃ t, exec .tailWrite s = .next t ∧ t.events.tail = w.extractLsb' 0 8
      ∧ (t.path.requests.ring = some .head → t.events.head + 1 ≠ t.events.tail)
      ∧ t.events.queue = s.events.queue ∧ t.events.head = s.events.head ∧ t.ram = s.ram
      ∧ Changes ([.pathCapture, .eventsTail] ++ settleParts) s t

/-- A dispatched k18 item: the lost count becomes the whole word and a k18 write becomes owed (R165). -/
def Claim.LostCountWrite : Prop :=
  ∀ (s : State) (w : Word), s.tickDone → s.onBoard → s.front .k18 w →
    exec .lostCountWrite s = .next (settle
      ((popCapture s).setEvents { s.events with lost := w.toNat, k18Owed := true }))


/-- The ring writer's choice, and the words k17 and k18 (R165, R167, R168). The order of a record's next word
and an owed k18 write is the model's reading (log 23). -/
def Obligations.RingWords : Prop :=
  Claim.RingWriterChoice ∧ Claim.TailWrite ∧ Claim.LostCountWrite
end

