-- ==== Sys2Proof/Laws/State.lean ====
section
/-! SUPPORT. What replacing one block does to each field of the state. -/

set_option Elab.async false

namespace Sys2Proof.Machine

@[simp] theorem State.setRam_pending (s : State) (x : Memory) : (s.setRam x).pending = s.pending := rfl
@[simp] theorem State.setRam_ram (s : State) (x : Memory) : (s.setRam x).ram = x := rfl
@[simp] theorem State.setRam_path (s : State) (x : Memory) : (s.setRam x).path = s.path := rfl
@[simp] theorem State.setRam_loader (s : State) (x : Memory) : (s.setRam x).loader = s.loader := rfl
@[simp] theorem State.setRam_evaluator (s : State) (x : Memory) : (s.setRam x).evaluator = s.evaluator := rfl
@[simp] theorem State.setRam_ann (s : State) (x : Memory) : (s.setRam x).ann = s.ann := rfl
@[simp] theorem State.setRam_gen (s : State) (x : Memory) : (s.setRam x).gen = s.gen := rfl
@[simp] theorem State.setRam_chains (s : State) (x : Memory) : (s.setRam x).chains = s.chains := rfl
@[simp] theorem State.setRam_cards (s : State) (x : Memory) : (s.setRam x).cards = s.cards := rfl
@[simp] theorem State.setRam_panel (s : State) (x : Memory) : (s.setRam x).panel = s.panel := rfl
@[simp] theorem State.setRam_events (s : State) (x : Memory) : (s.setRam x).events = s.events := rfl

@[simp] theorem State.setPath_pending (s : State) (x : MemPath) : (s.setPath x).pending = s.pending := rfl
@[simp] theorem State.setPath_ram (s : State) (x : MemPath) : (s.setPath x).ram = s.ram := rfl
@[simp] theorem State.setPath_path (s : State) (x : MemPath) : (s.setPath x).path = x := rfl
@[simp] theorem State.setPath_loader (s : State) (x : MemPath) : (s.setPath x).loader = s.loader := rfl
@[simp] theorem State.setPath_evaluator (s : State) (x : MemPath) : (s.setPath x).evaluator = s.evaluator := rfl
@[simp] theorem State.setPath_ann (s : State) (x : MemPath) : (s.setPath x).ann = s.ann := rfl
@[simp] theorem State.setPath_gen (s : State) (x : MemPath) : (s.setPath x).gen = s.gen := rfl
@[simp] theorem State.setPath_chains (s : State) (x : MemPath) : (s.setPath x).chains = s.chains := rfl
@[simp] theorem State.setPath_cards (s : State) (x : MemPath) : (s.setPath x).cards = s.cards := rfl
@[simp] theorem State.setPath_panel (s : State) (x : MemPath) : (s.setPath x).panel = s.panel := rfl
@[simp] theorem State.setPath_events (s : State) (x : MemPath) : (s.setPath x).events = s.events := rfl

@[simp] theorem State.setLoader_pending (s : State) (x : Loader) : (s.setLoader x).pending = s.pending := rfl
@[simp] theorem State.setLoader_ram (s : State) (x : Loader) : (s.setLoader x).ram = s.ram := rfl
@[simp] theorem State.setLoader_path (s : State) (x : Loader) : (s.setLoader x).path = s.path := rfl
@[simp] theorem State.setLoader_loader (s : State) (x : Loader) : (s.setLoader x).loader = x := rfl
@[simp] theorem State.setLoader_evaluator (s : State) (x : Loader) : (s.setLoader x).evaluator = s.evaluator := rfl
@[simp] theorem State.setLoader_ann (s : State) (x : Loader) : (s.setLoader x).ann = s.ann := rfl
@[simp] theorem State.setLoader_gen (s : State) (x : Loader) : (s.setLoader x).gen = s.gen := rfl
@[simp] theorem State.setLoader_chains (s : State) (x : Loader) : (s.setLoader x).chains = s.chains := rfl
@[simp] theorem State.setLoader_cards (s : State) (x : Loader) : (s.setLoader x).cards = s.cards := rfl
@[simp] theorem State.setLoader_panel (s : State) (x : Loader) : (s.setLoader x).panel = s.panel := rfl
@[simp] theorem State.setLoader_events (s : State) (x : Loader) : (s.setLoader x).events = s.events := rfl

@[simp] theorem State.setEvaluator_pending (s : State) (x : Evaluator) : (s.setEvaluator x).pending = s.pending := rfl
@[simp] theorem State.setEvaluator_ram (s : State) (x : Evaluator) : (s.setEvaluator x).ram = s.ram := rfl
@[simp] theorem State.setEvaluator_path (s : State) (x : Evaluator) : (s.setEvaluator x).path = s.path := rfl
@[simp] theorem State.setEvaluator_loader (s : State) (x : Evaluator) : (s.setEvaluator x).loader = s.loader := rfl
@[simp] theorem State.setEvaluator_evaluator (s : State) (x : Evaluator) : (s.setEvaluator x).evaluator = x := rfl
@[simp] theorem State.setEvaluator_ann (s : State) (x : Evaluator) : (s.setEvaluator x).ann = s.ann := rfl
@[simp] theorem State.setEvaluator_gen (s : State) (x : Evaluator) : (s.setEvaluator x).gen = s.gen := rfl
@[simp] theorem State.setEvaluator_chains (s : State) (x : Evaluator) : (s.setEvaluator x).chains = s.chains := rfl
@[simp] theorem State.setEvaluator_cards (s : State) (x : Evaluator) : (s.setEvaluator x).cards = s.cards := rfl
@[simp] theorem State.setEvaluator_panel (s : State) (x : Evaluator) : (s.setEvaluator x).panel = s.panel := rfl
@[simp] theorem State.setEvaluator_events (s : State) (x : Evaluator) : (s.setEvaluator x).events = s.events := rfl

@[simp] theorem State.setAnn_pending (s : State) (x : Annunciator) : (s.setAnn x).pending = s.pending := rfl
@[simp] theorem State.setAnn_ram (s : State) (x : Annunciator) : (s.setAnn x).ram = s.ram := rfl
@[simp] theorem State.setAnn_path (s : State) (x : Annunciator) : (s.setAnn x).path = s.path := rfl
@[simp] theorem State.setAnn_loader (s : State) (x : Annunciator) : (s.setAnn x).loader = s.loader := rfl
@[simp] theorem State.setAnn_evaluator (s : State) (x : Annunciator) : (s.setAnn x).evaluator = s.evaluator := rfl
@[simp] theorem State.setAnn_ann (s : State) (x : Annunciator) : (s.setAnn x).ann = x := rfl
@[simp] theorem State.setAnn_gen (s : State) (x : Annunciator) : (s.setAnn x).gen = s.gen := rfl
@[simp] theorem State.setAnn_chains (s : State) (x : Annunciator) : (s.setAnn x).chains = s.chains := rfl
@[simp] theorem State.setAnn_cards (s : State) (x : Annunciator) : (s.setAnn x).cards = s.cards := rfl
@[simp] theorem State.setAnn_panel (s : State) (x : Annunciator) : (s.setAnn x).panel = s.panel := rfl
@[simp] theorem State.setAnn_events (s : State) (x : Annunciator) : (s.setAnn x).events = s.events := rfl

@[simp] theorem State.setGen_pending (s : State) (x : PatternGen) : (s.setGen x).pending = s.pending := rfl
@[simp] theorem State.setGen_ram (s : State) (x : PatternGen) : (s.setGen x).ram = s.ram := rfl
@[simp] theorem State.setGen_path (s : State) (x : PatternGen) : (s.setGen x).path = s.path := rfl
@[simp] theorem State.setGen_loader (s : State) (x : PatternGen) : (s.setGen x).loader = s.loader := rfl
@[simp] theorem State.setGen_evaluator (s : State) (x : PatternGen) : (s.setGen x).evaluator = s.evaluator := rfl
@[simp] theorem State.setGen_ann (s : State) (x : PatternGen) : (s.setGen x).ann = s.ann := rfl
@[simp] theorem State.setGen_gen (s : State) (x : PatternGen) : (s.setGen x).gen = x := rfl
@[simp] theorem State.setGen_chains (s : State) (x : PatternGen) : (s.setGen x).chains = s.chains := rfl
@[simp] theorem State.setGen_cards (s : State) (x : PatternGen) : (s.setGen x).cards = s.cards := rfl
@[simp] theorem State.setGen_panel (s : State) (x : PatternGen) : (s.setGen x).panel = s.panel := rfl
@[simp] theorem State.setGen_events (s : State) (x : PatternGen) : (s.setGen x).events = s.events := rfl

@[simp] theorem State.setChains_pending (s : State) (x : Chains) : (s.setChains x).pending = s.pending := rfl
@[simp] theorem State.setChains_ram (s : State) (x : Chains) : (s.setChains x).ram = s.ram := rfl
@[simp] theorem State.setChains_path (s : State) (x : Chains) : (s.setChains x).path = s.path := rfl
@[simp] theorem State.setChains_loader (s : State) (x : Chains) : (s.setChains x).loader = s.loader := rfl
@[simp] theorem State.setChains_evaluator (s : State) (x : Chains) : (s.setChains x).evaluator = s.evaluator := rfl
@[simp] theorem State.setChains_ann (s : State) (x : Chains) : (s.setChains x).ann = s.ann := rfl
@[simp] theorem State.setChains_gen (s : State) (x : Chains) : (s.setChains x).gen = s.gen := rfl
@[simp] theorem State.setChains_chains (s : State) (x : Chains) : (s.setChains x).chains = x := rfl
@[simp] theorem State.setChains_cards (s : State) (x : Chains) : (s.setChains x).cards = s.cards := rfl
@[simp] theorem State.setChains_panel (s : State) (x : Chains) : (s.setChains x).panel = s.panel := rfl
@[simp] theorem State.setChains_events (s : State) (x : Chains) : (s.setChains x).events = s.events := rfl

@[simp] theorem State.setCards_pending (s : State) (x : Table Card) : (s.setCards x).pending = s.pending := rfl
@[simp] theorem State.setCards_ram (s : State) (x : Table Card) : (s.setCards x).ram = s.ram := rfl
@[simp] theorem State.setCards_path (s : State) (x : Table Card) : (s.setCards x).path = s.path := rfl
@[simp] theorem State.setCards_loader (s : State) (x : Table Card) : (s.setCards x).loader = s.loader := rfl
@[simp] theorem State.setCards_evaluator (s : State) (x : Table Card) : (s.setCards x).evaluator = s.evaluator := rfl
@[simp] theorem State.setCards_ann (s : State) (x : Table Card) : (s.setCards x).ann = s.ann := rfl
@[simp] theorem State.setCards_gen (s : State) (x : Table Card) : (s.setCards x).gen = s.gen := rfl
@[simp] theorem State.setCards_chains (s : State) (x : Table Card) : (s.setCards x).chains = s.chains := rfl
@[simp] theorem State.setCards_cards (s : State) (x : Table Card) : (s.setCards x).cards = x := rfl
@[simp] theorem State.setCards_panel (s : State) (x : Table Card) : (s.setCards x).panel = s.panel := rfl
@[simp] theorem State.setCards_events (s : State) (x : Table Card) : (s.setCards x).events = s.events := rfl

@[simp] theorem State.setPanel_pending (s : State) (x : Panel) : (s.setPanel x).pending = s.pending := rfl
@[simp] theorem State.setPanel_ram (s : State) (x : Panel) : (s.setPanel x).ram = s.ram := rfl
@[simp] theorem State.setPanel_path (s : State) (x : Panel) : (s.setPanel x).path = s.path := rfl
@[simp] theorem State.setPanel_loader (s : State) (x : Panel) : (s.setPanel x).loader = s.loader := rfl
@[simp] theorem State.setPanel_evaluator (s : State) (x : Panel) : (s.setPanel x).evaluator = s.evaluator := rfl
@[simp] theorem State.setPanel_ann (s : State) (x : Panel) : (s.setPanel x).ann = s.ann := rfl
@[simp] theorem State.setPanel_gen (s : State) (x : Panel) : (s.setPanel x).gen = s.gen := rfl
@[simp] theorem State.setPanel_chains (s : State) (x : Panel) : (s.setPanel x).chains = s.chains := rfl
@[simp] theorem State.setPanel_cards (s : State) (x : Panel) : (s.setPanel x).cards = s.cards := rfl
@[simp] theorem State.setPanel_panel (s : State) (x : Panel) : (s.setPanel x).panel = x := rfl
@[simp] theorem State.setPanel_events (s : State) (x : Panel) : (s.setPanel x).events = s.events := rfl

@[simp] theorem State.setEvents_pending (s : State) (x : EventUnit) : (s.setEvents x).pending = s.pending := rfl
@[simp] theorem State.setEvents_ram (s : State) (x : EventUnit) : (s.setEvents x).ram = s.ram := rfl
@[simp] theorem State.setEvents_path (s : State) (x : EventUnit) : (s.setEvents x).path = s.path := rfl
@[simp] theorem State.setEvents_loader (s : State) (x : EventUnit) : (s.setEvents x).loader = s.loader := rfl
@[simp] theorem State.setEvents_evaluator (s : State) (x : EventUnit) : (s.setEvents x).evaluator = s.evaluator := rfl
@[simp] theorem State.setEvents_ann (s : State) (x : EventUnit) : (s.setEvents x).ann = s.ann := rfl
@[simp] theorem State.setEvents_gen (s : State) (x : EventUnit) : (s.setEvents x).gen = s.gen := rfl
@[simp] theorem State.setEvents_chains (s : State) (x : EventUnit) : (s.setEvents x).chains = s.chains := rfl
@[simp] theorem State.setEvents_cards (s : State) (x : EventUnit) : (s.setEvents x).cards = s.cards := rfl
@[simp] theorem State.setEvents_panel (s : State) (x : EventUnit) : (s.setEvents x).panel = s.panel := rfl
@[simp] theorem State.setEvents_events (s : State) (x : EventUnit) : (s.setEvents x).events = x := rfl

end Sys2Proof.Machine
end

