-- ==== Sys2Proof/Laws/Frame.lean ====
section
/-! SUPPORT. One frame lemma for each operation: the parts of the state that it may change. -/

set_option Elab.async false

namespace Sys2Proof.Machine

/-! ## The frame relation -/

theorem Changes.refl (l : List Part) (s : State) : Changes l s s := by
  intro p _; cases p <;> rfl

theorem Part.same.trans {p : Part} {s t u : State} (h : p.same s t) (h' : p.same t u) : p.same s u := by
  cases p <;> exact Eq.trans h' h

theorem Changes.trans {l : List Part} {s t u : State} (h : Changes l s t) (h' : Changes l t u) :
    Changes l s u :=
  fun p hp => (h p hp).trans (h' p hp)

theorem Changes.mono {l m : List Part} {s t : State} (h : Changes l s t)
    (hl : l.all m.contains = true := by rfl) : Changes m s t :=
  fun p hp => h p (fun hpl => hp (by simpa using List.all_eq_true.mp hl p hpl))

theorem Changes.then {l m k : List Part} {s t u : State} (h : Changes l s t) (h' : Changes m t u)
    (hl : l.all k.contains = true := by rfl) (hm : m.all k.contains = true := by rfl) : Changes k s u :=
  (h.mono hl).trans (h'.mono hm)

theorem Changes.after {l m : List Part} {s t u : State} (h' : Changes m t u) (h : Changes l s t)
    (hm : m.all l.contains = true := by rfl) : Changes l s u :=
  h.trans (h'.mono hm)

theorem Changes.ite {l : List Part} {c : Prop} {_ : Decidable c} {s t u : State} (h : Changes l s t)
    (h' : Changes l s u) : Changes l s (if c then t else u) := by
  split
  · exact h
  · exact h'

theorem Changes.foldl {α : Type} {l : List Part} {f : State → α → State}
    (h : ∀ s x, Changes l s (f s x)) (xs : List α) (s : State) : Changes l s (xs.foldl f s) := by
  induction xs generalizing s with
  | nil => exact Changes.refl l s
  | cons x xs ih => exact (h s x).trans (ih (f s x))

/-! ## Events, patterns, claims, held records -/

theorem record_changes (k : EventKind) (o : Origin) (a d : Nat) (s : State) :
    Changes eventParts s (record k o a d s) := by
  intro p hp
  unfold record EventUnit.take
  split_ifs <;> cases p <;> first | rfl | exact absurd (by decide) hp

theorem touchWord_changes (w : Nat) (s : State) : Changes imageParts s (touchWord w s) := by
  intro p hp
  unfold touchWord
  split_ifs <;> cases p <;> first | rfl | exact absurd (by decide) hp

theorem setPattern_changes (lamp : Nat) (x : Pattern) (s : State) :
    Changes imageParts s (setPattern lamp x s) := by
  intro p hp
  unfold setPattern touchWord
  split_ifs <;> cases p <;> first | rfl | exact absurd (by decide) hp

theorem State.setClaims_changes (x : Table Owner) (s : State) : Changes [.loaderClaims] s (s.setLoader { s.loader with claims := x }) := by
  intro p hp
  unfold State.setLoader
  cases p <;> first | rfl | exact absurd (by decide) hp

theorem releaseLamp_changes (lamp : Nat) (s : State) :
    Changes (.loaderClaims :: imageParts) s (releaseLamp lamp s) :=
  (s.setClaims_changes _).then (setPattern_changes _ _ _)

theorem claimLamp_changes (x : Owner) (lamp : Nat) (s : State) :
    Changes [.loaderClaims] s (claimLamp x lamp s) :=
  s.setClaims_changes _

theorem decideFaultLamp_changes (s : State) : Changes imageParts s (decideFaultLamp s) := by
  unfold decideFaultLamp
  split
  · exact setPattern_changes _ _ _
  · exact .refl _ _

theorem setSettings_changes (g : Nat) (x : GroupSettings) (s : State) : Changes [.loaderGroups] s (setSettings g x s) := by
  intro p hp
  unfold setSettings
  cases p <;> first | rfl | exact absurd (by decide) hp

theorem setCounts_changes (g : Nat) (x : GroupCounts) (s : State) : Changes [.annGroups] s (setCounts g x s) := by
  intro p hp
  unfold setCounts
  cases p <;> first | rfl | exact absurd (by decide) hp

theorem setPoint_changes (n : Nat) (x : PointRec) (s : State) : Changes [.loaderPoints] s (setPoint n x s) := by
  intro p hp
  unfold setPoint
  cases p <;> first | rfl | exact absurd (by decide) hp

/-! ## The end of a command -/

theorem syncStatus_changes (s : State) : Changes statusParts s (syncStatus s) := by
  intro p hp
  cases p <;> first | rfl | exact absurd (by decide) hp

theorem syncPanel_changes (s : State) :
    Changes [.panelTestOn, .panelSilenceOn, .panelDimOn] s (syncPanel s) := by
  intro p hp
  cases p <;> first | rfl | exact absurd (by decide) hp

theorem raiseRequests_changes (s : State) :
    Changes [.pathRequests, .eventsInProgress, .loaderPendingPoints, .loaderReload] s
      (raiseRequests s) := by
  intro p hp
  unfold raiseRequests beginRecord beginReload
  dsimp only
  repeat' split
  all_goals cases p <;> first | rfl | exact absurd (by decide) hp

theorem settle_changes (s : State) : Changes settleParts s (settle s) :=
  ((syncStatus_changes s).then (syncPanel_changes _) (k := settleParts)).then (raiseRequests_changes _)

/-! ## The Annunciator -/

theorem handAlarm_changes (n : Nat) (s : State) : Changes imageParts s (handAlarm n s) := by
  unfold handAlarm
  split
  · exact setPattern_changes _ _ _
  · exact .refl _ _

theorem handSummary_changes (g : Nat) (s : State) : Changes imageParts s (handSummary g s) := by
  unfold handSummary
  split
  · exact setPattern_changes _ _ _
  · exact .refl _ _

theorem handStale_changes (g : Nat) (s : State) : Changes imageParts s (handStale g s) := by
  unfold handStale
  split
  · exact setPattern_changes _ _ _
  · exact .refl _ _

theorem joinList_changes (n g : Nat) (s : State) :
    Changes [.annUnack, .annSilence, .annGroups, .genWakeRequests] s (joinList n g s) := by
  intro p hp
  unfold joinList setCounts
  dsimp only
  split_ifs <;> cases p <;> first | rfl | exact absurd (by decide) hp

theorem leaveList_changes (n g : Nat) (s : State) :
    Changes [.annUnack, .annGroups] s (leaveList n g s) := by
  intro p hp
  unfold leaveList setCounts
  dsimp only
  split_ifs <;> cases p <;> first | rfl | exact absurd (by decide) hp

theorem moveOnList_changes (n g : Nat) (old new : AnnState) (s : State) :
    Changes [.annUnack, .annSilence, .annGroups, .genWakeRequests] s (moveOnList n g old new s) := by
  unfold moveOnList
  split
  · exact (leaveList_changes _ _ _).mono
  · exact joinList_changes _ _ _
  · exact .refl _ _
  · exact .refl _ _

theorem setRecords_changes (x : Table AnnRec) (s : State) :
    Changes [.annRecords] s (s.setAnn { s.ann with records := x }) := by
  intro p hp
  cases p <;> first | rfl | exact absurd (by decide) hp

theorem transition_changes (n : Nat) (new : AnnState) (s : State) :
    Changes transitionParts s (transition n new s) := by
  unfold transition
  split
  · exact .refl _ _
  · refine (handSummary_changes _ _).after ?_
    refine (handAlarm_changes _ _).after ?_
    refine (setRecords_changes _ _).after ?_
    refine (setCounts_changes _ _ _).after ?_
    exact (moveOnList_changes _ _ _ _ s).mono

theorem decideHorn_changes (s : State) : Changes [.annHornClass] s (decideHorn s) := by
  intro p hp
  cases p <;> first | rfl | exact absurd (by decide) hp

theorem takeReport_changes (n : Nat) (rep : Report) (s : State) :
    Changes reportParts s (takeReport n rep s) := by
  unfold takeReport
  split
  · exact (((transition_changes _ _ s).then (record_changes _ _ _ _ _) (k := reportParts)).then
      (decideHorn_changes _))
  · exact .refl _ _

theorem staleReport_changes (g : Nat) (s : State) :
    Changes (.annGroups :: imageParts) s (staleReport g s) :=
  (setCounts_changes _ _ s).then (handStale_changes _ _)

theorem freshReport_changes (g : Nat) (s : State) :
    Changes (.annGroups :: imageParts) s (freshReport g s) :=
  (setCounts_changes _ _ s).then (handStale_changes _ _)

theorem annJoin_changes (n : Nat) (e : Entry) (s : State) :
    Changes [.annRecords] s (annJoin n e s) := by
  unfold annJoin
  exact Changes.ite (setRecords_changes _ _) (.refl _ _)

theorem setShelf_changes (x : List ShelfRec) (s : State) :
    Changes [.annShelf] s (s.setAnn { s.ann with shelf := x }) := by
  intro p hp
  cases p <;> first | rfl | exact absurd (by decide) hp

theorem setRecordsShelf_changes (x : Table AnnRec) (y : List ShelfRec) (s : State) :
    Changes [.annRecords, .annShelf] s (s.setAnn { s.ann with records := x, shelf := y }) := by
  intro p hp
  cases p <;> first | rfl | exact absurd (by decide) hp

theorem finishShelf_changes (s : State) : Changes [.annShelf, .annShelfDue] s (finishShelf s) := by
  unfold finishShelf
  refine Changes.ite ?_ (.refl _ _)
  intro p hp
  cases p <;> first | rfl | exact absurd (by decide) hp

theorem annRemove_changes (n : Nat) (s : State) :
    Changes ([.annRecords, .annUnack, .annGroups, .annShelf, .annShelfDue, .annHornClass] ++ imageParts) s
      (annRemove n s) := by
  unfold annRemove
  split
  · exact .refl _ _
  · refine (decideHorn_changes _).after ?_
    refine (finishShelf_changes _).after ?_
    refine (handSummary_changes _ _).after ?_
    refine (setRecordsShelf_changes _ _ _).after ?_
    refine (setCounts_changes _ _ _).after ?_
    exact Changes.ite (leaveList_changes _ _ s).mono (.refl _ _)

theorem unshelve_changes (n : Nat) (abnormal : AnnState) (d : Nat) (o : Origin) (s : State) :
    Changes operationParts s (unshelve n abnormal d o s) := by
  unfold unshelve
  exact (((setShelf_changes _ s).then (transition_changes _ _ _) (k := operationParts)).then
    (record_changes _ _ _ _ _))

theorem ackPoint_changes (o : Origin) (n : Nat) (s : State) :
    Changes operationParts s (ackPoint o n s) := by
  unfold ackPoint
  split
  · exact (transition_changes _ _ s).then (record_changes _ _ _ _ _)
  · exact (transition_changes _ _ s).then (record_changes _ _ _ _ _)
  · exact (finishShelf_changes _).after (unshelve_changes _ _ _ _ s)
  all_goals exact .refl _ _

theorem clearPoint_changes (o : Origin) (n : Nat) (s : State) :
    Changes (transitionParts ++ eventParts) s (clearPoint o n s) := by
  unfold clearPoint
  split
  · exact (transition_changes _ _ s).then (record_changes _ _ _ _ _)
  all_goals exact .refl _ _

theorem overPoints_changes {l : List Part} {act : Nat → State → State}
    (h : ∀ n s, Changes l s (act n s)) (points : List Nat) (s : State) :
    Changes l s (overPoints act points s) :=
  Changes.foldl (fun s n => h n s) points s

theorem acknowledge_changes (x : Scope) (o : Origin) (s : State) :
    Changes operationParts s (acknowledge x o s).1 := by
  unfold acknowledge
  split
  · exact .refl _ _
  · exact (overPoints_changes (ackPoint_changes o) _ s).then (decideHorn_changes _)

theorem clear_changes (x : Scope) (o : Origin) (s : State) :
    Changes reportParts s (clear x o s).1 := by
  unfold clear
  split
  · exact .refl _ _
  · exact (overPoints_changes (clearPoint_changes o) _ s).then (decideHorn_changes _)

theorem shelveAccepted_changes (n : Nat) (o : Origin) (s : State) :
    Changes operationParts s (shelveAccepted n o s) := by
  unfold shelveAccepted
  exact ((((setShelf_changes _ s).then (transition_changes _ _ _) (k := operationParts)).then
    (record_changes _ _ _ _ _) (k := operationParts)).then (finishShelf_changes _) (k := operationParts)).then
    (decideHorn_changes _)

theorem shelve_changes (n : Nat) (o : Origin) (s : State) :
    Changes operationParts s (shelve n o s).1 := by
  unfold shelve
  split
  · exact .refl _ _
  · exact shelveAccepted_changes _ _ _

theorem silence_changes (s : State) : Changes [.annSilence, .annHornClass] s (silence s) := by
  intro p hp
  cases p <;> first | rfl | exact absurd (by decide) hp

theorem shelfSecond_changes (s : State) :
    Changes operationParts s (shelfSecond s) := by
  unfold shelfSecond
  refine (decideHorn_changes _).after ?_
  refine (overPoints_changes (fun n s => unshelve_changes n _ _ _ s) _ _).after ?_
  intro p hp
  cases p <;> first | rfl | exact absurd (by decide) hp

/-! ## The Point Evaluator -/

theorem handPatterns_changes (lamps : List (Nat × Pattern)) (s : State) :
    Changes imageParts s (handPatterns lamps s) :=
  Changes.foldl (f := fun s (e : Nat × Pattern) => setPattern e.1 e.2 s)
    (fun s e => setPattern_changes e.1 e.2 s) lamps s

theorem handDisplay_changes (e : Entry) (v : ValueRec) (s : State) :
    Changes imageParts s (handDisplay e v s) :=
  handPatterns_changes _ s

theorem setValue_changes (n : Nat) (v : ValueRec) (s : State) :
    Changes [.evaluatorValues] s (setValue n v s) := by
  intro p hp
  cases p <;> first | rfl | exact absurd (by decide) hp

theorem freshen_changes (n : Nat) (e : Entry) (v : ValueRec) (s : State) :
    Changes (.annGroups :: imageParts ++ eventParts) s (freshen n e v s) := by
  unfold freshen
  exact Changes.ite ((record_changes _ _ _ _ s).then (freshReport_changes _ _)) (.refl _ _)

theorem judgeValue_changes (w : Word) (n : Nat) (s : State) :
    Changes (.evaluatorValues :: reportParts) s (judgeValue w n s) := by
  unfold judgeValue
  split
  · exact (((freshen_changes _ _ _ s).then (setValue_changes _ _ _)
      (k := .evaluatorValues :: reportParts)).then (handDisplay_changes _ _ _)
      (k := .evaluatorValues :: reportParts)).then (takeReport_changes _ _ _)
  · exact .refl _ _

theorem becomeStale_changes (n : Nat) (e : Entry) (v : ValueRec) (s : State) :
    Changes (.evaluatorValues :: reportParts) s (becomeStale n e v s) := by
  unfold becomeStale
  exact (((setValue_changes _ _ s).then (record_changes _ _ _ _ _)
      (k := .evaluatorValues :: reportParts)).then (staleReport_changes _ _)
      (k := .evaluatorValues :: reportParts)).then (handDisplay_changes _ _ _)

theorem setSecondDue_changes (x : List Nat) (s : State) :
    Changes [.evaluatorSecondDue] s (s.setEvaluator { s.evaluator with secondDue := x }) := by
  intro p hp
  cases p <;> first | rfl | exact absurd (by decide) hp

theorem ageAt_changes (n : Nat) (e : Entry) (v : ValueRec) (s : State) :
    Changes (.evaluatorValues :: reportParts) s (ageAt n e v s) :=
  Changes.ite (becomeStale_changes _ _ _ _) (setValue_changes _ _ _).mono

theorem timerAt_changes (n : Nat) (s : State) :
    Changes (.evaluatorValues :: reportParts) s (timerAt n s) := by
  unfold timerAt
  split
  · exact Changes.ite ((takeReport_changes _ _ _).after (setValue_changes _ _ _).mono)
      (setValue_changes _ _ _).mono
  · exact .refl _ _

theorem dropDue_changes (n : Nat) (s : State) : Changes [.evaluatorSecondDue] s (dropDue n s) :=
  setSecondDue_changes _ s

theorem secondAt_changes (n : Nat) (s : State) : Changes pointParts s (secondAt n s) := by
  unfold secondAt
  split
  · refine (timerAt_changes _ _).after ((ageAt_changes _ _ _ _).after (dropDue_changes _ _).mono)
  · exact (dropDue_changes _ _).mono

theorem evaluateLater_changes (w : Word) (n : Nat) (s : State) :
    Changes pointParts s (evaluateLater w n s) := by
  unfold evaluateLater finishSecond
  exact Changes.trans (judgeValue_changes w n s).mono (Changes.ite (secondAt_changes _ _) (.refl _ _))

theorem setShelfDue_changes (x : Bool) (s : State) :
    Changes [.annShelfDue] s (s.setAnn { s.ann with shelfDue := x }) := by
  intro p hp
  cases p <;> first | rfl | exact absurd (by decide) hp

theorem handSecond_changes (s : State) : Changes secondParts s (handSecond s) := by
  unfold handSecond
  have first : Changes secondParts s (let s := overPoints secondAt s.evaluator.secondDue s
      if s.ann.shelfDue then shelfSecond s else s) :=
    Changes.trans (overPoints_changes secondAt_changes _ s).mono
      (Changes.ite (shelfSecond_changes _).mono (.refl _ _))
  refine first.trans ?_
  dsimp only
  refine Changes.ite ((setShelfDue_changes _ _).after ?_) ((shelfSecond_changes _).after ?_)
  all_goals
    refine (setSecondDue_changes _ _).after ?_
    exact (overPoints_changes secondAt_changes _ _).mono

theorem popCapture_changes (s : State) : Changes [.pathCapture] s (popCapture s) := by
  intro p hp
  cases p <;> first | rfl | exact absurd (by decide) hp

theorem takeSourceItem_changes (s : State) :
    Changes [.pathCapture, .evaluatorItem] s (takeSourceItem s) := by
  intro p hp
  unfold takeSourceItem
  split <;> cases p <;> first | rfl | exact absurd (by decide) hp

theorem setItem_changes (x : Option ItemInProgress) (s : State) :
    Changes [.evaluatorItem] s (s.setEvaluator { s.evaluator with item := x }) := by
  intro p hp
  cases p <;> first | rfl | exact absurd (by decide) hp

theorem evaluateItem_changes (k : Nat) (s : State) :
    Changes (.evaluatorItem :: pointParts) s (evaluateItem k s) := by
  unfold evaluateItem
  split
  · exact .refl _ _
  · exact (overPoints_changes (evaluateLater_changes _) _ s).then (setItem_changes _ _)

/-! ## The Pattern Generator and the chains -/

theorem changeMode_changes (new : Mode) (d : Nat) (o : Origin) (s : State) :
    Changes modeParts s (changeMode new d o s) := by
  unfold changeMode
  refine Changes.trans ?_ (record_changes _ _ _ _ _).mono
  intro p hp
  cases p <;> first | rfl | exact absurd (by decide) hp

theorem requestMode_changes (new : Mode) (s : State) : Changes modeParts s (requestMode new s) := by
  unfold requestMode
  exact Changes.ite (.refl _ _) (changeMode_changes _ _ _ _)

theorem requestDim_changes (d : Nat) (o : Origin) (s : State) :
    Changes modeParts s (requestDim d o s) := by
  unfold requestDim
  split
  · exact changeMode_changes _ _ _ _
  · exact changeMode_changes _ _ _ _
  · exact .refl _ _

theorem wake_changes (d : Nat) (o : Origin) (s : State) : Changes modeParts s (wake d o s) := by
  unfold wake
  exact Changes.ite (changeMode_changes _ _ _ _) (.refl _ _)

theorem takeWakeRequest_changes (s : State) :
    Changes (.genWakeRequests :: modeParts) s (takeWakeRequest s) := by
  unfold takeWakeRequest
  refine Changes.ite (.refl _ _) (Changes.trans ?_ (wake_changes _ _ _).mono)
  intro p hp
  cases p <;> first | rfl | exact absurd (by decide) hp

theorem requestTest_changes (s : State) : Changes [.genTestTimer] s (requestTest s) := by
  intro p hp
  cases p <;> first | rfl | exact absurd (by decide) hp

theorem setChain_changes (c : ChainId) (x : Chain) (s : State) :
    Changes [.chainsA, .chainsB, .chainsC, .chainsD] s (setChain c x s) := by
  intro p hp
  unfold setChain Chains.set
  split <;> cases p <;> first | rfl | exact absurd (by decide) hp

theorem handCount_changes (c : ChainId) (n : Nat) (s : State) :
    Changes ([.chainsA, .chainsB, .chainsC, .chainsD] ++ imageParts) s (handCount c n s) :=
  (setChain_changes _ _ s).then (decideFaultLamp_changes _)

theorem giveFrames_changes (s : State) :
    Changes [.chainsA, .chainsB, .chainsC, .chainsD] s (giveFrames s) := by
  intro p hp
  unfold giveFrames
  split_ifs <;> cases p <;> first | rfl | exact absurd (by decide) hp

theorem setFails_changes (x : Table Nat) (s : State) :
    Changes [.chainsFails] s (s.setChains { s.chains with fails := x }) := by
  intro p hp
  cases p <;> first | rfl | exact absurd (by decide) hp

theorem setFaultCount_changes (x : Nat) (s : State) :
    Changes [.chainsFaultCount] s (s.setChains { s.chains with faultCount := x }) := by
  intro p hp
  cases p <;> first | rfl | exact absurd (by decide) hp

/-- The parts a judged lamp may change (R137). -/
def lampParts : List Part :=
  [.chainsFails, .chainsFaultCount] ++ imageParts ++ eventParts ++ statusParts

theorem flagMoved_changes (k : EventKind) (lamp n : Nat) (s : State) :
    Changes lampParts s (flagMoved k lamp n s) := by
  unfold flagMoved
  refine (record_changes _ _ _ _ _).after ?_
  refine (decideFaultLamp_changes _).after ?_
  refine (touchWord_changes _ _).after ?_
  exact (setFaultCount_changes n s).then (syncStatus_changes _)

theorem setFail_changes (lamp count : Nat) (s : State) :
    Changes lampParts s (setFail lamp count s) := by
  unfold setFail
  refine Changes.trans (setFails_changes (s.chains.fails.assign 0 lamp count) s).mono ?_
  dsimp only
  split
  · exact flagMoved_changes _ _ _ _
  · exact flagMoved_changes _ _ _ _
  · exact .refl _ _
  · exact .refl _ _

theorem judgeLamp_changes (lamp : Nat) (b : Bool) (s : State) :
    Changes lampParts s (judgeLamp lamp b s) := setFail_changes _ _ _

theorem judgeSense_changes (c : ChainId) (n : Nat) (x : SentFrame) (f : List Byte) (s : State) :
    Changes lampParts s (judgeSense c n x f s) :=
  Changes.foldl (fun s _ => judgeLamp_changes _ _ s) _ s

theorem chainMoved_changes (k : EventKind) (c : ChainId) (x : Chain) (s : State) :
    Changes exchangeParts s (record k .part (chainIndex c) 0 (decideFaultLamp (setChain c x s))) :=
  ((setChain_changes c x s).then (decideFaultLamp_changes _) (k := exchangeParts)).then
    (record_changes _ _ _ _ _)

theorem badReturn_changes (c : ChainId) (s : State) : Changes exchangeParts s (badReturn c s) := by
  unfold badReturn
  dsimp only
  split
  · exact Changes.ite (setChain_changes _ _ _).mono (chainMoved_changes _ _ _ _)
  · exact .refl _ _
  · exact .refl _ _

theorem goodReturn_changes (c : ChainId) (s : State) : Changes exchangeParts s (goodReturn c s) := by
  unfold goodReturn
  dsimp only
  split
  · exact chainMoved_changes _ _ _ _
  · exact (setChain_changes _ _ _).mono
  · exact (setChain_changes _ _ _).mono

theorem judgeReturn_changes (c : ChainId) (x : Exchange) (f : List Byte) (s : State) :
    Changes exchangeParts s (judgeReturn c x f s) := by
  unfold judgeReturn
  refine Changes.ite (Changes.trans (goodReturn_changes c s) ?_) (badReturn_changes _ _)
  split
  · exact Changes.ite (judgeSense_changes _ _ _ _ _).mono (.refl _ _)
  · exact .refl _ _

theorem closeExchange_changes (c : ChainId) (x : Option SentFrame) (s : State) :
    Changes exchangeParts s (closeExchange c x s) := (setChain_changes _ _ _).mono

theorem setCards_changes (x : Table Card) (s : State) : Changes [.cards] s (s.setCards x) := by
  intro p hp
  cases p <;> first | rfl | exact absurd (by decide) hp

theorem endExchange_changes (c : ChainId) (l : List (Nat × List Byte)) (m : List Nat)
    (r : Option (List Byte)) (s : State) : Changes exchangeParts s (endExchange c l m r s) := by
  unfold endExchange
  split
  · exact .refl _ _
  · refine Changes.trans (setCards_changes _ s).mono (Changes.ite (closeExchange_changes _ _ _) ?_)
    exact (judgeReturn_changes _ _ _ _).trans (closeExchange_changes _ _ _)

/-! ## The tick -/

theorem setGen_seconds_changes (x : BitVec 32) (s : State) :
    Changes [.genSeconds] s (s.setGen { s.gen with seconds := x }) := by
  intro p hp
  cases p <;> first | rfl | exact absurd (by decide) hp

theorem runWork_changes (w : TickWork) (s : State) : Changes workParts s (runWork w s) := by
  cases w with
  | frameSlot => exact (giveFrames_changes s).mono
  | boardSecond => exact (setGen_seconds_changes _ s).then (handSecond_changes _)
  | _ => intro p hp; cases p <;> first | rfl | exact absurd (by decide) hp

theorem runAll_changes (l : List TickWork) (s : State) : Changes workParts s (runAll l s) :=
  Changes.foldl (fun s w => runWork_changes w s) l s

theorem setTickWork_changes (x : List TickWork) (s : State) :
    Changes [.genTickWork] s (s.setGen { s.gen with tickWork := x }) := by
  intro p hp
  cases p <;> first | rfl | exact absurd (by decide) hp

theorem finishTick_changes (s : State) : Changes (tickParts ++ settleParts) s (finishTick s) := by
  unfold finishTick
  refine Changes.ite (.refl _ _) ((settle_changes _).after ?_)
  exact (runAll_changes _ _).after (setTickWork_changes [] s).mono

theorem runThrough_changes (w : TickWork) (s : State) : Changes tickParts s (runThrough w s) := by
  unfold runThrough
  exact Changes.ite ((runAll_changes _ _).after (setTickWork_changes _ s).mono) (.refl _ _)

theorem countTick_changes (down : List Key) (s : State) :
    Changes [.genTickCount, .genFrameMarker, .genPhaseTicks, .genSettleCount, .genTestTimer,
      .genTickWork, .panelHeld, .panelPressCount, .panelReleaseCount, .panelPresses, .panelShown]
      s (countTick down s) := by
  intro p hp
  unfold countTick Panel.scan
  dsimp only
  split_ifs <;> cases p <;> first | rfl | exact absurd (by decide) hp

end Sys2Proof.Machine
end

