-- ==== Sys2Proof/Laws/FrameCommands.lean ====
section
/-! SUPPORT. The frame lemmas of the Loader, the Memory Path, the panel and the Event Unit. -/

set_option Elab.async false

namespace Sys2Proof.Machine

/-! ## The Configuration Loader -/

theorem setValues_changes (x : Table ValueRec) (y : List Nat) (s : State) :
    Changes [.evaluatorValues, .evaluatorSecondDue] s (s.setEvaluator { s.evaluator with values := x, secondDue := y }) := by
  intro p hp
  cases p <;> first | rfl | exact absurd (by decide) hp

theorem evaluatorRemove_changes (n g : Nat) (s : State) :
    Changes ([.evaluatorValues, .evaluatorSecondDue, .annGroups] ++ imageParts) s
      (evaluatorRemove n g s) := by
  unfold evaluatorRemove
  split
  · exact .refl _ _
  · exact Changes.ite ((freshReport_changes _ _).after (setValues_changes _ _ s).mono)
      (setValues_changes _ _ s).mono

theorem releaseLamps_changes (lamps : List Nat) (s : State) :
    Changes (.loaderClaims :: imageParts) s (releaseLamps lamps s) :=
  Changes.foldl (f := fun s l => releaseLamp l s) (fun s l => releaseLamp_changes l s) lamps s

theorem dropPairs_changes (n : Nat) (s : State) :
    Changes [.loaderWatch] s (dropPairs n s) := by
  intro p hp
  cases p <;> first | rfl | exact absurd (by decide) hp

theorem setInstalled_changes (x : Nat) (s : State) :
    Changes [.loaderInstalled] s (s.setLoader { s.loader with installed := x }) := by
  intro p hp
  cases p <;> first | rfl | exact absurd (by decide) hp

/-- The parts a removal may change (R44). -/
def removalParts : List Part :=
  [.loaderPoints, .loaderInstalled, .loaderWatch, .loaderClaims, .evaluatorValues,
   .evaluatorSecondDue, .annRecords, .annUnack, .annGroups, .annShelf, .annShelfDue,
   .annHornClass] ++ imageParts

theorem removePoint_changes (n : Nat) (s : State) : Changes removalParts s (removePoint n s) := by
  unfold removePoint
  split
  · exact .refl _ _
  · refine (setInstalled_changes _ _).after ?_
    refine (setPoint_changes _ _ _).after ?_
    refine (releaseLamps_changes _ _).after ?_
    refine (dropPairs_changes _ _).after ?_
    exact (evaluatorRemove_changes _ _ _).after (annRemove_changes _ s).mono

theorem claimPoint_changes (n : Nat) (e : Entry) (s : State) :
    Changes [.loaderClaims] s (claimPoint n e s) := by
  unfold claimPoint
  have h := Changes.foldl (f := fun s l => claimLamp (.display n) l s)
    (fun s l => claimLamp_changes _ l s) e.displayLamps s
  split
  · exact (claimLamp_changes _ _ _).after h
  · exact h

theorem leaveRejected_changes (x : PointStatus) (s : State) :
    Changes [.loaderRejected] s (leaveRejected x s) := by
  intro p hp
  unfold leaveRejected
  split <;> cases p <;> first | rfl | exact absurd (by decide) hp

theorem setWatch_changes (x : List (Nat × Nat)) (s : State) :
    Changes [.loaderWatch] s (s.setLoader { s.loader with watch := x }) := by
  intro p hp
  cases p <;> first | rfl | exact absurd (by decide) hp

theorem setReload_changes (x : Option Reload) (s : State) :
    Changes [.loaderReload] s (s.setLoader { s.loader with reload := x }) := by
  intro p hp
  cases p <;> first | rfl | exact absurd (by decide) hp

theorem setRejected_changes (x : Nat) (s : State) :
    Changes [.loaderRejected] s (s.setLoader { s.loader with rejected := x }) := by
  intro p hp
  cases p <;> first | rfl | exact absurd (by decide) hp

theorem setCfg_changes (x : CfgState) (s : State) :
    Changes [.loaderCfg] s (s.setLoader { s.loader with cfg := x }) := by
  intro p hp
  cases p <;> first | rfl | exact absurd (by decide) hp

theorem setMarked_changes (x : List Nat) (s : State) :
    Changes [.loaderMarked] s (s.setLoader { s.loader with marked := x }) := by
  intro p hp
  cases p <;> first | rfl | exact absurd (by decide) hp

theorem beginInstall_changes (n : Nat) (e : Entry) (x : PointStatus) (s : State) :
    Changes [.loaderClaims, .loaderRejected, .loaderWatch, .loaderPoints, .loaderReload] s
      (beginInstall n e x s) := by
  unfold beginInstall
  refine (setReload_changes _ _).after ?_
  refine (setPoint_changes _ _ _).after ?_
  refine (setWatch_changes _ _).after ?_
  exact (claimPoint_changes _ _ _).after (leaveRejected_changes _ s).mono

theorem sweepCheck_changes (s : State) : Changes (.loaderCfg :: eventParts) s (sweepCheck s) := by
  unfold sweepCheck
  exact Changes.ite ((record_changes _ _ _ _ _).after (setCfg_changes _ s).mono) (.refl _ _)

theorem endReload_changes (s : State) :
    Changes ([.loaderReload, .loaderCfg] ++ eventParts) s (endReload s) :=
  (sweepCheck_changes _).after (setReload_changes _ s).mono

theorem rejectPoint_changes (n : Nat) (e : Entry) (r : Nat) (x : PointStatus) (b : Bool) (s : State) :
    Changes ([.loaderPoints, .loaderRejected, .loaderReload, .loaderCfg] ++ eventParts) s
      (rejectPoint n e r x b s) := by
  unfold rejectPoint
  refine (endReload_changes _).after ?_
  have h : Changes [.loaderPoints, .loaderRejected] s (match x with
      | .rejected _ => setPoint n ⟨.rejected r, some e, false⟩ s
      | .absent | .installed =>
        (setPoint n ⟨.rejected r, some e, false⟩ s).setLoader
          { (setPoint n ⟨.rejected r, some e, false⟩ s).loader with
            rejected := (setPoint n ⟨.rejected r, some e, false⟩ s).loader.rejected + 1 }) := by
    split
    · exact (setPoint_changes _ _ s).mono
    · exact (setRejected_changes _ _).after (setPoint_changes _ _ s).mono
    · exact (setRejected_changes _ _).after (setPoint_changes _ _ s).mono
  exact Changes.ite h.mono ((record_changes _ _ _ _ _).after h.mono)

/-- The parts a judgement may change once it has cleared the revalidation mark (R43). -/
def judgementParts : List Part := loaderParts.erase .loaderMarked

theorem validatePoint_changes (n : Nat) (e : Entry) (x : PointStatus) (b : Bool) (s : State) :
    Changes judgementParts s (validatePoint n e x b s) := by
  unfold validatePoint
  split
  · exact (rejectPoint_changes _ _ _ _ _ _).mono
  · exact (beginInstall_changes _ _ _ _).mono

theorem judgeDisabled_changes (n : Nat) (s : State) :
    Changes judgementParts s (judgeDisabled n s) := by
  unfold judgeDisabled
  split
  · exact (endReload_changes _).mono
  · exact (endReload_changes _).after (removePoint_changes _ s).mono
  · exact (endReload_changes _).after ((leaveRejected_changes _ _).after (setPoint_changes _ _ s).mono)

theorem judgeEnabled_changes (n : Nat) (e : Entry) (b : Bool) (s : State) :
    Changes judgementParts s (judgeEnabled n e b s) := by
  unfold judgeEnabled
  split
  · exact validatePoint_changes _ _ _ _ _
  · exact Changes.ite (endReload_changes _).mono
      ((validatePoint_changes _ _ _ _ _).after (removePoint_changes _ s).mono)
  · exact validatePoint_changes _ _ _ _ _

theorem judge_changes (n : Nat) (words : List Word) (s : State) :
    Changes loaderParts s (judge n words s) := by
  unfold judge
  have h := (setMarked_changes (s.loader.marked.filter (fun m => m != n)) s).mono (m := loaderParts)
  refine h.trans ?_
  dsimp only
  split
  · exact .refl _ _
  · refine Changes.ite ?_ (judgeDisabled_changes _ _).mono
    split
    · exact (judgeEnabled_changes _ _ _ _).mono
    · exact .refl _ _

/-- A judgement clears the revalidation mark of its point and no other, whatever the row (R43). -/
theorem judge_marked (n : Nat) (words : List Word) (s : State) :
    (judge n words s).loader.marked = s.loader.marked.filter (fun m => m != n) := by
  unfold judge
  dsimp only
  split
  · rfl
  · split_ifs
    · split
      · exact judgeEnabled_changes _ _ _ _ .loaderMarked (by decide)
      · rfl
    · exact judgeDisabled_changes _ _ .loaderMarked (by decide)

theorem takeEntryWord_changes (w : Word) (s : State) :
    Changes loaderParts s (takeEntryWord w s) := by
  unfold takeEntryWord
  split
  · exact .refl _ _
  · exact Changes.ite ((judge_changes _ _ _).after (setReload_changes _ s).mono)
      (setReload_changes _ s).mono

theorem takeSourceWord_changes (w : Word) (s : State) :
    Changes [.loaderReload, .evaluatorFirstValue] s (takeSourceWord w s) := by
  intro p hp
  unfold takeSourceWord
  split
  · cases p <;> rfl
  · split_ifs <;> cases p <;> first | rfl | exact absurd (by decide) hp

theorem setFirstValue_changes (x : Option (Nat × Word)) (s : State) :
    Changes [.evaluatorFirstValue] s (s.setEvaluator { s.evaluator with firstValue := x }) := by
  intro p hp
  cases p <;> first | rfl | exact absurd (by decide) hp

/-- The parts a first value may change (R55, R82). -/
def firstValueParts : List Part :=
  [.loaderCfg, .loaderReload, .loaderPoints, .loaderInstalled, .evaluatorValues,
   .evaluatorFirstValue] ++ reportParts

theorem evaluateFirst_changes (n : Nat) (w : Word) (s : State) :
    Changes firstValueParts s (evaluateFirst n w s) := by
  unfold evaluateFirst
  split
  · exact .refl _ _
  · refine (endReload_changes _).after ?_
    refine (setFirstValue_changes _ _).after ?_
    refine (takeReport_changes _ _ _).after ?_
    refine (handDisplay_changes _ _ _).after ?_
    refine (setValue_changes _ _ _).after ?_
    refine (annJoin_changes _ _ _).after ?_
    exact (setInstalled_changes _ _).after (setPoint_changes _ _ s).mono

theorem takeFirstValue_changes (s : State) : Changes firstValueParts s (takeFirstValue s) := by
  unfold takeFirstValue
  split
  · exact evaluateFirst_changes _ _ _
  · exact .refl _ _

theorem holdSetting_changes (x : SettingPlace) (y : LampSetting) (s : State) :
    Changes [.loaderFaultLamp, .loaderGroups] s (holdSetting x y s) := by
  unfold holdSetting
  split
  · intro p hp
    cases p <;> first | rfl | exact absurd (by decide) hp
  · exact (setSettings_changes _ _ _).mono
  · exact (setSettings_changes _ _ _).mono

theorem handClaimed_changes (x : SettingPlace) (s : State) :
    Changes imageParts s (handClaimed x s) := by
  unfold handClaimed
  split
  · exact decideFaultLamp_changes _
  · exact handSummary_changes _ _
  · exact handStale_changes _ _

/-- The parts the judgement of a lamp setting may change (R28, R29). -/
def settingParts : List Part :=
  [.loaderFaultLamp, .loaderGroups, .loaderClaims] ++ imageParts ++ eventParts

theorem takeSetting_changes (x : SettingPlace) (new : Option Nat) (s : State) :
    Changes settingParts s (takeSetting x new s) := by
  unfold takeSetting
  split
  · exact (holdSetting_changes _ _ _).mono
  · refine Changes.ite ((record_changes _ _ _ _ _).after (holdSetting_changes _ _ s).mono) ?_
    refine (handClaimed_changes _ _).after ?_
    exact (claimLamp_changes _ _ _).after (holdSetting_changes _ _ s).mono

theorem judgeSetting_changes (x : SettingPlace) (new : Option Nat) (s : State) :
    Changes settingParts s (judgeSetting x new s) := by
  unfold judgeSetting
  refine Changes.ite (.refl _ _) ((takeSetting_changes _ _ _).after ?_)
  split
  · exact (releaseLamp_changes _ _).after (holdSetting_changes _ _ s).mono
  · exact .refl _ _

theorem takeEnables_changes (g : Nat) (w : Word) (s : State) :
    Changes [.loaderGroups, .annHornClass] s (takeEnables g w s) :=
  (decideHorn_changes _).after (setSettings_changes _ _ s).mono

theorem takeGroupLamp_changes (g word : Nat) (w : Word) (s : State) :
    Changes settingParts s (takeGroupLamp g word w s) :=
  judgeSetting_changes _ _ _

/-- The parts the beginning of a sweep may change (R21, R122). -/
def sweepParts : List Part :=
  [.loaderCfg, .loaderPass, .eventsOwed19, .eventsOwed20, .eventsOwed21, .eventsOwed22, .genDirty,
   .genModeOwed] ++ eventParts

theorem setDirty_changes (x : List Nat) (s : State) :
    Changes [.genDirty] s (s.setGen { s.gen with dirty := x }) := by
  intro p hp
  cases p <;> first | rfl | exact absurd (by decide) hp

theorem setModeOwed_changes (x : Bool) (s : State) :
    Changes [.genModeOwed] s (s.setGen { s.gen with modeOwed := x }) := by
  intro p hp
  cases p <;> first | rfl | exact absurd (by decide) hp

theorem setSweeping_changes (x : CfgState) (y : Option Pass) (a b c d : Bool) (s : State) :
    Changes sweepParts s ((s.setLoader { s.loader with cfg := x, pass := y }).setEvents
      { s.events with owed19 := a, owed20 := b, owed21 := c, owed22 := d }) := by
  intro p hp
  cases p <;> first | rfl | exact absurd (by decide) hp

theorem beginSweep_changes (s : State) : Changes sweepParts s (beginSweep s) := by
  unfold beginSweep
  refine Changes.ite ((record_changes _ _ _ _ _).after ((setModeOwed_changes _ _).after ?_)) ?_
  all_goals exact (setDirty_changes _ _).after (setSweeping_changes _ _ _ _ _ _ s)

theorem setPassPending_changes (x : Option Pass) (y : List Nat) (s : State) :
    Changes [.loaderPass, .loaderPendingPoints] s (s.setLoader { s.loader with pass := x, pendingPoints := y }) := by
  intro p hp
  cases p <;> first | rfl | exact absurd (by decide) hp

theorem setPass_changes (x : Option Pass) (s : State) :
    Changes [.loaderPass] s (s.setLoader { s.loader with pass := x }) := by
  intro p hp
  cases p <;> first | rfl | exact absurd (by decide) hp

/-- The parts the progress of a settings pass may change (R22, R24, R32). -/
def passParts : List Part := [.loaderPass, .loaderPendingPoints, .loaderCfg] ++ eventParts

theorem endPass_changes (x : Pass) (s : State) : Changes passParts s (endPass x s) :=
  (sweepCheck_changes _).after (setPassPending_changes _ _ s).mono

theorem advancePass_changes (r : ConfigRead) (s : State) : Changes passParts s (advancePass r s) := by
  unfold advancePass
  split
  · exact .refl _ _
  · refine Changes.ite (setPass_changes _ _).mono ?_
    split
    · exact (setPass_changes _ _).mono
    · exact endPass_changes _ _

/-- The parts two card counts may change (R25, R33, R127). -/
def countParts : List Part :=
  [.chainsA, .chainsB, .chainsC, .chainsD, .loaderMarked] ++ imageParts

theorem takeCounts_changes (x y : ChainId) (w : Word) (s : State) :
    Changes countParts s (takeCounts x y w s) := by
  unfold takeCounts
  have h : Changes countParts s (handCount y (cardCountField w true)
      (handCount x (cardCountField w false) s)) :=
    (handCount_changes _ _ _).after (handCount_changes _ _ s).mono
  exact Changes.ite ((setMarked_changes _ _).after h) h

theorem takeFlashShelve_changes (w : Word) (s : State) :
    Changes [.genWaitingFlash, .annShelveMinutes] s (takeFlashShelve w s) := by
  intro p hp
  cases p <;> first | rfl | exact absurd (by decide) hp

theorem takeRingValue_changes (r : ConfigRead) (w : Word) (s : State) :
    Changes [.eventsHead, .eventsTail, .eventsLost, .eventsSweepDiscards, .eventsRingHeld, .eventsK18Owed]
      s (takeRingValue r w s) := by
  intro p hp
  unfold takeRingValue
  split <;> cases p <;> first | rfl | exact absurd (by decide) hp

theorem fullReload_changes (s : State) :
    Changes [.loaderPass, .loaderPendingPoints, .loaderCfg] s (fullReload s) := by
  intro p hp
  cases p <;> first | rfl | exact absurd (by decide) hp

theorem takeGeneration_changes (w : Word) (s : State) :
    Changes [.loaderGeneration, .loaderPass, .loaderPendingPoints, .loaderCfg] s
      (takeGeneration w s) := by
  unfold takeGeneration
  split
  · exact .refl _ _
  · refine Changes.ite (.refl _ _) ((fullReload_changes _).after ?_)
    intro p hp
    cases p <;> first | rfl | exact absurd (by decide) hp

/-- The parts that a deconfigure leaves as they stand (R35, R36). -/
def deconfigureKeeps : List Part :=
  [.pending, .ram, .pathInReset, .pathHostReset, .pathBase, .pathAccess, .pathCapture, .pathHostData,
   .evaluatorItem, .annShelveMinutes, .genTickCount, .genSeconds, .genFrameMarker, .genPhase,
   .genPhaseTicks, .genFlash, .genWaitingFlash, .genMode, .genSettling, .genSettleCount,
   .genTestTimer, .genLastWord, .genModeOwed, .genWakeRequests, .genTickWork,
   .chainsA, .chainsB, .chainsC, .chainsD, .chainsFails, .chainsFaultCount, .cards,
   .panelHeld, .panelPressCount, .panelReleaseCount, .panelPresses, .panelCommand, .panelDigits,
   .panelSelected, .panelError, .panelLock, .panelTestOn, .panelSilenceOn, .panelDimOn, .panelShown,
   .eventsOperand, .eventsHead, .eventsTail, .eventsLost, .eventsCopies]

theorem deconfigure_keeps (s : State) (p : Part) (hp : p ∈ deconfigureKeeps) :
    p.same s (deconfigure s) := by
  cases p <;> first | rfl | exact absurd hp (by decide)

theorem takeControlWord_changes (n : Nat) (s : State) :
    Changes [.loaderPendingPoints] s (takeControlWord n s) := by
  intro p hp
  unfold takeControlWord
  split_ifs <;> cases p <;> first | rfl | exact absurd (by decide) hp

theorem handOn_changes {α : Type} {l : List Part} (sel : RegionWord → Word → Option α)
    {act : α → Word → State → State} (h : ∀ x w s, Changes l s (act x w s)) (s : State) :
    Changes (.pathCapture :: l) s (handOn sel act s) := by
  have pop : ∀ s, Changes (.pathCapture :: l) s (popCapture s) := fun s p hp =>
    popCapture_changes s p (fun hm => hp (by
      have hm' : p = .pathCapture := by simpa using hm
      simp [hm']))
  unfold handOn
  split
  · exact .refl _ _
  · split
    · exact .refl _ _
    · refine Changes.ite ((pop s).trans fun p hp => h _ _ _ p (fun hm => hp ?_)) (pop s)
      exact List.mem_cons_of_mem _ hm

/-! ## The Memory Path -/

theorem setAccess_changes (x : Option HeldAccess) (s : State) :
    Changes [.pathAccess] s (setAccess x s) := by
  intro p hp
  cases p <;> first | rfl | exact absurd (by decide) hp

theorem storeWord_changes (a : Addr) (w : Word) (l : BitVec 2) (s : State) :
    Changes [.ram] s (storeWord a w l s) := by
  intro p hp
  cases p <;> first | rfl | exact absurd (by decide) hp

theorem capture_changes (a : Addr) (w : Word) (l : BitVec 2) (s : State) :
    Changes [.pathCapture] s (capture a w l s) := by
  intro p hp
  cases p <;> first | rfl | exact absurd (by decide) hp

theorem takeWrite_changes (a : Addr) (w : Word) (l : BitVec 2) (s : State) :
    Changes [.ram, .pathAccess, .pathCapture] s (takeWrite a w l s) := by
  have h : Changes [.ram, .pathAccess, .pathCapture] s (storeWord a w l (setAccess none s)) :=
    (storeWord_changes _ _ _ _).after (setAccess_changes _ s).mono
  unfold takeWrite
  exact Changes.ite (Changes.ite ((capture_changes _ _ _ _).after h) (setAccess_changes _ _).mono) h

theorem takeRead_changes (a : Addr) (s : State) :
    Changes [.pathAccess, .pathHostData] s (takeRead a s) := by
  intro p hp
  cases p <;> first | rfl | exact absurd (by decide) hp

/-- The parts a front-end access may change (R1, R2, R7). -/
def accessParts : List Part := [.ram, .pathAccess, .pathCapture, .pathHostData]

theorem takeAccess_changes (a : Addr) (k : AccessKind) (s : State) :
    Changes accessParts s (takeAccess a k s) := by
  unfold takeAccess
  split
  · exact (takeWrite_changes _ _ _ _).mono
  · exact (takeRead_changes _ _).mono

theorem takeFromHold_changes (h : HeldAccess) (s : State) : Changes accessParts s (takeFromHold h s) := by
  unfold takeFromHold
  split
  · exact (storeWord_changes _ _ _ _).after (setAccess_changes _ s).mono
  · exact (takeRead_changes _ _).mono
  all_goals exact takeAccess_changes _ _ _

theorem beginAccess_changes (a : Addr) (k : AccessKind) (s : State) :
    Changes accessParts s (beginAccess a k s) := by
  unfold beginAccess
  exact Changes.ite (.refl _ _) (Changes.ite (takeAccess_changes _ _ _) (setAccess_changes _ _).mono)

theorem takeHeld_changes (s : State) : Changes accessParts s (takeHeld s) := by
  unfold takeHeld
  split
  · exact Changes.ite (takeFromHold_changes _ _) (.refl _ _)
  · exact .refl _ _

theorem releaseHeld_changes (s : State) : Changes accessParts s (releaseHeld s) := by
  unfold releaseHeld
  split
  · exact Changes.ite (Changes.ite (setAccess_changes _ _).mono (takeAccess_changes _ _ _)) (.refl _ _)
  · exact .refl _ _

/-- The parts that a board reset leaves as they stand (R14, R15, R141, R158). -/
def boardResetKeeps : List Part :=
  [.pending, .pathHostReset, .pathBase, .cards, .panelShown]

theorem releaseAtReset_changes (s : State) : Changes accessParts s (releaseAtReset s) := by
  unfold releaseAtReset
  split
  · exact Changes.ite (setAccess_changes _ _).mono (takeFromHold_changes _ _)
  · exact .refl _ _

theorem boardReset_keeps (s : State) (p : Part) (hp : p ∈ boardResetKeeps) :
    p.same s (boardReset s) := by
  have h : p.same s (resetPath (resetBlocks s)) := by
    cases p <;> first | rfl | exact absurd hp (by decide)
  exact h.trans (releaseAtReset_changes _ p (by cases p <;> first | decide | exact absurd hp (by decide)))

theorem endBoardReset_changes (x : BitVec 2) (s : State) :
    Changes [.pathInReset, .pathBase, .pathRequests] s (endBoardReset x s) := by
  intro p hp
  unfold endBoardReset
  split_ifs <;> cases p <;> first | rfl | exact absurd (by decide) hp

/-- The parts a grant of the arbiter may change (R12, R125, R165, R171). -/
def grantParts : List Part :=
  [.pathRequests, .pathPartAccess, .eventsK18Owed, .eventsOwed19, .eventsOwed20, .eventsOwed21, .eventsOwed22, .genServedChanged]

theorem grantRing_changes (w : RingWrite) (s : State) : Changes grantParts s (grantRing w s) := by
  intro p hp
  unfold grantRing
  dsimp only
  repeat' split
  all_goals cases p <;> first | rfl | exact absurd (by decide) hp

theorem grantConfig_changes (r : ConfigRead) (s : State) : Changes grantParts s (grantConfig r s) := by
  intro p hp
  cases p <;> first | rfl | exact absurd (by decide) hp

theorem grantStatus_changes (w : StatusWord) (s : State) :
    Changes grantParts s (grantStatus w s) := by
  intro p hp
  cases w <;> cases p <;> first | rfl | exact absurd (by decide) hp

theorem serveHighest_changes (s : State) : Changes grantParts s (serveHighest s) := by
  unfold serveHighest
  repeat' split
  · intro p hp
    cases p <;> first | rfl | exact absurd (by decide) hp
  · exact grantRing_changes _ _
  · exact grantConfig_changes _ _
  · exact grantStatus_changes _ _
  · intro p hp
    cases p <;> first | rfl | exact absurd (by decide) hp
  · exact .refl _ _

theorem endAccess_changes (a : PartAccess) (s : State) :
    Changes [.pathPartAccess, .ram] s (endAccess a s) := by
  intro p hp
  unfold endAccess
  dsimp only
  split_ifs <;> cases p <;> first | rfl | exact absurd (by decide) hp

theorem complete_changes {α : Type} {l : List Part} (sel : PartWork → Option α)
    {act : α → Word → State → State} (h : ∀ x w s, Changes l s (act x w s)) (s : State) :
    Changes ([.pathPartAccess, .ram] ++ l) s (complete sel act s) := by
  have fin : ∀ a s, Changes ([.pathPartAccess, .ram] ++ l) s (endAccess a s) := fun a s p hp =>
    endAccess_changes a s p (fun hm => hp (List.mem_append_left _ hm))
  unfold complete
  split
  · exact .refl _ _
  · split
    · exact .refl _ _
    · exact Changes.ite (fin _ s) ((fin _ s).trans fun p hp =>
        h _ _ _ p (fun hm => hp (List.mem_append_right _ hm)))

theorem rereadDone_changes (w : Word) (s : State) :
    Changes [.pathCapture] s (rereadDone w s) := by
  intro p hp
  unfold rereadDone
  split <;> cases p <;> first | rfl | exact absurd (by decide) hp

theorem judgeK0_changes (w : Word) (s : State) : Changes sweepParts s (judgeK0 w s) := by
  unfold judgeK0
  exact Changes.ite (beginSweep_changes _) (.refl _ _)

theorem passRead_changes {l : List Part} {act : ConfigRead → Word → State → State}
    (h : ∀ r w s, Changes l s (act r w s)) (r : ConfigRead) (w : Word) (s : State) :
    Changes (l ++ passParts) s (passRead act r w s) :=
  Changes.trans (fun p hp => h r w s p (fun hm => hp (List.mem_append_left _ hm)))
    (fun p hp => advancePass_changes r _ p (fun hm => hp (List.mem_append_right _ hm)))

theorem countsRead_changes (r : ConfigRead) (w : Word) (s : State) :
    Changes countParts s (countsRead r w s) := by
  unfold countsRead
  exact Changes.ite (takeCounts_changes _ _ _ _) (takeCounts_changes _ _ _ _)

theorem groupRead_changes (r : ConfigRead) (w : Word) (s : State) :
    Changes (.annHornClass :: settingParts) s (groupRead r w s) := by
  unfold groupRead
  split
  · exact Changes.ite (takeEnables_changes _ _ _).mono (takeGroupLamp_changes _ _ _ _).mono
  all_goals exact .refl _ _

theorem imageDone_changes (w : Nat) (s : State) :
    Changes [.genLastWord, .genDirty] s (imageDone w s) := by
  intro p hp
  cases p <;> first | rfl | exact absurd (by decide) hp

theorem ringWordDone_changes (s : State) :
    Changes [.eventsInProgress] s (ringWordDone s) := by
  intro p hp
  cases p <;> first | rfl | exact absurd (by decide) hp

theorem headDone_changes (s : State) :
    Changes [.eventsHead, .eventsQueue, .eventsInProgress] s (headDone s) := by
  intro p hp
  cases p <;> first | rfl | exact absurd (by decide) hp

/-! ## The panel -/

theorem panelError_changes (r : Nat) (s : State) :
    Changes [.panelCommand, .panelDigits, .panelError] s (panelError r s) := by
  intro p hp
  cases p <;> first | rfl | exact absurd (by decide) hp

theorem popPress_changes (s : State) :
    Changes [.panelPresses] s (popPress s) := by
  intro p hp
  cases p <;> first | rfl | exact absurd (by decide) hp

theorem pendCommand_changes (x : EntryCommand) (s : State) :
    Changes [.panelCommand, .panelDigits] s (pendCommand x s) := by
  intro p hp
  cases p <;> first | rfl | exact absurd (by decide) hp

/-- The parts a refusal of the panel may change (R155, R156). -/
def refusalParts : List Part := [.panelCommand, .panelDigits, .panelError] ++ eventParts

theorem refusePress_changes (code r : Nat) (s : State) :
    Changes refusalParts s (refusePress code r s) :=
  (panelError_changes _ _).after (record_changes _ _ _ _ s).mono

theorem reportPress_changes (code d : Nat) (s : State) :
    Changes eventParts s (reportPress code d s) := record_changes _ _ _ _ _

theorem answerPress_changes {l : List Part} (code d : Nat) (s : State) (r : State × Option Nat)
    (h : Changes l s r.1) : Changes (l ++ refusalParts) s (answerPress code d r) := by
  refine Changes.trans (fun p hp => h p (fun hm => hp (List.mem_append_left _ hm))) ?_
  refine fun p hp => Changes.mono (l := refusalParts) (m := refusalParts) ?_ (by decide) p
    (fun hm => hp (List.mem_append_right _ hm))
  unfold answerPress
  split
  · refine Changes.trans (reportPress_changes code d r.1).mono ?_
    have e : r.1.panel = (reportPress code d r.1).panel := by
      unfold reportPress record
      split_ifs <;> rfl
    rw [e]
    intro p hp
    cases p <;> first | rfl | exact absurd (by decide) hp
  · exact refusePress_changes _ _ _

/-- The parts that the stages of a press before the key may change (R145 to R147). -/
def pressParts : List Part := .panelPresses :: modeParts ++ refusalParts

theorem handlePress_changes {l : List Part} (key : Key) {act : State → State}
    (h : ∀ s, Changes l s (act s)) (s : State) :
    Changes (pressParts ++ l) s (handlePress key act s) := by
  have up : ∀ {t}, Changes pressParts s t → Changes (pressParts ++ l) s t := fun h p hp =>
    h p (fun hm => hp (List.mem_append_left _ hm))
  unfold handlePress
  refine Changes.ite (up (wake_changes _ _ _).mono) (Changes.ite (up ?_) (Changes.ite
    (up (panelError_changes _ _).mono) (Changes.ite (up (refusePress_changes _ _ _).mono)
    (fun p hp => h s p (fun hm => hp (List.mem_append_right _ hm))))))
  intro p hp
  cases p <;> first | rfl | exact absurd (by decide) hp

theorem onPress_changes {l : List Part} (sel : Key → Bool) {act : Key → State → State}
    (h : ∀ k s, Changes l s (act k s)) (s : State) :
    Changes (pressParts ++ l) s (onPress sel act s) := by
  have pop : ∀ s, Changes (pressParts ++ l) s (popPress s) := fun s p hp =>
    popPress_changes s p (fun hm => hp (List.mem_append_left _ (by
      have hm' : p = .panelPresses := by simpa using hm
      rw [hm']
      decide)))
  unfold onPress
  split
  · exact Changes.ite ((pop s).trans (handlePress_changes _ (h _) _)) (.refl _ _)
  · exact .refl _ _

theorem dataKey_changes (k : Key) (s : State) : Changes refusalParts s (dataKey k s) := by
  unfold dataKey
  split
  · intro p hp
    cases p <;> first | rfl | exact absurd (by decide) hp
  · exact refusePress_changes _ _ _

/-- The parts an ENTER that reaches its key may change (R151 to R154). -/
def enterParts : List Part := .panelSelected :: operationParts ++ refusalParts

theorem enterScope_changes (code : Nat) {op : Scope → Origin → State → State × Option Nat}
    (h : ∀ x o s, Changes operationParts s (op x o s).1) (s : State) :
    Changes enterParts s (enterScope code op s) := by
  unfold enterScope
  split
  · exact (answerPress_changes _ _ s _ (h _ _ s)).mono
  · exact Changes.ite (answerPress_changes _ _ s _ (h _ _ s)).mono (refusePress_changes _ _ _).mono

theorem setSelected_changes (x : Option Nat) (s : State) :
    Changes [.panelCommand, .panelDigits, .panelSelected] s
      (s.setPanel { s.panel.emptied with selected := x }) := by
  intro p hp
  cases p <;> first | rfl | exact absurd (by decide) hp

theorem enterGroup_changes (s : State) : Changes enterParts s (enterGroup s) := by
  unfold enterGroup
  split
  · exact (reportPress_changes _ _ _).after (setSelected_changes _ s).mono
  · exact Changes.ite ((reportPress_changes _ _ _).after (setSelected_changes _ s).mono)
      (refusePress_changes _ _ _).mono

theorem enterShelve_changes (s : State) : Changes enterParts s (enterShelve s) := by
  unfold enterShelve
  split
  · exact (refusePress_changes _ _ _).mono
  · exact Changes.ite (answerPress_changes _ _ s _ (shelve_changes _ _ s)).mono
      (refusePress_changes _ _ _).mono

theorem onEnter_changes (x : Option EntryCommand) {act : State → State}
    (h : ∀ s, Changes enterParts s (act s)) (s : State) :
    Changes (pressParts ++ enterParts) s (onEnter x act s) := by
  unfold onEnter
  exact Changes.ite (onPress_changes _ (fun _ => h) s) (.refl _ _)

/-! ## The Event Unit -/

theorem remoteDone_changes (code : Nat) (s : State) : Changes eventParts s (remoteDone code s) :=
  record_changes _ _ _ _ _

theorem remoteError_changes (x r : Nat) (s : State) : Changes eventParts s (remoteError x r s) :=
  record_changes _ _ _ _ _

theorem answerRemote_changes {s : State} (code : Nat) (r : State × Option Nat)
    (h : Changes operationParts s r.1) : Changes operationParts s (answerRemote code r) := by
  unfold answerRemote
  split
  · exact (remoteDone_changes _ _).after h
  · exact (remoteError_changes _ _ _).after h

theorem remoteScoped_changes (code : Nat) {op : Scope → Origin → State → State × Option Nat}
    (h : ∀ x o s, Changes operationParts s (op x o s).1) (s : State) :
    Changes operationParts s (remoteScoped code op s) := by
  unfold remoteScoped
  split
  · exact answerRemote_changes _ _ (h _ _ s)
  · exact (remoteError_changes _ _ _).mono

theorem remoteShelve_changes (s : State) : Changes operationParts s (remoteShelve s) := by
  unfold remoteShelve
  exact Changes.ite (answerRemote_changes _ _ (shelve_changes _ _ s)) (remoteError_changes _ _ _).mono

theorem takeTail_changes (w : Word) (s : State) :
    Changes [.eventsTail, .pathRequests] s (takeTail w s) := by
  intro p hp
  unfold takeTail
  dsimp only
  split_ifs <;> cases p <;> first | rfl | exact absurd (by decide) hp

end Sys2Proof.Machine
end

