-- ==== Sys2Proof/Laws/Commands.lean ====
section
/-! SUPPORT. What each command does between the tick's end and the settling, and the parts of the state it may change. -/

set_option Elab.async false

namespace Sys2Proof.Machine

/-- The effect of a command, the tick's end before it and the settling after it left out. -/
def effect (c : Instr) (s : State) : State :=
  match c with
  | .frontEndWrite a w l => beginAccess a (.write w l) s
  | .frontEndRead a => beginAccess a .read s
  | .heldAccessTaken => takeHeld s
  | .heldWriteRelease => releaseHeld s
  | .boardReset => boardReset s
  | .boardResetEnd x => endBoardReset x s
  | .hostReset => s.setPath { s.path with access := none, hostReset := true }
  | .hostResetRelease => s.setPath { s.path with hostReset := false }
  | .partAccessGrant => if s.slotIdle then serveHighest s else s
  | .captureRereadDone => complete onReread (fun _ w => rereadDone w) s
  | .k0ReadDone => complete (onConfig (fun r => r == .k0)) (fun _ w => judgeK0 w) s
  | .generationRead => complete (onConfig (fun r => r == .k1)) (passRead (fun _ => holdGeneration)) s
  | .cardCountRead => complete (onConfig (fun r => r == .k2 || r == .k3)) (passRead countsRead) s
  | .flashShelveRead =>
    complete (onConfig (fun r => r == .k4)) (passRead (fun _ => takeFlashShelve)) s
  | .boardFaultLampRead =>
    complete (onConfig (fun r => r == .k5)) (passRead (fun _ w => judgeSetting .boardFault (lampField w))) s
  | .ringValuesRead =>
    complete (onConfig (fun r => r == .k16 || r == .k17 || r == .k18)) (passRead takeRingValue) s
  | .groupSettingsRead => complete (onConfig ConfigRead.isEnables) (passRead groupRead) s
  | .groupLampRead => complete (onConfig ConfigRead.isGroupLamp) (passRead groupRead) s
  | .entryReadDone => complete (onConfig ConfigRead.isEntry) (fun _ => takeEntryWord) s
  | .sourceReadDone => complete (onConfig ConfigRead.isSource) (fun _ => takeSourceWord) s
  | .imageWriteDone => complete onImage (fun w _ => imageDone w) s
  | .ringWordWriteDone => complete (onRing RingWrite.isWord) (fun _ _ => ringWordDone) s
  | .headWriteDone => complete (onRing (fun w => w == .head)) (fun _ _ => headDone) s
  | .statusWriteDone => complete onStatus (fun _ _ s => s) s
  | .k18WriteDone => complete (onRing (fun w => w == .k18)) (fun _ _ s => s) s
  | .signatureWrite => handOn (onWord .k0) (fun _ w => takeSignature w) s
  | .generationWrite => handOn (onWord .k1) (fun _ w => takeGeneration w) s
  | .modeRequest => handOn (onWord .k8) (fun _ w => requestMode (modeField w)) s
  | .panelLockWrite =>
    handOn (onWord .k9) (fun _ w s => s.setPanel { s.panel with lock := w.getLsbD 0 }) s
  | .remoteOperandWrite =>
    handOn (onWord .k10) (fun _ w s => s.setEvents { s.events with operand := w }) s
  | .remoteAck => handOn (onRemote (fun c => c == 1)) (fun _ _ => remoteScoped 1 acknowledge) s
  | .remoteClear => handOn (onRemote (fun c => c == 2)) (fun _ _ => remoteScoped 2 clear) s
  | .remoteSilence => handOn (onRemote (fun c => c == 3)) (fun _ _ s => remoteDone 3 (silence s)) s
  | .remoteTest => handOn (onRemote (fun c => c == 4)) (fun _ _ s => remoteDone 4 (requestTest s)) s
  | .remoteGroup =>
    handOn (onRemote (fun c => c == 5)) (fun _ w => remoteError w.toNat unknownCommand) s
  | .remoteShelve => handOn (onRemote (fun c => c == 6)) (fun _ _ => remoteShelve) s
  | .remoteDim =>
    handOn (onRemote (fun c => c == 7)) (fun _ _ s => remoteDone 7 (requestDim 2 .remote s)) s
  | .remoteUnknownCommand =>
    handOn (onRemote (fun c => c == 0 || decide (7 < c))) (fun _ w => remoteError w.toNat unknownCommand) s
  | .tailWrite => handOn (onWord .k17) (fun _ => takeTail) s
  | .lostCountWrite =>
    handOn (onWord .k18) (fun _ w s => s.setEvents { s.events with lost := w.toNat, k18Owed := true }) s
  | .controlWordWrite => handOn onControl (fun n _ => takeControlWord n) s
  | .groupEnableWrite => handOn (onGroup 0) (fun g w => takeEnables g w) s
  | .summaryLampWrite => handOn (onGroup 1) (fun g w => takeGroupLamp g 1 w) s
  | .staleLampWrite => handOn (onGroup 2) (fun g w => takeGroupLamp g 2 w) s
  | .groupAckRequest =>
    handOn (onGroup 3) (fun g _ s => (acknowledge (.group g) .groupRequest s).1) s
  | .groupClearRequest => handOn (onGroup 4) (fun g _ s => (clear (.group g) .groupRequest s).1) s
  | .firstValue => takeFirstValue s
  | .sourceItemEvaluation k => evaluateItem k (takeSourceItem s)
  | .tick x y z => countTick (keysDown x y z) s
  | .phaseBoundary => runThrough .phaseBoundary s
  | .settleEnd => runThrough .settleEnd s
  | .lampTestEnd => runThrough .lampTestEnd s
  | .frameSlot => runThrough .frameSlot s
  | .boardSecond => runThrough .boardSecond s
  | .keyRelease => runThrough .keyRelease s
  | .becomesStale n => if s.staleDue n then secondAt n s else s
  | .travelTimerExpiry n => if s.expiryDue n then secondAt n s else s
  | .shelfExpiry => if s.ann.shelfDue then shelfSecond s else s
  | .wakeByAlarm => takeWakeRequest s
  | .exchangeEnd c x y z => endExchange c x y z s
  | .dataKey => onPress Key.isDigit dataKey s
  | .ackKey => onPress (fun k => k == .ack) (fun _ => pendCommand .ack) s
  | .clearKey => onPress (fun k => k == .clear) (fun _ => pendCommand .clear) s
  | .groupKey => onPress (fun k => k == .group) (fun _ => pendCommand .group) s
  | .shelveKey => onPress (fun k => k == .shelve) (fun _ => pendCommand .shelve) s
  | .silenceKey =>
    onPress (fun k => k == .silence) (fun key s => reportPress key.code 0 (silence s)) s
  | .testKey => onPress (fun k => k == .test) (fun key s => reportPress key.code 0 (requestTest s)) s
  | .dimKey =>
    onPress (fun k => k == .dim) (fun key s => reportPress key.code 0 (requestDim 1 .panel s)) s
  | .enterNoCommand => onEnter none (refusePress 0 noCommand) s
  | .enterAck => onEnter (some .ack) (enterScope EntryCommand.ack.code acknowledge) s
  | .enterClear => onEnter (some .clear) (enterScope EntryCommand.clear.code clear) s
  | .enterGroup => onEnter (some .group) enterGroup s
  | .enterShelve => onEnter (some .shelve) enterShelve s

/-- The state that a command's effect starts from: a piece of the tick starts where it is, every other
command from the finished tick. -/
def startOf (c : Instr) (s : State) : State := if c ∈ tickPieces then s else finishTick s

/-- Every next state is the settled effect of its command. -/
theorem exec_next {c : Instr} {s t : State} (h : exec c s = .next t) :
    t = settle (effect c (startOf c s)) := by
  cases c <;> try (injection h with h; exact h.symm)
  all_goals
    change postAccess _ _ s = _ at h
    unfold postAccess at h
    split_ifs at h
    injection h with h
    exact h.symm

theorem startOf_changes (c : Instr) (s : State) :
    Changes (tickParts ++ settleParts) s (startOf c s) :=
  Changes.ite (.refl _ _) (finishTick_changes s)

/-- Every part of the state. -/
def everyPart : List Part :=
  [.pending, .ram, .pathInReset, .pathHostReset, .pathBase, .pathAccess, .pathCapture,
   .pathRequests, .pathPartAccess, .pathHostData, .loaderCfg, .loaderGeneration, .loaderFaultLamp,
   .loaderGroups, .loaderPass, .loaderPendingPoints, .loaderPoints, .loaderMarked, .loaderReload,
   .loaderClaims, .loaderWatch, .loaderInstalled, .loaderRejected, .evaluatorValues,
   .evaluatorItem, .evaluatorFirstValue, .evaluatorSecondDue, .annRecords, .annUnack, .annGroups,
   .annShelf, .annShelveMinutes, .annSilence, .annHornClass, .annShelfDue, .genTickCount,
   .genSeconds, .genFrameMarker, .genPhase, .genPhaseTicks, .genFlash, .genWaitingFlash, .genMode,
   .genSettling, .genSettleCount, .genTestTimer, .genPatterns, .genDirty, .genLastWord,
   .genServedChanged, .genModeOwed, .genWakeRequests, .genTickWork, .chainsA, .chainsB, .chainsC,
   .chainsD, .chainsFails, .chainsFaultCount, .panelHeld, .panelPressCount, .panelReleaseCount,
   .panelPresses, .panelCommand, .panelDigits, .panelSelected, .panelError, .panelLock,
   .panelTestOn, .panelSilenceOn, .panelDimOn, .panelShown, .eventsOperand, .eventsQueue,
   .eventsHead, .eventsTail, .eventsRingHeld, .eventsLost, .eventsSweepDiscards, .eventsInProgress,
   .eventsK18Owed, .eventsCopies, .eventsOwed19, .eventsOwed20, .eventsOwed21, .eventsOwed22,
   .cards]

/-- Every part but some. -/
def partsBut (keeps : List Part) : List Part := everyPart.filter (fun p => !keeps.contains p)

theorem changes_partsBut {keeps : List Part} {s t : State} (h : ∀ p ∈ keeps, p.same s t) :
    Changes (partsBut keeps) s t := by
  intro p hp
  refine h p ?_
  by_contra hn
  refine hp (List.mem_filter.mpr ⟨by cases p <;> decide, ?_⟩)
  simpa using hn

/-- The parts a command's effect may change. -/
def effectParts (c : Instr) : List Part :=
  match c with
  | .frontEndWrite _ _ _ => accessParts
  | .frontEndRead _ => accessParts
  | .heldAccessTaken => accessParts
  | .heldWriteRelease => accessParts
  | .boardReset => partsBut boardResetKeeps
  | .boardResetEnd _ => [.pathInReset, .pathBase, .pathRequests]
  | .hostReset => [.pathAccess, .pathHostReset]
  | .hostResetRelease => [.pathHostReset]
  | .partAccessGrant => grantParts
  | .captureRereadDone => [.pathPartAccess, .ram] ++ [.pathCapture]
  | .k0ReadDone => [.pathPartAccess, .ram] ++ sweepParts
  | .generationRead => [.pathPartAccess, .ram] ++ ([.loaderGeneration] ++ passParts)
  | .cardCountRead => [.pathPartAccess, .ram] ++ (countParts ++ passParts)
  | .flashShelveRead => [.pathPartAccess, .ram] ++ ([.genWaitingFlash, .annShelveMinutes] ++ passParts)
  | .boardFaultLampRead => [.pathPartAccess, .ram] ++ (settingParts ++ passParts)
  | .ringValuesRead => [.pathPartAccess, .ram]
    ++ ([.eventsHead, .eventsTail, .eventsLost, .eventsSweepDiscards, .eventsRingHeld, .eventsK18Owed] ++ passParts)
  | .groupSettingsRead => [.pathPartAccess, .ram] ++ ((.annHornClass :: settingParts) ++ passParts)
  | .groupLampRead => [.pathPartAccess, .ram] ++ ((.annHornClass :: settingParts) ++ passParts)
  | .entryReadDone => [.pathPartAccess, .ram] ++ loaderParts
  | .sourceReadDone => [.pathPartAccess, .ram] ++ [.loaderReload, .evaluatorFirstValue]
  | .imageWriteDone => [.pathPartAccess, .ram] ++ [.genLastWord, .genDirty]
  | .ringWordWriteDone => [.pathPartAccess, .ram] ++ [.eventsInProgress]
  | .headWriteDone => [.pathPartAccess, .ram] ++ [.eventsHead, .eventsQueue, .eventsInProgress]
  | .statusWriteDone => [.pathPartAccess, .ram] ++ []
  | .k18WriteDone => [.pathPartAccess, .ram] ++ []
  | .signatureWrite => .pathCapture :: (partsBut deconfigureKeeps ++ sweepParts)
  | .generationWrite => .pathCapture :: [.loaderGeneration, .loaderPass, .loaderPendingPoints, .loaderCfg]
  | .modeRequest => .pathCapture :: modeParts
  | .panelLockWrite => .pathCapture :: [.panelLock]
  | .remoteOperandWrite => .pathCapture :: [.eventsOperand]
  | .remoteAck => .pathCapture :: operationParts
  | .remoteClear => .pathCapture :: operationParts
  | .remoteSilence => .pathCapture :: ([.annSilence, .annHornClass] ++ eventParts)
  | .remoteTest => .pathCapture :: (.genTestTimer :: eventParts)
  | .remoteGroup => .pathCapture :: eventParts
  | .remoteShelve => .pathCapture :: operationParts
  | .remoteDim => .pathCapture :: modeParts
  | .remoteUnknownCommand => .pathCapture :: eventParts
  | .tailWrite => .pathCapture :: [.eventsTail, .pathRequests]
  | .lostCountWrite => .pathCapture :: [.eventsLost, .eventsK18Owed]
  | .controlWordWrite => .pathCapture :: [.loaderPendingPoints]
  | .groupEnableWrite => .pathCapture :: [.loaderGroups, .annHornClass]
  | .summaryLampWrite => .pathCapture :: settingParts
  | .staleLampWrite => .pathCapture :: settingParts
  | .groupAckRequest => .pathCapture :: operationParts
  | .groupClearRequest => .pathCapture :: reportParts
  | .firstValue => firstValueParts
  | .sourceItemEvaluation _ => [.pathCapture, .evaluatorItem] ++ pointParts
  | .tick _ _ _ => [.genTickCount, .genFrameMarker, .genPhaseTicks, .genSettleCount, .genTestTimer,
      .genTickWork, .panelHeld, .panelPressCount, .panelReleaseCount, .panelPresses, .panelShown]
  | .phaseBoundary => tickParts
  | .settleEnd => tickParts
  | .lampTestEnd => tickParts
  | .frameSlot => tickParts
  | .boardSecond => tickParts
  | .keyRelease => tickParts
  | .becomesStale _ => pointParts
  | .travelTimerExpiry _ => pointParts
  | .shelfExpiry => operationParts
  | .wakeByAlarm => .genWakeRequests :: modeParts
  | .exchangeEnd _ _ _ _ => exchangeParts
  | .dataKey => pressParts ++ refusalParts
  | .ackKey => pressParts ++ [.panelCommand, .panelDigits]
  | .clearKey => pressParts ++ [.panelCommand, .panelDigits]
  | .groupKey => pressParts ++ [.panelCommand, .panelDigits]
  | .shelveKey => pressParts ++ [.panelCommand, .panelDigits]
  | .silenceKey => pressParts ++ ([.annSilence, .annHornClass] ++ eventParts)
  | .testKey => pressParts ++ (.genTestTimer :: eventParts)
  | .dimKey => pressParts ++ modeParts
  | .enterNoCommand => pressParts ++ enterParts
  | .enterAck => pressParts ++ enterParts
  | .enterClear => pressParts ++ enterParts
  | .enterGroup => pressParts ++ enterParts
  | .enterShelve => pressParts ++ enterParts

theorem holdGeneration_changes (w : Word) (s : State) :
    Changes [.loaderGeneration] s (holdGeneration w s) := by
  intro p hp
  cases p <;> first | rfl | exact absurd (by decide) hp

theorem takeSignature_changes (w : Word) (s : State) :
    Changes (partsBut deconfigureKeeps ++ sweepParts) s (takeSignature w s) := by
  unfold takeSignature
  refine Changes.ite (Changes.ite (.refl _ _) ?_) (Changes.ite ?_ (.refl _ _))
  · exact fun p hp => changes_partsBut (fun p hp => deconfigure_keeps s p hp) p
      (fun h => hp (List.mem_append_left _ h))
  · exact fun p hp => beginSweep_changes s p (fun h => hp (List.mem_append_right _ h))

theorem effect_changes (c : Instr) (s : State) :
    Changes (effectParts c) s (effect c s) := by
  cases c with
  | frontEndWrite _ _ _ => exact beginAccess_changes _ _ s
  | frontEndRead _ => exact beginAccess_changes _ _ s
  | heldAccessTaken => exact takeHeld_changes s
  | heldWriteRelease => exact releaseHeld_changes s
  | boardReset => exact changes_partsBut (fun p hp => boardReset_keeps s p hp)
  | boardResetEnd _ => exact endBoardReset_changes _ s
  | hostReset => intro p hp; cases p <;> first | rfl | exact absurd (by decide) hp
  | hostResetRelease => intro p hp; cases p <;> first | rfl | exact absurd (by decide) hp
  | partAccessGrant => exact .ite (serveHighest_changes s) (.refl _ _)
  | captureRereadDone => exact complete_changes _ (fun _ _ s => rereadDone_changes _ s) s
  | k0ReadDone => exact complete_changes _ (fun _ _ s => judgeK0_changes _ s) s
  | generationRead =>
    exact complete_changes _ (passRead_changes (fun _ _ s => holdGeneration_changes _ s)) s
  | cardCountRead =>
    exact complete_changes _ (passRead_changes (fun _ _ s => countsRead_changes _ _ s)) s
  | flashShelveRead =>
    exact complete_changes _ (passRead_changes (fun _ _ s => takeFlashShelve_changes _ s)) s
  | boardFaultLampRead =>
    exact complete_changes _ (passRead_changes (fun _ _ s => judgeSetting_changes _ _ s)) s
  | ringValuesRead =>
    exact complete_changes _ (passRead_changes (fun _ _ s => takeRingValue_changes _ _ s)) s
  | groupSettingsRead =>
    exact complete_changes _ (passRead_changes (fun _ _ s => groupRead_changes _ _ s)) s
  | groupLampRead =>
    exact complete_changes _ (passRead_changes (fun _ _ s => groupRead_changes _ _ s)) s
  | entryReadDone => exact complete_changes _ (fun _ _ s => takeEntryWord_changes _ s) s
  | sourceReadDone => exact complete_changes _ (fun _ _ s => takeSourceWord_changes _ s) s
  | imageWriteDone => exact complete_changes _ (fun _ _ s => imageDone_changes _ s) s
  | ringWordWriteDone => exact complete_changes _ (fun _ _ s => ringWordDone_changes s) s
  | headWriteDone => exact complete_changes _ (fun _ _ s => headDone_changes s) s
  | statusWriteDone => exact complete_changes _ (fun _ _ s => .refl _ s) s
  | k18WriteDone => exact complete_changes _ (fun _ _ s => .refl _ s) s
  | signatureWrite => exact handOn_changes _ (fun _ _ s => takeSignature_changes _ s) s
  | generationWrite => exact handOn_changes _ (fun _ _ s => takeGeneration_changes _ s) s
  | modeRequest => exact handOn_changes _ (fun _ _ s => requestMode_changes _ s) s
  | panelLockWrite =>
    exact handOn_changes _ (fun _ _ s => by
    intro p hp; cases p <;> first | rfl | exact absurd (by decide) hp) s
  | remoteOperandWrite =>
    exact handOn_changes _ (fun _ _ s => by
    intro p hp; cases p <;> first | rfl | exact absurd (by decide) hp) s
  | remoteAck => exact handOn_changes _ (fun _ _ s => remoteScoped_changes _ acknowledge_changes s) s
  | remoteClear =>
    exact handOn_changes _ (fun _ _ s => remoteScoped_changes _ (fun x o s => (clear_changes x o s).mono) s) s
  | remoteSilence =>
    exact handOn_changes _ (fun _ _ s => (silence_changes s).then (remoteDone_changes _ _)) s
  | remoteTest =>
    exact handOn_changes _ (fun _ _ s => (requestTest_changes s).then (remoteDone_changes _ _)) s
  | remoteGroup => exact handOn_changes _ (fun _ _ s => remoteError_changes _ _ s) s
  | remoteShelve => exact handOn_changes _ (fun _ _ s => remoteShelve_changes s) s
  | remoteDim =>
    exact handOn_changes _ (fun _ _ s => (requestDim_changes _ _ s).then (remoteDone_changes _ _)) s
  | remoteUnknownCommand => exact handOn_changes _ (fun _ _ s => remoteError_changes _ _ s) s
  | tailWrite => exact handOn_changes _ (fun _ _ s => takeTail_changes _ s) s
  | lostCountWrite =>
    exact handOn_changes _ (fun _ _ s => by
    intro p hp; cases p <;> first | rfl | exact absurd (by decide) hp) s
  | controlWordWrite => exact handOn_changes _ (fun _ _ s => takeControlWord_changes _ s) s
  | groupEnableWrite => exact handOn_changes _ (fun _ _ s => takeEnables_changes _ _ s) s
  | summaryLampWrite => exact handOn_changes _ (fun _ _ s => takeGroupLamp_changes _ _ _ s) s
  | staleLampWrite => exact handOn_changes _ (fun _ _ s => takeGroupLamp_changes _ _ _ s) s
  | groupAckRequest => exact handOn_changes _ (fun _ _ s => acknowledge_changes _ _ s) s
  | groupClearRequest => exact handOn_changes _ (fun _ _ s => clear_changes _ _ s) s
  | firstValue => exact takeFirstValue_changes s
  | sourceItemEvaluation _ => exact (takeSourceItem_changes s).then (evaluateItem_changes _ _)
  | tick _ _ _ => exact countTick_changes _ s
  | phaseBoundary => exact runThrough_changes _ s
  | settleEnd => exact runThrough_changes _ s
  | lampTestEnd => exact runThrough_changes _ s
  | frameSlot => exact runThrough_changes _ s
  | boardSecond => exact runThrough_changes _ s
  | keyRelease => exact runThrough_changes _ s
  | becomesStale _ => exact .ite (secondAt_changes _ s) (.refl _ _)
  | travelTimerExpiry _ => exact .ite (secondAt_changes _ s) (.refl _ _)
  | shelfExpiry => exact .ite (shelfSecond_changes s) (.refl _ _)
  | wakeByAlarm => exact takeWakeRequest_changes s
  | exchangeEnd _ _ _ _ => exact endExchange_changes _ _ _ _ s
  | dataKey => exact onPress_changes _ (fun _ s => dataKey_changes _ s) s
  | ackKey => exact onPress_changes _ (fun _ s => pendCommand_changes _ s) s
  | clearKey => exact onPress_changes _ (fun _ s => pendCommand_changes _ s) s
  | groupKey => exact onPress_changes _ (fun _ s => pendCommand_changes _ s) s
  | shelveKey => exact onPress_changes _ (fun _ s => pendCommand_changes _ s) s
  | silenceKey =>
    exact onPress_changes _ (fun _ s => (silence_changes s).then (reportPress_changes _ _ _)) s
  | testKey =>
    exact onPress_changes _ (fun _ s => (requestTest_changes s).then (reportPress_changes _ _ _)) s
  | dimKey =>
    exact onPress_changes _ (fun _ s => (requestDim_changes _ _ s).then (reportPress_changes _ _ _)) s
  | enterNoCommand => exact onEnter_changes _ (fun s => (refusePress_changes _ _ s).mono) s
  | enterAck => exact onEnter_changes _ (fun s => enterScope_changes _ acknowledge_changes s) s
  | enterClear =>
    exact onEnter_changes _ (fun s => enterScope_changes _ (fun x o s => (clear_changes x o s).mono) s) s
  | enterGroup => exact onEnter_changes _ (fun s => enterGroup_changes s) s
  | enterShelve => exact onEnter_changes _ (fun s => enterShelve_changes s) s

/-- A part outside those of a command, of the tick's work and of the settling is the same after it. -/
theorem exec_keeps (p : Part) {c : Instr} {s t : State} (h : exec c s = .next t)
    (hp : (tickParts ++ effectParts c ++ settleParts).contains p = false := by rfl) : p.same s t := by
  have hp : p ∉ tickParts ++ effectParts c ++ settleParts := by simpa using hp
  simp only [List.mem_append, not_or] at hp
  rw [exec_next h]
  have start : p ∉ tickParts ++ settleParts := by
    simp only [List.mem_append, not_or]
    exact ⟨hp.1.1, hp.2⟩
  exact ((startOf_changes c s p start).trans (effect_changes c _ p hp.1.2)).trans
    (settle_changes _ p hp.2)

/-- A command completes with its settled effect, but for an access posted while another is held. -/
theorem exec_effect (c : Instr) (s : State)
    (h : s.path.access = none
      ∨ (∀ a w l, c ≠ .frontEndWrite a w l) ∧ ∀ a, c ≠ .frontEndRead a) :
    exec c s = .next (settle (effect c (startOf c s))) := by
  cases c <;> try rfl
  · rcases h with h | h
    · show postAccess _ _ s = _
      unfold postAccess
      rw [h]
      rfl
    · exact absurd rfl (h.1 _ _ _)
  · rcases h with h | h
    · show postAccess _ _ s = _
      unfold postAccess
      rw [h]
      rfl
    · exact absurd rfl (h.2 _)

end Sys2Proof.Machine
end

