-- ==== Sys2Proof/Laws/Tables.lean ====
section
/-! SUPPORT. Sparse tables and RAM: what is read back after each update, and that the canonical form is kept. -/

set_option Elab.async false

namespace Sys2Proof

variable {α : Type}

theorem Table.look_put_same (t : Table α) (i : Nat) (v : α) : (t.put i v).look i = some v := by
  induction t with
  | nil => simp [Table.put, Table.look]
  | cons e t ih =>
    obtain ⟨k, w⟩ := e
    unfold Table.put
    split_ifs with h1 h2
    · simp [Table.look]
    · simp [Table.look]
    · have : k ≠ i := fun h => h2 h.symm
      simp [Table.look, this, ih]

theorem Table.look_put_other (t : Table α) {i j : Nat} (v : α) (h : j ≠ i) :
    (t.put i v).look j = t.look j := by
  induction t with
  | nil => simp [Table.put, Table.look, h.symm]
  | cons e t ih =>
    obtain ⟨k, w⟩ := e
    unfold Table.put
    split_ifs with h1 h2
    · simp [Table.look, h.symm]
    · subst h2
      simp [Table.look, h.symm]
    · simp [Table.look, ih]

theorem Table.look_del_same (t : Table α) (i : Nat) : (t.del i).look i = none := by
  induction t with
  | nil => rfl
  | cons e t ih =>
    obtain ⟨k, w⟩ := e
    by_cases h : k = i
    · subst h; simpa [Table.del] using ih
    · have : Table.del ((k, w) :: t) i = (k, w) :: Table.del t i := by simp [Table.del, h]
      rw [this]
      simp [Table.look, h, ih]

theorem Table.look_del_other (t : Table α) {i j : Nat} (h : j ≠ i) : (t.del i).look j = t.look j := by
  induction t with
  | nil => rfl
  | cons e t ih =>
    obtain ⟨k, w⟩ := e
    by_cases hk : k = i
    · subst hk
      have : Table.del ((k, w) :: t) k = Table.del t k := by simp [Table.del]
      rw [this, ih]
      simp [Table.look, h.symm]
    · have : Table.del ((k, w) :: t) i = (k, w) :: Table.del t i := by simp [Table.del, hk]
      rw [this]
      simp [Table.look, ih]

theorem Table.val_assign_same [DecidableEq α] (t : Table α) (d v : α) (i : Nat) :
    (t.assign d i v).val d i = v := by
  unfold Table.assign Table.val
  split_ifs with h
  · rw [Table.look_del_same, h]; rfl
  · rw [Table.look_put_same]; rfl

theorem Table.val_assign_other [DecidableEq α] (t : Table α) (d v : α) {i j : Nat} (h : j ≠ i) :
    (t.assign d i v).val d j = t.val d j := by
  unfold Table.assign Table.val
  split_ifs
  · rw [Table.look_del_other t h]
  · rw [Table.look_put_other t v h]

/-! ## The canonical form -/

/-- Every key of a table is above a number. -/
def Table.above (t : Table α) (k : Nat) : Prop := ∀ e ∈ t, k < e.1

theorem Table.sorted_cons (k : Nat) (v : α) (t : Table α) :
    Table.sorted ((k, v) :: t) = true ↔ t.above k ∧ t.sorted = true := by
  induction t generalizing k v with
  | nil => simp [Table.sorted, Table.above]
  | cons e t ih =>
    obtain ⟨l, w⟩ := e
    have := ih l w
    simp only [Table.sorted, Bool.and_eq_true, decide_eq_true_eq]
    constructor
    · rintro ⟨h, hs⟩
      refine ⟨?_, hs⟩
      intro e he
      rcases List.mem_cons.mp he with rfl | he
      · exact h
      · exact lt_trans h ((this.mp hs).1 e he)
    · rintro ⟨h, hs⟩
      exact ⟨h (l, w) (by simp), hs⟩

theorem Table.mem_put {t : Table α} {i : Nat} {v : α} {e : Nat × α} (h : e ∈ t.put i v) :
    e = (i, v) ∨ e ∈ t := by
  induction t with
  | nil => exact Or.inl (by simpa [Table.put] using h)
  | cons x t ih =>
    obtain ⟨k, w⟩ := x
    unfold Table.put at h
    split_ifs at h with h1 h2
    · simpa using h
    · rcases List.mem_cons.mp h with h | h
      · exact Or.inl h
      · exact Or.inr (List.mem_cons_of_mem _ h)
    · rcases List.mem_cons.mp h with h | h
      · exact Or.inr (by simp [h])
      · rcases ih h with h | h
        · exact Or.inl h
        · exact Or.inr (List.mem_cons_of_mem _ h)

theorem Table.sorted_put {t : Table α} (i : Nat) (v : α) (h : t.sorted = true) :
    (t.put i v).sorted = true := by
  induction t with
  | nil => rfl
  | cons x t ih =>
    obtain ⟨k, w⟩ := x
    obtain ⟨ha, hs⟩ := (Table.sorted_cons k w t).mp h
    unfold Table.put
    split_ifs with h1 h2
    · refine (Table.sorted_cons _ _ _).mpr ⟨?_, h⟩
      intro e he
      rcases List.mem_cons.mp he with rfl | he
      · exact h1
      · exact lt_trans h1 (ha e he)
    · subst h2
      exact (Table.sorted_cons _ _ _).mpr ⟨ha, hs⟩
    · refine (Table.sorted_cons _ _ _).mpr ⟨?_, ih hs⟩
      intro e he
      rcases Table.mem_put he with rfl | he
      · exact lt_of_le_of_ne (not_lt.mp h1) (fun h => h2 h.symm)
      · exact ha e he

theorem Table.sorted_del {t : Table α} (i : Nat) (h : t.sorted = true) : (t.del i).sorted = true := by
  induction t with
  | nil => rfl
  | cons x t ih =>
    obtain ⟨k, w⟩ := x
    obtain ⟨ha, hs⟩ := (Table.sorted_cons k w t).mp h
    by_cases hk : k = i
    · have : Table.del ((k, w) :: t) i = Table.del t i := by simp [Table.del, hk]
      rw [this]
      exact ih hs
    · have : Table.del ((k, w) :: t) i = (k, w) :: Table.del t i := by simp [Table.del, hk]
      rw [this]
      exact (Table.sorted_cons _ _ _).mpr
        ⟨fun e he => ha e (List.mem_of_mem_filter he), ih hs⟩

theorem Table.canonical_iff [DecidableEq α] (t : Table α) (d : α) :
    t.canonical d = true ↔ t.sorted = true ∧ ∀ e ∈ t, e.2 ≠ d := by
  simp [Table.canonical]

theorem Table.canonical_assign [DecidableEq α] {t : Table α} {d : α} (i : Nat) (v : α)
    (h : t.canonical d = true) : (t.assign d i v).canonical d = true := by
  obtain ⟨hs, hd⟩ := (Table.canonical_iff t d).mp h
  unfold Table.assign
  split_ifs with hv
  · exact (Table.canonical_iff _ _).mpr
      ⟨Table.sorted_del i hs, fun e he => hd e (List.mem_of_mem_filter he)⟩
  · refine (Table.canonical_iff _ _).mpr ⟨Table.sorted_put i v hs, fun e he => ?_⟩
    rcases Table.mem_put he with rfl | he
    · exact hv
    · exact hd e he

/-! ## Counting entries of one value -/

theorem Table.look_above {t : Table α} {i : Nat} (h : t.above i) : t.look i = none := by
  induction t with
  | nil => rfl
  | cons e t ih =>
    obtain ⟨k, w⟩ := e
    have hk : i < k := h (k, w) (by simp)
    simp only [Table.look, if_neg (Nat.ne_of_gt hk)]
    exact ih (fun e he => h e (List.mem_cons_of_mem _ he))

theorem Table.del_above {t : Table α} {i : Nat} (h : t.above i) : t.del i = t := by
  refine List.filter_eq_self.mpr (fun e he => ?_)
  have := h e he
  simp only [bne_iff_ne]
  omega

/-- How many entries have a value. -/
def Table.count [DecidableEq α] (t : Table α) (x : α) : Nat := (t.filter (fun e => e.2 == x)).length

theorem Table.count_cons [DecidableEq α] (k : Nat) (w : α) (t : Table α) (x : α) :
    Table.count ((k, w) :: t) x = Table.count t x + if w = x then 1 else 0 := by
  unfold Table.count
  by_cases h : w = x <;> simp [h]

theorem Table.count_del [DecidableEq α] {t : Table α} (i : Nat) (x : α) (h : t.sorted = true) :
    (t.del i).count x + (if t.look i = some x then 1 else 0) = t.count x := by
  induction t with
  | nil => rfl
  | cons e t ih =>
    obtain ⟨k, w⟩ := e
    obtain ⟨ha, hs⟩ := (Table.sorted_cons k w t).mp h
    by_cases hk : k = i
    · subst hk
      have e1 : Table.del ((k, w) :: t) k = t := by
        rw [← Table.del_above ha]
        simp [Table.del]
      rw [e1, Table.count_cons]
      simp [Table.look]
    · have e1 : Table.del ((k, w) :: t) i = (k, w) :: Table.del t i := by simp [Table.del, hk]
      rw [e1, Table.count_cons, Table.count_cons, ← ih hs]
      simp only [Table.look, if_neg hk]
      omega

theorem Table.count_put [DecidableEq α] {t : Table α} (i : Nat) (v x : α) (h : t.sorted = true) :
    (t.put i v).count x + (if t.look i = some x then 1 else 0)
      = t.count x + (if v = x then 1 else 0) := by
  induction t with
  | nil => rw [Table.put, Table.count_cons]; simp [Table.look]
  | cons e t ih =>
    obtain ⟨k, w⟩ := e
    obtain ⟨ha, hs⟩ := (Table.sorted_cons k w t).mp h
    rcases Nat.lt_trichotomy i k with h1 | h2 | h1
    · have ep : Table.put ((k, w) :: t) i v = (i, v) :: (k, w) :: t := by simp [Table.put, h1]
      rw [ep]
      have hl : Table.look ((k, w) :: t) i = none := Table.look_above (fun e he => by
        rcases List.mem_cons.mp he with rfl | he
        · exact h1
        · exact lt_trans h1 (ha e he))
      rw [Table.count_cons, hl]
      simp
    · subst h2
      have ep : Table.put ((i, w) :: t) i v = (i, v) :: t := by simp [Table.put]
      rw [ep, Table.count_cons, Table.count_cons]
      simp only [Table.look, if_pos, Option.some.injEq]
      omega
    · have hk : k ≠ i := Nat.ne_of_lt h1
      have ep : Table.put ((k, w) :: t) i v = (k, w) :: Table.put t i v := by
        simp [Table.put, Nat.lt_asymm h1, hk.symm]
      rw [ep, Table.count_cons, Table.count_cons]
      simp only [Table.look, if_neg hk]
      have := ih hs
      omega

/-- Setting an entry moves the count of a listed value by the old and the new entry. -/
theorem Table.count_assign [DecidableEq α] {t : Table α} {d : α} (i : Nat) (v x : α) (hx : x ≠ d)
    (h : t.canonical d = true) :
    (t.assign d i v).count x + (if t.val d i = x then 1 else 0)
      = t.count x + (if v = x then 1 else 0) := by
  obtain ⟨hs, -⟩ := (Table.canonical_iff t d).mp h
  have e : (if t.val d i = x then 1 else 0) = (if t.look i = some x then 1 else 0) := by
    unfold Table.val
    cases hl : t.look i with
    | none => simp [hx.symm]
    | some y => simp
  rw [e]
  unfold Table.assign
  by_cases hv : v = d
  · rw [if_pos hv, Table.count_del i x hs, if_neg (fun e => hx (e.symm.trans hv)), Nat.add_zero]
  · rw [if_neg hv]
    exact Table.count_put i v x hs

/-! ## RAM -/

namespace Machine

theorem Memory.readByte_writeByte_same (m : Memory) (k : Nat) (b : Byte) :
    (m.writeByte k b).readByte k = b := Table.val_assign_same _ _ _ _

theorem Memory.readByte_writeByte_other (m : Memory) {k j : Nat} (b : Byte) (h : j ≠ k) :
    (m.writeByte k b).readByte j = m.readByte j := Table.val_assign_other _ _ _ h

theorem Memory.wf_writeByte {m : Memory} (k : Nat) (b : Byte) (h : m.wf = true) :
    (m.writeByte k b).wf = true := Table.canonical_assign _ _ h

theorem Memory.wf_writeLanes {m : Memory} (a : Addr) (w : Word) (l : BitVec 2) (h : m.wf = true) :
    (m.writeLanes a w l).wf = true := by
  unfold Memory.writeLanes
  dsimp only
  split_ifs
  · exact Memory.wf_writeByte _ _ (Memory.wf_writeByte _ _ h)
  · exact Memory.wf_writeByte _ _ h
  · exact Memory.wf_writeByte _ _ h
  · exact h

/-- A byte outside the enabled lanes of the word reads as before. -/
theorem Memory.readByte_writeLanes_other (m : Memory) (a : Addr) (w : Word) (l : BitVec 2) {k : Nat}
    (h0 : k = cellOf a 0 → l.getLsbD 0 = false) (h1 : k = cellOf a 1 → l.getLsbD 1 = false) :
    (m.writeLanes a w l).readByte k = m.readByte k := by
  unfold Memory.writeLanes
  dsimp only
  split_ifs with e1 e0 e0
  · rw [Memory.readByte_writeByte_other, Memory.readByte_writeByte_other]
    · exact fun h => absurd e0 (ne_true_of_eq_false (h0 h))
    · exact fun h => absurd e1 (ne_true_of_eq_false (h1 h))
  · rw [Memory.readByte_writeByte_other]
    exact fun h => absurd e1 (ne_true_of_eq_false (h1 h))
  · rw [Memory.readByte_writeByte_other]
    exact fun h => absurd e0 (ne_true_of_eq_false (h0 h))
  · rfl

theorem cellOf_lanes_ne (a : Addr) : cellOf a 0 ≠ cellOf a 1 := by
  unfold cellOf; omega

/-- A word written on both lanes reads back. -/
theorem Memory.readWord_writeLanes (m : Memory) (a : Addr) (w : Word) :
    (m.writeLanes a w bothLanes).readWord a = w := by
  have e0 : bothLanes.getLsbD 0 = true := rfl
  have e1 : bothLanes.getLsbD 1 = true := rfl
  unfold Memory.readWord Memory.writeLanes
  dsimp only
  rw [if_pos e0, if_pos e1, Memory.readByte_writeByte_same,
    Memory.readByte_writeByte_other _ _ (cellOf_lanes_ne a), Memory.readByte_writeByte_same]
  ext i hi
  simp only [BitVec.getElem_append, BitVec.getElem_extractLsb']
  split <;> simp [← BitVec.getLsbD_eq_getElem] <;> congr 1 <;> omega

/-- A word at another address reads as before. -/
theorem Memory.readWord_writeLanes_other (m : Memory) {a b : Addr} (w : Word) (l : BitVec 2)
    (h : b ≠ a) : (m.writeLanes a w l).readWord b = m.readWord b := by
  have hn : b.toNat ≠ a.toNat := fun e => h (BitVec.eq_of_toNat_eq e)
  unfold Memory.readWord
  rw [Memory.readByte_writeLanes_other, Memory.readByte_writeLanes_other]
  all_goals
    intro e
    unfold cellOf at e
    omega

end Machine

end Sys2Proof
end

