-- ==== Sys2Proof/Laws/Keeps.lean ====
section
/-! SUPPORT. What every operation keeps: RAM canonical, queues and counts in their bounds, modes, chains and panel legal. -/

set_option Elab.async false

namespace Sys2Proof.Machine

/-- The invariant's parts that need no word about the resets. -/
structure State.Sound (s : State) : Prop where
  memory : s.ram.wf = true
  capture : s.path.capture.length ≤ 64
  queue : s.events.queue.length ≤ 32
  lost : s.events.lost ≤ 65535
  discards : s.events.sweepDiscards ≤ 65535
  shelf : s.ann.shelf.length ≤ 32
  gen : s.gen.legal
  chains : s.chains.legal
  faults : s.chains.faultsCounted
  panel : s.panel.legal
  pendingOnce : s.loader.pendingPoints.Nodup
  values : s.evaluator.values.sorted = true
  records : s.ann.records.sorted = true
  dirty : s.gen.dirty.Pairwise (· < ·)

/-- A state that is sound passes it on to another. -/
abbrev Keeps (s t : State) : Prop := s.Sound → t.Sound

theorem Keeps.refl (s : State) : Keeps s s := id

theorem Keeps.trans {s t u : State} (h : Keeps s t) (h' : Keeps t u) : Keeps s u := h' ∘ h

theorem Keeps.after {s t u : State} (h' : Keeps t u) (h : Keeps s t) : Keeps s u := h' ∘ h

theorem Keeps.ite {c : Prop} {_ : Decidable c} {s t u : State} (h : Keeps s t) (h' : Keeps s u) :
    Keeps s (if c then t else u) := by
  split
  · exact h
  · exact h'

theorem Keeps.foldl {α : Type} {f : State → α → State} (h : ∀ s x, Keeps s (f s x)) (xs : List α)
    (s : State) : Keeps s (xs.foldl f s) := by
  induction xs generalizing s with
  | nil => exact Keeps.refl s
  | cons x xs ih => exact (h s x).trans (ih (f s x))

/-- The parts that soundness speaks of. -/
def soundParts : List Part :=
  [.ram, .pathCapture, .eventsQueue, .eventsLost, .eventsSweepDiscards, .annShelf, .genSettling,
   .genMode, .genSettleCount, .genTestTimer, .genPhaseTicks, .genFlash, .genDirty, .chainsA, .chainsB,
   .chainsC, .chainsD, .chainsFails, .chainsFaultCount, .panelDigits, .panelCommand, .panelSelected,
   .panelError, .panelPressCount, .panelReleaseCount, .loaderPendingPoints, .evaluatorValues,
   .annRecords]

/-- An operation that changes none of those parts keeps a state sound. -/
theorem Keeps.of_changes {l : List Part} {s t : State} (h : Changes l s t)
    (hl : soundParts.all (fun p => !l.contains p) = true := by rfl) : Keeps s t := by
  have same : ∀ p ∈ soundParts, p.same s t := fun p hp => h p (fun hpl => by
    simpa [hpl] using List.all_eq_true.mp hl p hp)
  have ram : t.ram = s.ram := same .ram (by decide)
  have capture : t.path.capture = s.path.capture := same .pathCapture (by decide)
  have queue : t.events.queue = s.events.queue := same .eventsQueue (by decide)
  have lost : t.events.lost = s.events.lost := same .eventsLost (by decide)
  have discards : t.events.sweepDiscards = s.events.sweepDiscards := same .eventsSweepDiscards (by decide)
  have shelf : t.ann.shelf = s.ann.shelf := same .annShelf (by decide)
  have settling : t.gen.settling = s.gen.settling := same .genSettling (by decide)
  have mode : t.gen.mode = s.gen.mode := same .genMode (by decide)
  have count : t.gen.settleCount = s.gen.settleCount := same .genSettleCount (by decide)
  have timer : t.gen.testTimer = s.gen.testTimer := same .genTestTimer (by decide)
  have ticks : t.gen.phaseTicks = s.gen.phaseTicks := same .genPhaseTicks (by decide)
  have flash : t.gen.flash = s.gen.flash := same .genFlash (by decide)
  have dirty : t.gen.dirty = s.gen.dirty := same .genDirty (by decide)
  have a : t.chains.a = s.chains.a := same .chainsA (by decide)
  have b : t.chains.b = s.chains.b := same .chainsB (by decide)
  have c : t.chains.c = s.chains.c := same .chainsC (by decide)
  have d : t.chains.d = s.chains.d := same .chainsD (by decide)
  have fails : t.chains.fails = s.chains.fails := same .chainsFails (by decide)
  have faultCount : t.chains.faultCount = s.chains.faultCount := same .chainsFaultCount (by decide)
  have digits : t.panel.digits = s.panel.digits := same .panelDigits (by decide)
  have command : t.panel.command = s.panel.command := same .panelCommand (by decide)
  have selected : t.panel.selected = s.panel.selected := same .panelSelected (by decide)
  have error : t.panel.error = s.panel.error := same .panelError (by decide)
  have press : t.panel.pressCount = s.panel.pressCount := same .panelPressCount (by decide)
  have release : t.panel.releaseCount = s.panel.releaseCount := same .panelReleaseCount (by decide)
  have points : t.loader.pendingPoints = s.loader.pendingPoints := same .loaderPendingPoints (by decide)
  have values : t.evaluator.values = s.evaluator.values := same .evaluatorValues (by decide)
  have records : t.ann.records = s.ann.records := same .annRecords (by decide)
  intro h
  refine ⟨ram ▸ h.memory, capture ▸ h.capture, queue ▸ h.queue, lost ▸ h.lost, discards ▸ h.discards,
    shelf ▸ h.shelf, ?_, ?_, ?_, ?_, points ▸ h.pendingOnce, values ▸ h.values,
    records ▸ h.records, dirty ▸ h.dirty⟩
  · have := h.gen
    unfold PatternGen.legal at this ⊢
    rw [settling, mode, count, timer, ticks, flash]
    exact this
  · have := h.chains
    unfold Chains.legal at this ⊢
    rw [a, b, c, d, fails]
    exact this
  · have := h.faults
    unfold Chains.faultsCounted at this ⊢
    rw [fails, faultCount]
    exact this
  · have := h.panel
    unfold Panel.legal at this ⊢
    rw [digits, command, selected, error, press, release]
    exact this

/-! ## Events and the lamp image -/

theorem record_keeps (k : EventKind) (o : Origin) (a d : Nat) (s : State) :
    Keeps s (record k o a d s) := by
  intro h
  unfold record
  split_ifs
  · have e : ∀ r, (s.events.take r).queue.length ≤ 32 ∧ (s.events.take r).lost ≤ 65535
        ∧ (s.events.take r).sweepDiscards ≤ 65535 := by
      intro r
      have := h.queue
      have := h.lost
      have := h.discards
      unfold EventUnit.take
      rw [Config.queueDepth]
      split_ifs with h1 h2 h3 <;> try simp only [List.length_append, List.length_singleton]
      all_goals omega
    exact { h with queue := (e _).1, lost := (e _).2.1, discards := (e _).2.2 }
  · exact h

theorem insertNat_mem {i j : Nat} {l : List Nat} : j ∈ insertNat i l ↔ j = i ∨ j ∈ l := by
  induction l with
  | nil => simp [insertNat]
  | cons k t ih =>
    unfold insertNat
    split_ifs with h1 h2
    · simp
    · subst h2; simp
    · simp only [List.mem_cons, ih]; tauto

theorem insertNat_rising {i : Nat} {l : List Nat} (h : l.Pairwise (· < ·)) :
    (insertNat i l).Pairwise (· < ·) := by
  induction l with
  | nil => simp [insertNat]
  | cons k t ih =>
    obtain ⟨h1, h2⟩ := List.pairwise_cons.mp h
    unfold insertNat
    split_ifs with h3 h4
    · refine List.pairwise_cons.mpr ⟨fun j hj => ?_, h⟩
      rcases List.mem_cons.mp hj with rfl | hj
      · exact h3
      · exact lt_trans h3 (h1 j hj)
    · exact h
    · refine List.pairwise_cons.mpr ⟨fun j hj => ?_, ih h2⟩
      rcases insertNat_mem.mp hj with rfl | hj
      · omega
      · exact h1 j hj

theorem touchWord_keeps (w : Nat) (s : State) : Keeps s (touchWord w s) := by
  intro h
  unfold touchWord
  split_ifs
  · exact { h with gen := h.gen, dirty := insertNat_rising h.dirty }
  · exact h

theorem setPattern_keeps (lamp : Nat) (x : Pattern) (s : State) : Keeps s (setPattern lamp x s) := by
  unfold setPattern
  refine Keeps.ite (.refl s) ((touchWord_keeps _ _).after ?_)
  exact fun h => { h with }

theorem releaseLamp_keeps (lamp : Nat) (s : State) : Keeps s (releaseLamp lamp s) :=
  (setPattern_keeps _ _ _).after (.of_changes (s.setClaims_changes _))

theorem decideFaultLamp_keeps (s : State) : Keeps s (decideFaultLamp s) := by
  unfold decideFaultLamp
  split
  · exact setPattern_keeps _ _ _
  · exact .refl _

theorem beginReload_nodup {x y : Option ConfigRead} {l : Loader} (h : l.pendingPoints.Nodup) :
    (beginReload x y l).pendingPoints.Nodup := by
  unfold beginReload
  split
  · exact h.filter _
  · exact h

theorem settle_keeps (s : State) : Keeps s (settle s) := by
  refine Keeps.after (t := syncPanel (syncStatus s)) ?_
    (.of_changes ((syncStatus_changes s).then (syncPanel_changes _) (k := settleParts.dropLast.dropLast)))
  intro h
  have e : (raiseRequests (syncPanel (syncStatus s))).events.queue
      = (syncPanel (syncStatus s)).events.queue
      ∧ (raiseRequests (syncPanel (syncStatus s))).events.lost = (syncPanel (syncStatus s)).events.lost
      ∧ (raiseRequests (syncPanel (syncStatus s))).events.sweepDiscards
        = (syncPanel (syncStatus s)).events.sweepDiscards :=
    ⟨raiseRequests_changes _ .eventsQueue (by decide), raiseRequests_changes _ .eventsLost (by decide),
      raiseRequests_changes _ .eventsSweepDiscards (by decide)⟩
  exact { h with
    queue := le_of_eq_of_le (congrArg List.length e.1) h.queue
    lost := le_of_eq_of_le e.2.1 h.lost
    discards := le_of_eq_of_le e.2.2 h.discards
    pendingOnce := beginReload_nodup h.pendingOnce }

/-! ## The Annunciator -/

theorem handAlarm_keeps (n : Nat) (s : State) : Keeps s (handAlarm n s) := by
  unfold handAlarm
  split
  · exact setPattern_keeps _ _ _
  · exact .refl _

theorem handSummary_keeps (g : Nat) (s : State) : Keeps s (handSummary g s) := by
  unfold handSummary
  split
  · exact setPattern_keeps _ _ _
  · exact .refl _

theorem handStale_keeps (g : Nat) (s : State) : Keeps s (handStale g s) := by
  unfold handStale
  split
  · exact setPattern_keeps _ _ _
  · exact .refl _

theorem putRecord_keeps (n : Nat) (r : AnnRec) (s : State) :
    Keeps s (s.setAnn { s.ann with records := s.ann.records.put n r }) :=
  fun h => { h with records := Table.sorted_put n r h.records }

theorem transition_keeps (n : Nat) (new : AnnState) (s : State) : Keeps s (transition n new s) := by
  unfold transition
  split
  · exact .refl _
  · refine (handSummary_keeps _ _).after ((handAlarm_keeps _ _).after ?_)
    refine (putRecord_keeps _ _ _).after ?_
    exact (Keeps.of_changes (setCounts_changes _ _ _)).after (.of_changes (moveOnList_changes _ _ _ _ s))

theorem decideHorn_keeps (s : State) : Keeps s (decideHorn s) := .of_changes (decideHorn_changes s)

theorem takeReport_keeps (n : Nat) (rep : Report) (s : State) : Keeps s (takeReport n rep s) := by
  unfold takeReport
  split
  · exact (decideHorn_keeps _).after ((record_keeps _ _ _ _ _).after (transition_keeps _ _ s))
  · exact .refl _

theorem staleReport_keeps (g : Nat) (s : State) : Keeps s (staleReport g s) :=
  (handStale_keeps _ _).after (.of_changes (setCounts_changes _ _ s))

theorem freshReport_keeps (g : Nat) (s : State) : Keeps s (freshReport g s) :=
  (handStale_keeps _ _).after (.of_changes (setCounts_changes _ _ s))

/-- A shorter shelf keeps a state sound. -/
theorem shorterShelf_keeps {x : List ShelfRec} {s : State} (y : Bool)
    (hx : s.ann.shelf.length ≤ 32 → x.length ≤ 32) :
    Keeps s (s.setAnn { s.ann with shelf := x, shelfDue := y }) :=
  fun h => { h with shelf := hx h.shelf }

theorem filteredShelf_keeps (f : ShelfRec → Bool) (s : State) :
    Keeps s (s.setAnn { s.ann with shelf := s.ann.shelf.filter f }) :=
  shorterShelf_keeps s.ann.shelfDue (fun h => le_trans (List.length_filter_le _ _) h)

theorem recordsShelf_keeps (n : Nat) (f : ShelfRec → Bool) (s : State) :
    Keeps s (s.setAnn { s.ann with records := s.ann.records.del n, shelf := s.ann.shelf.filter f }) :=
  fun h => { h with
    shelf := le_trans (List.length_filter_le _ _) h.shelf, records := Table.sorted_del n h.records }

theorem finishShelf_keeps (s : State) : Keeps s (finishShelf s) :=
  .ite (shorterShelf_keeps false (fun h => by rw [List.length_map]; exact h)) (.refl s)

theorem annRemove_keeps (n : Nat) (s : State) : Keeps s (annRemove n s) := by
  unfold annRemove
  split
  · exact .refl _
  · refine (decideHorn_keeps _).after ((finishShelf_keeps _).after ((handSummary_keeps _ _).after ?_))
    refine (recordsShelf_keeps _ _ _).after ?_
    refine (Keeps.of_changes (setCounts_changes _ _ _)).after ?_
    exact Keeps.ite (.of_changes (leaveList_changes _ _ s)) (.refl s)

theorem unshelve_keeps (n : Nat) (abnormal : AnnState) (d : Nat) (o : Origin) (s : State) :
    Keeps s (unshelve n abnormal d o s) :=
  (record_keeps _ _ _ _ _).after ((transition_keeps _ _ _).after (filteredShelf_keeps _ s))

theorem ackPoint_keeps (o : Origin) (n : Nat) (s : State) : Keeps s (ackPoint o n s) := by
  unfold ackPoint
  split
  · exact (record_keeps _ _ _ _ _).after (transition_keeps _ _ s)
  · exact (record_keeps _ _ _ _ _).after (transition_keeps _ _ s)
  · exact (finishShelf_keeps _).after (unshelve_keeps _ _ _ _ s)
  all_goals exact .refl _

theorem clearPoint_keeps (o : Origin) (n : Nat) (s : State) : Keeps s (clearPoint o n s) := by
  unfold clearPoint
  split
  · exact (record_keeps _ _ _ _ _).after (transition_keeps _ _ s)
  all_goals exact .refl _

theorem overPoints_keeps {act : Nat → State → State} (h : ∀ n s, Keeps s (act n s))
    (points : List Nat) (s : State) : Keeps s (overPoints act points s) :=
  Keeps.foldl (fun s n => h n s) points s

theorem acknowledge_keeps (x : Scope) (o : Origin) (s : State) : Keeps s (acknowledge x o s).1 := by
  unfold acknowledge
  split
  · exact .refl _
  · exact (decideHorn_keeps _).after (overPoints_keeps (ackPoint_keeps o) _ s)

theorem clear_keeps (x : Scope) (o : Origin) (s : State) : Keeps s (clear x o s).1 := by
  unfold clear
  split
  · exact .refl _
  · exact (decideHorn_keeps _).after (overPoints_keeps (clearPoint_keeps o) _ s)

/-- Taking a shelved point out leaves a place. -/
theorem filter_shorter {l : List ShelfRec} {n : Nat} (h : l.any (fun x => x.point == n) = true) :
    (l.filter (fun x => x.point != n)).length < l.length := by
  obtain ⟨x, hx, hn⟩ := List.any_eq_true.mp h
  refine List.length_filter_lt_length_iff_exists.mpr ⟨x, hx, ?_⟩
  simpa using hn

theorem shelve_keeps (n : Nat) (o : Origin) (s : State) : Keeps s (shelve n o s).1 := by
  unfold shelve
  split
  · exact .refl _
  · rename_i hr
    unfold shelveAccepted
    refine (decideHorn_keeps _).after ((finishShelf_keeps _).after ((record_keeps _ _ _ _ _).after
      ((transition_keeps _ _ _).after ?_)))
    refine shorterShelf_keeps s.ann.shelfDue (fun h => ?_)
    rw [List.length_append, List.length_singleton]
    unfold State.shelveRefusal at hr
    split at hr
    · cases hr
    · split_ifs at hr with h1 h2
      rw [not_and_or, not_not, Config.shelfDepth] at h2
      rcases h2 with h2 | h2
      · have := List.length_filter_le (fun x : ShelfRec => x.point != n) s.ann.shelf
        omega
      · have := filter_shorter h2
        omega

theorem silence_keeps (s : State) : Keeps s (silence s) := .of_changes (silence_changes s)

theorem lowerShelf_length (l : List ShelfRec) : (lowerShelf l).1.length ≤ l.length := by
  refine le_trans (List.length_filter_le _ _) ?_
  rw [List.length_map]

theorem shelfSecond_keeps (s : State) : Keeps s (shelfSecond s) :=
  (decideHorn_keeps _).after ((overPoints_keeps (fun n s => unshelve_keeps n _ _ _ s) _ _).after
    (shorterShelf_keeps false (fun h => le_trans (lowerShelf_length _) h)))

/-! ## The Point Evaluator -/

theorem handDisplay_keeps (e : Entry) (v : ValueRec) (s : State) : Keeps s (handDisplay e v s) :=
  Keeps.foldl (f := fun s (x : Nat × Pattern) => setPattern x.1 x.2 s)
    (fun s x => setPattern_keeps x.1 x.2 s) _ s

theorem setValue_keeps (n : Nat) (v : ValueRec) (s : State) : Keeps s (setValue n v s) :=
  fun h => { h with values := Table.sorted_put n v h.values }

theorem freshen_keeps (n : Nat) (e : Entry) (v : ValueRec) (s : State) : Keeps s (freshen n e v s) :=
  Keeps.ite ((freshReport_keeps _ _).after (record_keeps _ _ _ _ s)) (.refl s)

theorem annJoin_keeps (n : Nat) (e : Entry) (s : State) : Keeps s (annJoin n e s) :=
  .ite (putRecord_keeps _ _ s) (.refl s)

theorem judgeValue_keeps (w : Word) (n : Nat) (s : State) : Keeps s (judgeValue w n s) := by
  unfold judgeValue
  split
  · exact (takeReport_keeps _ _ _).after ((handDisplay_keeps _ _ _).after
      ((setValue_keeps _ _ _).after (freshen_keeps _ _ _ s)))
  · exact .refl _

theorem ageAt_keeps (n : Nat) (e : Entry) (v : ValueRec) (s : State) : Keeps s (ageAt n e v s) :=
  Keeps.ite ((handDisplay_keeps _ _ _).after ((staleReport_keeps _ _).after
    ((record_keeps _ _ _ _ _).after (setValue_keeps _ _ s)))) (setValue_keeps _ _ s)

theorem timerAt_keeps (n : Nat) (s : State) : Keeps s (timerAt n s) := by
  unfold timerAt
  split
  · exact Keeps.ite ((takeReport_keeps _ _ _).after (setValue_keeps _ _ s)) (setValue_keeps _ _ s)
  · exact .refl _

theorem dropDue_keeps (n : Nat) (s : State) : Keeps s (dropDue n s) := .of_changes (dropDue_changes n s)

theorem secondAt_keeps (n : Nat) (s : State) : Keeps s (secondAt n s) := by
  unfold secondAt
  split
  · exact (timerAt_keeps _ _).after ((ageAt_keeps _ _ _ _).after (dropDue_keeps _ s))
  · exact dropDue_keeps _ s

theorem evaluateLater_keeps (w : Word) (n : Nat) (s : State) : Keeps s (evaluateLater w n s) := by
  unfold evaluateLater finishSecond
  exact (judgeValue_keeps w n s).trans (.ite (secondAt_keeps _ _) (.refl _))

theorem handSecond_keeps (s : State) : Keeps s (handSecond s) := by
  have first : Keeps s (let s := overPoints secondAt s.evaluator.secondDue s
      if s.ann.shelfDue then shelfSecond s else s) :=
    Keeps.trans (overPoints_keeps secondAt_keeps _ s) (.ite (shelfSecond_keeps _) (.refl _))
  unfold handSecond
  dsimp only at first ⊢
  refine Keeps.trans first ?_
  generalize (if (overPoints secondAt s.evaluator.secondDue s).ann.shelfDue = true then
    shelfSecond (overPoints secondAt s.evaluator.secondDue s)
    else overPoints secondAt s.evaluator.secondDue s) = u
  refine Keeps.trans (overPoints_keeps secondAt_keeps
    ((u.evaluator.values.map Prod.fst).filter (fun n => !u.crossing n)) u) ?_
  generalize overPoints secondAt _ u = v
  refine Keeps.trans (.of_changes (setSecondDue_changes
    ((u.evaluator.values.map Prod.fst).filter u.crossing) v)) ?_
  exact .ite (.of_changes (setShelfDue_changes _ _)) (shelfSecond_keeps _)

theorem popCapture_keeps (s : State) : Keeps s (popCapture s) := by
  have e : s.path.capture.tail.length ≤ s.path.capture.length := by
    rw [List.length_tail]
    exact Nat.sub_le _ _
  exact fun h => { h with capture := le_trans e h.capture }

theorem takeSourceItem_keeps (s : State) : Keeps s (takeSourceItem s) := by
  unfold takeSourceItem
  split
  · exact (Keeps.of_changes (setItem_changes _ _)).after (popCapture_keeps s)
  · exact .refl _

theorem evaluateItem_keeps (k : Nat) (s : State) : Keeps s (evaluateItem k s) := by
  unfold evaluateItem
  split
  · exact .refl _
  · exact (Keeps.of_changes (setItem_changes _ _)).after (overPoints_keeps (evaluateLater_keeps _) _ s)

/-! ## Board modes and the tick -/

theorem setSettling_keeps {m : Mode} {b : Bool} {k : Nat} {s : State} (hb : b = true → m ≠ .dark)
    (hk : k < 256) : Keeps s (s.setGen { s.gen with mode := m, settling := b, settleCount := k }) :=
  fun h => { h with gen := ⟨hb, hk, h.gen.2.2⟩, dirty := h.dirty }

theorem changeMode_keeps (new : Mode) (d : Nat) (o : Origin) (s : State) :
    Keeps s (changeMode new d o s) := by
  refine (record_keeps _ _ _ _ _).after (fun h => ?_)
  refine setSettling_keeps ?_ ?_ h
  · have := h.gen.1
    cases hm : s.gen.mode <;> cases new <;> simp_all
  · have := h.gen.2.1
    cases hm : s.gen.mode <;> cases new <;> simp_all

theorem requestMode_keeps (new : Mode) (s : State) : Keeps s (requestMode new s) :=
  .ite (.refl s) (changeMode_keeps _ _ _ s)

theorem requestDim_keeps (d : Nat) (o : Origin) (s : State) : Keeps s (requestDim d o s) := by
  unfold requestDim
  split
  · exact changeMode_keeps _ _ _ s
  · exact changeMode_keeps _ _ _ s
  · exact .refl s

theorem wake_keeps (d : Nat) (o : Origin) (s : State) : Keeps s (wake d o s) :=
  .ite (changeMode_keeps _ _ _ s) (.refl s)

theorem setWakeRequests_changes (x : Nat) (s : State) :
    Changes [.genWakeRequests] s (s.setGen { s.gen with wakeRequests := x }) := by
  intro p hp
  cases p <;> first | rfl | exact absurd (by decide) hp

theorem takeWakeRequest_keeps (s : State) : Keeps s (takeWakeRequest s) :=
  .ite (.refl s) ((wake_keeps _ _ _).after (.of_changes (setWakeRequests_changes _ s)))

theorem requestTest_keeps (s : State) : Keeps s (requestTest s) :=
  fun h => { h with gen := ⟨h.gen.1, h.gen.2.1, le_refl 1000, h.gen.2.2.2⟩, dirty := h.dirty }

/-- A chain replaced by a legal one. -/
theorem setChain_keeps {c : ChainId} {x : Chain} {s : State}
    (hx : (s.chains.get c).legal → x.legal) : Keeps s (setChain c x s) := by
  intro h
  obtain ⟨ha, hb, hc, hd, hf⟩ := h.chains
  cases c
  · exact { h with chains := ⟨hx ha, hb, hc, hd, hf⟩, faults := h.faults }
  · exact { h with chains := ⟨ha, hx hb, hc, hd, hf⟩, faults := h.faults }
  · exact { h with chains := ⟨ha, hb, hx hc, hd, hf⟩, faults := h.faults }
  · exact { h with chains := ⟨ha, hb, hc, hx hd, hf⟩, faults := h.faults }

/-- A chain's legality does not speak of its exchange and its record. -/
theorem Chain.legal_of_same {x y : Chain} (h : x.legal) (hc : y.count = x.count)
    (hs : y.state = x.state) (hb : y.bad = x.bad) : y.legal := by
  unfold Chain.legal at h ⊢
  rw [hc, hs, hb]
  exact h

theorem beginExchange_legal (s : State) (c : ChainId) {x : Chain} (h : x.legal) :
    (beginExchange s c x).legal := by
  unfold beginExchange
  split_ifs
  · exact h
  · exact Chain.legal_of_same h rfl rfl rfl

theorem giveFrames_keeps (s : State) : Keeps s (giveFrames s) := by
  intro h
  unfold giveFrames
  split_ifs
  · exact h
  · obtain ⟨ha, hb, hc, hd, hf⟩ := h.chains
    exact { h with
      chains := ⟨beginExchange_legal _ _ ha, beginExchange_legal _ _ hb, beginExchange_legal _ _ hc,
        beginExchange_legal _ _ hd, hf⟩
      faults := h.faults }

theorem runWork_keeps (w : TickWork) (s : State) : Keeps s (runWork w s) := by
  intro h
  obtain ⟨h1, h2, h3, h4⟩ := h.gen
  have hp := h.panel
  cases w with
  | keyRelease =>
    exact { h with panel := ⟨hp.1, hp.2.1, hp.2.2.1, hp.2.2.2.1, Nat.zero_le 3, le_refl 3⟩ }
  | phaseBoundary =>
    exact { h with gen := ⟨h1, h2, h3, Nat.pos_of_neZero (2 ^ _)⟩, dirty := h.dirty }
  | settleEnd =>
    exact { h with gen := ⟨(nomatch ·), Nat.zero_lt_succ 255, h3, h4⟩, dirty := h.dirty }
  | lampTestEnd =>
    exact { h with gen := ⟨h1, h2, Nat.zero_le 1000, h4⟩, dirty := h.dirty }
  | frameSlot => exact giveFrames_keeps s h
  | boardSecond =>
    exact (handSecond_keeps _).after (.of_changes (setGen_seconds_changes _ s)) h

theorem runAll_keeps (l : List TickWork) (s : State) : Keeps s (runAll l s) :=
  Keeps.foldl (fun s w => runWork_keeps w s) l s

theorem finishTick_keeps (s : State) : Keeps s (finishTick s) :=
  .ite (.refl s) ((settle_keeps _).after ((runAll_keeps _ _).after
    (.of_changes (setTickWork_changes [] s))))

theorem runThrough_keeps (w : TickWork) (s : State) : Keeps s (runThrough w s) :=
  .ite ((runAll_keeps _ _).after (.of_changes (setTickWork_changes _ s))) (.refl s)

theorem startOf_keeps (c : Instr) (s : State) : Keeps s (startOf c s) :=
  .ite (.refl s) (finishTick_keeps s)

theorem tick_legal {g : PatternGen} (b : Bool) (h : g.legal) : (g.tick b).legal := by
  obtain ⟨h1, h2, h3, h4⟩ := h
  refine ⟨h1, ?_, ?_, ?_⟩
  · show (if _ then _ else _) < 256
    split_ifs with hs
    · obtain ⟨hs, he⟩ := hs
      unfold PatternGen.atSettleEnd at he
      simp only [hs, Bool.true_and, decide_eq_true_eq] at he
      change g.settleCount + 1 < 256
      omega
    · exact h2
  · show (if _ then _ else _) ≤ 1000
    split_ifs
    · exact h3
    · exact le_trans (Nat.sub_le _ 1) h3
  · show (if _ then _ else _) < phaseLength g.flash
    split_ifs with hb
    · exact h4
    · unfold PatternGen.atBoundary at hb
      simp only [decide_eq_true_eq] at hb
      change g.phaseTicks + 1 < phaseLength g.flash
      omega

theorem scan_legal {p : Panel} (down : List Key) (h : p.legal) : (p.scan down).legal := by
  obtain ⟨h1, h2, h3, h4, h5, h6⟩ := h
  unfold Panel.scan
  split_ifs with a b c d e
  · exact ⟨h1, h2, h3, h4, h5, h6⟩
  · refine ⟨h1, h2, h3, h4, h5, ?_⟩
    unfold Panel.releases at c
    simp only [a, b, Bool.true_and, decide_eq_true_eq] at c
    show p.releaseCount + 1 ≤ 3
    omega
  · exact ⟨h1, h2, h3, h4, h5, Nat.zero_le 3⟩
  · exact ⟨h1, h2, h3, h4, Nat.zero_le 3, h6⟩
  · exact ⟨h1, h2, h3, h4, le_refl 3, Nat.zero_le 3⟩
  · refine ⟨h1, h2, h3, h4, ?_, h6⟩
    show p.pressCount + 1 ≤ 3
    omega

theorem countTick_keeps (down : List Key) (s : State) : Keeps s (countTick down s) := by
  refine .ite (.refl s) (fun h => ?_)
  have hp := scan_legal down h.panel
  exact { h with gen := tick_legal _ h.gen, dirty := h.dirty, panel := hp }

/-! ## Chains and lamp sensing -/

/-- The fail counts with one set anew, and the fault count moved with its flag. -/
theorem setFails_keeps {lamp count n : Nat} {s : State} (hc : count ≤ 2)
    (hn : n + (if s.chains.fails.val 0 lamp = 2 then 1 else 0)
      = s.chains.faultCount + (if count = 2 then 1 else 0)) :
    Keeps s (s.setChains { s.chains with
      fails := s.chains.fails.assign 0 lamp count, faultCount := n }) := by
  intro h
  obtain ⟨ha, hb, hd, he, hf⟩ := h.chains
  obtain ⟨hcan, hcount⟩ := h.faults
  refine { h with chains := ⟨ha, hb, hd, he, fun other => ?_⟩, faults := ⟨Table.canonical_assign _ _ hcan, ?_⟩ }
  · by_cases e : other = lamp
    · subst e
      exact le_of_eq_of_le (Table.val_assign_same _ _ _ _) hc
    · exact le_of_eq_of_le (Table.val_assign_other _ _ _ e) (hf other)
  · have := Table.count_assign lamp count 2 (by decide) hcan
    change n = Table.count (s.chains.fails.assign 0 lamp count) 2
    change s.chains.faultCount = Table.count s.chains.fails 2 at hcount
    omega

theorem flagMoved_keeps {k : EventKind} {lamp n : Nat} {s u : State}
    (h : Keeps u (s.setChains { s.chains with faultCount := n })) : Keeps u (flagMoved k lamp n s) :=
  (record_keeps _ _ _ _ _).after ((decideFaultLamp_keeps _).after ((touchWord_keeps _ _).after
    (Keeps.after (.of_changes (syncStatus_changes _)) h)))

theorem setFail_keeps {lamp count : Nat} (s : State) (hc : count ≤ 2) :
    Keeps s (setFail lamp count s) := by
  intro h
  have pos : s.chains.fails.val 0 lamp = 2 → 1 ≤ s.chains.faultCount := by
    intro e
    have := Table.count_assign lamp 0 2 (by decide) h.faults.1
    have hf := h.faults.2
    change s.chains.faultCount = Table.count s.chains.fails 2 at hf
    rw [if_pos e] at this
    simp only [Nat.reduceEqDiff, if_false] at this
    omega
  unfold setFail
  dsimp only
  split
  · rename_i e1 e2
    refine flagMoved_keeps (setFails_keeps hc ?_) h
    have e1 : s.chains.fails.val 0 lamp ≠ 2 := by simpa [Chains.faulty] using e1
    have e2 : count = 2 := by simpa using e2
    simp [e1, e2]
  · rename_i e1 e2
    refine flagMoved_keeps (setFails_keeps hc ?_) h
    have e1 : s.chains.fails.val 0 lamp = 2 := by simpa [Chains.faulty] using e1
    have e2 : count ≠ 2 := by simpa using e2
    have := pos e1
    change s.chains.faultCount - 1 + _ = _
    rw [if_pos e1, if_neg e2]
    omega
  · rename_i e1 e2
    refine setFails_keeps (n := s.chains.faultCount) hc ?_ h
    have e1 : s.chains.fails.val 0 lamp = 2 := by simpa [Chains.faulty] using e1
    have e2 : count = 2 := by simpa using e2
    simp [e1, e2]
  · rename_i e1 e2
    refine setFails_keeps (n := s.chains.faultCount) hc ?_ h
    have e1 : s.chains.fails.val 0 lamp ≠ 2 := by simpa [Chains.faulty] using e1
    have e2 : count ≠ 2 := by simpa using e2
    simp [e1, e2]

theorem nextFail_le (count : Nat) (b : Bool) : nextFail count b ≤ 2 := by
  unfold nextFail
  split_ifs <;> omega

theorem judgeLamp_keeps (lamp : Nat) (b : Bool) (s : State) : Keeps s (judgeLamp lamp b s) :=
  setFail_keeps s (nextFail_le _ _)

theorem judgeSense_keeps (c : ChainId) (n : Nat) (x : SentFrame) (f : List Byte) (s : State) :
    Keeps s (judgeSense c n x f s) :=
  Keeps.foldl (fun s _ => judgeLamp_keeps _ _ s) _ s

theorem badReturn_keeps (c : ChainId) (s : State) : Keeps s (badReturn c s) := by
  unfold badReturn
  dsimp only
  split
  · rename_i hs
    split_ifs with hb
    · refine setChain_keeps (fun h => ?_)
      unfold Chain.legal at h ⊢
      simp only [hs] at h ⊢
      exact ⟨h.1, h.2.1, hb⟩
    · exact (record_keeps _ _ _ _ _).after ((decideFaultLamp_keeps _).after (setChain_keeps (fun h => by
        unfold Chain.legal at h ⊢
        rw [hs] at h
        exact ⟨h.1, h.2.1, rfl⟩)))
  · exact .refl s
  · exact .refl s

theorem goodReturn_keeps (c : ChainId) (s : State) : Keeps s (goodReturn c s) := by
  unfold goodReturn
  dsimp only
  split
  · rename_i hs
    exact (record_keeps _ _ _ _ _).after ((decideFaultLamp_keeps _).after (setChain_keeps (fun h => by
      unfold Chain.legal at h ⊢
      rw [hs] at h
      exact ⟨h.1, h.2.1, Nat.zero_le 2⟩)))
  · rename_i hs
    refine setChain_keeps (fun h => ?_)
    unfold Chain.legal at h ⊢
    simp only [hs] at h ⊢
    exact ⟨h.1, h.2.1, Nat.zero_le 2⟩
  · rename_i hs
    refine setChain_keeps (fun h => ?_)
    unfold Chain.legal at h ⊢
    simp only [hs] at h ⊢
    exact ⟨h.1, h.2.1, trivial⟩

theorem judgeReturn_keeps (c : ChainId) (x : Exchange) (f : List Byte) (s : State) :
    Keeps s (judgeReturn c x f s) := by
  unfold judgeReturn
  refine .ite ?_ (badReturn_keeps c s)
  dsimp only
  split
  · exact .ite ((judgeSense_keeps _ _ _ _ _).after (goodReturn_keeps c s)) (goodReturn_keeps c s)
  · exact goodReturn_keeps c s

theorem closeExchange_keeps (c : ChainId) (x : Option SentFrame) (s : State) :
    Keeps s (closeExchange c x s) :=
  setChain_keeps (fun h => Chain.legal_of_same h rfl rfl rfl)

theorem endExchange_keeps (c : ChainId) (l : List (Nat × List Byte)) (m : List Nat)
    (r : Option (List Byte)) (s : State) : Keeps s (endExchange c l m r s) := by
  unfold endExchange
  split
  · exact .refl s
  · dsimp only
    exact .ite ((closeExchange_keeps _ _ _).after (.of_changes (setCards_changes _ s)))
      ((closeExchange_keeps _ _ _).after ((judgeReturn_keeps _ _ _ _).after
        (.of_changes (setCards_changes _ s))))

theorem withCount_legal {x : Chain} {n : Nat} (hn : n ≤ 16) (h : x.legal) : (x.withCount n).legal := by
  unfold Chain.withCount
  split_ifs with h0
  · exact ⟨Nat.zero_le 16, rfl, rfl⟩
  · unfold Chain.legal at h ⊢
    cases hs : x.state <;> simp only [hs] at h ⊢
    · exact ⟨hn, h0, Nat.zero_le 2⟩
    · exact ⟨hn, h0, h.2.2⟩
    · exact ⟨hn, h0, h.2.2⟩

theorem handCount_keeps {c : ChainId} {n : Nat} (hn : n ≤ 16) (s : State) : Keeps s (handCount c n s) :=
  (decideFaultLamp_keeps _).after (setChain_keeps (withCount_legal hn))

theorem cardCountField_le (w : Word) (b : Bool) : cardCountField w b ≤ 16 := Nat.min_le_left _ _

theorem takeCounts_keeps (x y : ChainId) (w : Word) (s : State) : Keeps s (takeCounts x y w s) := by
  have h : Keeps s (handCount y (cardCountField w true) (handCount x (cardCountField w false) s)) :=
    (handCount_keeps (cardCountField_le _ _) _).after (handCount_keeps (cardCountField_le _ _) s)
  unfold takeCounts
  dsimp only
  exact .ite (h.trans (.of_changes (setMarked_changes _ _))) h

/-! ## The Configuration Loader -/

theorem evaluatorRemove_keeps (n g : Nat) (s : State) : Keeps s (evaluatorRemove n g s) := by
  unfold evaluatorRemove
  split
  · exact .refl s
  · have h : Keeps s (s.setEvaluator { s.evaluator with
        values := s.evaluator.values.del n
        secondDue := s.evaluator.secondDue.filter (fun m => m != n) }) :=
      fun h => { h with values := Table.sorted_del n h.values }
    exact .ite ((freshReport_keeps _ _).after h) h

theorem releaseLamps_keeps (lamps : List Nat) (s : State) : Keeps s (releaseLamps lamps s) :=
  Keeps.foldl (f := fun s l => releaseLamp l s) (fun s l => releaseLamp_keeps l s) lamps s

theorem removePoint_keeps (n : Nat) (s : State) : Keeps s (removePoint n s) := by
  unfold removePoint
  split
  · exact .refl s
  · refine Keeps.after (.of_changes (setInstalled_changes _ _)) ?_
    refine Keeps.after (.of_changes (setPoint_changes _ _ _)) ?_
    refine (releaseLamps_keeps _ _).after (Keeps.after (.of_changes (dropPairs_changes _ _)) ?_)
    exact (evaluatorRemove_keeps _ _ _).after (annRemove_keeps n s)

theorem sweepCheck_keeps (s : State) : Keeps s (sweepCheck s) :=
  .ite ((record_keeps _ _ _ _ _).after (.of_changes (setCfg_changes _ s))) (.refl s)

theorem endReload_keeps (s : State) : Keeps s (endReload s) :=
  (sweepCheck_keeps _).after (.of_changes (setReload_changes _ s))

theorem rejectPoint_keeps (n : Nat) (e : Entry) (r : Nat) (x : PointStatus) (b : Bool) (s : State) :
    Keeps s (rejectPoint n e r x b s) := by
  unfold rejectPoint
  dsimp only
  refine (endReload_keeps _).after ?_
  have h : ∀ u, Keeps (setPoint n ⟨.rejected r, some e, false⟩ s) u → Keeps s
      (if b = true ∧ x = .rejected r then u else record .entryRejected .part n r u) := fun u hu =>
    Keeps.after (.ite (.refl u) (record_keeps _ _ _ _ u)) (hu.after (.of_changes (setPoint_changes _ _ s)))
  refine h _ ?_
  split
  · exact .refl _
  · exact .of_changes (setRejected_changes _ _)
  · exact .of_changes (setRejected_changes _ _)

theorem validatePoint_keeps (n : Nat) (e : Entry) (x : PointStatus) (b : Bool) (s : State) :
    Keeps s (validatePoint n e x b s) := by
  unfold validatePoint
  split
  · exact rejectPoint_keeps _ _ _ _ _ s
  · exact .of_changes (beginInstall_changes _ _ _ s)

theorem judgeDisabled_keeps (n : Nat) (s : State) : Keeps s (judgeDisabled n s) := by
  unfold judgeDisabled
  split
  · exact endReload_keeps s
  · exact (endReload_keeps _).after (removePoint_keeps n s)
  · exact (endReload_keeps _).after (Keeps.after (.of_changes (leaveRejected_changes _ _))
      (.of_changes (setPoint_changes _ _ s)))

theorem judgeEnabled_keeps (n : Nat) (e : Entry) (b : Bool) (s : State) :
    Keeps s (judgeEnabled n e b s) := by
  unfold judgeEnabled
  split
  · exact validatePoint_keeps _ _ _ _ s
  · exact .ite (endReload_keeps s) ((validatePoint_keeps _ _ _ _ _).after (removePoint_keeps n s))
  · exact validatePoint_keeps _ _ _ _ s

theorem judge_keeps (n : Nat) (words : List Word) (s : State) : Keeps s (judge n words s) := by
  have h := Keeps.of_changes (setMarked_changes (s.loader.marked.filter (fun m => m != n)) s)
  unfold judge
  dsimp only
  refine Keeps.trans h ?_
  split
  · exact .refl _
  · split_ifs
    · split
      · exact judgeEnabled_keeps _ _ _ _
      · exact .refl _
    · exact judgeDisabled_keeps _ _

theorem takeEntryWord_keeps (w : Word) (s : State) : Keeps s (takeEntryWord w s) := by
  unfold takeEntryWord
  split
  · exact .refl s
  · exact .ite ((judge_keeps _ _ _).after (.of_changes (setReload_changes _ s)))
      (.of_changes (setReload_changes _ s))

theorem evaluateFirst_keeps (n : Nat) (w : Word) (s : State) : Keeps s (evaluateFirst n w s) := by
  unfold evaluateFirst
  split
  · exact .refl s
  · refine (endReload_keeps _).after (Keeps.after (.of_changes (setFirstValue_changes _ _)) ?_)
    refine (takeReport_keeps _ _ _).after ((handDisplay_keeps _ _ _).after ((setValue_keeps _ _ _).after ?_))
    refine (annJoin_keeps _ _ _).after ?_
    exact Keeps.after (.of_changes (setInstalled_changes _ _)) (.of_changes (setPoint_changes _ _ s))

theorem takeFirstValue_keeps (s : State) : Keeps s (takeFirstValue s) := by
  unfold takeFirstValue
  split
  · exact evaluateFirst_keeps _ _ s
  · exact .refl s

theorem handClaimed_keeps (x : SettingPlace) (s : State) : Keeps s (handClaimed x s) := by
  cases x
  · exact decideFaultLamp_keeps s
  · exact handSummary_keeps _ s
  · exact handStale_keeps _ s

theorem takeSetting_keeps (x : SettingPlace) (new : Option Nat) (s : State) :
    Keeps s (takeSetting x new s) := by
  unfold takeSetting
  split
  · exact .of_changes (holdSetting_changes _ _ s)
  · exact .ite ((record_keeps _ _ _ _ _).after (.of_changes (holdSetting_changes _ _ s)))
      ((handClaimed_keeps _ _).after (Keeps.after (.of_changes (claimLamp_changes _ _ _))
        (.of_changes (holdSetting_changes _ _ s))))

theorem judgeSetting_keeps (x : SettingPlace) (new : Option Nat) (s : State) :
    Keeps s (judgeSetting x new s) := by
  unfold judgeSetting
  dsimp only
  refine .ite (.refl s) ?_
  split
  · exact (takeSetting_keeps _ _ _).after ((releaseLamp_keeps _ _).after
      (.of_changes (holdSetting_changes _ _ s)))
  · exact takeSetting_keeps _ _ s

theorem takeEnables_keeps (g : Nat) (w : Word) (s : State) : Keeps s (takeEnables g w s) :=
  .of_changes (takeEnables_changes g w s)

theorem beginSweep_keeps (s : State) : Keeps s (beginSweep s) := by
  have owed : ∀ x : State, Keeps x (x.setGen { x.gen with modeOwed := false }) :=
    fun x h => { h with gen := h.gen, dirty := h.dirty }
  have rise : ∀ (l : List Nat) (x : State), l.Pairwise (· < ·) →
      Keeps x (x.setGen { x.gen with dirty := l }) := fun _ _ hl h => { h with gen := h.gen, dirty := hl }
  have first : Keeps s ((s.setLoader { s.loader with
      cfg := .sweeping, pass := some ⟨true, .k1, true, false⟩ }).setEvents { s.events with
      owed19 := true, owed20 := true, owed21 := true, owed22 := true }) := fun h => { h with }
  have dirty := first.trans (rise (List.range Config.imageWords) _ List.pairwise_lt_range)
  exact .ite ((record_keeps _ _ _ _ _).after ((owed _).after dirty)) dirty

theorem appendAll_nodup {l : List Nat} (h : l.Nodup) : (appendAll l).Nodup := by
  refine List.nodup_append.mpr ⟨h, List.nodup_range.filter _, ?_⟩
  intro a ha b hb e
  subst e
  have := (List.mem_filter.mp hb).2
  simp [ha] at this

theorem endPass_keeps (x : Pass) (s : State) : Keeps s (endPass x s) := by
  refine (sweepCheck_keeps _).after (fun h => { h with pendingOnce := ?_ })
  show (if x.sweep then appendAll s.loader.pendingPoints else s.loader.pendingPoints).Nodup
  split_ifs
  · exact appendAll_nodup h.pendingOnce
  · exact h.pendingOnce

theorem advancePass_keeps (r : ConfigRead) (s : State) : Keeps s (advancePass r s) := by
  unfold advancePass
  split
  · exact .refl s
  · dsimp only
    refine .ite (.of_changes (setPass_changes _ s)) ?_
    split
    · exact .of_changes (setPass_changes _ s)
    · exact endPass_keeps _ s

theorem takeRingValue_keeps (r : ConfigRead) (w : Word) (s : State) : Keeps s (takeRingValue r w s) := by
  intro h
  unfold takeRingValue
  split
  · exact { h with }
  · exact { h with }
  · exact { h with lost := Nat.min_le_left _ _, discards := Nat.zero_le _ }
  all_goals exact h

theorem fullReload_keeps (s : State) : Keeps s (fullReload s) :=
  fun h => { h with pendingOnce := appendAll_nodup h.pendingOnce }

theorem takeGeneration_keeps (w : Word) (s : State) : Keeps s (takeGeneration w s) := by
  unfold takeGeneration
  split
  · exact .refl s
  · exact .ite (.refl s) ((fullReload_keeps _).after (.of_changes (holdGeneration_changes w s)))

theorem deconfigure_keeps_sound (s : State) : Keeps s (deconfigure s) := fun h =>
  { h with
    queue := Nat.zero_le _, discards := Nat.zero_le _, shelf := Nat.zero_le _, gen := h.gen
    pendingOnce := List.nodup_nil, values := rfl, records := rfl, dirty := List.Pairwise.nil }

theorem takeSignature_keeps (w : Word) (s : State) : Keeps s (takeSignature w s) :=
  .ite (.ite (.refl s) (deconfigure_keeps_sound s)) (.ite (beginSweep_keeps s) (.refl s))

theorem takeControlWord_keeps (n : Nat) (s : State) : Keeps s (takeControlWord n s) := by
  intro h
  unfold takeControlWord
  split_ifs with hn
  · exact h
  · refine { h with pendingOnce := List.nodup_append.mpr ⟨h.pendingOnce, List.nodup_singleton n, ?_⟩ }
    intro a ha b hb e
    rw [List.mem_singleton.mp hb] at e
    subst e
    exact hn (by simpa using ha)

theorem handOn_keeps {α : Type} (sel : RegionWord → Word → Option α) {act : α → Word → State → State}
    (h : ∀ x w s, Keeps s (act x w s)) (s : State) : Keeps s (handOn sel act s) := by
  unfold handOn
  split
  · exact .refl s
  · split
    · exact .refl s
    · exact .ite ((h _ _ _).after (popCapture_keeps s)) (popCapture_keeps s)

/-! ## The Memory Path -/

theorem storeWord_keeps (a : Addr) (w : Word) (l : BitVec 2) (s : State) : Keeps s (storeWord a w l s) :=
  fun h => { h with memory := Memory.wf_writeLanes a w l h.memory }

theorem takeWrite_keeps (a : Addr) (w : Word) (l : BitVec 2) (s : State) : Keeps s (takeWrite a w l s) := by
  have hs : Keeps s (storeWord a w l (setAccess none s)) :=
    (storeWord_keeps _ _ _ _).after (.of_changes (setAccess_changes _ s))
  unfold takeWrite
  split_ifs with h1 h2
  · intro h
    have room : s.path.capture.length < 64 := of_decide_eq_true h2
    refine { hs h with capture := ?_ }
    show (s.path.capture ++ _).length ≤ 64
    rw [List.length_append, List.length_singleton]
    exact room
  · exact .of_changes (setAccess_changes _ s)
  · exact hs

theorem takeAccess_keeps (a : Addr) (k : AccessKind) (s : State) : Keeps s (takeAccess a k s) := by
  unfold takeAccess
  split
  · exact takeWrite_keeps _ _ _ s
  · exact .of_changes (takeRead_changes _ s)

theorem beginAccess_keeps (a : Addr) (k : AccessKind) (s : State) : Keeps s (beginAccess a k s) :=
  .ite (.refl s) (.ite (takeAccess_keeps _ _ s) (.of_changes (setAccess_changes _ s)))

theorem takeFromHold_keeps (h : HeldAccess) (s : State) : Keeps s (takeFromHold h s) := by
  unfold takeFromHold
  split
  · exact (storeWord_keeps _ _ _ _).after (.of_changes (setAccess_changes _ s))
  · exact .of_changes (takeRead_changes _ s)
  all_goals exact takeAccess_keeps _ _ s

theorem takeHeld_keeps (s : State) : Keeps s (takeHeld s) := by
  unfold takeHeld
  split
  · exact .ite (takeFromHold_keeps _ s) (.refl s)
  · exact .refl s

theorem releaseHeld_keeps (s : State) : Keeps s (releaseHeld s) := by
  unfold releaseHeld
  split
  · exact .ite (.ite (.of_changes (setAccess_changes _ s)) (takeAccess_keeps _ _ s)) (.refl s)
  · exact .refl s

theorem releaseAtReset_keeps (s : State) : Keeps s (releaseAtReset s) := by
  unfold releaseAtReset
  split
  · exact .ite (.of_changes (setAccess_changes _ s)) (takeFromHold_keeps _ s)
  · exact .refl s

theorem boardReset_keeps_sound (s : State) : Keeps s (boardReset s) := by
  refine (releaseAtReset_keeps _).after (fun h => ?_)
  have idle : Chain.afterReset.legal := ⟨Nat.zero_le 16, rfl, rfl⟩
  exact {
    memory := h.memory, capture := Nat.zero_le _, queue := Nat.zero_le _, lost := Nat.zero_le _
    discards := Nat.zero_le _, shelf := Nat.zero_le _
    gen := ⟨fun _ => nofun, Nat.zero_lt_succ _, Nat.zero_le _, Nat.zero_lt_succ _⟩
    chains := ⟨idle, idle, idle, idle, fun _ => Nat.zero_le _⟩
    faults := ⟨rfl, rfl⟩
    panel := ⟨Nat.zero_le _, fun _ => rfl, nofun, nofun, Nat.zero_le _, Nat.zero_le _⟩
    pendingOnce := List.nodup_nil, values := rfl, records := rfl, dirty := List.Pairwise.nil }

theorem grantConfig_keeps (r : ConfigRead) (s : State) : Keeps s (grantConfig r s) :=
  fun h => { h with }

theorem grantStatus_keeps (w : StatusWord) (s : State) : Keeps s (grantStatus w s) := by
  intro h
  cases w <;> exact { h with }

theorem grantRing_keeps (w : RingWrite) (s : State) : Keeps s (grantRing w s) := by
  intro h
  unfold grantRing
  dsimp only
  split
  · split
    · exact { h with }
    · exact { h with }
  · exact { h with }
  · exact { h with }

theorem grantImage_keeps (w : Nat) (s : State) : Keeps s (grantImage w s) :=
  fun h => { h with gen := h.gen, dirty := h.dirty }

theorem serveHighest_keeps (s : State) : Keeps s (serveHighest s) := by
  unfold serveHighest
  split
  · exact fun h => { h with }
  · split
    · exact grantRing_keeps _ s
    · split
      · exact grantConfig_keeps _ s
      · split
        · exact grantStatus_keeps _ s
        · split
          · exact grantImage_keeps _ s
          · exact .refl s

theorem endAccess_keeps (a : PartAccess) (s : State) : Keeps s (endAccess a s) := by
  have h : Keeps s (s.setPath { s.path with partAccess := none }) := fun h => { h with }
  exact .ite ((storeWord_keeps _ _ _ _).after h) h

theorem complete_keeps {α : Type} (sel : PartWork → Option α) {act : α → Word → State → State}
    (h : ∀ x w s, Keeps s (act x w s)) (s : State) : Keeps s (complete sel act s) := by
  unfold complete
  split
  · exact .refl s
  · split
    · exact .refl s
    · exact .ite (endAccess_keeps _ s) ((h _ _ _).after (endAccess_keeps _ s))

theorem rereadDone_keeps (w : Word) (s : State) : Keeps s (rereadDone w s) := by
  unfold rereadDone
  split
  · rename_i item rest hc
    intro h
    have := h.capture
    rw [hc] at this
    exact { h with capture := this }
  · exact .refl s

theorem passRead_keeps {act : ConfigRead → Word → State → State} (h : ∀ r w s, Keeps s (act r w s))
    (r : ConfigRead) (w : Word) (s : State) : Keeps s (passRead act r w s) :=
  (advancePass_keeps _ _).after (h r w s)

theorem judgeK0_keeps (w : Word) (s : State) : Keeps s (judgeK0 w s) :=
  .ite (beginSweep_keeps s) (.refl s)

theorem countsRead_keeps (r : ConfigRead) (w : Word) (s : State) : Keeps s (countsRead r w s) :=
  .ite (takeCounts_keeps _ _ _ s) (takeCounts_keeps _ _ _ s)

theorem takeFlashShelve_keeps (w : Word) (s : State) : Keeps s (takeFlashShelve w s) :=
  .of_changes (takeFlashShelve_changes w s)

theorem groupRead_keeps (r : ConfigRead) (w : Word) (s : State) : Keeps s (groupRead r w s) := by
  unfold groupRead
  split
  · exact .ite (takeEnables_keeps _ _ s) (judgeSetting_keeps _ _ s)
  all_goals exact .refl s

theorem imageDone_keeps (w : Nat) (s : State) : Keeps s (imageDone w s) := by
  intro h
  refine { h with gen := h.gen, dirty := ?_ }
  show (if s.gen.servedChanged then s.gen.dirty else s.gen.dirty.filter _).Pairwise _
  split_ifs
  · exact h.dirty
  · exact h.dirty.filter _

theorem headDone_keeps (s : State) : Keeps s (headDone s) := by
  have e : s.events.queue.tail.length ≤ s.events.queue.length := by
    rw [List.length_tail]
    exact Nat.sub_le _ _
  exact fun h => { h with queue := le_trans e h.queue }

/-! ## The panel and the remote commands -/

theorem panelError_keeps {r : Nat} (hr : 1 ≤ r ∧ r ≤ 10) (s : State) : Keeps s (panelError r s) := by
  intro h
  obtain ⟨-, -, h3, -, h5, h6⟩ := h.panel
  refine { h with panel := ⟨Nat.zero_le 3, fun _ => rfl, h3, fun q hq => ?_, h5, h6⟩ }
  cases hq
  exact hr

theorem refusePress_keeps {code r : Nat} (hr : 1 ≤ r ∧ r ≤ 10) (s : State) :
    Keeps s (refusePress code r s) :=
  (panelError_keeps hr _).after (record_keeps _ _ _ _ s)

theorem emptied_keeps (s : State) : Keeps s (s.setPanel s.panel.emptied) := fun h =>
  { h with panel := ⟨Nat.zero_le 3, fun _ => rfl, h.panel.2.2⟩ }

theorem answerPress_keeps (code d : Nat) {s : State} {r : State × Option Nat} (h : Keeps s r.1)
    (hr : ∀ q, r.2 = some q → 1 ≤ q ∧ q ≤ 10) : Keeps s (answerPress code d r) := by
  unfold answerPress
  split
  · have e : (reportPress code d r.1).panel = r.1.panel := by
      unfold reportPress record
      split_ifs <;> rfl
    rw [← e]
    exact (emptied_keeps _).after ((record_keeps _ _ _ _ _).after h)
  · rename_i q hq
    exact (refusePress_keeps (hr q hq) _).after h

theorem pointRefusal_range {s : State} {n q : Nat} (h : s.pointRefusal n = some q) : 1 ≤ q ∧ q ≤ 10 := by
  unfold State.pointRefusal at h
  split_ifs at h <;> cases h <;> decide

theorem scopeRefusal_range {s : State} {x : Scope} {q : Nat} (h : s.scopeRefusal x = some q) :
    1 ≤ q ∧ q ≤ 10 := by
  unfold State.scopeRefusal at h
  split at h
  · cases h
  · cases h
  · exact pointRefusal_range h

theorem acknowledge_range {s : State} {x : Scope} {o : Origin} {q : Nat}
    (h : (acknowledge x o s).2 = some q) : 1 ≤ q ∧ q ≤ 10 := by
  unfold acknowledge at h
  split at h
  · rename_i hr
    cases h
    exact scopeRefusal_range hr
  · cases h

theorem clear_range {s : State} {x : Scope} {o : Origin} {q : Nat}
    (h : (clear x o s).2 = some q) : 1 ≤ q ∧ q ≤ 10 := by
  unfold clear at h
  split at h
  · rename_i hr
    cases h
    exact scopeRefusal_range hr
  · cases h

theorem shelve_range {s : State} {n : Nat} {o : Origin} {q : Nat} (h : (shelve n o s).2 = some q) :
    1 ≤ q ∧ q ≤ 10 := by
  unfold shelve at h
  split at h
  · rename_i hr
    cases h
    unfold State.shelveRefusal at hr
    split at hr
    · rename_i hp
      cases hr
      exact pointRefusal_range hp
    · split_ifs at hr <;> cases hr <;> decide
  · cases h

theorem popPress_keeps (s : State) : Keeps s (popPress s) := .of_changes (popPress_changes s)

theorem handlePress_keeps (key : Key) {act : State → State} (h : ∀ s, Keeps s (act s)) (s : State) :
    Keeps s (handlePress key act s) := by
  unfold handlePress
  refine .ite (wake_keeps _ _ s) (.ite ?_ (.ite (panelError_keeps (by decide) s)
    (.ite (refusePress_keeps (by decide) s) (h s))))
  exact fun h => { h with panel := ⟨h.panel.1, h.panel.2.1, h.panel.2.2.1, nofun, h.panel.2.2.2.2⟩ }

theorem onPress_keeps (sel : Key → Bool) {act : Key → State → State} (h : ∀ k s, Keeps s (act k s))
    (s : State) : Keeps s (onPress sel act s) := by
  unfold onPress
  split
  · exact .ite ((handlePress_keeps _ (h _) _).after (popPress_keeps s)) (.refl s)
  · exact .refl s

theorem joinDigit_length (l : List (BitVec 4)) (d : BitVec 4) (h : l.length ≤ 3) :
    (joinDigit l d).length ≤ 3 := by
  unfold joinDigit
  split_ifs with h1
  · rw [List.length_append, List.length_singleton]
    exact h1
  · rw [List.length_append, List.length_singleton, List.length_drop]
    omega

theorem dataKey_keeps (k : Key) (s : State) : Keeps s (dataKey k s) := by
  unfold dataKey
  split
  · rename_i d c hc
    exact fun h => { h with panel := ⟨joinDigit_length _ _ h.panel.1,
      fun e => absurd (hc.symm.trans e) nofun, h.panel.2.2⟩ }
  · exact refusePress_keeps (by decide) s

theorem pendCommand_keeps (c : EntryCommand) (s : State) : Keeps s (pendCommand c s) := fun h =>
  { h with panel := ⟨Nat.zero_le 3, fun _ => rfl, h.panel.2.2⟩ }

theorem enterScope_keeps (code : Nat) {op : Scope → Origin → State → State × Option Nat}
    (h : ∀ x o s, Keeps s (op x o s).1) (hr : ∀ x o s q, (op x o s).2 = some q → 1 ≤ q ∧ q ≤ 10)
    (s : State) : Keeps s (enterScope code op s) := by
  unfold enterScope
  split
  · exact answerPress_keeps _ _ (h _ _ s) (hr _ _ s)
  · exact .ite (answerPress_keeps _ _ (h _ _ s) (hr _ _ s)) (refusePress_keeps (by decide) s)

theorem enterGroup_keeps (s : State) : Keeps s (enterGroup s) := by
  unfold enterGroup
  split
  · refine (record_keeps _ _ _ _ _).after (fun h => ?_)
    exact { h with panel := ⟨Nat.zero_le 3, fun _ => rfl, nofun, h.panel.2.2.2⟩ }
  · split_ifs with hg
    · refine (record_keeps _ _ _ _ _).after (fun h => ?_)
      refine { h with panel := ⟨Nat.zero_le 3, fun _ => rfl, fun g hg' => ?_, h.panel.2.2.2⟩ }
      cases hg'
      exact Nat.lt_succ_of_le hg
    · exact refusePress_keeps (by decide) s

theorem enterShelve_keeps (s : State) : Keeps s (enterShelve s) := by
  unfold enterShelve
  split
  · exact refusePress_keeps (by decide) s
  · exact .ite (answerPress_keeps _ _ (shelve_keeps _ _ s) (fun q => shelve_range))
      (refusePress_keeps (by decide) s)

theorem onEnter_keeps (x : Option EntryCommand) {act : State → State} (h : ∀ s, Keeps s (act s))
    (s : State) : Keeps s (onEnter x act s) :=
  .ite (onPress_keeps _ (fun _ => h) s) (.refl s)

theorem answerRemote_keeps (code : Nat) {s : State} {r : State × Option Nat} (h : Keeps s r.1) :
    Keeps s (answerRemote code r) := by
  unfold answerRemote
  split
  · exact (record_keeps _ _ _ _ _).after h
  · exact (record_keeps _ _ _ _ _).after h

theorem remoteScoped_keeps (code : Nat) {op : Scope → Origin → State → State × Option Nat}
    (h : ∀ x o s, Keeps s (op x o s).1) (s : State) : Keeps s (remoteScoped code op s) := by
  unfold remoteScoped
  split
  · exact answerRemote_keeps _ (h _ _ s)
  · exact record_keeps _ _ _ _ s

theorem remoteShelve_keeps (s : State) : Keeps s (remoteShelve s) :=
  .ite (answerRemote_keeps _ (shelve_keeps _ _ s)) (record_keeps _ _ _ _ s)

end Sys2Proof.Machine
end

