-- ==== Sys2Proof/Laws/Operations.lean ====
section
/-! SUPPORT. What the shared operations answer: the tick's end, events, patterns, completions, hand-ons, front-end writes. -/

set_option Elab.async false

namespace Sys2Proof.Machine

/-! ## The shape of a command -/

theorem step_empty (s : State) (h : s.pending = []) : step s = .next s := by
  unfold step; rw [h]

theorem step_front (s : State) (c : Instr) (rest : List Instr) (h : s.pending = c :: rest) :
    step s = exec c { s with pending := rest } := by
  unfold step; rw [h]

theorem finishTick_idle {s : State} (h : s.gen.tickWork = []) : finishTick s = s := by
  unfold finishTick
  rw [if_pos h]

theorem finishTick_tickWork (s : State) : (finishTick s).gen.tickWork = [] := by
  unfold finishTick
  split_ifs with h
  · exact h
  · have settled : (settle (runAll s.gen.tickWork (s.setGen { s.gen with tickWork := [] }))).gen.tickWork
        = (runAll s.gen.tickWork (s.setGen { s.gen with tickWork := [] })).gen.tickWork :=
      settle_changes _ .genTickWork (by decide)
    have run : (runAll s.gen.tickWork (s.setGen { s.gen with tickWork := [] })).gen.tickWork = [] :=
      runAll_changes _ _ .genTickWork (by decide)
    rw [settled, run]

/-- Finishing a finished tick changes nothing, so every whole command may be read from a finished tick. -/
theorem whole_finishTick (f : State → State) (s : State) : whole f (finishTick s) = whole f s := by
  unfold whole
  rw [finishTick_idle (finishTick_tickWork s)]

theorem whole_idle {f : State → State} {s : State} (h : s.gen.tickWork = []) :
    whole f s = .next (settle (f s)) := by
  unfold whole
  rw [finishTick_idle h]

theorem whole_pending {f : State → State} {s t : State} (hf : ∀ s, (f s).pending = s.pending)
    (h : whole f s = .next t) : t.pending = s.pending := by
  cases h
  exact Eq.trans (Eq.trans (settle_changes _ .pending (by decide)) (hf _))
    (finishTick_changes s .pending (by decide))

/-! ## The settling -/

/-- The Loader's part of the settling: a first read that is raised begins its reload (R23, R40). -/
theorem settle_loader (s : State) :
    (settle s).loader = beginReload s.path.requests.config s.nextRequests.config s.loader := rfl

@[simp] theorem settle_pending (s : State) : (settle s).pending = s.pending := rfl
@[simp] theorem settle_ram (s : State) : (settle s).ram = s.ram := rfl
@[simp] theorem settle_evaluator (s : State) : (settle s).evaluator = s.evaluator := rfl
@[simp] theorem settle_ann (s : State) : (settle s).ann = s.ann := rfl
@[simp] theorem settle_gen (s : State) : (settle s).gen = s.gen := rfl
@[simp] theorem settle_chains (s : State) : (settle s).chains = s.chains := rfl
@[simp] theorem settle_cards (s : State) : (settle s).cards = s.cards := rfl

theorem settle_requests (s : State) :
    (settle s).path.requests = (syncPanel (syncStatus s)).nextRequests := rfl

/-- Nothing of the Loader moves where its request waits already. -/
theorem beginReload_waiting (r : ConfigRead) (x : Option ConfigRead) (l : Loader) :
    beginReload (some r) x l = l := rfl

/-- Nothing of the Loader moves where it raises no request. -/
theorem beginReload_none (x : Option ConfigRead) (l : Loader) : beginReload x none l = l := by
  cases x <;> rfl

/-- A reload under way stays as it is. -/
theorem beginReload_underWay (x y : Option ConfigRead) {l : Loader} {r : Reload} (h : l.reload = some r) :
    beginReload x y l = l := by
  unfold beginReload
  rw [h]
  split
  · rename_i e
    cases e
  · rfl

/-- In UNCONFIGURED the settling leaves the Loader as it is (R17, R18). -/
theorem settle_loader_unconfigured {s : State} (h : s.loader.cfg = .unconfigured) :
    (settle s).loader = s.loader := by
  have hc : s.configured = false := by unfold State.configured; rw [h]; rfl
  rw [settle_loader]
  unfold State.nextRequests nextRequest
  dsimp only
  rw [hc]
  cases s.path.requests.config with
  | none => simp only [Bool.false_eq_true, if_false, ite_self]; exact beginReload_none _ _
  | some r => rfl

/-! ## Events -/

theorem EventUnit.take_room {e : EventUnit} {r : EventRecord} (h : e.queue.length < Config.queueDepth) :
    e.take r = { e with queue := e.queue ++ [r] } := by
  unfold EventUnit.take; rw [if_pos h]

theorem EventUnit.take_full_held {e : EventUnit} {r : EventRecord} (h : ¬ e.queue.length < Config.queueDepth)
    (hh : e.ringHeld = true) (hl : e.lost < 65535) :
    e.take r = { e with lost := e.lost + 1, k18Owed := true } := by
  unfold EventUnit.take; rw [if_neg h, if_pos hh, if_pos hl]

theorem EventUnit.take_full_unheld {e : EventUnit} {r : EventRecord} (h : ¬ e.queue.length < Config.queueDepth)
    (hh : e.ringHeld = false) :
    e.take r = { e with sweepDiscards := min 65535 (e.sweepDiscards + 1) } := by
  unfold EventUnit.take; rw [if_neg h, if_neg (by simp [hh])]

theorem EventUnit.take_length {e : EventUnit} (r : EventRecord) (h : e.queue.length ≤ Config.queueDepth) :
    (e.take r).queue.length ≤ Config.queueDepth := by
  unfold EventUnit.take
  split_ifs with h1
  · rw [List.length_append]; exact h1
  all_goals exact h

theorem record_unconfigured {s : State} (h : s.loader.cfg = .unconfigured) (k : EventKind) (o : Origin)
    (a d : Nat) : record k o a d s = s := by
  unfold record State.configured
  simp [h]

theorem record_configured {s : State} (h : s.loader.cfg ≠ .unconfigured) (k : EventKind) (o : Origin)
    (a d : Nat) : record k o a d s = s.setEvents (s.events.take
      ⟨k, o, BitVec.ofNat 16 a, BitVec.ofNat 16 d, s.gen.seconds.setWidth 16⟩) := by
  unfold record State.configured
  simp [h]

/-! ## Lamp patterns -/

theorem touchWord_patterns (w : Nat) (s : State) : (touchWord w s).gen.patterns = s.gen.patterns := by
  unfold touchWord
  split_ifs <;> rfl

theorem setPattern_same (lamp : Nat) (p : Pattern) (s : State) :
    (setPattern lamp p s).patternOf lamp = p := by
  unfold setPattern
  split_ifs with h
  · exact h
  · unfold State.patternOf
    rw [touchWord_patterns]
    exact Table.val_assign_same _ _ _ _

theorem setPattern_other {lamp other : Nat} (p : Pattern) (s : State) (h : other ≠ lamp) :
    (setPattern lamp p s).patternOf other = s.patternOf other := by
  unfold setPattern
  split_ifs
  · rfl
  · unfold State.patternOf
    rw [touchWord_patterns]
    exact Table.val_assign_other _ _ _ h

/-! ## The Annunciator's records -/

theorem transition_record {s : State} {n : Nat} {r : AnnRec} (new : AnnState)
    (h : s.ann.records.look n = some r) :
    (transition n new s).ann.records = s.ann.records.put n { r with state := new } := by
  have e : ∀ t : State, (moveOnList n r.group r.state new t).ann.records = t.ann.records :=
    fun t => moveOnList_changes _ _ _ _ t .annRecords (by decide)
  unfold transition
  rw [h]
  dsimp only
  refine Eq.trans (handSummary_changes _ _ .annRecords (by decide)) ?_
  refine Eq.trans (handAlarm_changes _ _ .annRecords (by decide)) ?_
  refine congrArg (fun t => Table.put t n { r with state := new }) ?_
  exact Eq.trans (setCounts_changes _ _ _ .annRecords (by decide)) (e s)

theorem transition_state {s : State} {n : Nat} {r : AnnRec} (new : AnnState)
    (h : s.ann.records.look n = some r) : (transition n new s).annState n = some new := by
  unfold State.annState
  rw [transition_record new h, Table.look_put_same]
  rfl

theorem transition_other (s : State) {n m : Nat} (new : AnnState) (h : m ≠ n) :
    (transition n new s).annState m = s.annState m := by
  unfold State.annState
  cases hr : s.ann.records.look n with
  | none => unfold transition; rw [hr]
  | some r => rw [transition_record new hr, Table.look_put_other _ _ h]

/-! ## Completions and hand-ons -/

theorem complete_acts {α : Type} {sel : PartWork → Option α} {act : α → Word → State → State} {s : State}
    {a : PartAccess} {x : α} (h : s.path.partAccess = some a) (hs : sel a.work = some x)
    (hd : a.disregard = false) : complete sel act s = act x a.data (endAccess a s) := by
  unfold complete
  rw [h]
  dsimp only
  rw [hs]
  simp [hd]

theorem complete_disregarded {α : Type} {sel : PartWork → Option α} {act : α → Word → State → State}
    {s : State} {a : PartAccess} {x : α} (h : s.path.partAccess = some a) (hs : sel a.work = some x)
    (hd : a.disregard = true) : complete sel act s = endAccess a s := by
  unfold complete
  rw [h]
  dsimp only
  rw [hs]
  simp [hd]

theorem handOn_acts {α : Type} {sel : RegionWord → Word → Option α} {act : α → Word → State → State}
    {s : State} {r : RegionWord} {w : Word} {x : α} (h : s.regionItem = some (r, w))
    (hs : sel r w = some x) (hc : s.configured = true ∨ r = .k0) :
    handOn sel act s = act x w (popCapture s) := by
  unfold handOn
  rw [h]
  dsimp only
  rw [hs]
  simp [hc]

theorem handOn_discards {α : Type} {sel : RegionWord → Word → Option α} {act : α → Word → State → State}
    {s : State} {r : RegionWord} {w : Word} {x : α} (h : s.regionItem = some (r, w))
    (hs : sel r w = some x) (hc : ¬ (s.configured = true ∨ r = .k0)) :
    handOn sel act s = popCapture s := by
  unfold handOn
  rw [h]
  dsimp only
  rw [hs]
  simp [hc]

/-! ## Display patterns handed (R63, R113) -/

theorem handPatterns_other (l : List (Nat × Pattern)) (s : State) {lamp : Nat} (h : ∀ x ∈ l, x.1 ≠ lamp) :
    (handPatterns l s).patternOf lamp = s.patternOf lamp := by
  unfold handPatterns
  induction l generalizing s with
  | nil => rfl
  | cons y l ih =>
    rw [List.foldl_cons, ih _ (fun x hx => h x (by simp [hx]))]
    exact setPattern_other _ _ (Ne.symm (h y (by simp)))

theorem handPatterns_at (l : List (Nat × Pattern)) (s : State) (nodup : (l.map Prod.fst).Nodup)
    {x : Nat × Pattern} (h : x ∈ l) : (handPatterns l s).patternOf x.1 = x.2 := by
  induction l generalizing s with
  | nil => cases h
  | cons y l ih =>
    rw [List.map_cons, List.nodup_cons] at nodup
    rcases List.mem_cons.mp h with rfl | h
    · show (handPatterns l (setPattern x.1 x.2 s)).patternOf x.1 = x.2
      rw [handPatterns_other _ _ (fun y hy e => nodup.1 (by rw [← e]; exact List.mem_map_of_mem hy))]
      exact setPattern_same _ _ _
    · exact ih (setPattern y.1 y.2 s) nodup.2 h

theorem zip_keys_nodup (l : List Nat) (ps : List Pattern) (h : l.Nodup) :
    ((l.zip ps).map Prod.fst).Nodup := by
  induction l generalizing ps with
  | nil => simp
  | cons x l ih =>
    cases ps with
    | nil => simp
    | cons p ps =>
      rw [List.nodup_cons] at h
      rw [List.zip_cons_cons, List.map_cons, List.nodup_cons]
      refine ⟨fun hm => ?_, ih ps h.2⟩
      obtain ⟨y, hy, he⟩ := List.mem_map.mp hm
      change y.1 = x at he
      exact h.1 (by rw [← he]; exact (List.of_mem_zip (a := y.1) (b := y.2) hy).1)

theorem displayLamps_nodup (e : Entry) : e.displayLamps.Nodup := by
  unfold Entry.displayLamps
  split
  · simp
  · exact List.nodup_range.map (fun a b h => by simpa using h)
  · simp
  · simp

/-- A point's i-th display lamp shows the i-th of its patterns. -/
theorem handDisplay_at (e : Entry) (v : ValueRec) (s : State) {i lamp : Nat} {p : Pattern}
    (hl : e.displayLamps[i]? = some lamp) (hp : v.handed[i]? = some p) :
    (handDisplay e v s).patternOf lamp = p := by
  unfold handDisplay
  refine handPatterns_at _ s (zip_keys_nodup _ _ (displayLamps_nodup e)) (x := (lamp, p)) ?_
  refine List.mem_of_getElem? (i := i) ?_
  rw [List.getElem?_zip_eq_some]
  exact ⟨hl, hp⟩

theorem handDisplay_other (e : Entry) (v : ValueRec) (s : State) {lamp : Nat} (h : lamp ∉ e.displayLamps) :
    (handDisplay e v s).patternOf lamp = s.patternOf lamp := by
  unfold handDisplay
  exact handPatterns_other _ _ (fun x hx e => h (by
    rw [← e]; exact (List.of_mem_zip (a := x.1) (b := x.2) hx).1))

/-! ## Front-end writes -/

theorem takeWrite_unwatched {s : State} {a : Addr} (w : Word) (l : BitVec 2) (h : s.watched a = false) :
    takeWrite a w l s = storeWord a w l (setAccess none s) := by
  unfold takeWrite; simp [h]

theorem takeWrite_captured {s : State} {a : Addr} (w : Word) (l : BitVec 2) (h : s.watched a = true)
    (hr : s.captureRoom = true) :
    takeWrite a w l s = capture a w l (storeWord a w l (setAccess none s)) := by
  unfold takeWrite; simp [h, hr]

theorem takeWrite_held {s : State} {a : Addr} (w : Word) (l : BitVec 2) (h : s.watched a = true)
    (hr : s.captureRoom = false) :
    takeWrite a w l s = setAccess (some ⟨a, .write w l, .fullQueue⟩) s := by
  unfold takeWrite; simp [h, hr]

/-! ## Requests -/

/-- What a requester presents, whatever it wants and whatever is said of the access under way (R12). -/
theorem nextRequest_follows {α : Type} (waiting want : Option α) {busy : Bool} {underWay : Prop}
    (h : busy = true ↔ underWay) :
    requestFollows waiting underWay want (nextRequest waiting busy want) := by
  refine ⟨fun r hr => ?_, fun hn hu => ?_, fun hn hu => ?_⟩
  · rw [hr]; rfl
  · rw [hn, h.mpr hu]; rfl
  · rw [hn, Bool.eq_false_iff.mpr fun hb => hu (h.mp hb)]; rfl

/-- A requester is busy with an access of its own that is under way and not disregarded. -/
theorem busyWith_iff (s : State) (p : PartWork → Bool) :
    s.busyWith p = true ↔ ∃ w a d, p w = true ∧ s.underWay w a d := by
  unfold State.busyWith State.underWay
  cases s.path.partAccess with
  | none => simp
  | some x =>
    obtain ⟨w, a, d, disregard⟩ := x
    cases disregard <;> simp

/-! ## The lamp cards -/

/-- The frame at a card before which no damage was done (R128). -/
theorem frameAtCard_sent {arrivals : List (Nat × List Byte)} (sent : List Byte) {k : Nat}
    (h : ∀ x ∈ arrivals, k < x.1) : frameAtCard arrivals sent k = sent := by
  unfold frameAtCard
  induction arrivals with
  | nil => rfl
  | cons x l ih =>
    rw [List.foldl_cons, if_neg (Nat.not_le.mpr (h x List.mem_cons_self))]
    exact ih fun y hy => h y (List.mem_cons_of_mem _ hy)

/-- A strobe carried over a chain's first m card places: each card has taken its frame, and no other place has
changed (R128). -/
theorem strobe_places (c : ChainId) (n m : Nat) (arrivals : List (Nat × List Byte)) (sent : List Byte)
    (cards : Table Card) (place : Nat) :
    ((List.range m).foldl (fun t k => t.assign Card.off (cardPlace c k)
        ((t.val Card.off (cardPlace c k)).takeFrame n k (frameOfLength n (frameAtCard arrivals sent k))))
      cards).val Card.off place =
    if cardPlace c 0 ≤ place ∧ place < cardPlace c 0 + m then
      (cards.val Card.off place).takeFrame n (place - cardPlace c 0)
        (frameOfLength n (frameAtCard arrivals sent (place - cardPlace c 0)))
    else cards.val Card.off place := by
  have hm : ∀ m, cardPlace c m = cardPlace c 0 + m := fun m => by unfold cardPlace; omega
  induction m generalizing place with
  | zero => rw [if_neg (by omega)]; rfl
  | succ m ih =>
    rw [List.range_succ, List.foldl_append, List.foldl_cons, List.foldl_nil]
    by_cases hp : place = cardPlace c m
    · subst hp
      rw [Table.val_assign_same, ih, hm m, if_neg (by omega), if_pos (by omega), Nat.add_sub_cancel_left]
    · rw [Table.val_assign_other _ _ _ hp, ih]
      rw [hm m] at hp
      by_cases h : cardPlace c 0 ≤ place ∧ place < cardPlace c 0 + m
      · rw [if_pos h, if_pos (by omega)]
      · rw [if_neg h, if_neg (by omega)]

end Sys2Proof.Machine
end

