-- ==== Sys2Proof/Laws/Lists.lean ====
section
/-! SUPPORT. What keeps the unacknowledged list and the shelf exact, and every annunciation record with an INSTALLED point. -/

set_option Elab.async false

namespace Sys2Proof.Machine

/-! ## What a transition leaves -/

theorem annState_of_changes {l : List Part} {s t : State} (h : Changes l s t) (hl : .annRecords ∉ l)
    (n : Nat) : t.annState n = s.annState n :=
  congrArg (fun r : Table AnnRec => (r.look n).map AnnRec.state) (h .annRecords hl)

theorem annState_eq_none {s : State} {n : Nat} : s.annState n = none ↔ s.ann.records.look n = none :=
  Option.map_eq_none_iff

theorem look_of_annState {s : State} {n : Nat} {x : AnnState} (h : s.annState n = some x) :
    ∃ r, s.ann.records.look n = some r ∧ r.state = x :=
  Option.map_eq_some_iff.mp h

/-- A point without a record takes no transition. -/
theorem transition_none {s : State} {n : Nat} (new : AnnState) (h : s.annState n = none) :
    transition n new s = s := by
  unfold transition
  rw [annState_eq_none.mp h]

theorem leaveList_unack (n g : Nat) (s : State) :
    (leaveList n g s).ann.unack = s.ann.unack.filter (fun m => m != n) := by
  unfold leaveList
  dsimp only
  split_ifs <;> rfl

theorem joinList_unack (n g : Nat) (s : State) : (joinList n g s).ann.unack = s.ann.unack ++ [n] := by
  unfold joinList
  dsimp only
  split_ifs <;> rfl

theorem moveOnList_unack (n g : Nat) (old new : AnnState) (s : State) :
    (moveOnList n g old new s).ann.unack = match old.onList, new.onList with
      | true, false => s.ann.unack.filter (fun m => m != n)
      | false, true => s.ann.unack ++ [n]
      | true, true | false, false => s.ann.unack := by
  unfold moveOnList
  cases old.onList <;> cases new.onList
  · rfl
  · exact joinList_unack n g s
  · exact leaveList_unack n g s
  · rfl

theorem transition_unack {s : State} {n : Nat} {x : AnnState} (new : AnnState)
    (h : s.annState n = some x) : (transition n new s).ann.unack = match x.onList, new.onList with
      | true, false => s.ann.unack.filter (fun m => m != n)
      | false, true => s.ann.unack ++ [n]
      | true, true | false, false => s.ann.unack := by
  obtain ⟨r, hr, rfl⟩ := look_of_annState h
  unfold transition
  rw [hr]
  refine Eq.trans (handSummary_changes _ _ .annUnack (by decide)) ?_
  refine Eq.trans (handAlarm_changes _ _ .annUnack (by decide)) ?_
  exact moveOnList_unack n r.group r.state new s

theorem transition_shelf (n : Nat) (new : AnnState) (s : State) :
    (transition n new s).ann.shelf = s.ann.shelf :=
  transition_changes n new s .annShelf (by decide)

theorem AnnState.onList_iff (x : AnnState) : x.onList = true ↔ x = .new ∨ x = .fleeting := by
  cases x <;> decide

/-- A transition of a point that has a record keeps the list exact (R92). -/
theorem transition_list (n : Nat) (new : AnnState) {s : State} (h : s.listExact) :
    (transition n new s).listExact := by
  cases hx : s.annState n with
  | none => rw [transition_none new hx]; exact h
  | some x =>
    obtain ⟨r, hr, -⟩ := look_of_annState hx
    have hmem : n ∈ s.ann.unack ↔ x.onList = true := by
      rw [h.2 n, hx, x.onList_iff]
      simp
    have hstate : ∀ m, ((transition n new s).annState m = some .new
        ∨ (transition n new s).annState m = some .fleeting) ↔
        if m = n then new.onList = true else m ∈ s.ann.unack := by
      intro m
      split_ifs with hm
      · rw [hm, transition_state new hr, new.onList_iff]
        simp
      · rw [transition_other s new hm, h.2 m]
    unfold State.listExact
    simp only [hstate]
    rw [transition_unack new hx]
    cases hold : x.onList <;> cases hnew : new.onList <;> rw [hold] at hmem
    · refine ⟨h.1, fun m => ?_⟩
      split_ifs with hm
      · simp [hm, hmem]
      · rfl
    · refine ⟨List.nodup_append.mpr ⟨h.1, List.nodup_singleton n, ?_⟩, fun m => ?_⟩
      · rintro a ha b hb rfl
        rw [List.mem_singleton.mp hb, hmem] at ha
        cases ha
      · split_ifs with hm <;> simp [hm]
    · refine ⟨h.1.filter _, fun m => ?_⟩
      split_ifs with hm <;> simp [hm]
    · refine ⟨h.1, fun m => ?_⟩
      split_ifs with hm
      · simp [hm, hmem]
      · rfl

/-- A transition between two states off the shelf keeps the shelf exact (R102). -/
theorem transition_shelfExact {n : Nat} {new : AnnState} {s : State} (hn : new ≠ .shelved)
    (ho : s.annState n ≠ some .shelved) (h : s.shelfExact) : (transition n new s).shelfExact := by
  cases hx : s.annState n with
  | none => rw [transition_none new hx]; exact h
  | some x =>
    obtain ⟨r, hr, -⟩ := look_of_annState hx
    unfold State.shelfExact
    rw [transition_shelf]
    refine ⟨h.1, fun m => ?_⟩
    rw [h.2 m]
    by_cases hm : m = n
    · rw [hm, transition_state new hr]
      simp [ho, hn]
    · rw [transition_other s new hm]

/-- A transition gives its point the new state, where the point has a record, and moves no other. -/
theorem transition_annState (n m : Nat) (new : AnnState) (s : State) :
    (transition n new s).annState m =
      if m = n ∧ s.annState n ≠ none then some new else s.annState m := by
  cases hx : s.annState n with
  | none => rw [transition_none new hx, if_neg (fun h => h.2 rfl)]
  | some x =>
    obtain ⟨r, hr, -⟩ := look_of_annState hx
    by_cases hm : m = n
    · rw [hm, transition_state new hr, if_pos ⟨rfl, nofun⟩]
    · rw [transition_other s new hm, if_neg (fun h => hm h.1)]

/-- No point gains a record by a transition. -/
theorem transition_noRecord {n m : Nat} {new : AnnState} {s : State} (h : s.annState m = none) :
    (transition n new s).annState m = none := by
  rw [transition_annState, if_neg]
  · exact h
  · rintro ⟨rfl, hn⟩
    exact hn h

/-! ## Operations that keep list and shelf exact and give no point a record -/

/-- An operation keeps the list and the shelf exact, leaves no board second due at a shelf without an expiring
record, and gives no point an annunciation record. -/
structure ListsKept (s t : State) : Prop where
  list : s.listExact → t.listExact
  shelf : s.shelfExact → t.shelfExact
  due : s.dueExpires → t.dueExpires
  noRecord : ∀ n, s.annState n = none → t.annState n = none

theorem ListsKept.refl (s : State) : ListsKept s s := ⟨id, id, id, fun _ => id⟩

theorem ListsKept.trans {s t u : State} (h : ListsKept s t) (h' : ListsKept t u) : ListsKept s u :=
  ⟨h'.list ∘ h.list, h'.shelf ∘ h.shelf, h'.due ∘ h.due, fun n => h'.noRecord n ∘ h.noRecord n⟩

theorem ListsKept.after {s t u : State} (h' : ListsKept t u) (h : ListsKept s t) : ListsKept s u :=
  h.trans h'

theorem ListsKept.ite {c : Prop} {_ : Decidable c} {s t u : State} (h : ListsKept s t)
    (h' : ListsKept s u) : ListsKept s (if c then t else u) := by
  split
  · exact h
  · exact h'

theorem ListsKept.foldl {α : Type} {f : State → α → State} (h : ∀ s x, ListsKept s (f s x))
    (xs : List α) (s : State) : ListsKept s (xs.foldl f s) := by
  induction xs generalizing s with
  | nil => exact .refl s
  | cons x xs ih => exact (h s x).trans (ih (f s x))

/-- The parts that exactness speaks of. -/
def listParts : List Part := [.annRecords, .annUnack, .annShelf, .annShelfDue]

/-- An operation that leaves the shelf and what is due at it. -/
theorem dueExpires_of_changes {l : List Part} {s t : State} (h : Changes l s t) (h1 : .annShelf ∉ l)
    (h2 : .annShelfDue ∉ l) (e : s.dueExpires) : t.dueExpires := by
  have shelf : t.ann.shelf = s.ann.shelf := h _ h1
  have due : t.ann.shelfDue = s.ann.shelfDue := h _ h2
  unfold State.dueExpires State.shelfExpiring
  rw [shelf, due]
  exact e

theorem ListsKept.of_changes {l : List Part} {s t : State} (h : Changes l s t)
    (hl : listParts.all (fun p => !l.contains p) = true := by rfl) : ListsKept s t := by
  have same : ∀ p ∈ listParts, p ∉ l := fun p hp hpl => by
    simpa [hpl] using List.all_eq_true.mp hl p hp
  have unack : t.ann.unack = s.ann.unack := h _ (same .annUnack (by decide))
  have shelf : t.ann.shelf = s.ann.shelf := h _ (same .annShelf (by decide))
  have state := annState_of_changes h (same .annRecords (by decide))
  refine ⟨fun e => ?_, fun e => ?_, dueExpires_of_changes h (same .annShelf (by decide))
    (same .annShelfDue (by decide)), fun n e => (state n).trans e⟩
  · unfold State.listExact
    rw [unack]
    exact ⟨e.1, fun n => by rw [state n]; exact e.2 n⟩
  · unfold State.shelfExact
    rw [shelf]
    exact ⟨e.1, fun n => by rw [state n]; exact e.2 n⟩

theorem transition_lists {n : Nat} {new : AnnState} {s : State} (hn : new ≠ .shelved)
    (ho : s.annState n ≠ some .shelved) : ListsKept s (transition n new s) :=
  ⟨transition_list n new, transition_shelfExact hn ho,
    dueExpires_of_changes (transition_changes n new s) (by decide) (by decide), fun _ => transition_noRecord⟩

theorem record_lists (k : EventKind) (o : Origin) (a d : Nat) (s : State) :
    ListsKept s (record k o a d s) :=
  .of_changes (record_changes k o a d s)

theorem decideHorn_lists (s : State) : ListsKept s (decideHorn s) := .of_changes (decideHorn_changes s)

theorem takeReport_lists (n : Nat) (rep : Report) (s : State) : ListsKept s (takeReport n rep s) := by
  unfold takeReport
  split
  · rename_i new k d he
    have off : new ≠ .shelved ∧ s.annState n ≠ some .shelved := by
      cases hx : s.annState n with
      | none => rw [hx] at he; cases he
      | some x =>
        rw [hx] at he
        cases rep <;> cases x <;> cases he <;> decide
    exact (decideHorn_lists _).after ((record_lists _ _ _ _ _).after (transition_lists off.1 off.2))
  · exact .refl s

/-! ## The shelf -/

theorem mem_points_filter {n m : Nat} {l : List ShelfRec} :
    m ∈ (l.filter (fun x => x.point != n)).map ShelfRec.point ↔ m ≠ n ∧ m ∈ l.map ShelfRec.point := by
  simp only [List.mem_map, List.mem_filter, bne_iff_ne]
  constructor
  · rintro ⟨x, ⟨hx, hn⟩, rfl⟩
    exact ⟨hn, x, hx, rfl⟩
  · rintro ⟨hn, x, hx, rfl⟩
    exact ⟨x, ⟨hx, hn⟩, rfl⟩

/-- The shelf without one point. -/
theorem nodup_points_filter {n : Nat} {l : List ShelfRec} (h : (l.map ShelfRec.point).Nodup) :
    ((l.filter (fun x => x.point != n)).map ShelfRec.point).Nodup :=
  h.sublist (List.filter_sublist.map _)

theorem record_annState (k : EventKind) (o : Origin) (a d m : Nat) (s : State) :
    (record k o a d s).annState m = s.annState m :=
  annState_of_changes (record_changes k o a d s) (by decide) m

theorem unshelve_shelf (n : Nat) (a : AnnState) (d : Nat) (o : Origin) (s : State) :
    (unshelve n a d o s).ann.shelf = s.ann.shelf.filter (fun x => x.point != n) := by
  unfold unshelve
  refine Eq.trans (record_changes _ _ _ _ _ .annShelf (by decide)) ?_
  exact transition_shelf _ _ _

/-- The state that an unshelve leaves: chosen from the condition, where the point has a record (R104, R105). -/
theorem unshelve_state (n m : Nat) (a : AnnState) (d : Nat) (o : Origin) (s : State) :
    (unshelve n a d o s).annState m =
      if m = n ∧ s.annState n ≠ none then some (if s.isAbnormal n then a else .quiet)
      else s.annState m := by
  refine Eq.trans (record_annState _ _ _ _ m _) ?_
  exact transition_annState n m _ (s.setAnn { s.ann with
    shelf := s.ann.shelf.filter (fun x => x.point != n) })

theorem unshelve_noRecord {n m : Nat} (a : AnnState) (d : Nat) (o : Origin) {s : State}
    (h : s.annState m = none) : (unshelve n a d o s).annState m = none := by
  rw [unshelve_state, if_neg]
  · exact h
  · rintro ⟨rfl, hn⟩
    exact hn h

theorem unshelve_list (n : Nat) (a : AnnState) (d : Nat) (o : Origin) {s : State} (h : s.listExact) :
    (unshelve n a d o s).listExact :=
  (record_lists _ _ _ _ _).list (transition_list n _ h)

/-- No board second is left due at a shelf without an expiring record. -/
theorem finishShelf_due (s : State) : (finishShelf s).dueExpires := by
  unfold finishShelf
  split_ifs with h
  · nofun
  · intro hd
    by_contra hx
    exact h (by simp [hd, hx])

/-- What a due second's finishing does to the shelf, with whatever state it is told from (log 11). -/
theorem finishShelf_becomes {s u : State} (h : u.ann.shelfDue = s.ann.shelfDue) :
    s.shelfBecomes (finishShelf u) u.ann.shelf := by
  have stays : u.shelfExpiring = false ↔ ∀ x ∈ u.ann.shelf, 1 < x.seconds := by
    unfold State.shelfExpiring
    simp
  have counts : (u.ann.shelfDue && !u.shelfExpiring) = true
      ↔ u.ann.shelfDue = true ∧ ∀ x ∈ u.ann.shelf, 1 < x.seconds := by
    rw [Bool.and_eq_true, Bool.not_eq_true', stays]
  unfold State.shelfBecomes State.shelfLeft finishShelf
  rw [← h]
  simp only [counts]
  split_ifs with hc
  · exact ⟨rfl, nofun, fun ⟨_, x, hm, hs⟩ => absurd (hc.2 x hm) (by omega)⟩
  · refine ⟨rfl, fun hd => ⟨hd, ?_⟩, And.left⟩
    by_contra hn
    exact hc ⟨hd, fun x hm => by_contra fun hl => hn ⟨x, hm, by omega⟩⟩

theorem finishShelf_points (s : State) :
    (finishShelf s).ann.shelf.map ShelfRec.point = s.ann.shelf.map ShelfRec.point := by
  unfold finishShelf
  split_ifs
  · exact List.map_map
  · rfl

theorem finishShelf_lists (s : State) : ListsKept s (finishShelf s) := by
  have state := annState_of_changes (finishShelf_changes s) (by decide)
  have unack : (finishShelf s).ann.unack = s.ann.unack := finishShelf_changes s .annUnack (by decide)
  refine ⟨fun h => ?_, fun h => ?_, fun _ => finishShelf_due s, fun n hn => (state n).trans hn⟩
  · unfold State.listExact
    rw [unack]
    exact ⟨h.1, fun n => by rw [state n]; exact h.2 n⟩
  · unfold State.shelfExact
    rw [finishShelf_points]
    exact ⟨h.1, fun n => by rw [state n]; exact h.2 n⟩

theorem unshelve_shelfExact (n : Nat) {a : AnnState} (d : Nat) (o : Origin) {s : State} (ha : a ≠ .shelved)
    (h : s.shelfExact) : (unshelve n a d o s).shelfExact := by
  unfold State.shelfExact
  rw [unshelve_shelf]
  refine ⟨nodup_points_filter h.1, fun m => ?_⟩
  rw [mem_points_filter, unshelve_state, h.2 m]
  by_cases hm : m = n
  · subst hm
    by_cases hx : s.annState m = none
    · simp [hx]
    · rw [if_pos ⟨rfl, hx⟩]
      split_ifs <;> simp [ha]
  · simp [hm]

/-- An operator unshelve, with the board second that is then finished at the shelf. -/
theorem unshelved_lists (n : Nat) {a : AnnState} (d : Nat) (o : Origin) (s : State) (ha : a ≠ .shelved) :
    ListsKept s (finishShelf (unshelve n a d o s)) := by
  have f := finishShelf_lists (unshelve n a d o s)
  exact ⟨fun h => f.list (unshelve_list n a d o h), fun h => f.shelf (unshelve_shelfExact n d o ha h),
    fun _ => finishShelf_due _, fun m h => f.noRecord m (unshelve_noRecord a d o h)⟩

/-- The shelf that an operator unshelve leaves (R105, log 11). -/
theorem unshelved_becomes (n : Nat) (a : AnnState) (d : Nat) (o : Origin) (s : State) :
    s.shelfBecomes (finishShelf (unshelve n a d o s)) (s.ann.shelf.filter (fun x => x.point != n)) := by
  have due : (unshelve n a d o s).ann.shelfDue = s.ann.shelfDue :=
    Eq.trans (record_changes _ _ _ _ _ .annShelfDue (by decide))
      (transition_changes _ _ _ .annShelfDue (by decide))
  have h := finishShelf_becomes due
  rwa [unshelve_shelf] at h

/-- The shelf that a shelve or a reshelve leaves (R103, log 11). -/
theorem shelveAccepted_becomes (n : Nat) (o : Origin) (s : State) :
    s.shelfBecomes (shelveAccepted n o s)
      (s.ann.shelf.filter (fun x => x.point != n) ++ [⟨n, s.ann.shelveMinutes * 60⟩]) := by
  let u := record .shelved o n s.ann.shelveMinutes (transition n .shelved (s.setAnn { s.ann with
    shelf := s.ann.shelf.filter (fun x => x.point != n) ++ [⟨n, s.ann.shelveMinutes * 60⟩] }))
  have due : u.ann.shelfDue = s.ann.shelfDue :=
    Eq.trans (record_changes _ _ _ _ _ .annShelfDue (by decide))
      (transition_changes _ _ _ .annShelfDue (by decide))
  have shelf : u.ann.shelf =
      s.ann.shelf.filter (fun x => x.point != n) ++ [⟨n, s.ann.shelveMinutes * 60⟩] :=
    Eq.trans (record_changes _ _ _ _ _ .annShelf (by decide)) (transition_shelf _ _ _)
  have h := finishShelf_becomes due
  rwa [shelf] at h

theorem ackPoint_lists (o : Origin) (n : Nat) (s : State) : ListsKept s (ackPoint o n s) := by
  unfold ackPoint
  split
  · rename_i hx
    exact (record_lists _ _ _ _ _).after (transition_lists (by decide) (by rw [hx]; decide))
  · rename_i hx
    exact (record_lists _ _ _ _ _).after (transition_lists (by decide) (by rw [hx]; decide))
  · exact unshelved_lists _ _ _ _ (by decide)
  all_goals exact .refl s

theorem clearPoint_lists (o : Origin) (n : Nat) (s : State) : ListsKept s (clearPoint o n s) := by
  unfold clearPoint
  split
  · rename_i hx
    exact (record_lists _ _ _ _ _).after (transition_lists (by decide) (by rw [hx]; decide))
  all_goals exact .refl s

theorem overPoints_lists {act : Nat → State → State} (h : ∀ n s, ListsKept s (act n s))
    (points : List Nat) (s : State) : ListsKept s (overPoints act points s) :=
  ListsKept.foldl (fun s n => h n s) points s

theorem acknowledge_lists (x : Scope) (o : Origin) (s : State) : ListsKept s (acknowledge x o s).1 := by
  unfold acknowledge
  split
  · exact .refl s
  · exact (decideHorn_lists _).after (overPoints_lists (ackPoint_lists o) _ s)

theorem clear_lists (x : Scope) (o : Origin) (s : State) : ListsKept s (clear x o s).1 := by
  unfold clear
  split
  · exact .refl s
  · exact (decideHorn_lists _).after (overPoints_lists (clearPoint_lists o) _ s)

/-- A point that has a record is put on the shelf, at its end (R103). -/
theorem shelveAccepted_lists {n : Nat} (o : Origin) {s : State} (hr : s.annState n ≠ none) :
    ListsKept s (shelveAccepted n o s) := by
  let u := s.setAnn { s.ann with
    shelf := s.ann.shelf.filter (fun x => x.point != n) ++ [⟨n, s.ann.shelveMinutes * 60⟩] }
  have f := (finishShelf_lists _).after (record_lists .shelved o n s.ann.shelveMinutes (transition n .shelved u))
  unfold shelveAccepted
  refine (decideHorn_lists _).after ⟨fun h => f.list (transition_list n _ h), fun h => f.shelf ?_,
    fun _ => finishShelf_due _, fun m hm => f.noRecord m (transition_noRecord hm)⟩
  obtain ⟨x, hx⟩ := Option.ne_none_iff_exists'.mp hr
  unfold State.shelfExact
  rw [transition_shelf]
  show ((s.ann.shelf.filter (fun x : ShelfRec => x.point != n)
      ++ [(⟨n, s.ann.shelveMinutes * 60⟩ : ShelfRec)]).map ShelfRec.point).Nodup
    ∧ ∀ m, m ∈ (s.ann.shelf.filter (fun x : ShelfRec => x.point != n)
      ++ [(⟨n, s.ann.shelveMinutes * 60⟩ : ShelfRec)]).map ShelfRec.point ↔ _
  rw [List.map_append]
  refine ⟨List.nodup_append.mpr ⟨nodup_points_filter h.1, List.nodup_singleton _, ?_⟩, fun m => ?_⟩
  · rintro a ha b hb rfl
    exact (mem_points_filter.mp ha).1 (List.mem_singleton.mp hb)
  · have state := transition_annState n m .shelved (s.setAnn { s.ann with
      shelf := s.ann.shelf.filter (fun x => x.point != n) ++ [⟨n, s.ann.shelveMinutes * 60⟩] })
    refine Iff.trans ?_ (iff_of_eq (congrArg (· = some AnnState.shelved) state.symm))
    show _ ↔ (if m = n ∧ s.annState n ≠ none then some AnnState.shelved else s.annState m) = _
    rw [List.mem_append, mem_points_filter, h.2 m]
    by_cases hm : m = n <;> simp [hm, hx]

theorem shelve_lists (n : Nat) (o : Origin) (s : State) : ListsKept s (shelve n o s).1 := by
  unfold shelve
  split
  · exact .refl s
  · rename_i hs
    refine shelveAccepted_lists o (fun hn => ?_)
    unfold State.shelveRefusal State.pointRefusal at hs
    rw [annState_eq_none.mp hn] at hs
    split_ifs at hs
    contradiction

theorem silence_lists (s : State) : ListsKept s (silence s) := .of_changes (silence_changes s)

/-! ## The board second at the shelf (R104) -/

/-- Several points come off the shelf in turn: those with a record take the state of their condition, and no
other point moves. -/
theorem unshelveAll_state (a : AnnState) (d : Nat) (o : Origin) (l : List Nat) (s : State) (m : Nat) :
    (overPoints (fun n => unshelve n a d o) l s).annState m =
      if m ∈ l ∧ s.annState m ≠ none then some (if s.isAbnormal m then a else .quiet)
      else s.annState m := by
  induction l generalizing s with
  | nil => simp [overPoints]
  | cons n l ih =>
    have hab : (unshelve n a d o s).isAbnormal m = s.isAbnormal m :=
      congrArg (fun v : Table ValueRec => match v.look m with
        | some v => v.condition != Condition.normal
        | none => false) (unshelve_changes n a d o s .evaluatorValues (by decide))
    show (overPoints (fun n => unshelve n a d o) l (unshelve n a d o s)).annState m = _
    rw [ih, hab, unshelve_state]
    by_cases hm : m = n
    · subst hm
      by_cases hx : s.annState m = none
      · simp [hx]
      · by_cases hl : m ∈ l <;> simp [hx, hl]
    · simp [hm]

theorem unshelveAll_shelf (a : AnnState) (d : Nat) (o : Origin) (l : List Nat) (s : State) :
    (overPoints (fun n => unshelve n a d o) l s).ann.shelf =
      s.ann.shelf.filter (fun x => !l.contains x.point) := by
  induction l generalizing s with
  | nil => simp [overPoints]
  | cons n l ih =>
    show (overPoints (fun n => unshelve n a d o) l (unshelve n a d o s)).ann.shelf = _
    rw [ih, unshelve_shelf, List.filter_filter]
    refine List.filter_congr (fun x _ => ?_)
    by_cases hx : x.point = n <;> simp [hx]

theorem unshelveAll_due (a : AnnState) (d : Nat) (o : Origin) (l : List Nat) (s : State) :
    (overPoints (fun n => unshelve n a d o) l s).ann.shelfDue = s.ann.shelfDue := by
  refine overPoints_changes (l := .annShelf :: reportParts) (fun n s => ?_) l s .annShelfDue (by decide)
  exact ((setShelf_changes _ s).then (transition_changes _ _ _) (k := .annShelf :: reportParts)).then
    (record_changes _ _ _ _ _)

theorem unshelveAll_list (a : AnnState) (d : Nat) (o : Origin) (l : List Nat) {s : State}
    (h : s.listExact) : (overPoints (fun n => unshelve n a d o) l s).listExact := by
  unfold overPoints
  induction l generalizing s with
  | nil => exact h
  | cons n l ih => exact ih (unshelve_list n a d o h)

/-- The points of a lowered shelf: those that stay and those that expire, each once. -/
theorem lowerShelf_points (l : List ShelfRec) (m : Nat) :
    m ∈ l.map ShelfRec.point ↔
      m ∈ (lowerShelf l).1.map ShelfRec.point ∨ m ∈ (lowerShelf l).2 := by
  unfold lowerShelf
  simp only [List.mem_map, List.mem_filter, bne_iff_ne, beq_iff_eq]
  constructor
  · rintro ⟨x, hx, rfl⟩
    by_cases h : x.seconds - 1 = 0
    · exact Or.inr ⟨_, ⟨⟨x, hx, rfl⟩, h⟩, rfl⟩
    · exact Or.inl ⟨_, ⟨⟨x, hx, rfl⟩, h⟩, rfl⟩
  · rintro (⟨_, ⟨⟨x, hx, rfl⟩, -⟩, rfl⟩ | ⟨_, ⟨⟨x, hx, rfl⟩, -⟩, rfl⟩) <;> exact ⟨x, hx, rfl⟩

theorem lowerShelf_nodup {l : List ShelfRec} (h : (l.map ShelfRec.point).Nodup) :
    ((lowerShelf l).1.map ShelfRec.point).Nodup := by
  refine List.Nodup.sublist (List.filter_sublist.map _) ?_
  rwa [List.map_map]

/-- A point that stays on the lowered shelf does not expire. -/
theorem lowerShelf_apart {l : List ShelfRec} (h : (l.map ShelfRec.point).Nodup) {m : Nat}
    (h1 : m ∈ (lowerShelf l).1.map ShelfRec.point) : m ∉ (lowerShelf l).2 := by
  intro h2
  unfold lowerShelf at h1 h2
  simp only [List.mem_map, List.mem_filter, bne_iff_ne, beq_iff_eq] at h1 h2
  obtain ⟨_, ⟨⟨x, hx, rfl⟩, hs⟩, rfl⟩ := h1
  obtain ⟨_, ⟨⟨y, hy, rfl⟩, ht⟩, e⟩ := h2
  have : y = x := List.inj_on_of_nodup_map h hy hx e
  subst this
  exact hs ht

theorem shelfSecond_lists (s : State) : ListsKept s (shelfSecond s) := by
  unfold shelfSecond
  refine (decideHorn_lists _).after ⟨fun h => unshelveAll_list _ _ _ _ h, fun h => ?_, fun _ hd => ?_,
    fun n hn => ?_⟩
  · unfold State.shelfExact
    rw [unshelveAll_shelf]
    have stay : (lowerShelf s.ann.shelf).1.filter
        (fun x : ShelfRec => !(lowerShelf s.ann.shelf).2.contains x.point) = (lowerShelf s.ann.shelf).1 := by
      refine List.filter_eq_self.mpr (fun x hx => ?_)
      simpa using lowerShelf_apart h.1 (List.mem_map_of_mem hx)
    show (((lowerShelf s.ann.shelf).1.filter
      (fun x : ShelfRec => !(lowerShelf s.ann.shelf).2.contains x.point)).map ShelfRec.point).Nodup ∧ ∀ m,
      m ∈ ((lowerShelf s.ann.shelf).1.filter
        (fun x : ShelfRec => !(lowerShelf s.ann.shelf).2.contains x.point)).map ShelfRec.point ↔ _
    rw [stay]
    refine ⟨lowerShelf_nodup h.1, fun m => ?_⟩
    rw [unshelveAll_state]
    have hp := (lowerShelf_points s.ann.shelf m).symm.trans (h.2 m)
    have hs : ∀ (x : List ShelfRec) (y : Bool) k,
        (s.setAnn { s.ann with shelf := x, shelfDue := y }).annState k = s.annState k := fun _ _ _ => rfl
    rw [hs]
    by_cases he : m ∈ (lowerShelf s.ann.shelf).2
    · have hm := hp.mp (Or.inr he)
      rw [if_pos ⟨he, by rw [hm]; nofun⟩]
      refine ⟨fun h1 => absurd he (lowerShelf_apart h.1 h1), fun h1 => ?_⟩
      split_ifs at h1 <;> cases h1
    · rw [if_neg (fun h => he h.1), ← hp]
      simp [he]
  · rw [unshelveAll_due] at hd
    cases hd
  · rw [unshelveAll_state, if_neg (fun h => h.2 hn)]
    exact hn

/-! ## The Point Evaluator and the tick -/

theorem judgeValue_lists (w : Word) (n : Nat) (s : State) : ListsKept s (judgeValue w n s) := by
  unfold judgeValue
  split
  · exact (takeReport_lists _ _ _).after ((ListsKept.of_changes (handDisplay_changes _ _ _)).after
      ((ListsKept.of_changes (setValue_changes _ _ _)).after (.of_changes (freshen_changes _ _ _ s))))
  · exact .refl s

theorem ageAt_lists (n : Nat) (e : Entry) (v : ValueRec) (s : State) : ListsKept s (ageAt n e v s) := by
  unfold ageAt becomeStale
  exact .ite ((ListsKept.of_changes (handDisplay_changes _ _ _)).after
    ((ListsKept.of_changes (staleReport_changes _ _)).after ((record_lists _ _ _ _ _).after
      (.of_changes (setValue_changes _ _ s))))) (.of_changes (setValue_changes _ _ s))

theorem timerAt_lists (n : Nat) (s : State) : ListsKept s (timerAt n s) := by
  unfold timerAt
  split
  · exact .ite ((takeReport_lists _ _ _).after (.of_changes (setValue_changes _ _ s)))
      (.of_changes (setValue_changes _ _ s))
  · exact .refl s

theorem secondAt_lists (n : Nat) (s : State) : ListsKept s (secondAt n s) := by
  unfold secondAt
  split
  · exact (timerAt_lists _ _).after ((ageAt_lists _ _ _ _).after (.of_changes (dropDue_changes _ s)))
  · exact .of_changes (dropDue_changes _ s)

theorem evaluateLater_lists (w : Word) (n : Nat) (s : State) : ListsKept s (evaluateLater w n s) :=
  (judgeValue_lists w n s).trans (.ite (secondAt_lists _ _) (.refl _))

theorem handSecond_lists (s : State) : ListsKept s (handSecond s) := by
  have first : ListsKept s (let s := overPoints secondAt s.evaluator.secondDue s
      if s.ann.shelfDue then shelfSecond s else s) :=
    (overPoints_lists secondAt_lists _ s).trans (.ite (shelfSecond_lists _) (.refl _))
  unfold handSecond
  dsimp only at first ⊢
  refine first.trans ?_
  generalize (if (overPoints secondAt s.evaluator.secondDue s).ann.shelfDue = true then
    shelfSecond (overPoints secondAt s.evaluator.secondDue s)
    else overPoints secondAt s.evaluator.secondDue s) = u
  refine (overPoints_lists secondAt_lists
    ((u.evaluator.values.map Prod.fst).filter (fun n => !u.crossing n)) u).trans ?_
  generalize overPoints secondAt _ u = v
  refine ListsKept.trans (.of_changes (setSecondDue_changes
    ((u.evaluator.values.map Prod.fst).filter u.crossing) v)) ?_
  split
  · rename_i hx
    refine ⟨id, id, fun _ _ => hx, fun _ => id⟩
  · exact shelfSecond_lists _

theorem evaluateItem_lists (k : Nat) (s : State) : ListsKept s (evaluateItem k s) := by
  unfold evaluateItem
  split
  · exact .refl s
  · exact (ListsKept.of_changes (setItem_changes _ _)).after
      (overPoints_lists (evaluateLater_lists _) _ s)

theorem runWork_lists (w : TickWork) (s : State) : ListsKept s (runWork w s) := by
  cases w with
  | boardSecond => exact (handSecond_lists _).after (.of_changes (setGen_seconds_changes _ s))
  | frameSlot => exact .of_changes (giveFrames_changes s)
  | keyRelease | phaseBoundary | settleEnd | lampTestEnd => exact ⟨id, id, id, fun _ => id⟩

theorem runAll_lists (l : List TickWork) (s : State) : ListsKept s (runAll l s) :=
  ListsKept.foldl (fun s w => runWork_lists w s) l s

theorem finishTick_lists (s : State) : ListsKept s (finishTick s) :=
  .ite (.refl s) ((ListsKept.of_changes (settle_changes _)).after ((runAll_lists _ _).after
    (.of_changes (setTickWork_changes [] s))))

theorem runThrough_lists (w : TickWork) (s : State) : ListsKept s (runThrough w s) :=
  .ite ((runAll_lists _ _).after (.of_changes (setTickWork_changes _ s))) (.refl s)

/-! ## Records and INSTALLED points -/

/-- The list and the shelf are exact, and the records belong to INSTALLED points. -/
structure State.Exact (s : State) : Prop where
  list : s.listExact
  shelf : s.shelfExact
  due : s.dueExpires
  joined : s.joined

/-- The parts that say which points are INSTALLED and which are being installed. -/
def joinedParts : List Part := [.loaderPoints, .loaderReload, .evaluatorFirstValue]

/-- An operation that keeps list and shelf exact and moves no installed point. -/
theorem ListsKept.exact {l : List Part} {s t : State} (k : ListsKept s t) (h : Changes l s t)
    (hl : joinedParts.all (fun p => !l.contains p) = true := by rfl) (e : s.Exact) : t.Exact := by
  have same : ∀ p ∈ joinedParts, p.same s t := fun p hp => h p (fun hpl => by
    simpa [hpl] using List.all_eq_true.mp hl p hp)
  have points : t.loader.points = s.loader.points := same .loaderPoints (by decide)
  have reload : t.loader.reload = s.loader.reload := same .loaderReload (by decide)
  have first : t.evaluator.firstValue = s.evaluator.firstValue := same .evaluatorFirstValue (by decide)
  refine ⟨k.list e.list, k.shelf e.shelf, k.due e.due, fun n hn => ?_, fun n w hw => ?_, fun r hr hs => ?_⟩
  · have := e.joined.1 n (fun h => hn (k.noRecord n h))
    unfold State.entryOf State.point at this ⊢
    rw [points]
    exact this
  · exact k.noRecord n (e.joined.2.1 n w (first ▸ hw))
  · exact k.noRecord _ (e.joined.2.2 r (reload ▸ hr) hs)

/-- An operation outside all of those parts. -/
theorem State.Exact.of_changes {l : List Part} {s t : State} (e : s.Exact) (h : Changes l s t)
    (hl : listParts.all (fun p => !l.contains p) = true := by rfl)
    (hj : joinedParts.all (fun p => !l.contains p) = true := by rfl) : t.Exact :=
  (ListsKept.of_changes h hl).exact h hj e

/-- The reload that is begun, ended, or set to a point without a record. -/
theorem State.Exact.setReload {s : State} (x : Option Reload) (e : s.Exact)
    (hx : ∀ r, x = some r → r.stage ≠ .entry → s.annState r.point = none) :
    (s.setLoader { s.loader with reload := x }).Exact :=
  ⟨e.list, e.shelf, e.due, e.joined.1, e.joined.2.1, hx⟩

theorem point_setPoint (n m : Nat) (x : PointRec) (s : State) :
    (setPoint n x s).point m = if m = n then x else s.point m := by
  unfold setPoint State.point
  split_ifs with h
  · rw [h]
    exact Table.val_assign_same _ _ _ _
  · exact Table.val_assign_other _ _ _ h

/-- A point without a record takes any held record. -/
theorem State.Exact.setPoint {s : State} {n : Nat} (x : PointRec) (e : s.Exact)
    (hn : s.annState n = none) : (setPoint n x s).Exact := by
  refine ⟨e.list, e.shelf, e.due, fun m hm => ?_, e.joined.2.1, e.joined.2.2⟩
  unfold State.entryOf
  rw [point_setPoint, if_neg]
  · exact e.joined.1 m hm
  · rintro rfl
    exact hm hn

theorem settle_exact {s : State} (e : s.Exact) : (settle s).Exact := by
  have e' := e.of_changes ((syncStatus_changes s).then (syncPanel_changes _) (k := settleParts.dropLast))
  refine ⟨e'.list, e'.shelf, e'.due, fun n hn => ?_, e'.joined.2.1, fun r hr hs => ?_⟩
  · have h : (settle s).loader.points = s.loader.points := settle_changes s .loaderPoints (by decide)
    unfold State.entryOf State.point
    rw [h]
    exact e.joined.1 n hn
  · rw [settle_loader] at hr
    unfold beginReload at hr
    split at hr
    · cases hr
      exact absurd rfl hs
    · exact e.joined.2.2 r hr hs

/-! ## Removal and install -/

theorem annRemove_state (n m : Nat) (s : State) :
    (annRemove n s).annState m = if m = n then none else s.annState m := by
  unfold annRemove
  cases hr : s.ann.records.look n with
  | none =>
    split_ifs with hm
    · rw [hm]
      exact annState_eq_none.mpr hr
    · rfl
  | some r =>
    dsimp only
    have records : (if r.state.onList then leaveList n r.group s else s).ann.records = s.ann.records :=
      Changes.ite (leaveList_changes n r.group s) (.refl _ s) .annRecords (by decide)
    refine Eq.trans (annState_of_changes (decideHorn_changes _) (by decide) m) ?_
    refine Eq.trans (annState_of_changes (finishShelf_changes _) (by decide) m) ?_
    refine Eq.trans (annState_of_changes (handSummary_changes _ _) (by decide) m) ?_
    show (((if r.state.onList then leaveList n r.group s else s).ann.records.del n).look m).map
      AnnRec.state = _
    rw [records]
    split_ifs with hm
    · rw [hm, Table.look_del_same]
      rfl
    · rw [Table.look_del_other _ hm]
      rfl

theorem annRemove_unack {n : Nat} {r : AnnRec} {s : State} (h : s.ann.records.look n = some r) :
    (annRemove n s).ann.unack =
      if r.state.onList then s.ann.unack.filter (fun m => m != n) else s.ann.unack := by
  unfold annRemove
  rw [h]
  refine Eq.trans (finishShelf_changes _ .annUnack (by decide)) ?_
  refine Eq.trans (handSummary_changes _ _ .annUnack (by decide)) ?_
  show (if r.state.onList then leaveList n r.group s else s).ann.unack = _
  split_ifs
  · exact leaveList_unack n r.group s
  · rfl

theorem annRemove_shelf {n : Nat} {r : AnnRec} {s : State} (h : s.ann.records.look n = some r) :
    (annRemove n s).ann.shelf.map ShelfRec.point =
      (s.ann.shelf.filter (fun x => x.point != n)).map ShelfRec.point := by
  unfold annRemove
  rw [h]
  refine Eq.trans (finishShelf_points _) ?_
  refine congrArg (List.map _) (Eq.trans (handSummary_changes _ _ .annShelf (by decide)) ?_)
  refine congrArg (List.filter _) ?_
  exact Changes.ite (leaveList_changes n r.group s) (.refl _ s) .annShelf (by decide)

/-- The shelf that a removal leaves (R44, log 11). -/
theorem annRemove_becomes {n : Nat} {r : AnnRec} {s : State} (h : s.ann.records.look n = some r) :
    s.shelfBecomes (annRemove n s) (s.ann.shelf.filter (fun x => x.point != n)) := by
  let left := if r.state.onList then leaveList n r.group s else s
  have same : Changes _ s left := .ite (leaveList_changes n r.group s) (.refl _ s)
  let counted := setCounts r.group ((left.counts r.group).exit r.state) left
  let u := handSummary r.group (counted.setAnn { counted.ann with
    records := counted.ann.records.del n
    shelf := counted.ann.shelf.filter (fun x => x.point != n) })
  have due : u.ann.shelfDue = s.ann.shelfDue :=
    Eq.trans (handSummary_changes _ _ .annShelfDue (by decide)) (same .annShelfDue (by decide))
  have shelf : u.ann.shelf = s.ann.shelf.filter (fun x => x.point != n) :=
    Eq.trans (handSummary_changes _ _ .annShelf (by decide))
      (congrArg (List.filter _) (same .annShelf (by decide)))
  have k := finishShelf_becomes due
  rw [shelf] at k
  unfold annRemove
  rw [h]
  exact k

theorem annRemove_lists (n : Nat) (s : State) : ListsKept s (annRemove n s) := by
  cases hr : s.ann.records.look n with
  | none =>
    have : annRemove n s = s := by
      unfold annRemove
      rw [hr]
    rw [this]
    exact .refl s
  | some r =>
    refine ⟨fun h => ?_, fun h => ?_, fun _ => ?_, fun m hm => ?_⟩
    · have hn : s.annState n = some r.state := by
        unfold State.annState
        rw [hr]
        rfl
      have hu : (annRemove n s).ann.unack = s.ann.unack.filter (fun m => m != n) := by
        rw [annRemove_unack hr]
        split_ifs with ho
        · rfl
        · refine (List.filter_eq_self.mpr (fun m hm => ?_)).symm
          rw [bne_iff_ne]
          rintro rfl
          have := (h.2 m).mp hm
          rw [hn] at this
          exact ho (r.state.onList_iff.mpr (by simpa using this))
      unfold State.listExact
      rw [hu]
      refine ⟨h.1.filter _, fun m => ?_⟩
      rw [annRemove_state, List.mem_filter, h.2 m]
      by_cases hm : m = n <;> simp [hm]
    · unfold State.shelfExact
      rw [annRemove_shelf hr]
      refine ⟨nodup_points_filter h.1, fun m => ?_⟩
      rw [mem_points_filter, annRemove_state, h.2 m]
      by_cases hm : m = n <;> simp [hm]
    · unfold annRemove
      rw [hr]
      exact dueExpires_of_changes (decideHorn_changes _) (by decide) (by decide) (finishShelf_due _)
    · rw [annRemove_state]
      split_ifs
      · rfl
      · exact hm

/-- The removal of a point outside the Annunciator. -/
theorem removePoint_annState (n m : Nat) {s : State} {e : Entry} (h : s.entryOf n = some e) :
    (removePoint n s).annState m = if m = n then none else s.annState m := by
  unfold removePoint
  rw [h, ← annRemove_state]
  refine annState_of_changes (l := removalParts.diff [.annRecords]) ?_ (by decide) m
  refine (setInstalled_changes _ _).after ?_
  refine (setPoint_changes _ _ _).after ?_
  refine (releaseLamps_changes _ _).after ?_
  refine (dropPairs_changes _ _).after ?_
  exact (evaluatorRemove_changes _ _ _).mono

/-- After a removal the point has no record (R44). -/
theorem removePoint_noRecord (n : Nat) {s : State} (e : s.Exact) :
    (removePoint n s).annState n = none := by
  cases h : s.entryOf n with
  | some x => rw [removePoint_annState n n h, if_pos rfl]
  | none =>
    have : removePoint n s = s := by
      unfold removePoint
      rw [h]
    rw [this]
    by_contra hn
    exact (e.joined.1 n hn).2 h

theorem removePoint_exact (n : Nat) {s : State} (e : s.Exact) : (removePoint n s).Exact := by
  unfold removePoint
  split
  · exact e
  · rename_i x hx
    have e1 := (annRemove_lists n s).exact (annRemove_changes n s) (e := e)
    have e2 := e1.of_changes (evaluatorRemove_changes n x.group _)
    have e3 := e2.of_changes ((dropPairs_changes n _).then (releaseLamps_changes x.lamps _)
      (k := .loaderWatch :: .loaderClaims :: imageParts))
    refine (e3.setPoint PointRec.absent ?_).of_changes (setInstalled_changes _ _)
    refine Eq.trans (annState_of_changes (releaseLamps_changes _ _) (by decide) n) ?_
    refine Eq.trans (annState_of_changes (dropPairs_changes _ _) (by decide) n) ?_
    refine Eq.trans (annState_of_changes (evaluatorRemove_changes _ _ _) (by decide) n) ?_
    rw [annRemove_state, if_pos rfl]

theorem endReload_exact {s : State} (e : s.Exact) : (endReload s).Exact :=
  (e.setReload none nofun).of_changes (sweepCheck_changes _)

theorem beginInstall_exact {n : Nat} (x : Entry) (y : PointStatus) {s : State} (e : s.Exact)
    (hn : s.annState n = none) : (beginInstall n x y s).Exact := by
  have h := (leaveRejected_changes y s).then (claimPoint_changes n x _)
    (k := [.loaderRejected, .loaderClaims, .loaderWatch])
  have h' := h.trans ((setWatch_changes
    (insertPair (x.source.toNat, n) (claimPoint n x (leaveRejected y s)).loader.watch) _).mono)
  have hn' := (annState_of_changes h' (by decide) n).trans hn
  refine ((e.of_changes h').setPoint _ hn').setReload _ (fun r hr _ => ?_)
  cases hr
  exact hn'

theorem rejectPoint_exact {n : Nat} (x : Entry) (r : Nat) (y : PointStatus) (b : Bool) {s : State}
    (e : s.Exact) (hn : s.annState n = none) : (rejectPoint n x r y b s).Exact := by
  have e1 := e.setPoint ⟨.rejected r, some x, false⟩ hn
  unfold rejectPoint
  refine endReload_exact ?_
  have h : ∀ u : State, u.Exact →
      (if b = true ∧ y = .rejected r then u else record .entryRejected .part n r u).Exact := by
    intro u hu
    split_ifs
    · exact hu
    · exact hu.of_changes (record_changes _ _ _ _ u)
  refine h _ ?_
  split
  · exact e1
  · exact e1.of_changes (setRejected_changes _ _)
  · exact e1.of_changes (setRejected_changes _ _)

theorem validatePoint_exact {n : Nat} (x : Entry) (y : PointStatus) (b : Bool) {s : State}
    (e : s.Exact) (hn : s.annState n = none) : (validatePoint n x y b s).Exact := by
  unfold validatePoint
  split
  · exact rejectPoint_exact _ _ _ _ e hn
  · exact beginInstall_exact _ _ e hn

/-- A point that is not INSTALLED has no record. -/
theorem State.Exact.noRecord {s : State} {n : Nat} (e : s.Exact) (h : (s.point n).status ≠ .installed) :
    s.annState n = none := by
  by_contra hn
  exact h (e.joined.1 n hn).1

theorem judgeDisabled_exact (n : Nat) {s : State} (e : s.Exact) : (judgeDisabled n s).Exact := by
  unfold judgeDisabled
  split
  · exact endReload_exact e
  · exact endReload_exact (removePoint_exact n e)
  · rename_i r hr
    refine endReload_exact ((e.setPoint _ (e.noRecord ?_)).of_changes (leaveRejected_changes _ _))
    rw [hr]
    nofun

theorem judgeEnabled_exact (n : Nat) (x : Entry) (b : Bool) {s : State} (e : s.Exact) :
    (judgeEnabled n x b s).Exact := by
  unfold judgeEnabled
  split
  · rename_i hr
    exact validatePoint_exact _ _ _ e (e.noRecord (by rw [hr]; nofun))
  · split_ifs
    · exact endReload_exact e
    · exact validatePoint_exact _ _ _ (removePoint_exact n e) (removePoint_noRecord n e)
  · rename_i r hr
    exact validatePoint_exact _ _ _ e (e.noRecord (by rw [hr]; nofun))

theorem judge_exact (n : Nat) (words : List Word) {s : State} (e : s.Exact) : (judge n words s).Exact := by
  have e' := e.of_changes (setMarked_changes (s.loader.marked.filter (fun m => m != n)) s)
  unfold judge
  dsimp only
  split
  · exact e'
  · split_ifs
    · split
      · exact judgeEnabled_exact _ _ _ e'
      · exact e'
    · exact judgeDisabled_exact _ e'

theorem takeEntryWord_exact (w : Word) {s : State} (e : s.Exact) : (takeEntryWord w s).Exact := by
  unfold takeEntryWord
  split
  · exact e
  · rename_i r hr
    have e' := e.setReload (some { r with words := r.words ++ [w] })
      (fun q hq hs => by cases hq; exact e.joined.2.2 r hr hs)
    dsimp only
    split_ifs
    · exact judge_exact _ _ e'
    · exact e'

theorem takeSourceWord_exact (w : Word) {s : State} (e : s.Exact) : (takeSourceWord w s).Exact := by
  unfold takeSourceWord
  split
  · exact e
  · rename_i r hr
    split_ifs with hs
    · have hn := e.joined.2.2 r hr (by rw [hs]; decide)
      refine ⟨e.list, e.shelf, e.due, e.joined.1, fun n w h => ?_, fun q hq _ => ?_⟩
      · cases h
        exact hn
      · cases hq
        exact hn
    · exact e

theorem annJoin_state {n : Nat} (e : Entry) (m : Nat) (s : State) :
    (annJoin n e s).annState m =
      if m = n ∧ e.alarmCapable = true then some .quiet else s.annState m := by
  unfold annJoin
  by_cases hc : e.alarmCapable = true
  · rw [if_pos hc]
    show ((s.ann.records.put n _).look m).map AnnRec.state = _
    by_cases hm : m = n
    · rw [hm, Table.look_put_same, if_pos ⟨rfl, hc⟩]
      rfl
    · rw [Table.look_put_other _ _ hm, if_neg (fun h => hm h.1)]
      rfl
  · rw [if_neg hc, if_neg (fun h => hc h.2)]

/-- A point without a record joins in QUIET, off the list and off the shelf. -/
theorem annJoin_exact {n : Nat} (e : Entry) {s : State} (hn : s.annState n = none) :
    (s.listExact → (annJoin n e s).listExact) ∧ (s.shelfExact → (annJoin n e s).shelfExact) := by
  have unack : (annJoin n e s).ann.unack = s.ann.unack := annJoin_changes n e s .annUnack (by decide)
  have shelf : (annJoin n e s).ann.shelf = s.ann.shelf := annJoin_changes n e s .annShelf (by decide)
  unfold State.listExact State.shelfExact
  rw [unack, shelf]
  refine ⟨fun h => ⟨h.1, fun m => ?_⟩, fun h => ⟨h.1, fun m => ?_⟩⟩
  all_goals
    rw [annJoin_state, h.2 m]
    split_ifs with hm
    · rw [hm.1, hn]
      simp
    · rfl

theorem evaluateFirst_exact {n : Nat} (w : Word) {s : State} (h : s.Exact)
    (hn : s.annState n = none) : (evaluateFirst n w s).Exact := by
  unfold evaluateFirst
  split
  · exact h
  · rename_i e he
    dsimp only
    generalize hu : (setPoint n ⟨.installed, some e, false⟩ s).setLoader
      { (setPoint n ⟨.installed, some e, false⟩ s).loader with
        installed := (setPoint n ⟨.installed, some e, false⟩ s).loader.installed + 1 } = u
    have stateU : ∀ m, u.annState m = s.annState m := fun m => by rw [← hu]; rfl
    have listU : u.listExact := by rw [← hu]; exact h.list
    have shelfU : u.shelfExact := by rw [← hu]; exact h.shelf
    have pointU : ∀ m, u.point m = if m = n then ⟨.installed, some e, false⟩ else s.point m := by
      intro m
      rw [← hu]
      exact point_setPoint n m ⟨.installed, some e, false⟩ s
    have join := annJoin_exact e ((stateU n).trans hn)
    have dueV : (annJoin n e u).dueExpires := dueExpires_of_changes (annJoin_changes n e u) (by decide) (by decide)
      (by rw [← hu]; exact h.due)
    generalize hj : annJoin n e u = v at join dueV
    have pointV : ∀ m, v.point m = u.point m := fun m =>
      congrArg (fun t : Table PointRec => t.val PointRec.absent m)
        (hj ▸ annJoin_changes n e u .loaderPoints (by decide))
    have stateV : ∀ m, m ≠ n → s.annState m = none → v.annState m = none := by
      intro m hm hs
      rw [← hj, annJoin_state, if_neg (fun h => hm h.1), stateU]
      exact hs
    have kept := (takeReport_lists n (reportOf .normal (firstRecord e (e.field w)).condition) _).after
      ((ListsKept.of_changes (handDisplay_changes e (firstRecord e (e.field w)) _)).after
        (.of_changes (setValue_changes n (firstRecord e (e.field w)) v)))
    have same := ((setValue_changes n (firstRecord e (e.field w)) v).then
      (handDisplay_changes e (firstRecord e (e.field w)) _)
      (k := .evaluatorValues :: reportParts)).then
      (takeReport_changes n (reportOf .normal (firstRecord e (e.field w)).condition) _)
      (k := .evaluatorValues :: reportParts)
    generalize takeReport n _ (handDisplay e _ (setValue n _ v)) = t at kept same
    refine State.Exact.of_changes (s := (t.setEvaluator { t.evaluator with firstValue := none }).setLoader
      { t.loader with reload := none }) ?_ (sweepCheck_changes _)
    refine ⟨kept.list (join.1 listU), kept.shelf (join.2 shelfU), kept.due dueV, fun m hm => ?_, nofun, nofun⟩
    have points : t.loader.points = v.loader.points := same .loaderPoints (by decide)
    have hp : t.point m = if m = n then ⟨.installed, some e, false⟩ else s.point m := by
      rw [← pointU m, ← pointV m]
      exact congrArg (fun x : Table PointRec => x.val PointRec.absent m) points
    show (t.point m).status = .installed ∧ (t.point m).held ≠ none
    rw [hp]
    split_ifs with hmn
    · exact ⟨rfl, nofun⟩
    · exact h.joined.1 m (fun hs => hm (kept.noRecord m (stateV m hmn hs)))

theorem takeFirstValue_exact {s : State} (e : s.Exact) : (takeFirstValue s).Exact := by
  unfold takeFirstValue
  split
  · rename_i hw _
    exact evaluateFirst_exact _ e (e.joined.2.1 _ _ hw)
  · exact e

/-- A board without records, list and shelf. -/
theorem State.Exact.empty {s : State} (h1 : s.ann.records = []) (h2 : s.ann.unack = [])
    (h3 : s.ann.shelf = []) (h4 : s.ann.shelfDue = false) : s.Exact := by
  have state : ∀ n, s.annState n = none := fun n => by
    unfold State.annState
    rw [h1]
    rfl
  refine ⟨?_, ?_, fun hd => absurd hd (by simp [h4]), fun n hn => absurd (state n) hn,
    fun n _ _ => state n, fun _ _ _ => state _⟩
  · unfold State.listExact
    simp [h2, state]
  · unfold State.shelfExact
    simp [h3, state]

theorem deconfigure_exact (s : State) : (deconfigure s).Exact := .empty rfl rfl rfl rfl

theorem boardReset_exact (s : State) : (boardReset s).Exact :=
  (State.Exact.empty (s := resetPath (resetBlocks s)) rfl rfl rfl rfl).of_changes
    (releaseAtReset_changes _)

/-! ## The shapes of the commands -/

theorem startOf_exact (c : Instr) {s : State} (e : s.Exact) : (startOf c s).Exact := by
  unfold startOf finishTick
  split_ifs
  · exact e
  · exact e
  · exact settle_exact (((runAll_lists _ _).exact (runAll_changes _ _))
      (e.of_changes (setTickWork_changes [] s)))

theorem complete_exact {α : Type} (sel : PartWork → Option α) {act : α → Word → State → State}
    (h : ∀ x w s, s.Exact → (act x w s).Exact) {s : State} (e : s.Exact) : (complete sel act s).Exact := by
  have ended := fun a => e.of_changes (endAccess_changes a s)
  unfold complete
  split
  · exact e
  · split
    · exact e
    · split_ifs
      · exact ended _
      · exact h _ _ _ (ended _)

theorem handOn_lists {α : Type} (sel : RegionWord → Word → Option α) {act : α → Word → State → State}
    (h : ∀ x w s, ListsKept s (act x w s)) (s : State) : ListsKept s (handOn sel act s) := by
  have pop : ListsKept s (popCapture s) := .of_changes (popCapture_changes s)
  unfold handOn
  split
  · exact .refl s
  · split
    · exact .refl s
    · exact .ite ((h _ _ _).after pop) pop

theorem takeSignature_exact (w : Word) {s : State} (e : s.Exact) : (takeSignature w s).Exact := by
  unfold takeSignature
  split_ifs
  · exact e
  · exact deconfigure_exact s
  · exact e.of_changes (beginSweep_changes s)
  · exact e

theorem handOn_exact {α : Type} (sel : RegionWord → Word → Option α) {act : α → Word → State → State}
    (h : ∀ x w s, s.Exact → (act x w s).Exact) {s : State} (e : s.Exact) : (handOn sel act s).Exact := by
  have pop := e.of_changes (popCapture_changes s)
  unfold handOn
  split
  · exact e
  · split
    · exact e
    · split_ifs
      · exact h _ _ _ pop
      · exact pop

theorem answerRemote_lists (code : Nat) {s : State} {r : State × Option Nat} (h : ListsKept s r.1) :
    ListsKept s (answerRemote code r) := by
  unfold answerRemote
  split
  · exact (record_lists _ _ _ _ _).after h
  · exact (record_lists _ _ _ _ _).after h

theorem remoteScoped_lists (code : Nat) {op : Scope → Origin → State → State × Option Nat}
    (h : ∀ x o s, ListsKept s (op x o s).1) (s : State) : ListsKept s (remoteScoped code op s) := by
  unfold remoteScoped
  split
  · exact answerRemote_lists _ (h _ _ s)
  · exact record_lists _ _ _ _ s

theorem remoteShelve_lists (s : State) : ListsKept s (remoteShelve s) :=
  .ite (answerRemote_lists _ (shelve_lists _ _ s)) (record_lists _ _ _ _ s)

theorem answerPress_lists (code d : Nat) {s : State} {r : State × Option Nat} (h : ListsKept s r.1) :
    ListsKept s (answerPress code d r) := by
  unfold answerPress
  split
  · have kept := (record_lists .command .panel code d r.1).after h
    exact ⟨kept.list, kept.shelf, kept.due, kept.noRecord⟩
  · exact (ListsKept.of_changes (refusePress_changes _ _ _)).after h

theorem onPress_lists (sel : Key → Bool) {act : Key → State → State} (h : ∀ k s, ListsKept s (act k s))
    (s : State) : ListsKept s (onPress sel act s) := by
  have pop : ListsKept s (popPress s) := .of_changes (popPress_changes s)
  unfold onPress handlePress
  split
  · refine .ite (ListsKept.after ?_ pop) (.refl s)
    exact .ite (.of_changes (wake_changes _ _ _)) (.ite ⟨id, id, id, fun _ => id⟩
      (.ite (.of_changes (panelError_changes _ _)) (.ite (.of_changes (refusePress_changes _ _ _)) (h _ _))))
  · exact .refl s

theorem enterScope_lists (code : Nat) {op : Scope → Origin → State → State × Option Nat}
    (h : ∀ x o s, ListsKept s (op x o s).1) (s : State) : ListsKept s (enterScope code op s) := by
  unfold enterScope
  split
  · exact answerPress_lists _ _ (h _ _ s)
  · exact .ite (answerPress_lists _ _ (h _ _ s)) (.of_changes (refusePress_changes _ _ _))

theorem enterGroup_lists (s : State) : ListsKept s (enterGroup s) := by
  unfold enterGroup
  split
  · exact (record_lists _ _ _ _ _).after (.of_changes (setSelected_changes none s))
  · exact .ite ((record_lists _ _ _ _ _).after (.of_changes (setSelected_changes _ s)))
      (.of_changes (refusePress_changes _ _ _))

theorem enterShelve_lists (s : State) : ListsKept s (enterShelve s) := by
  unfold enterShelve
  split
  · exact .of_changes (refusePress_changes _ _ _)
  · exact .ite (answerPress_lists _ _ (shelve_lists _ _ s)) (.of_changes (refusePress_changes _ _ _))

theorem onEnter_lists (x : Option EntryCommand) {act : State → State} (h : ∀ s, ListsKept s (act s))
    (s : State) : ListsKept s (onEnter x act s) :=
  .ite (onPress_lists _ (fun _ => h) s) (.refl s)

end Sys2Proof.Machine
end

