-- ==== Sys2Proof/Laws/PerInstr.lean ====
section
/-! SUPPORT. Facts about every command, one lemma for each constructor. -/

set_option Elab.async false

namespace Sys2Proof

/-- The points a command names (R39). -/
def Instr.points : Instr → List Nat
  | .becomesStale point => [point]
  | .travelTimerExpiry point => [point]
  | _ => []

/-- The lamps a command names (R25). -/
def Instr.lamps : Instr → List Nat
  | .exchangeEnd _ _ noCurrent _ => noCurrent
  | _ => []

end Sys2Proof

namespace Sys2Proof.Laws.Operands

/-- A well-formed command names only the 1,792 points and the 4,096 lamps of the board. -/
def Statement (i : Instr) : Prop :=
  i.wellFormed = true → (∀ n ∈ i.points, n < 1792) ∧ ∀ l ∈ i.lamps, l < 4096

theorem of_names_nothing {i : Instr} (hp : i.points = []) (hl : i.lamps = []) : Statement i := by
  intro _
  rw [hp, hl]
  exact ⟨fun _ h => (List.not_mem_nil h).elim, fun _ h => (List.not_mem_nil h).elim⟩

theorem frontEndWrite (addr : Addr) (data : Word) (lanes : BitVec 2)
    : Statement (.frontEndWrite addr data lanes) := of_names_nothing rfl rfl
theorem frontEndRead (addr : Addr) : Statement (.frontEndRead addr) := of_names_nothing rfl rfl
theorem heldAccessTaken : Statement .heldAccessTaken := of_names_nothing rfl rfl
theorem heldWriteRelease : Statement .heldWriteRelease := of_names_nothing rfl rfl
theorem boardReset : Statement .boardReset := of_names_nothing rfl rfl
theorem boardResetEnd (straps : BitVec 2)
    : Statement (.boardResetEnd straps) := of_names_nothing rfl rfl
theorem hostReset : Statement .hostReset := of_names_nothing rfl rfl
theorem partAccessGrant : Statement .partAccessGrant := of_names_nothing rfl rfl
theorem captureRereadDone : Statement .captureRereadDone := of_names_nothing rfl rfl
theorem k0ReadDone : Statement .k0ReadDone := of_names_nothing rfl rfl
theorem signatureWrite : Statement .signatureWrite := of_names_nothing rfl rfl
theorem generationWrite : Statement .generationWrite := of_names_nothing rfl rfl
theorem modeRequest : Statement .modeRequest := of_names_nothing rfl rfl
theorem panelLockWrite : Statement .panelLockWrite := of_names_nothing rfl rfl
theorem remoteOperandWrite : Statement .remoteOperandWrite := of_names_nothing rfl rfl
theorem remoteAck : Statement .remoteAck := of_names_nothing rfl rfl
theorem remoteClear : Statement .remoteClear := of_names_nothing rfl rfl
theorem remoteSilence : Statement .remoteSilence := of_names_nothing rfl rfl
theorem remoteTest : Statement .remoteTest := of_names_nothing rfl rfl
theorem remoteGroup : Statement .remoteGroup := of_names_nothing rfl rfl
theorem remoteShelve : Statement .remoteShelve := of_names_nothing rfl rfl
theorem remoteDim : Statement .remoteDim := of_names_nothing rfl rfl
theorem remoteUnknownCommand : Statement .remoteUnknownCommand := of_names_nothing rfl rfl
theorem tailWrite : Statement .tailWrite := of_names_nothing rfl rfl
theorem lostCountWrite : Statement .lostCountWrite := of_names_nothing rfl rfl
theorem controlWordWrite : Statement .controlWordWrite := of_names_nothing rfl rfl
theorem groupEnableWrite : Statement .groupEnableWrite := of_names_nothing rfl rfl
theorem summaryLampWrite : Statement .summaryLampWrite := of_names_nothing rfl rfl
theorem staleLampWrite : Statement .staleLampWrite := of_names_nothing rfl rfl
theorem groupAckRequest : Statement .groupAckRequest := of_names_nothing rfl rfl
theorem groupClearRequest : Statement .groupClearRequest := of_names_nothing rfl rfl
theorem generationRead : Statement .generationRead := of_names_nothing rfl rfl
theorem cardCountRead : Statement .cardCountRead := of_names_nothing rfl rfl
theorem flashShelveRead : Statement .flashShelveRead := of_names_nothing rfl rfl
theorem boardFaultLampRead : Statement .boardFaultLampRead := of_names_nothing rfl rfl
theorem ringValuesRead : Statement .ringValuesRead := of_names_nothing rfl rfl
theorem groupSettingsRead : Statement .groupSettingsRead := of_names_nothing rfl rfl
theorem groupLampRead : Statement .groupLampRead := of_names_nothing rfl rfl
theorem entryReadDone : Statement .entryReadDone := of_names_nothing rfl rfl
theorem sourceReadDone : Statement .sourceReadDone := of_names_nothing rfl rfl
theorem firstValue : Statement .firstValue := of_names_nothing rfl rfl
theorem sourceItemEvaluation (points : Nat)
    : Statement (.sourceItemEvaluation points) := of_names_nothing rfl rfl
theorem tick (rows0 rows1 rows2 : Byte)
    : Statement (.tick rows0 rows1 rows2) := of_names_nothing rfl rfl
theorem phaseBoundary : Statement .phaseBoundary := of_names_nothing rfl rfl
theorem settleEnd : Statement .settleEnd := of_names_nothing rfl rfl
theorem lampTestEnd : Statement .lampTestEnd := of_names_nothing rfl rfl
theorem frameSlot : Statement .frameSlot := of_names_nothing rfl rfl
theorem boardSecond : Statement .boardSecond := of_names_nothing rfl rfl
theorem becomesStale (point : Nat) : Statement (.becomesStale point) := by
  intro h
  refine ⟨fun n hn => ?_, fun _ hl => (List.not_mem_nil hl).elim⟩
  rw [List.mem_singleton.mp hn]
  exact of_decide_eq_true h

theorem travelTimerExpiry (point : Nat) : Statement (.travelTimerExpiry point) := by
  intro h
  refine ⟨fun n hn => ?_, fun _ hl => (List.not_mem_nil hl).elim⟩
  rw [List.mem_singleton.mp hn]
  exact of_decide_eq_true h

theorem shelfExpiry : Statement .shelfExpiry := of_names_nothing rfl rfl
theorem wakeByAlarm : Statement .wakeByAlarm := of_names_nothing rfl rfl
theorem exchangeEnd (chain : ChainId) (arrivals : List (Nat × List Byte)) (noCurrent : List Nat) (received : Option (List Byte))
    : Statement (.exchangeEnd chain arrivals noCurrent received) := by
  intro h
  refine ⟨fun _ hn => (List.not_mem_nil hn).elim, fun l hl => ?_⟩
  simp only [Instr.wellFormed, Bool.and_eq_true, List.all_eq_true, decide_eq_true_eq] at h
  have := (h.1.2 l hl).2
  have hc : chain.firstLamp ≤ 3072 := by cases chain <;> decide
  omega

theorem imageWriteDone : Statement .imageWriteDone := of_names_nothing rfl rfl
theorem ringWordWriteDone : Statement .ringWordWriteDone := of_names_nothing rfl rfl
theorem headWriteDone : Statement .headWriteDone := of_names_nothing rfl rfl
theorem keyRelease : Statement .keyRelease := of_names_nothing rfl rfl
theorem dataKey : Statement .dataKey := of_names_nothing rfl rfl
theorem ackKey : Statement .ackKey := of_names_nothing rfl rfl
theorem clearKey : Statement .clearKey := of_names_nothing rfl rfl
theorem groupKey : Statement .groupKey := of_names_nothing rfl rfl
theorem shelveKey : Statement .shelveKey := of_names_nothing rfl rfl
theorem silenceKey : Statement .silenceKey := of_names_nothing rfl rfl
theorem testKey : Statement .testKey := of_names_nothing rfl rfl
theorem dimKey : Statement .dimKey := of_names_nothing rfl rfl
theorem enterNoCommand : Statement .enterNoCommand := of_names_nothing rfl rfl
theorem enterAck : Statement .enterAck := of_names_nothing rfl rfl
theorem enterClear : Statement .enterClear := of_names_nothing rfl rfl
theorem enterGroup : Statement .enterGroup := of_names_nothing rfl rfl
theorem enterShelve : Statement .enterShelve := of_names_nothing rfl rfl
theorem hostResetRelease : Statement .hostResetRelease := of_names_nothing rfl rfl
theorem statusWriteDone : Statement .statusWriteDone := of_names_nothing rfl rfl
theorem k18WriteDone : Statement .k18WriteDone := of_names_nothing rfl rfl

end Sys2Proof.Laws.Operands
end

