-- ==== Sys2Proof/Tests/Slice0.lean ====
section
/-! SUPPORT. Tests: ill-formed commands refused, the spec's worked figures, single steps, and a witness for the hypotheses of every obligation. -/

namespace Sys2Proof.Tests

open Sys2Proof Sys2Proof.Machine

set_option Elab.async false

/-! ## Ill-formed commands -/

theorem test_ill_points : (Instr.sourceItemEvaluation 1793).wellFormed = false
    ∧ (Instr.sourceItemEvaluation 1792).wellFormed = true := by decide

theorem test_ill_stale_point : (Instr.becomesStale 1792).wellFormed = false
    ∧ (Instr.becomesStale 1791).wellFormed = true := by decide

theorem test_ill_expiry_point : (Instr.travelTimerExpiry 1792).wellFormed = false
    ∧ (Instr.travelTimerExpiry 1791).wellFormed = true := by decide

theorem test_ill_card : (Instr.exchangeEnd .a [(16, [])] [] none).wellFormed = false
    ∧ (Instr.exchangeEnd .a [(15, [])] [] none).wellFormed = true := by decide

theorem test_ill_arrival_length :
    (Instr.exchangeEnd .a [(0, List.replicate 147 0)] [] none).wellFormed = false
    ∧ (Instr.exchangeEnd .a [(0, List.replicate 146 0)] [] none).wellFormed = true := by
  decide +kernel

theorem test_ill_lamp : (Instr.exchangeEnd .b [] [1023] none).wellFormed = false
    ∧ (Instr.exchangeEnd .b [] [2048] none).wellFormed = false
    ∧ (Instr.exchangeEnd .b [] [1024, 2047] none).wellFormed = true := by decide

theorem test_ill_return_length :
    (Instr.exchangeEnd .a [] [] (some (List.replicate 147 0))).wellFormed = false
    ∧ (Instr.exchangeEnd .a [] [] (some (List.replicate 146 0))).wellFormed = true := by
  decide +kernel

/-! ## Figures the spec works out -/

/-- R173's two check values. -/
theorem test_crc : crc [0x31, 0x32, 0x33, 0x34, 0x35, 0x36, 0x37, 0x38, 0x39] = 0x4B37
    ∧ crc [0] = 0x40BF := by decide +kernel

/-- The VALVE entry of 10.2. -/
def valveExample : Entry :=
  ⟨0x2345, 0x6161, 0x0BB8, 0x8BBA, 0x005A, 0, 0, 0, 0, 0, 0, 0x8978⟩

theorem test_entry_fields : valveExample.source = 0x12345 ∧ valveExample.shift = 6
    ∧ valveExample.width = 2 ∧ valveExample.kind = some .valve ∧ valveExample.cls = 2
    ∧ valveExample.displayLamps = [3000, 3001] ∧ valveExample.alarmLamp = some 3002
    ∧ valveExample.travel = 90 ∧ valveExample.group = 9 ∧ valveExample.timeout = 120
    ∧ enabledWord valveExample.w15 = true := by decide +kernel

/-- The two event records of 10.5. -/
theorem test_event_words :
    (List.range 4).map (EventRecord.word ⟨.raised, .part, 102, 1, 0x2C05⟩)
      = [0x0001, 0x0066, 0x0001, 0x2C05]
    ∧ (List.range 3).map (EventRecord.word ⟨.command, .panel, 1, 0x8007, 0⟩)
      = [0x0109, 0x0001, 0x8007] := by decide +kernel

/-- The lamps of R25's table. -/
theorem test_lamp_places : [0, 100, 2100, 3500, 4095].map chainOfLamp = [.a, .a, .c, .d, .d]
    ∧ [0, 100, 2100, 3500, 4095].map cardOfLamp = [0, 1, 0, 6, 15] := by decide

/-- E09 and a selected group 07 as the panel is sent them (R174). -/
theorem test_panel_codes :
    { Panel.afterReset [] with error := some 9 }.positions = [0x0E, 0, 9]
    ∧ { Panel.afterReset [] with selected := some 7 }.positions = [0x10, 0, 7]
    ∧ (Panel.afterReset []).display = blankDisplay ∧ blankDisplay.length = 22 := by decide

/-- ACK and 5 together give ACK, 3 and 7 together give 7 (R144). -/
theorem test_key_rank : highestKey [.digit 5, .ack] = some .ack
    ∧ highestKey [.digit 3, .digit 7] = some (.digit 7) ∧ highestKey [] = none
    ∧ keysDown 0xDF 0xFF 0xFD = [.digit 5, .ack] := by decide +kernel

/-- The bar entry of 4.5: Z 400, F 3600, N 10, H 40, marking; AH 3400, AL 600, DB 60, both alarms. -/
def bar : Entry :=
  ⟨0x1001, 0x1F00, 0x90CA, 0x80D4, 400, 3600, 40, 3400, 600, 60, 7, 0x8200⟩

/-- The displayed counts of the worked bar (R67, R68). -/
theorem test_bar_counts : barCount bar 2000 = 5 ∧ nextCount bar 5 2190 = 5
    ∧ nextCount bar 5 2200 = 6 ∧ nextCount bar 6 2130 = 6 ∧ nextCount bar 6 2110 = 5
    ∧ nextCount bar 5 65535 = 10 ∧ nextCount bar 10 0 = 0 := by decide +kernel

/-- The worked limits: conditions after 3400, 3350, 3339, 600, 660, 3500 and 661 (R70 to R72). -/
theorem test_limits :
    ((nextHigh bar false 3400, nextLow bar false 3400) = (true, false))
    ∧ nextHigh bar true 3350 = true ∧ nextHigh bar true 3339 = false
    ∧ nextLow bar false 600 = true ∧ nextLow bar true 660 = true ∧ nextLow bar true 3500 = false
    ∧ nextHigh bar true 661 = false
    ∧ analogueCondition (.abnormal .low) (nextHigh bar false 3500) (nextLow bar true 3500)
      = .abnormal .high := by decide +kernel

/-- Image word 75 with lamp 300 FAST and faulty, and the image word 3211h (10.6). -/
theorem test_image_words :
    ({ State.reset with
        gen := { State.reset.gen with patterns := [(300, .fast)] }
        chains := { State.reset.chains with fails := [(300, 2)], faultCount := 1 } }).imageWord 75
      = 0x000A
    ∧ ({ State.reset with gen := { State.reset.gen with
        patterns := [(48, .steady), (49, .steady), (50, .fast), (51, .slow)] } }).imageWord 12
      = 0x3211 := by decide +kernel

/-! ## Small states -/

/-- DISCRETE point 40: source 01000h, bit 3, active level 1, mode level, lamps 200 and 201, group 2, timeout 3. -/
def switch : Entry := ⟨0x1000, 0x0030, 0x00C8, 0x90C9, 1, 0, 0, 0, 0, 0, 0, 0x8203⟩

/-- VALVE point 42: source 01002h, bits 1 to 0, lamps 220, 221 and 222, travel time 90, group 2. -/
def valve : Entry := ⟨0x1002, 0x2100, 0x00DC, 0x80DE, 90, 0, 0, 0, 0, 0, 0, 0x8200⟩

/-- Base 60000h, RUNNING and lit, no settle, no request waiting: the board without points. -/
def board : State :=
  { State.reset with
    path := { State.reset.path with requests := Requests.none }
    loader := { State.reset.loader with cfg := .running, generation := some 7 }
    ann := { State.reset.ann with shelveMinutes := 30 }
    gen := { State.reset.gen with settling := false, modeOwed := false }
    chains := { State.reset.chains with a := { Chain.afterReset with count := 4, state := .ok } }
    events := { State.reset.events with ringHeld := true } }

/-- Points 40 and 42 installed, 40 in the given annunciation state, 42 QUIET; group 2 horn- and wake-enabled. -/
def points (st : AnnState) : State :=
  { board with
    loader := { board.loader with
      points := [(40, ⟨.installed, some switch, false⟩), (42, ⟨.installed, some valve, false⟩)]
      claims := [(200, .display 40), (201, .alarm 40), (220, .display 42), (221, .display 42),
        (222, .alarm 42)]
      watch := [(0x1000, 40), (0x1002, 42)]
      groups := [(2, { GroupSettings.none with horn := true, wake := true })]
      installed := 2 }
    evaluator := { board.evaluator with
      values := [(40, firstRecord switch 0), (42, firstRecord valve 2)] }
    ann := { board.ann with
      records := [(40, ⟨st, 1, 2⟩), (42, ⟨.quiet, 1, 2⟩)]
      unack := if st.onList then [40] else []
      shelf := if st = .shelved then [⟨40, 1⟩] else []
      groups := [(2, GroupCounts.zero.enter st)] } }

/-- One item, of a word write, at the front of the capture queue. -/
def item (a : Addr) (w : Word) (s : State) : State :=
  s.setPath { s.path with capture := [⟨a, w, 3, false⟩] }

/-- A part word access under way. -/
def busy (work : PartWork) (a : Addr) (w : Word) (s : State) : State :=
  s.setPath { s.path with partAccess := some ⟨work, a, w, false⟩ }

/-- A recognised press waiting to be handled. -/
def press (k : Key) (s : State) : State := s.setPanel { s.panel with presses := [k] }

/-- A press with a command pending and digits typed. -/
def entering (c : EntryCommand) (digits : List (BitVec 4)) (k : Key) (s : State) : State :=
  s.setPanel { s.panel with presses := [k], command := some c, digits := digits }

/-- A state of the Configuration Loader's reload. -/
def reloading (r : Reload) (s : State) : State := s.setLoader { s.loader with reload := some r }

/-- The next state a command answers, or the state before where it stops. -/
def after (c : Instr) (s : State) : State :=
  match exec c s with
  | .next t => t
  | .fault _ => s
  | .refused _ => s

/-! ## Single steps -/

/-- R20: the k0 read finds the signature in RAM and a sweep begins. -/
theorem test_k0_sweep :
    (after .k0ReadDone (after .partAccessGrant { State.reset with
      ram := State.reset.ram.writeLanes 0x67000 0x4E47 3 })).loader.cfg = .sweeping := by
  decide +kernel

theorem test_k0_no_sweep :
    (after .k0ReadDone (after .partAccessGrant State.reset)).loader.cfg = .unconfigured := by
  decide +kernel

/-- R1 and R7: a watched word write reaches RAM and the capture queue. -/
theorem test_watched_write :
    (after (.frontEndWrite 0x1000 0x0008 3) (points .quiet)).path.capture = [⟨0x1000, 8, 3, false⟩]
    ∧ (after (.frontEndWrite 0x1000 0x0008 3) (points .quiet)).ram = [(0x2000, 8)] := by
  decide +kernel

/-- R1: a byte write keeps the other lane. -/
theorem test_byte_write :
    ((after (.frontEndWrite 0x2000 0xAABB 1) (after (.frontEndWrite 0x2000 0x1122 3) board)).ram.readWord
      0x2000) = 0x11BB := by decide +kernel

/-- R2: a dirty image word is answered from the held value. -/
theorem test_image_read :
    (after (.frontEndRead 0x6768B) { board with gen := { board.gen with
      patterns := [(300, .fast)], dirty := [75] } }).path.hostData = 0x0002 := by decide +kernel

/-- R65, R86, R93, R97, R107: a level point's onset. -/
theorem test_onset :
    (after (.sourceItemEvaluation 1) (item 0x1000 8 (points .quiet))).ann.unack = [40]
    ∧ (after (.sourceItemEvaluation 1) (item 0x1000 8 (points .quiet))).ann.hornClass = some 1
    ∧ (after (.sourceItemEvaluation 1) (item 0x1000 8 (points .quiet))).patternOf 201 = .first
    ∧ (after (.sourceItemEvaluation 1) (item 0x1000 8 (points .quiet))).patternOf 200 = .steady
    ∧ (after (.sourceItemEvaluation 1) (item 0x1000 8 (points .quiet))).gen.wakeRequests = 1 := by
  decide +kernel

/-- R89: a group request acknowledges. -/
theorem test_group_ack :
    (after .groupAckRequest (item 0x67053 0 (points .new))).annState 40 = some .standing
    ∧ (after .groupAckRequest (item 0x67053 0 (points .new))).events.queue.map EventRecord.kind
      = [.acked] := by decide +kernel

/-- R152: ENTER with ACK pending and no digits acknowledges the board, then COMMAND. -/
theorem test_enter_ack :
    (after .enterAck (entering .ack [] .enter (points .new))).events.queue
      = [⟨.acked, .panel, 40, 0, 0⟩, ⟨.command, .panel, 1, 0xFFFF, 0⟩]
    ∧ (after .enterAck (entering .ack [] .enter (points .new))).panel.command = none := by
  decide +kernel

/-- R160: a remote shelve of point 40. -/
theorem test_remote_shelve :
    (after .remoteShelve (item 0x6700B 6 { points .new with
      events := { board.events with operand := 40 } })).annState 40 = some .shelved := by
  decide +kernel

/-- R104: the shelf record that expires brings a normal point to QUIET. -/
theorem test_shelf_expiry :
    (after .shelfExpiry { points .shelved with
      ann := { (points .shelved).ann with shelfDue := true } }).annState 40 = some .quiet := by
  decide +kernel

/-- R41 to R55: a point reload, from the control word to the first value. -/
theorem test_install_begins :
    (judge 40 [0x8203, 0x1000, 0x0030, 0x00C8, 0x90C9, 1, 0, 0, 0, 0, 0, 0]
      (reloading ⟨40, [], .entry⟩ board)).loader.reload = some ⟨40, [], .source⟩
    ∧ (judge 40 [0x8203, 0x1000, 0x0030, 0x00C8, 0x90C9, 1, 0, 0, 0, 0, 0, 0]
      (reloading ⟨40, [], .entry⟩ board)).loader.claims = [(200, .display 40), (201, .alarm 40)] := by
  decide +kernel

/-- R44: an entry whose enable bit is clear takes the installed point off the board. -/
theorem test_removal : (judge 40 [0x0203] (points .new)).loader.installed = 1
    ∧ (judge 40 [0x0203] (points .new)).ann.unack = []
    ∧ (judge 40 [0x0203] (points .new)).loader.watch = [(0x1002, 42)] := by decide +kernel

/-- R82, R86: an abnormal first value. -/
theorem test_first_value :
    (after .firstValue { board with
      loader := { board.loader with
        points := [(40, ⟨.absent, some switch, true⟩)], reload := some ⟨40, [], .value⟩ }
      evaluator := { board.evaluator with firstValue := some (40, 8) } }).annState 40 = some .new := by
  decide +kernel

/-- R24, R55, R82, R91: RAISED with its cause, and SWEEP_DONE behind it where nothing is left to load. -/
theorem test_first_value_events :
    (after .firstValue { board with
      loader := { board.loader with
        cfg := .sweeping, points := [(40, ⟨.absent, some switch, true⟩)], reload := some ⟨40, [], .value⟩ }
      evaluator := { board.evaluator with firstValue := some (40, 8) } }).events.queue
      = [⟨.raised, .part, 40, 3, 0⟩, ⟨.sweepDone, .part, 1, 0, 0⟩] := by decide +kernel

/-- R78 and R75 at a board second left due. -/
def due (n : Nat) (v : ValueRec) : State :=
  { points .quiet with evaluator := { (points .quiet).evaluator with
      values := (points .quiet).evaluator.values.put n v, secondDue := [n] } }

theorem test_stale :
    (after (.becomesStale 40) (due 40 { firstRecord switch 0 with age := 2 })).patternOf 200 = .stale
    ∧ ((after (.becomesStale 40) (due 40 { firstRecord switch 0 with age := 2 })).counts 2).stale = 1 := by
  decide +kernel

theorem test_overrun :
    (after (.travelTimerExpiry 42) (due 42 { firstRecord valve 0 with
      kind := .valve .travel (some 1) false })).annState 42 = some .new := by decide +kernel

/-- R118 to R121: DARK, then a wake by a key. -/
theorem test_dark_and_wake :
    (after .modeRequest (item 0x67008 0x0102 board)).gen.mode = .dark
    ∧ (after .ackKey (press .ack (after .modeRequest (item 0x67008 2 board)))).gen.mode = .lit
    ∧ (after .ackKey (press .ack (after .modeRequest (item 0x67008 2 board)))).panel.command = none := by
  decide +kernel

/-- R115, R128, R137: a lamp commanded on that draws no current is LAMP_FAULT at the second judged return. -/
def failing : State :=
  { board with
    chains := { board.chains with
      a := { board.chains.a with
        count := 1
        prev := some ⟨1, [true]⟩
        exchange := some
          { sent := ⟨1, [true]⟩, dim := false, frame := closeFrame [1, 0, 0, 0, 0, 0, 0, 0, 0],
            record := some ⟨1, [true]⟩, void := false } }
      fails := [(0, 1)] }
    cards := [(0, ⟨1, false, false⟩)] }

theorem test_lamp_fault :
    (after (.exchangeEnd .a [] [0] none) failing).chains.faultCount = 1
    ∧ (after (.exchangeEnd .a [] [0] none) failing).events.queue.map EventRecord.kind = [.lampFault]
    ∧ (after (.exchangeEnd .a [] [] none) failing).chains.fails = [] := by decide +kernel

theorem test_bad_return :
    (after (.exchangeEnd .a [] [] (some [])) failing).chains.a.bad = 1
    ∧ (after (.exchangeEnd .a [] [] (some [])) failing).chains.fails = [(0, 1)] := by decide +kernel

/-- R115: an even tick of a lit board is a frame slot. -/
theorem test_frame_slot :
    ((after .frameSlot { failing with
      chains := { failing.chains with a := { failing.chains.a with exchange := none } }
      gen := { board.gen with patterns := [(0, .steady)], tickWork := [.frameSlot] } }).chains.a.exchange.map
        Exchange.frame) = some (closeFrame [1, 0, 0, 0, 0, 0, 0, 0, 0]) := by decide +kernel

/-- R143: the third pressed scan. -/
theorem test_third_scan :
    (after (.tick 0xFF 0xFF 0xFD) { board with
      panel := { board.panel with pressCount := 2 } }).panel.presses = [.ack] := by decide +kernel

/-- R167: the last word of a record, then the head. -/
theorem test_head_write :
    (after .headWriteDone (busy (.ring .head) 0x67010 1 { board with
      events := { board.events with
        queue := [⟨.raised, .part, 1, 1, 0⟩], inProgress := some 4, tail := 5 } })).events.head = 1 := by
  decide +kernel

/-- R16: a held access is abandoned. -/
theorem test_host_reset :
    (after .hostReset { board with path := { board.path with
      access := some ⟨0x1000, .read, .partWord⟩ } }).path.access = none := by decide +kernel

/-- A write of k0 held for a full queue while a part word is under way. -/
def heldK0 : State :=
  let s := busy (.image 0) 0x67640 0 board
  s.setPath { s.path with
    access := some ⟨0x67000, .write 0x1234 3, .fullQueue⟩
    capture := List.replicate 64 ⟨0x1000, 0, 3, false⟩ }

/-- R15, log 21: a board reset releases HWAIT; the write reaches RAM once the part word has ended, and is not
captured though the reset is over by then. -/
theorem test_board_reset_releases : heldK0.hwait = true ∧ (after .boardReset heldK0).hwait = false
    ∧ (after .heldAccessTaken (after .imageWriteDone (after (.boardResetEnd 0)
        (after .boardReset heldK0)))).ram.readWord 0x67000 = 0x1234
    ∧ (after .heldAccessTaken (after .imageWriteDone (after (.boardResetEnd 0)
        (after .boardReset heldK0)))).path.capture = []
    ∧ (after .heldAccessTaken (after .imageWriteDone (after (.boardResetEnd 0)
        (after .boardReset heldK0)))).path.access = none := by decide +kernel

/-- `points` with a summary lamp 100, a stale lamp 101 and a board fault lamp 102. -/
def lamped (st : AnnState) : State :=
  let s := points st
  s.setLoader { s.loader with
    faultLamp := ⟨some 102, true⟩
    groups := [(2, { GroupSettings.none with
      horn := true, wake := true, summary := ⟨some 100, true⟩, staleLamp := ⟨some 101, true⟩ })]
    claims := [(100, .summary 2), (101, .stale 2), (102, .boardFault)] ++ s.loader.claims }

/-- R88, R94, R96: the lamps and counts at an onset, at an acknowledge, at a clear. -/
theorem test_moves :
    [100, 101, 201].map (after (.sourceItemEvaluation 1) (item 0x1000 8 (lamped .quiet))).patternOf
      = [.fast, .off, .first]
    ∧ ((after (.sourceItemEvaluation 1) (item 0x1000 8 (lamped .quiet))).counts 2).unack = 1
    ∧ [100, 201].map (after .groupAckRequest (item 0x67053 0 (lamped .new))).patternOf
      = [.steady, .steady]
    ∧ [100, 201].map (after .groupAckRequest (item 0x67053 0 (lamped .fleeting))).patternOf
      = [.slow, .slow]
    ∧ ((after .groupAckRequest (item 0x67053 0 (lamped .fleeting))).counts 2).returned = 1
    ∧ [100, 201].map (after .groupClearRequest (item 0x67054 0 (lamped .returned))).patternOf
      = [.off, .off] := by decide +kernel

/-- R35: deconfiguring. -/
theorem test_deconfigure :
    (after .signatureWrite (item 0x67000 0 (points .new))).loader.cfg = .unconfigured
    ∧ (after .signatureWrite (item 0x67000 0 (points .new))).chains.a.count = 4 := by decide +kernel

/-- R23, R32, R40, log 15: a point is taken, and its reload begun, where its first read is raised; a full reload
that follows appends it afresh. -/
theorem test_reload_taken :
    (after .controlWordWrite (item 0x6028F 0 board)).loader.reload = some ⟨40, [], .entry⟩
    ∧ (after .controlWordWrite (item 0x6028F 0 board)).loader.pendingPoints = []
    ∧ (after .controlWordWrite (item 0x6028F 0 board)).path.requests.config = some (.entry 40 0)
    ∧ (after .generationWrite (item 0x67001 9
        (after .controlWordWrite (item 0x6028F 0 board)))).loader.pendingPoints.contains 40 = true := by
  decide +kernel

/-- R24: the last reload of a sweep. -/
theorem test_sweep_done :
    (endReload (board.setLoader { board.loader with cfg := .sweeping })).loader.cfg = .running
    ∧ (endReload (board.setLoader { board.loader with cfg := .sweeping })).events.queue.map
        EventRecord.kind = [.sweepDone] := by decide +kernel

/-- R81, log 11: a value ahead of a due board second leaves the point fresh, and the second counts. -/
theorem test_value_first :
    (after (.sourceItemEvaluation 1) (item 0x1000 0
        (due 40 { firstRecord switch 0 with age := 2 }))).evaluator.values.look 40
      = some { firstRecord switch 0 with age := 1 }
    ∧ (after (.sourceItemEvaluation 1) (item 0x1000 0
        (due 40 { firstRecord switch 0 with age := 2 }))).evaluator.secondDue = [] := by decide +kernel

/-- R157, R158, R174: the tick after a lamp test's end sends TEST dark, its end taken by no command. -/
theorem test_lamp_test_end_between_ticks :
    (after (.tick 0xFF 0xFF 0xFF) (after (.tick 0xFF 0xFF 0xFF) { board with
      gen := { board.gen with testTimer := 1 }
      panel := { board.panel with testOn := true } })).panel.shown.getD 3 true = false := by
  decide +kernel

/-- `failing` with lamp 1 commanded on and FAULTY beside lamp 0, the Event Unit's copies current. -/
def twoLamps : State :=
  let x : Chains := { failing.chains with
    a := { failing.chains.a with
      exchange := failing.chains.a.exchange.map (fun x => { x with record := some ⟨1, [true, true]⟩ }) }
    fails := [(0, 1), (1, 2)]
    faultCount := 1 }
  let s := { failing with chains := x }
  { s with events := { s.events with copies := s.reported } }

/-- R139, R171: a LAMP_FAULT and a LAMP_RESTORED of one return are two changes, and k22 is owed. -/
theorem test_fault_and_restored :
    (after (.exchangeEnd .a [] [0] none) twoLamps).events.queue.map EventRecord.kind
      = [.lampFault, .lampRestored]
    ∧ (after (.exchangeEnd .a [] [0] none) twoLamps).chains.faultCount = 1
    ∧ twoLamps.events.owed22 = false
    ∧ (after (.exchangeEnd .a [] [0] none) twoLamps).events.owed22 = true := by decide +kernel

/-- The queue of commands: a step takes the front command, and an empty queue idles. -/
theorem test_step : step { board with pending := [.hostReset, .tick 0xFF 0xFF 0xFF] }
      = exec .hostReset { board with pending := [.tick 0xFF 0xFF 0xFF] }
    ∧ step State.reset = .next State.reset ∧ decodeTableWord 16 0 = none :=
  ⟨rfl, rfl, rfl⟩

/-! ## Witnesses: for each obligation, states and operands that meet the hypotheses of its clauses -/

/-- A full capture queue. -/
def fullQueue (s : State) : State :=
  s.setPath { s.path with capture := List.replicate 64 ⟨0x1000, 0, 3, false⟩ }

/-- A held front-end access. -/
def holding (h : HeldAccess) (s : State) : State := s.setPath { s.path with access := some h }

/-- A full event queue. -/
def fullEvents (s : State) : State :=
  s.setEvents { s.events with queue := List.replicate 32 ⟨.raised, .part, 0, 0, 0⟩ }

/-- The board UNCONFIGURED. -/
def bare : State := { board with loader := .afterReset }

/-- The board in a mode. -/
def inMode (m : Mode) : State := { board with gen := { board.gen with mode := m } }

theorem test_witness_stepChoices : State.reset.pending = [] ∧ Instr.ackKey ∉ tickPieces
    ∧ ¬ { board with gen := { board.gen with tickWork := [.phaseBoundary] } }.tickDone := by
  decide +kernel

theorem test_witness_commands : (∃ t, exec .hostReset board = .next t)
    ∧ exec (.frontEndRead 0) (holding ⟨0, .read, .partWord⟩ board) = .fault .accessWhileHeld :=
  ⟨⟨_, rfl⟩, rfl⟩

theorem test_witness_reports : (∃ t, exec .testKey (press .test board) = .next t)
    ∧ bare.configured = false ∧ board.configured = true := ⟨⟨_, rfl⟩, by decide, by decide⟩

theorem test_witness_reloadBegins : board.onBoard ∧ board.path.requests.config = none
    ∧ board.busyWith PartWork.isConfig = false ∧ board.loader.reload = none ∧ board.loader.pass = none
    ∧ { board with loader := { board.loader with pendingPoints := [40, 42] } }.loader.pendingPoints
        = 40 :: [42] ∧ 40 ∉ [42]
    ∧ ConfigRead.k2.ofPass = true ∧ board.loader.pendingPoints = [] := by decide +kernel

/-- A partial item at the front, a status word owed, a dirty image word and an event queued, nothing under way. -/
def wanting : State :=
  { board with
    path := { board.path with capture := [⟨0x1000, 5, 1, true⟩] }
    gen := { board.gen with dirty := [3, 9], lastWord := 5 }
    events := { board.events with copies := board.reported, owed21 := true, owed22 := true
                                  queue := [⟨.raised, .part, 1, 1, 0⟩] } }

/-- R9, R12, R126, R167, R171: the five requests that the end of a command raises, and the record in progress. -/
theorem test_requests_raised :
    (settle { wanting with loader := { wanting.loader with pendingPoints := [40] } }).path.requests
      = ⟨some 0x1000, some (.word 0), some (.entry 40 0), some .k21, some 9⟩
    ∧ (settle wanting).events.inProgress = some 0
    ∧ (settle { wanting with loader := .afterReset }).path.requests
      = ⟨some 0x1000, none, none, none, none⟩ := by decide +kernel

theorem test_witness_requests : wanting.path.requests = Requests.none ∧ wanting.onBoard
    ∧ wanting.events.ringHeld = true ∧ wanting.events.inProgress = none
    ∧ (settle wanting).path.requests.ring = some (.word 0)
    ∧ (busy (.status .k19) 0x67013 1 wanting).underWay (.status .k19) 0x67013 1
    ∧ (settle (busy (.status .k19) 0x67013 1 wanting)).path.requests.status = none
    ∧ (settle (busy (.ring .k18) 0x67012 1 wanting)).events.inProgress = none
    ∧ (settle (busy (.image 3) 0x67643 1 wanting)).path.requests.image = none
    ∧ (settle (busy .reread 0x1000 1 wanting)).path.requests.reread = none
    ∧ [ReloadStage.entry, .source, .value].all (fun g => decide
        ((reloading ⟨40, [], g⟩ board).loader.reload = some ⟨40, [], g⟩)) = true
    ∧ ((points .quiet).loader.points.val PointRec.absent 40).held = some switch := by decide +kernel

theorem test_witness_invariant : { board with pending := [.hostReset] }.Inv
    ∧ ∃ t, step { board with pending := [.hostReset] } = .next t := by
  have empty : State.Exact { board with pending := [.hostReset] } := .empty rfl rfl rfl rfl
  refine ⟨⟨by decide, ⟨by decide, by decide, by decide, by decide, by decide⟩, ?_, ?_,
    ⟨by decide, by decide⟩, ?_, ?_, by decide, by decide, by decide, by decide, empty.list, empty.shelf,
    empty.due, empty.joined⟩, ⟨_, rfl⟩⟩
  · exact ⟨by decide, by decide, by decide, by decide⟩
  · exact ⟨⟨by decide, by decide, by decide⟩, ⟨by decide, by decide, by decide⟩,
      ⟨by decide, by decide, by decide⟩, ⟨by decide, by decide, by decide⟩,
      fun _ => by simp [board, State.reset, Chains.afterReset, Table.val, Table.look]⟩
  · exact ⟨by decide, by decide, (fun g h => nomatch h), (fun r h => nomatch h), by decide, by decide⟩
  · exact ⟨(fun h => nomatch h), (fun h => nomatch h)⟩

theorem test_witness_watch : board.path.inReset = false
    ∧ [0x67000, 0x67001, 0x6000F, 0x66FFF, 0x67040, 0x6723C].map
        (fun a => (regionOffset board.path.base (BitVec.ofNat 19 a), board.watched (BitVec.ofNat 19 a)))
      = [(some 0x7000, true), (some 0x7001, true), (some 0xF, true), (some 0x6FFF, true),
        (some 0x7040, true), (some 0x723C, true)]
    ∧ [0x60000, 0x67002, 0x67045, 0x67240, 0x67FFF].map
        (fun a => board.watched (BitVec.ofNat 19 a)) = List.replicate 5 false
    ∧ regionOffset board.path.base 0x68000 = none ∧ regionOffset board.path.base 0x5FFFF = none := by
  decide +kernel

theorem test_witness_regionWords : imageIndex 0x7640 = some 0 ∧ imageIndex 0x7A3F = some 1023
    ∧ regionWordAt 0xF = some (.control 0) ∧ regionWordAt 0x6FFF = some (.control 1791)
    ∧ regionWordAt 0x7040 = some (.group 0 0) ∧ regionWordAt 0x723C = some (.group 63 4)
    ∧ regionWordAt 0x7012 ≠ none ∧ (item 0x67011 9 board).front .k17 9 := by decide +kernel

theorem test_witness_frontEndWrites : board.tickDone ∧ board.path.access = none
    ∧ board.path.hostReset = false ∧ board.path.partAccess = none
    ∧ board.watched 0x1000 = false ∧ board.watched 0x67000 = true ∧ board.path.capture.length < 64
    ∧ (fullQueue board).watched 0x67000 = true ∧ ¬ (fullQueue board).path.capture.length < 64
    ∧ (3 : BitVec 2).getLsbD 0 = true ∧ (3 : BitVec 2).getLsbD 1 = true
    ∧ (5 : Nat) ≠ cellOf 0 0 ∧ (5 : Nat) ≠ cellOf 0 1 := by decide +kernel

theorem test_witness_frontEndRead :
    (regionOffset board.path.base 0x67640).bind imageIndex = some 0
    ∧ (regionOffset board.path.base 0x67A3F).bind imageIndex = some 1023
    ∧ 1023 ∈ { board with gen := { board.gen with dirty := [1023] } }.gen.dirty
    ∧ (regionOffset board.path.base 0x67A40).bind imageIndex = none
    ∧ 0 ∉ board.gen.dirty := by decide +kernel

theorem test_witness_heldAccesses :
    (busy (.image 0) 0x67640 0 board).tickDone
    ∧ (busy (.image 0) 0x67640 0 board).path.partAccess = some ⟨.image 0, 0x67640, 0, false⟩
    ∧ board.dirtyImage 0x67640 = none
    ∧ { board with gen := { board.gen with dirty := [0] } }.dirtyImage 0x67640 = some 0
    ∧ (holding ⟨0x1000, .write 1 3, .partWord⟩ board).path.access
        = some ⟨0x1000, .write 1 3, .partWord⟩
    ∧ (holding ⟨0x67000, .write 1 3, .fullQueue⟩ board).path.capture.length < 64
    ∧ (holding ⟨0x67000, .write 1 3, .fullQueue⟩ board).watched 0x67000 = true
    ∧ (holding ⟨0x1000, .write 1 3, .partWord⟩ board).watched 0x1000 = false
    ∧ [HoldReason.released, .releasedWrite].all (fun r => decide
        ((holding ⟨0x67000, .write 1 3, r⟩ bare).path.access = some ⟨0x67000, .write 1 3, r⟩
          ∧ (holding ⟨0x67000, .write 1 3, r⟩ bare).path.partAccess = none)) := by decide +kernel

theorem test_witness_heldTaken :
    (holding ⟨0x67000, .write 1 3, .partWord⟩ (fullQueue board)).watched 0x67000 = true
    ∧ ¬ (holding ⟨0x67000, .write 1 3, .partWord⟩ (fullQueue board)).path.capture.length < 64
    ∧ (holding ⟨0x67640, .read, .partWord⟩ board).dirtyImage 0x67640 = none
    ∧ { holding ⟨0x67640, .read, .partWord⟩ board with
        gen := { board.gen with dirty := [0] } }.dirtyImage 0x67640 = some 0
    ∧ (holding ⟨0x67000, .write 1 3, .fullQueue⟩ (busy (.image 0) 0x67640 0 board)).path.partAccess
        = some ⟨.image 0, 0x67640, 0, false⟩
    ∧ (holding ⟨0x67000, .write 1 3, .fullQueue⟩ (busy (.image 0) 0x67640 0 board)).path.capture.length
        < 64 := by decide +kernel

/-- R3, R8: a held read is answered; a write freed by the queue waits for the part word, and is watched anew then. -/
theorem test_held_accesses :
    (after .heldAccessTaken { holding ⟨0x67640, .read, .partWord⟩ board with
      gen := { board.gen with dirty := [0], patterns := [(0, .fast)] } }).path.hostData = 2
    ∧ (after .heldWriteRelease (holding ⟨0x67000, .write 1 3, .fullQueue⟩
        (busy (.image 0) 0x67640 0 board))).path.access = some ⟨0x67000, .write 1 3, .partWord⟩
    ∧ (after .heldAccessTaken (holding ⟨0x67000, .write 1 3, .partWord⟩ (fullQueue board))).path.access
        = some ⟨0x67000, .write 1 3, .fullQueue⟩ := by decide +kernel

theorem test_witness_hwait : (busy (.image 0) 0x67640 0 board).path.access = none
    ∧ (after (.frontEndRead 0x1000) (busy (.image 0) 0x67640 0 board)).hwait = true
    ∧ (after (.frontEndWrite 0x67000 1 3) (fullQueue board)).hwait = true
    ∧ (after .hostReset heldK0).hwait = false ∧ (after .testKey heldK0).hwait = true
    ∧ (∀ a w l, Instr.testKey ≠ .frontEndWrite a w l) ∧ (∀ a, Instr.testKey ≠ .frontEndRead a)
    ∧ Instr.testKey ≠ .heldAccessTaken :=
  ⟨by decide, by decide +kernel, by decide +kernel, by decide +kernel, by decide +kernel,
    (fun _ _ _ h => nomatch h), (fun _ h => nomatch h), by decide⟩

theorem test_witness_resets : board.tickDone
    ∧ { board with path := { board.path with hostReset := true } }.path.hostReset = true
    ∧ (holding ⟨0, .write 1 3, .fullQueue⟩ (fullQueue board)).path.partAccess = none
    ∧ (holding ⟨0, .read, .released⟩ board).path.access = some ⟨0, .read, .released⟩
    ∧ heldK0.path.access = some ⟨0x67000, .write 0x1234 3, .fullQueue⟩
    ∧ heldK0.path.partAccess = some ⟨.image 0, 0x67640, 0, false⟩
    ∧ { board with path := { board.path with inReset := true } }.path.inReset = true := by
  decide +kernel

/-- Every requester waiting. -/
def waiting (r : Requests) : State :=
  { board with
    path := { board.path with requests := r }
    events := { board.events with queue := [⟨.raised, .part, 1, 1, 0⟩], inProgress := some 0 } }

theorem test_witness_slot : board.slotIdle = true
    ∧ (busy (.image 0) 0x67640 0 board).slotIdle = false
    ∧ (holding ⟨0x67000, .write 1 3, .fullQueue⟩ (fullQueue board)).slotIdle = true
    ∧ (holding ⟨0x67000, .write 1 3, .fullQueue⟩ board).slotIdle = false := by decide +kernel

theorem test_witness_grant :
    (waiting ⟨some 0, some .k18, some .k1, some .k19, some 0⟩).slotIdle = true
    ∧ (waiting ⟨none, some (.word 0), none, none, none⟩).events.queue = [⟨.raised, .part, 1, 1, 0⟩]
    ∧ (waiting ⟨none, some .k18, some .k1, some .k19, some 0⟩).path.requests.ring = some .k18
    ∧ (waiting ⟨none, some .head, none, none, none⟩).path.requests.reread = none
    ∧ (waiting ⟨none, none, some (.entry 40 0), some .k19, some 0⟩).path.requests.config
        = some (.entry 40 0)
    ∧ (waiting ⟨none, none, some (.entry 40 0), some .k19, some 0⟩).loader.reload = none
    ∧ (waiting ⟨none, none, none, some .k22, some 0⟩).path.requests.status = some .k22
    ∧ (after .hostReset (waiting ⟨none, none, none, some .k22, some 0⟩)).events.copies
        = (after .hostReset (waiting ⟨none, none, none, some .k22, some 0⟩)).reported
    ∧ (waiting ⟨none, none, none, none, some 1023⟩).path.requests.image = some 1023 := by
  decide +kernel

theorem test_witness_partAccessCompletes :
    (busy (.status .k19) 0x67013 1 board).underWay (.status .k19) 0x67013 1
    ∧ (busy (.ring .k18) 0x67012 1 board).underWay (.ring .k18) 0x67012 1
    ∧ (busy (.ring (.word 3)) 0x67243 1 (waiting Requests.none)).events.inProgress = some 0
    ∧ (busy (.ring .head) 0x67010 1 board).underWay (.ring .head) 0x67010 1
    ∧ (busy (.image 1023) 0x67A3F 1 board).underWay (.image 1023) 0x67A3F 1
    ∧ (busy .reread 0x1000 1 (item 0x1000 0 board)).path.capture = [⟨0x1000, 0, 3, false⟩]
    ∧ (board.setPath { board.path with partAccess := some ⟨.reread, 0, 0, true⟩ }).path.partAccess
        = some ⟨.reread, 0, 0, true⟩
    ∧ board.path.partAccess = none := by decide +kernel

theorem test_witness_sweep : bare.gen.modeOwed = false ∧ State.reset.gen.modeOwed = true
    ∧ State.reset.events.queue.length < 32
    ∧ (busy (.config .k0) 0x67000 0x4E47 bare).underWay (.config .k0) 0x67000 0x4E47
    ∧ bare.loader.cfg = .unconfigured ∧ (0 : Word) ≠ 0x4E47 := by decide +kernel

theorem test_witness_signature : (item 0x67000 0x4E47 bare).front .k0 0x4E47
    ∧ (item 0x67000 0 bare).front .k0 0 ∧ (item 0x67000 0 board).front .k0 0 ∧ board.onBoard
    ∧ (busy (.image 0) 0x67640 0 board).path.partAccess = some ⟨.image 0, 0x67640, 0, false⟩ := by
  decide +kernel

/-- A settings pass under way. -/
def passing (p : Pass) : State :=
  board.setLoader { board.loader with cfg := .sweeping, pass := some p }

theorem test_witness_settingsPass :
    (passing ⟨true, .k5, true, false⟩).loader.pass = some ⟨true, .k5, true, false⟩
    ∧ ConfigRead.after true .k5 = some .k16
    ∧ (passing ⟨false, .k5, false, true⟩).loader.pass = some ⟨false, .k5, false, true⟩
    ∧ [ConfigRead.k1, .k2, .k3, .k4, .k5, .group 63 0, .group 63 1, .group 63 2, .k16, .k17, .k18].all
        (fun r => decide ((busy (.config r) (r.address board.path.base) 1
          (passing ⟨true, r, true, false⟩)).underWay (.config r) (r.address board.path.base) 1)) := by
  decide +kernel

/-- R22, R32, log 16: after k18 come the groups, and a pass restarted then reads k16 to k18 no more. -/
theorem test_after_k18 :
    (advancePass .k18 (passing ⟨true, .k18, true, false⟩)).loader.pass
      = some ⟨true, .group 0 0, false, false⟩
    ∧ (advancePass .k18 (passing ⟨true, .k18, true, true⟩)).loader.pass
      = some ⟨true, .k2, false, false⟩ := by decide +kernel

theorem test_witness_sweepDone :
    (passing ⟨true, .group 63 2, true, false⟩).loader.pass = some ⟨true, .group 63 2, true, false⟩
    ∧ (ConfigRead.group 63 2).after true = none
    ∧ (passing ⟨false, .group 63 2, false, false⟩).loader.pass
        = some ⟨false, .group 63 2, false, false⟩
    ∧ { board.loader with cfg := .sweeping }.reload = none ∧ board.loader.cfg ≠ .sweeping := by
  decide +kernel

theorem test_witness_cardCounts : Chain.afterReset.state = .idle ∧ board.chains.a.state ≠ .idle
    ∧ (passing ⟨false, .k3, false, false⟩).loader.pass = some ⟨false, .k3, false, false⟩
    ∧ (passing ⟨false, .k3, false, false⟩).chains.c.count ≠ min 16 ((5 : Word).extractLsb' 0 5).toNat
    ∧ board.chains.d.count = min 16 ((0 : Word).extractLsb' 8 5).toNat
    ∧ board.chains.a.count ≠ min 16 ((5 : Word).extractLsb' 0 5).toNat
    ∧ board.chains.b.count ≠ min 16 ((0x104 : Word).extractLsb' 8 5).toNat
    ∧ board.chains.a.count = min 16 ((4 : Word).extractLsb' 0 5).toNat
    ∧ board.chains.b.count = min 16 ((4 : Word).extractLsb' 8 5).toNat
    ∧ (passing ⟨true, .k2, true, false⟩).loader.pass = some ⟨true, .k2, true, false⟩ := by
  decide +kernel

theorem test_witness_lampSettings :
    (after .summaryLampWrite (item 0x67051 0x8064 (points .quiet))).settingAt (.summary 2)
      = ⟨some 100, true⟩
    ∧ (points .quiet).chains.present 100 = true ∧ (points .quiet).chains.present 256 = false
    ∧ (points .quiet).settingAt .boardFault = ⟨none, false⟩
    ∧ ((points .quiet).loader.claims.look 200).isSome = true
    ∧ (points .quiet).loader.claims.look 100 = none := by decide +kernel

theorem test_witness_groupWrites : (item 0x67238 3 board).front (.group 63 0) 3
    ∧ (item 0x67041 0x8064 board).front (.group 0 1) 0x8064
    ∧ (item 0x67042 0x8064 board).front (.group 0 2) 0x8064 ∧ board.tickDone := by decide +kernel

theorem test_witness_generation : (item 0x67001 9 board).front .k1 9
    ∧ (item 0x67001 9 board).loader.generation = some 7 ∧ board.loader.pass = none
    ∧ (passing ⟨true, .k1, true, false⟩).loader.pass = some ⟨true, .k1, true, false⟩
    ∧ { board with loader := { board.loader with generation := none } }.loader.generation = none := by
  decide +kernel

theorem test_witness_controlWord : (item 0x66FFF 0 board).front (.control 1791) 0
    ∧ 1791 ∉ board.loader.pendingPoints
    ∧ 1791 ∈ { board with loader := { board.loader with pendingPoints := [1791] } }.loader.pendingPoints :=
  by decide +kernel

theorem test_witness_unconfigured : (item 0x67001 0 bare).front .k1 0
    ∧ (item 0x67008 0 bare).front .k8 0 ∧ (item 0x67009 0 bare).front .k9 0
    ∧ (item 0x6700A 0 bare).front .k10 0 ∧ (item 0x6700B 1 bare).front .k11 1
    ∧ (item 0x6700B 6 bare).front .k11 6 ∧ (item 0x67011 0 bare).front .k17 0
    ∧ (item 0x67012 0 bare).front .k18 0 ∧ (item 0x6000F 0 bare).front (.control 0) 0
    ∧ [0, 1, 2, 3, 4].all (fun i => decide
        ((item (0x67238 + BitVec.ofNat 19 i) 0 bare).front (.group 63 i) 0)) = true
    ∧ [0, 1, 2, 3, 4, 5, 6, 7, 8].all (fun w => decide ((item 0x6700B w bare).front .k11 w)) = true
    ∧ bare.loader.cfg = .unconfigured := by
  decide +kernel

theorem test_witness_validation :
    { switch with w1 := 0x3030 }.kind = none
    ∧ 16 < { bar with w1 := 0x1F10 }.shift + { bar with w1 := 0x1F10 }.width
    ∧ { switch with w1 := 0x0130 }.width ≠ 1 ∧ { valve with w1 := 0x2200 }.width ≠ 2
    ∧ { switch with w3 := 0xD0C9 }.mode = none ∧ { bar with w5 := 400 }.full ≤ bar.zero
    ∧ switch.fieldsPass ∧ regionOffset board.path.base switch.source = none
    ∧ regionOffset board.path.base { switch with w0 := 0, w1 := 0x36 }.source = some 0
    ∧ { switch with w0 := 0, w1 := 0x36 }.fieldsPass
    ∧ wordCheck board.path.base switch = none ∧ wordCheck board.path.base { switch with w0 := 0, w1 := 0x36 } = some 5
    ∧ validate board switch = none ∧ validate (points .quiet) switch = some 8
    ∧ validate board { switch with w3 := 0x90C8 } = some 7
    ∧ validate board { switch with w2 := 256 } = some 6
    ∧ (∀ l ∈ switch.lamps, board.chains.present l = true ∧ board.loader.claims.look l = none) := by
  decide +kernel

theorem test_witness_entryRead :
    (busy (.config (.entry 40 0)) 0x6028F 0x8203 (reloading ⟨40, [], .entry⟩ board)).underWay
      (.config (.entry 40 0)) 0x6028F 0x8203
    ∧ (0x8203 : Word).getLsbD 15 = true ∧ (0x0203 : Word).getLsbD 15 = false
    ∧ (reloading ⟨40, [0x8203], .entry⟩ board).loader.reload = some ⟨40, [0x8203], .entry⟩
    ∧ (List.replicate 11 (0x8203 : Word)).length = 11 := by decide +kernel

theorem test_witness_judgementTable :
    (board.point 40).status = .absent ∧ ((points .new).point 40).status = .installed
    ∧ ((points .new).point 40).held = some switch ∧ 40 ∉ (points .new).loader.marked
    ∧ 40 ∈ { board.loader with marked := [40] }.marked
    ∧ ({ board with loader := { board.loader with
        points := [(40, ⟨.rejected 5, some switch, false⟩)] } }.point 40).status = .rejected 5
    ∧ entryOf [0x8203, 0x1000, 0x0030, 0x00C8, 0x90C9, 1, 0, 0, 0, 0, 0, 0] = some switch
    ∧ switch.w15.getLsbD 15 = true ∧ some switch ≠ some valve := by decide +kernel

theorem test_witness_judgedEntries : validate board switch = none
    ∧ validate board { switch with w2 := 256 } = some 6 ∧ board.loader.cfg = .running
    ∧ board.events.queue.length < 31
    ∧ (passing ⟨true, .k1, true, false⟩).loader.cfg = .sweeping
    ∧ (passing ⟨true, .k1, true, false⟩).loader.pass ≠ none
    ∧ validate (passing ⟨true, .k1, true, false⟩) { switch with w2 := 256 } = some 6
    ∧ { board.loader with cfg := .sweeping }.pendingPoints = []
    ∧ { board.loader with cfg := .sweeping }.pass = none
    ∧ (true = true ∧ PointStatus.rejected 6 = .rejected 6)
    ∧ ¬ (true = true ∧ PointStatus.rejected 5 = .rejected 6)
    ∧ ¬ (false = true ∧ PointStatus.rejected 6 = .rejected 6) := by decide +kernel

/-- R49, R57: a rejection for the same reason. The identical entry is silent, a different one is recorded, and a
REJECTED point that validates leaves the rejected count. -/
theorem test_rejected_again :
    (validatePoint 40 { switch with w2 := 256 } (.rejected 6) true board).events.queue = []
    ∧ (validatePoint 40 { switch with w2 := 256 } (.rejected 6) false board).events.queue
      = [⟨.entryRejected, .part, 40, 6, 0⟩]
    ∧ (validatePoint 40 { switch with w2 := 256 } .absent false
        (board.setLoader { board.loader with cfg := .sweeping })).events.queue.map EventRecord.kind
      = [.entryRejected, .sweepDone]
    ∧ (validatePoint 40 switch (.rejected 6) false
        (board.setLoader { board.loader with rejected := 3 })).loader.rejected = 2 := by decide +kernel

/-- `lamped` with a value record of point 40 at which the board second is due. -/
def lampedDue (v : ValueRec) : State := { lamped .quiet with evaluator := (due 40 v).evaluator }

/-- The lamps and the stale flag that a removal, a transition and a stale report follow. -/
theorem test_witness_groupLamps : (lamped .new).entryOf 40 = some switch
    ∧ (lamped .new).groupOf 40 = some 2 ∧ ((lamped .new).settings 2).summary.claimed = some 100
    ∧ ((lamped .new).settings 2).staleLamp.claimed = some 101 ∧ 100 ∉ switch.lamps ∧ 101 ∉ switch.lamps
    ∧ 101 ∉ switch.displayLamps ∧ switch.group = 2 ∧ switch.alarmLamp = some 201
    ∧ (lampedDue { firstRecord switch 0 with stale := true }).evaluator.values.look 40
        = some { firstRecord switch 0 with stale := true }
    ∧ ((lampedDue { firstRecord switch 0 with stale := true }).settings 2).staleLamp.claimed = some 101
    ∧ 40 ∈ (lampedDue { firstRecord switch 0 with age := 2 }).evaluator.secondDue
    ∧ (after (.becomesStale 40) (lampedDue { firstRecord switch 0 with age := 2 })).patternOf 101 = .steady
    ∧ ((lamped .new).settings 2).summary.claimed ≠ some 201
    ∧ ((lamped .new).settings 2).staleLamp.claimed ≠ some 100
    ∧ ((points .new).settings 2).summary.claimed ≠ some 100
    ∧ (lamped .new).loader.faultLamp.claimed = some 102 := by decide +kernel

theorem test_witness_transitions :
    [AnnState.quiet, .new, .fleeting, .standing, .returned, .shelved].all
      (fun st => decide ((lamped st).ann.records.look 40 = some ⟨st, 1, 2⟩
        ∧ ((lamped st).point 40).status = .installed)) = true
    ∧ (Report.onset .high).effect .quiet = some (.new, .raised, 1)
    ∧ (Report.ret).effect .standing = some (.returned, .returned, 0) := by decide +kernel

theorem test_witness_removal : (points .new).entryOf 40 = some switch ∧ (points .new).listExact
    ∧ (points .shelved).shelfExact := by
  refine ⟨by decide +kernel, ⟨by decide, fun n => ?_⟩, ⟨by decide, fun n => ?_⟩⟩
  · by_cases h : n = 40
    · subst h; decide
    · by_cases k : n = 42
      · subst k; decide
      · simp [points, State.annState, Table.look, AnnState.onList, h, Ne.symm h, Ne.symm k]
  · by_cases h : n = 40
    · subst h; decide
    · by_cases k : n = 42
      · subst k; decide
      · simp [points, State.annState, Table.look, h, Ne.symm h, Ne.symm k]

/-- The source read of point 40's install has completed. -/
def installing : State :=
  { board with
    loader := { board.loader with
      points := [(40, ⟨.absent, some switch, true⟩)], reload := some ⟨40, [], .value⟩ }
    evaluator := { board.evaluator with firstValue := some (40, 8) } }

theorem test_witness_firstValues :
    (busy (.config (.source 40 0x1000)) 0x1000 8 (reloading ⟨40, [], .source⟩ board)).underWay
      (.config (.source 40 0x1000)) 0x1000 8
    ∧ installing.evaluator.firstValue = some (40, 8) ∧ installing.evaluator.item = none
    ∧ installing.entryOf 40 = some switch ∧ switch.alarmCapable = true
    ∧ { switch with w3 := 0 }.alarmCapable = false ∧ installing.ann.records.look 40 = none
    ∧ (reloading ⟨40, [], .value⟩ board).loader.reload = some ⟨40, [], .value⟩
    ∧ ReloadStage.value ≠ .source
    ∧ (judgeFirst switch (switch.field 8)).2 = .abnormal .level
    ∧ (judgeFirst switch (switch.field 0)).2 = .normal := by
  decide +kernel

/-- The display lamps, at both ends of their range, of points whose other lamps are others. -/
theorem test_witness_displayed :
    switch.displayLamps[0]? = some 200 ∧ valve.displayLamps[1]? = some 221
    ∧ bar.displayLamps[9]? = some (bar.firstLamp + 9)
    ∧ (displayPatterns switch .discrete 1 false)[0]? = some .steady
    ∧ (displayPatterns bar (.analogue 5 false false) 2000 false)[9]? = some .off
    ∧ ¬ (lamped .new).besideDisplay switch 2 200 ∧ ¬ (lamped .new).besideDisplay valve 2 221
    ∧ (lamped .new).ann.records.look 40 = some ⟨.new, 1, 2⟩
    ∧ (after .firstValue installing).patternOf 200 = .steady
    ∧ (after (.sourceItemEvaluation 1) (item 0x1000 8 (lamped .quiet))).patternOf 200 = .steady
    ∧ [220, 221].map (after (.sourceItemEvaluation 1) (item 0x1002 1 (lamped .quiet))).patternOf
      = [.steady, .off] := by
  unfold State.besideDisplay
  decide +kernel

theorem test_witness_firstJudged : switch.kind = some .discrete ∧ bar.kind = some .analogue
    ∧ valve.kind = some .valve
    ∧ (true = true ↔ bar.highEnabled = true ∧ bar.highLimit ≤ 3400)
    ∧ (false = true ↔ bar.lowEnabled = true ∧ 3400 ≤ bar.lowLimit)
    ∧ (judgeFirst bar 3400).2 = .abnormal .high ∧ (judgeFirst bar 600).2 = .abnormal .low := by
  decide +kernel

theorem test_witness_laterValues :
    (points .quiet).evaluator.values.look 40 = some (firstRecord switch 0)
    ∧ (points .quiet).entryOf 40 = some switch
    ∧ (item 0x1000 8 (points .quiet)).evaluator.item = none
    ∧ regionOffset (points .quiet).path.base 0x1000 = none
    ∧ (points .quiet).installingAt 0x1000 = false ∧ (points .quiet).pointsAt 0x1000 = [40]
    ∧ (due 40 { firstRecord switch 0 with stale := true }).evaluator.values.look 40
        = some { firstRecord switch 0 with stale := true }
    ∧ { board with evaluator := { board.evaluator with item := some ⟨8, [40]⟩ } }.evaluator.item
        = some ⟨8, [40]⟩ := by decide +kernel

theorem test_witness_valueFirst :
    40 ∈ (due 40 (firstRecord switch 0)).evaluator.secondDue
    ∧ (laterRecord switch (firstRecord switch 0) 0).staling switch = false
    ∧ (laterRecord switch (firstRecord switch 0) 0).expiring = false
    ∧ (laterRecord { switch with w15 := 0x8201 } (firstRecord switch 0) 0).staling
        { switch with w15 := 0x8201 } = true
    ∧ 40 ∉ (points .quiet).evaluator.secondDue := by decide +kernel

theorem test_witness_judgedValues : (firstRecord switch 0).kind = .discrete
    ∧ switch.mode = some .level ∧ (firstRecord switch 0).condition = .normal
    ∧ (firstRecord switch 1).condition = .abnormal .level ∧ switch.active = 1
    ∧ [0x80C9, 0x90C9, 0xA0C9, 0xB0C9, 0xC0C9].map (fun w => { switch with w3 := w }.mode)
        = [some .none, some .level, some .rising, some .falling, some .both]
    ∧ (firstRecord valve 2).kind = .valve .closed none false
    ∧ (firstRecord valve 3).condition = .abnormal .discrepant
    ∧ (firstRecord valve 3).kind ≠ .discrete ∧ Cause.high ≠ Cause.low
    ∧ (firstRecord bar 2000).kind = .analogue 5 false false := by decide +kernel

theorem test_witness_analogue : bar.zero < bar.full ∧ (399 : Int) ≤ bar.zero
    ∧ (bar.full : Int) ≤ 3600 ∧ (5 : Nat) < barCount bar ((2200 : Int) - bar.hysteresis)
    ∧ barCount bar ((2110 : Int) - bar.hysteresis) ≤ 6 ∧ barCount bar ((2110 : Int) + bar.hysteresis) < 6
    ∧ barCount bar ((2190 : Int) - bar.hysteresis) ≤ 5 ∧ 5 ≤ barCount bar ((2190 : Int) + bar.hysteresis)
    ∧ bar.highEnabled = true ∧ bar.lowEnabled = true
    ∧ { bar with w10 := 4 }.highEnabled = false ∧ { bar with w10 := 4 }.lowEnabled = false := by
  decide +kernel

theorem test_witness_display : { bar with w10 := 3 }.marking = false ∧ bar.barLength = 10
    ∧ bar.marking = true := by
  decide +kernel

theorem test_witness_lampsOfAPoint :
    switch.alarmCapable = true ∧ bar.alarmCapable = true ∧ valve.alarmCapable = true
    ∧ switch.w3.getLsbD 15 = true ∧ switch.alarmLamp = some 201 ∧ { switch with w3 := 0x10C9 }.alarmLamp = none
    ∧ board.chains.present 255 = true ∧ board.chains.present 256 = false
    ∧ [0, 0x1000, 0x2000, 0x3000].map (fun w => { switch with w1 := w }.kind)
        = [some .discrete, some .analogue, some .valve, none]
    ∧ [0x4000, 0x5000, 0x7FFF].map (fun w => { switch with w3 := w }.mode) = [some .both, none, none]
    ∧ (0x8064 : Word).getLsbD 15 = true ∧ lampField 0x8064 = some 100 ∧ lampField 0x7FFF = none := by
  decide +kernel

theorem test_witness_boardSecond :
    40 ∈ (due 40 { firstRecord switch 0 with age := 2 }).evaluator.secondDue
    ∧ { firstRecord switch 0 with age := 2 }.staling switch = true
    ∧ { firstRecord switch 0 with age := 2 }.expiring = false
    ∧ 42 ∈ (due 42 { firstRecord valve 0 with kind := .valve .travel (some 1) false }).evaluator.secondDue
    ∧ { firstRecord valve 0 with kind := .valve .travel (some 1) false }.staling valve = false
    ∧ (due 42 (firstRecord valve 0)).annState 42 = some .quiet
    ∧ (points .shelved).annState 40 = some .shelved := by decide +kernel

/-- VALVE point 42 with a timeout of 3, in an annunciation state, at a board second that makes it stale and takes
its travel timer to 0. -/
def bothDue (st : AnnState) : State :=
  let s := lamped .quiet
  { s with
    loader := { s.loader with
      points := s.loader.points.put 42 ⟨.installed, some { valve with w15 := 0x8203 }, false⟩ }
    evaluator := { s.evaluator with
      values := s.evaluator.values.put 42
        { firstRecord valve 0 with kind := .valve .travel (some 1) false, age := 2 }
      secondDue := [42] }
    ann := { s.ann with
      records := s.ann.records.put 42 ⟨st, 1, 2⟩
      shelf := if st = .shelved then [⟨42, 60⟩] else [] } }

/-- R81: STALE first, then the overrun, whichever of the two commands carries the step. -/
theorem test_stale_then_overrun :
    (bothDue .quiet).tickDone ∧ (bothDue .quiet).entryOf 42 = some { valve with w15 := 0x8203 }
    ∧ (bothDue .quiet).annState 42 = some .quiet ∧ (bothDue .shelved).annState 42 = some .shelved
    ∧ { firstRecord valve 0 with kind := .valve .travel (some 1) false, age := 2 }.staling
        { valve with w15 := 0x8203 } = true
    ∧ (bothDue .quiet).events.queue.length < 31
    ∧ (after (.becomesStale 42) (bothDue .quiet)).events.queue.map
        (fun x => (x.kind, x.detail)) = [(.stale, 0), (.raised, 5)]
    ∧ after (.travelTimerExpiry 42) (bothDue .quiet) = after (.becomesStale 42) (bothDue .quiet)
    ∧ [220, 221, 222, 100, 101].map (after (.becomesStale 42) (bothDue .quiet)).patternOf
        = [.stale, .stale, .first, .fast, .steady]
    ∧ (after (.becomesStale 42) (bothDue .shelved)).events.queue.map EventRecord.kind = [.stale] := by
  decide +kernel

/-- R75, R91: the overrun alone raises with cause 5. -/
theorem test_overrun_event :
    (after (.travelTimerExpiry 42) (due 42 { firstRecord valve 0 with
      kind := .valve .travel (some 1) false })).events.queue.map
        (fun x => (x.kind, x.subject, x.detail)) = [(.raised, 42, 5)] := by decide +kernel

theorem test_witness_alarmReports :
    [AnnState.quiet, .new, .fleeting, .standing, .returned, .shelved].all
      (fun st => decide ((points st).annState 40 = some st)) = true := by decide +kernel

theorem test_witness_acknowledge : ((points .new).point 40).status = .installed
    ∧ ((points .new).point 41).status ≠ .installed
    ∧ ({ points .new with ann := board.ann }.point 40).status = .installed
    ∧ { points .new with ann := board.ann }.annState 40 = none
    ∧ (points .returned).annState 40 = some .returned
    ∧ (points .new).groupOf 40 = some 2 := by decide +kernel

theorem test_witness_operationEvents :
    (points .new).onBoard ∧ (points .new).events.queue.length + (points .new).ann.unack.length ≤ 32
    ∧ ((points .shelved).point 40).status = .installed ∧ (points .shelved).annState 40 = some .shelved
    ∧ (points .returned).ann.records.sorted = true ∧ (points .returned).returnedPoints = [40]
    ∧ (points .shelved).onBoard
    ∧ (points .shelved).events.queue.length + (points .shelved).ann.shelf.length ≤ 32 := by
  decide +kernel

theorem test_witness_shelve : (points .new).ann.shelveMinutes ≠ 0
    ∧ { points .new with ann := { (points .new).ann with shelveMinutes := 0 } }.ann.shelveMinutes = 0
    ∧ (points .new).ann.shelf.length < 32
    ∧ 32 ≤ (List.range 32).length
    ∧ (∃ x ∈ (points .shelved).ann.shelf, x.point = 40)
    ∧ ∀ x ∈ (List.range 32).map (fun n => (⟨n, 60⟩ : ShelfRec)), x.point ≠ 40 := by decide +kernel

theorem test_witness_shelfExpiry :
    { points .shelved with ann := { (points .shelved).ann with shelfDue := true } }.ann.shelfDue = true
    ∧ (∀ x ∈ (points .shelved).ann.shelf, x.seconds ≤ 1) := by decide +kernel

theorem test_witness_lampSupply : (∃ t, exec .boardReset board = .next t)
    ∧ (∃ u, exec (.boardResetEnd 0) (after .boardReset board) = .next u)
    ∧ (after .boardReset board).lsup = false
    ∧ (after (.boardResetEnd 0) (after .boardReset board)).lsup = true
    ∧ (inMode .dark).lsup = false ∧ { failing with gen := (inMode .dark).gen }.lsup = true :=
  ⟨⟨_, rfl⟩, ⟨_, rfl⟩, by decide +kernel⟩

theorem test_witness_horn : (points .new).hornMember 40 = some 1 ∧ 40 ∈ (points .new).ann.unack
    ∧ { board with ann := { board.ann with silence := true } }.ann.silence = true
    ∧ [none, some 1, some 2, some 3].all
        (fun c => decide ({ board with ann := { board.ann with hornClass := c } }.ann.hornClass = c)) := by
  decide +kernel

theorem test_witness_joining : ((points .quiet).counts 2).unack = 0 ∧ ((points .new).counts 2).unack ≠ 0
    ∧ ((points .quiet).settings 2).horn = true ∧ (board.settings 2).horn = false
    ∧ ((joinList 40 2 (points .quiet)).counts 2).firstUp = some 40
    ∧ ((points .quiet).counts 2).firstUp ≠ some 40 := by decide +kernel

theorem test_witness_modes : [Mode.lit, .dim, .dark].all (fun m => decide ((inMode m).gen.mode = m))
    ∧ (item 0x67008 0 board).front .k8 0 ∧ (item 0x67008 3 board).front .k8 3
    ∧ ((3 : Word).extractLsb' 0 2 : BitVec 2) = 3
    ∧ { board with gen := { board.gen with wakeRequests := 1 } }.gen.wakeRequests = 0 + 1 := by
  decide +kernel

/-- A board one tick before the ends of its counters, and one tick earlier. -/
def ticking (k : Nat) : State :=
  { board with gen := { board.gen with
      tickCount := 98 + k, phaseTicks := 14 + k, settling := true, settleCount := 254 + k
      testTimer := 2 - k } }

theorem test_witness_tick : (ticking 0).tickDone ∧ (ticking 1).tickDone
    ∧ (ticking 0).path.inReset = false ∧ (ticking 1).path.inReset = false
    ∧ { ticking 0 with path := { board.path with inReset := true } }.path.inReset = true
    ∧ (ticking 0).gen.phaseTicks + 1 < 2 ^ (3 + (ticking 0).gen.flash.toNat)
    ∧ 2 ^ (3 + (ticking 1).gen.flash.toNat) ≤ (ticking 1).gen.phaseTicks + 1
    ∧ (ticking 0).gen.settling = true ∧ (ticking 0).gen.settleCount + 1 < 256
    ∧ (ticking 1).gen.settling = true ∧ 256 ≤ (ticking 1).gen.settleCount + 1
    ∧ 1 < (ticking 0).gen.testTimer ∧ (ticking 1).gen.testTimer = 1
    ∧ ((ticking 1).gen.tickCount + 1) % 100 = 0 := by decide +kernel

theorem test_all_ends_of_a_tick : ((ticking 1).gen.tick true).tickWork
    = [.keyRelease, .phaseBoundary, .settleEnd, .lampTestEnd, .frameSlot, .boardSecond] := by
  decide +kernel

theorem test_witness_workOfATick :
    [TickWork.phaseBoundary, .settleEnd, .lampTestEnd, .frameSlot, .boardSecond, .keyRelease].all
      (fun w => decide ({ board with gen := { board.gen with tickWork := [w] } }.gen.tickWork = [w]))
    ∧ (points .quiet).evaluator.secondDue = [] ∧ (points .quiet).ann.shelfDue = false
    ∧ (points .quiet).evaluator.values.sorted = true ∧ (points .quiet).crossing 40 = false
    ∧ (due 40 { firstRecord switch 0 with age := 2 }).crossing 40 = true := by decide +kernel

/-- R104, log 11: the shelf at a board second, without and with a record that expires. -/
def shelving (seconds : Nat) : State :=
  { points .shelved with ann := { (points .shelved).ann with shelf := [⟨42, 60⟩, ⟨40, seconds⟩] } }

theorem test_shelf_second : (shelving 2).ann.shelfDue = false
    ∧ (handSecond (shelving 2)).ann.shelf = [⟨42, 59⟩, ⟨40, 1⟩]
    ∧ (handSecond (shelving 2)).ann.shelfDue = false
    ∧ (handSecond (shelving 1)).ann.shelf = [⟨42, 60⟩, ⟨40, 1⟩]
    ∧ (handSecond (shelving 1)).ann.shelfDue = true := by decide +kernel

/-- `shelving` with the board second due at the shelf. -/
def shelfDue (seconds : Nat) : State :=
  { shelving seconds with ann := { (shelving seconds).ann with shelfDue := true } }

/-- R103 to R105, R44, log 11: where the expiring record leaves otherwise, the due second counts at once, and a
shelve behind it keeps its whole time. -/
theorem test_due_shelf :
    (acknowledge (.point 40) .panel (shelfDue 1)).1.ann.shelf = [⟨42, 59⟩]
    ∧ (acknowledge (.point 40) .panel (shelfDue 1)).1.ann.shelfDue = false
    ∧ (removePoint 40 (shelfDue 1)).ann.shelf = [⟨42, 59⟩]
    ∧ (removePoint 40 (shelfDue 1)).ann.shelfDue = false
    ∧ (shelve 40 .panel (shelfDue 1)).1.ann.shelf = [⟨42, 59⟩, ⟨40, 1799⟩]
    ∧ (shelve 40 .panel (shelfDue 1)).1.ann.shelfDue = false
    ∧ (after .shelfExpiry (shelve 40 .panel
        (acknowledge (.point 40) .panel (shelfDue 1)).1).1).ann.shelf = [⟨42, 59⟩, ⟨40, 1800⟩] := by
  decide +kernel

/-- R104: the points that expire abnormal join the list in the shelf's order. -/
theorem test_expiry_order :
    (after .shelfExpiry { shelfDue 1 with
      evaluator := { (points .shelved).evaluator with
        values := [(40, firstRecord switch 1), (42, firstRecord valve 3)] }
      ann := { (shelfDue 1).ann with
        shelf := [⟨42, 1⟩, ⟨40, 1⟩], records := [(40, ⟨.shelved, 1, 2⟩), (42, ⟨.shelved, 1, 2⟩)] }
      }).ann.unack = [42, 40] := by decide +kernel

theorem test_witness_dueShelf : (shelfDue 1).ann.shelfDue = true
    ∧ (∃ x ∈ (shelfDue 1).ann.shelf, x.seconds ≤ 1)
    ∧ (∀ x ∈ (shelfDue 1).ann.shelf.filter (fun x => x.point != 40), 1 < x.seconds)
    ∧ (shelfDue 1).annState 40 = some .shelved ∧ ((shelfDue 1).point 40).status = .installed
    ∧ (shelfDue 1).ann.records.look 40 ≠ none := by decide +kernel

theorem test_witness_scan : board.panel.held = false ∧ board.panel.pressCount < 2
    ∧ { board.panel with pressCount := 2 }.pressCount = 2
    ∧ { board.panel with held := true, releaseCount := 2 }.releaseCount = 2
    ∧ keysDown 0xFF 0xFF 0xFF = [] ∧ keysDown 0xFE 0xFF 0xFF = [.digit 0]
    ∧ highestKey [.digit 0] = some (.digit 0) := by decide +kernel

theorem test_witness_frames : (inMode .dark).gen.mode = .dark ∧ board.gen.mode ≠ .dark
    ∧ board.gen.settling = false ∧ (board.chains.get .a).state ≠ .idle
    ∧ (board.chains.get .a).exchange = none ∧ (board.chains.get .b).state = .idle
    ∧ (failing.chains.get .a).exchange.isSome = true
    ∧ frameGood 1 (closeFrame [1, 0, 0, 0, 0, 0, 0, 0, 0]) = true ∧ frameGood 1 [] = false
    ∧ (List.replicate (9 * 16) (0 : Byte)).length = 9 * 16 := by decide +kernel

/-- One card's frame with its first lamp on. -/
def oneLamp : List Byte := closeFrame [1, 0, 0, 0, 0, 0, 0, 0, 0]

/-- R128, R129, logs 10 and 12: each card place takes the frame as it stands there, and the cards return what they
sense. -/
theorem test_cards :
    [0, 1, 2].map (fun k => (strobe .b 1 [(2, [])] oneLamp []).val Card.off (16 + k))
      = [⟨1, false, false⟩, ⟨0, false, false⟩, ⟨0, false, true⟩]
    ∧ (strobe .b 1 [(0, [])] oneLamp []).val Card.off 16 = ⟨0, false, true⟩
    ∧ (strobe .b 1 [] oneLamp []).val Card.off 0 = Card.off
    ∧ sectionBit (cardsReturn (board.setCards (strobe .b 1 [] oneLamp [])) .b 1 [1024]) 0 0 = true
    ∧ sectionBit (cardsReturn (board.setCards (strobe .b 1 [] oneLamp [])) .b 1 []) 0 0 = false
    ∧ sectionTail (cardsReturn (board.setCards (strobe .b 1 [(0, [])] oneLamp [])) .b 1 []) 0 = 1 := by
  decide +kernel

theorem test_witness_cards : frameGood 1 oneLamp = true ∧ (1 : Nat) ≤ 15
    ∧ ([(0, []), (2, [])] : List (Nat × List Byte)) = [(0, [])] ++ (2, []) :: [] ∧ frameGood 1 [] = false
    ∧ (∀ k, k < 16 → (0 : Nat) ≠ chainIndex .b * 16 + k) := by
  refine ⟨by decide +kernel, by decide, rfl, by decide +kernel, fun k _ h => ?_⟩
  change 0 = 16 + k at h
  omega

/-- The chain of `failing` in a state with a bad count, its exchange void or not. -/
def chainIn (st : ChainState) (bad : Nat) (void : Bool) : State :=
  { failing with chains := { failing.chains with
      a := { failing.chains.a with
        state := st, bad := bad
        exchange := failing.chains.a.exchange.map (fun x => { x with void := void }) } } }

theorem test_witness_exchangeEnd : (failing.chains.get .a).exchange.isSome = true ∧ failing.tickDone
    ∧ frameGood 1 (frameOfLength 1 (cardsReturn failing .a 1 [0])) = true
    ∧ frameGood 1 (frameOfLength 1 []) = false
    ∧ ((chainIn .ok 1 false).chains.get .a).bad < 2 ∧ 2 ≤ ((chainIn .ok 2 false).chains.get .a).bad
    ∧ ((chainIn .faulted 3 false).chains.get .a).state = .faulted
    ∧ ((chainIn .idle 0 true).chains.get .a).exchange.map Exchange.void = some true
    ∧ ((chainIn .ok 0 false).chains.get .a).exchange.map Exchange.void = some false := by decide +kernel

/-- `chainIn` with the board fault lamp claimed. -/
def chainLamp (st : ChainState) (bad : Nat) : State :=
  let s := chainIn st bad false
  s.setLoader { s.loader with faultLamp := ⟨some 102, true⟩ }

/-- R114, R135: the board fault lamp at CHAIN_FAULT and at CHAIN_RESTORED. -/
theorem test_witness_chainFaultLamp : (chainLamp .ok 2).loader.faultLamp.claimed = some 102
    ∧ (chainLamp .ok 2).tickDone ∧ 2 ≤ ((chainLamp .ok 2).chains.get .a).bad
    ∧ ((chainLamp .faulted 3).chains.get .a).state = .faulted
    ∧ (after (.exchangeEnd .a [] [] (some [])) (chainLamp .ok 2)).patternOf 102 = .steady
    ∧ (after (.exchangeEnd .a [] [] none) ((chainLamp .faulted 3).setGen
        { board.gen with patterns := [(102, .steady)] })).patternOf 102 = .off := by decide +kernel

theorem test_witness_lampsJudged :
    failing.chains.a.exchange.map Exchange.record = some (some ⟨1, [true]⟩)
    ∧ (⟨1, [true]⟩ : SentFrame).count = 1 ∧ (⟨2, [true]⟩ : SentFrame).count ≠ 1
    ∧ (∃ t, exec (.exchangeEnd .a [] [0] none) failing = .next t) ∧ failing.onBoard
    ∧ failing.events.queue.length < 32 ∧ (failing.chains.get .a).state ≠ .faulted :=
  ⟨by decide +kernel, rfl, by decide, ⟨_, rfl⟩, by decide, by decide, by decide⟩

/-- `failing` with a record of another card count. -/
def otherCount : State :=
  let x := failing.chains.a.exchange.map (fun x => { x with record := some ⟨2, [true]⟩ })
  { failing with chains := { failing.chains with a := { failing.chains.a with exchange := x } } }

/-- The record and the chains that a good return's lamp events follow, a FAULTED chain among them, and a record
with another card count. -/
theorem test_witness_lampEvents :
    (twoLamps.chains.get .a).exchange.map Exchange.record = some (some ⟨1, [true, true]⟩)
    ∧ twoLamps.chains.legal ∧ twoLamps.onBoard ∧ twoLamps.events.queue = []
    ∧ twoLamps.lampEvents .a ⟨1, [true, true]⟩ (frameOfLength 1 (cardsReturn twoLamps .a 1 [0]))
      = [⟨.lampFault, .part, 0, 0, 0⟩, ⟨.lampRestored, .part, 1, 0, 0⟩]
    ∧ (after (.exchangeEnd .a [] [0] none) (chainIn .faulted 3 false)).events.queue.map EventRecord.kind
      = [.chainRestored, .lampFault]
    ∧ (after (.exchangeEnd .a [] [0] none) otherCount).events.queue = []
    ∧ (after (.exchangeEnd .a [] [0] none) (chainIn .idle 0 true)).events.queue = [] := by
  refine ⟨by decide +kernel, ⟨⟨by decide, by decide, by decide⟩, ⟨by decide, by decide, by decide⟩,
    ⟨by decide, by decide, by decide⟩, ⟨by decide, by decide, by decide⟩, fun lamp => ?_⟩, by decide,
    by decide, by decide +kernel, by decide +kernel, by decide +kernel, by decide +kernel⟩
  simp only [twoLamps, Table.val, Table.look]
  split_ifs <;> decide

theorem test_witness_judgedLamp : failing.chains.fails.val 0 0 = 1 ∧ failing.chains.fails.val 0 1 = 0
    ∧ (after (.exchangeEnd .a [] [0] none) failing).chains.fails.val 0 0 = 2
    ∧ failing.onBoard ∧ failing.events.queue.length < 32
    ∧ { failing with loader := { failing.loader with faultLamp := ⟨some 5, true⟩ } }.loader.faultLamp.claimed
        = some 5
    ∧ 0 < twoLamps.chains.faultCount ∧ twoLamps.faultPattern = .steady
    ∧ ((chainIn .faulted 3 false).chains.get .a).state = .faulted
    ∧ (chainIn .faulted 3 false).faultPattern = .steady
    ∧ board.chains.faultCount = 0 ∧ board.faultPattern = .off := by decide +kernel

theorem test_witness_image : board.patternOf 4095 ≠ .steady ∧ board.onBoard
    ∧ bare.loader.cfg = .unconfigured
    ∧ { board.gen with dirty := [5, 900], lastWord := 10 }.dirty.Pairwise (· < ·)
    ∧ { board.gen with dirty := [5, 900], lastWord := 10 }.wantImage = some 900
    ∧ { board.gen with dirty := [5], lastWord := 900 }.wantImage = some 5 := by decide +kernel

theorem test_witness_presses : (press .ack (inMode .dark)).panel.presses.head? = some .ack
    ∧ (inMode .dark).gen.mode = .dark
    ∧ { board.panel with error := some 9 }.error.isSome = true
    ∧ (press .ack bare).loader.cfg = .unconfigured
    ∧ { board.panel with lock := true }.lock = true ∧ Key.ack ≠ .silence ∧ Key.ack ≠ .test
    ∧ (item 0x67009 1 board).front .k9 1 := by decide +kernel

theorem test_witness_entryKeys :
    (entering .ack [1, 2] (.digit 5) board).keyReaches (.digit 5)
    ∧ (entering .ack [1, 2, 7] (.digit 4) board).panel.digits = [1, 2, 7]
    ∧ (press (.digit 5) board).panel.command = none
    ∧ (press .ack board).keyReaches .ack ∧ (press .clear board).keyReaches .clear
    ∧ (press .group board).keyReaches .group ∧ (press .shelve board).keyReaches .shelve := by
  decide +kernel

theorem test_witness_operationKeys : (press .silence board).keyReaches .silence
    ∧ (press .test board).keyReaches .test ∧ (press .dim board).keyReaches .dim := by decide +kernel

theorem test_witness_enter : (press .enter board).keyReaches .enter
    ∧ (press .enter board).panel.command = none
    ∧ (entering .group [3, 15] .enter board).keyReaches .enter
    ∧ digitsNumber (entering .group [3, 15] .enter board).panel.digits ≤ 0x3F
    ∧ 0x3F < digitsNumber (entering .group [4, 0] .enter board).panel.digits
    ∧ (entering .group [] .enter board).panel.digits = []
    ∧ (entering .ack [] .enter board).panel.selected = none
    ∧ digitsNumber (entering .ack [6, 15, 15] .enter board).panel.digits ≤ 0x6FF
    ∧ 0x6FF < digitsNumber (entering .ack [7, 0, 0] .enter board).panel.digits
    ∧ (entering .clear [] .enter board).keyReaches .enter
    ∧ (entering .shelve [] .enter board).keyReaches .enter := by decide +kernel

theorem test_witness_panelDisplay : { board.panel with error := some 9 }.error = some 9
    ∧ board.panel.error = none ∧ board.panel.command = none ∧ board.panel.selected = none
    ∧ { board.panel with selected := some 63 }.selected = some 63
    ∧ { board.panel with command := some .ack }.digits = []
    ∧ { board.panel with command := some .ack, digits := [5] }.digits = [5]
    ∧ { board.panel with command := some .ack, digits := [1, 2] }.digits = [1, 2]
    ∧ board.panel.positions = [0x10, 0x10, 0x10] ∧ board.panel.digits.length ≤ 3
    ∧ { board.panel with command := some .ack, digits := [1, 2, 7] }.digits = [1, 2, 7] := by
  decide +kernel

theorem test_witness_remoteOperand : (item 0x6700A 40 board).front .k10 40 ∧ board.onBoard
    ∧ (item 0x6700A 40 bare).front .k10 40 ∧ bare.loader.cfg = .unconfigured
    ∧ Instr.hostReset ≠ .remoteOperandWrite ∧ Instr.hostReset ≠ .boardReset
    ∧ (∃ t, exec .hostReset board = .next t) ∧ (∃ t, exec .boardReset board = .next t) :=
  ⟨by decide +kernel, by decide, by decide +kernel, by decide, by decide, by decide, ⟨_, rfl⟩, ⟨_, rfl⟩⟩

theorem test_witness_remote :
    [0, 1, 2, 3, 4, 5, 6, 7, 8, 0xFFFF].all (fun w => decide ((item 0x6700B w board).front .k11 w))
    ∧ remoteScope 0x6FF = some (.point 0x6FF) ∧ remoteScope 0x700 = none
    ∧ remoteScope 0x8000 = some (.group 0) ∧ remoteScope 0x803F = some (.group 63)
    ∧ remoteScope 0x8040 = none ∧ remoteScope 0xFFFF = some .board
    ∧ (0x6FF : Word).toNat ≤ 0x6FF ∧ 0x6FF < (0x700 : Word).toNat
    ∧ (item 0x67043 0 board).front (.group 0 3) 0 ∧ (item 0x6723C 0 board).front (.group 63 4) 0 := by
  decide +kernel

theorem test_witness_events : bare.loader.cfg = .unconfigured ∧ board.events.queue.length < 32
    ∧ ¬ (fullEvents board).events.queue.length < 32 ∧ board.events.ringHeld = true
    ∧ board.events.lost < 65535
    ∧ { board.events with lost := 65535 }.lost = 65535
    ∧ State.reset.events.ringHeld = false := by decide +kernel

theorem test_witness_ringWords :
    { board.events with inProgress := some 3 }.inProgress = some 3
    ∧ { board.events with inProgress := some 4 }.inProgress = some 4
    ∧ { board.events with k18Owed := true }.k18Owed = true
    ∧ board.events.inProgress = none
    ∧ { board.events with tail := 1 }.head + 1 = { board.events with tail := 1 }.tail
    ∧ board.events.head + 1 ≠ board.events.tail ∧ (fullEvents board).events.queue ≠ []
    ∧ State.reset.events.ringHeld = false
    ∧ (item 0x67011 9 board).front .k17 9 ∧ (item 0x67012 9 board).front .k18 9
    ∧ (waiting ⟨none, some .head, none, none, none⟩).path.requests.ring = some .head := by
  decide +kernel

end Sys2Proof.Tests
end

/-! # The Memory Path: proofs of the statements of 01_the_memory_path.md -/

namespace Sys2Proof.Machine

/-! ## A command on a finished tick -/

theorem startOf_idle (c : Instr) {s : State} (hs : s.tickDone) : startOf c s = s := by
  unfold startOf
  rw [finishTick_idle hs, ite_self]

/-- With the tick done, a command other than a posted access answers its settled effect. -/
theorem exec_settles {c : Instr} {s t : State} (hs : s.tickDone) (e : effect c s = t)
    (hc : (∀ a w l, c ≠ .frontEndWrite a w l) ∧ ∀ a, c ≠ .frontEndRead a := by exact ⟨nofun, nofun⟩) :
    exec c s = .next (settle t) := by
  rw [exec_effect c s (.inr hc), startOf_idle c hs, e]

/-- A posted access begins where none is outstanding. -/
theorem postAccess_begins {s : State} (hs : s.tickDone) (hn : s.path.access = none) (a : Addr)
    (k : AccessKind) : postAccess a k s = .next (settle (beginAccess a k s)) := by
  unfold postAccess
  rw [hn]
  exact whole_idle hs

theorem exec_frontEndWrite {s : State} (hs : s.tickDone) (hn : s.path.access = none) (a : Addr)
    (w : Word) (l : BitVec 2) :
    exec (.frontEndWrite a w l) s = .next (settle (beginAccess a (.write w l) s)) :=
  postAccess_begins hs hn _ _

theorem exec_frontEndRead {s : State} (hs : s.tickDone) (hn : s.path.access = none) (a : Addr) :
    exec (.frontEndRead a) s = .next (settle (beginAccess a .read s)) :=
  postAccess_begins hs hn _ _

/-- A second access beside a held one is the model's one fault (R8). -/
theorem postAccess_faults {s : State} (h : s.path.access.isSome = true) (a : Addr) (k : AccessKind) :
    postAccess a k s = .fault .accessWhileHeld := if_pos h

/-! ## Which commands touch the queue of commands and the outstanding access -/

/-- The queue of commands is no part of what a command may change (log 1). -/
theorem pending_untouched (c : Instr) :
    (tickParts ++ effectParts c ++ settleParts).contains .pending = false := by
  cases c <;> rfl

/-- The commands that may change which front-end access is outstanding. -/
def movesAccess : Instr → Bool
  | .frontEndWrite _ _ _ | .frontEndRead _ | .heldAccessTaken | .heldWriteRelease | .boardReset
  | .hostReset => true
  | _ => false

theorem access_untouched {c : Instr} (h : movesAccess c = false) :
    (tickParts ++ effectParts c ++ settleParts).contains .pathAccess = false := by
  cases c <;> first | rfl | cases h

/-- Every other command leaves the outstanding access as it is. -/
theorem exec_access {c : Instr} {s t : State} (h : exec c s = .next t)
    (hc : movesAccess c = false) : t.path.access = s.path.access :=
  exec_keeps .pathAccess h (access_untouched hc)

theorem noCommandTouchesTheQueue : Claim.NoCommandTouchesTheQueue :=
  fun c _ _ h => exec_keeps .pending h (pending_untouched c)

theorem onlyASecondHeldAccessStops : Claim.OnlyASecondHeldAccessStops :=
  ⟨fun c s h => ⟨_, exec_effect c s h⟩,
    fun _ h => ⟨fun _ _ _ => postAccess_faults h _ _, fun _ => postAccess_faults h _ _⟩⟩

/-- Settles O3: the frame of each command leaves the queue out, and only a posted access can meet a held one. -/
theorem everyCommandCompletes : Obligations.EveryCommandCompletes :=
  ⟨noCommandTouchesTheQueue, onlyASecondHeldAccessStops⟩

/-! ## The board region by offset (R4, R6, 10.2 to 10.6) -/

theorem regionOffset_eq_some {base a : Addr} {off : Nat} :
    regionOffset base a = some off ↔ a.toNat = base.toNat + off ∧ off < 0x8000 := by
  unfold regionOffset Config.regionWords
  split_ifs with h
  · rw [Option.some_inj]; omega
  · simp only [false_iff]; omega

theorem imageIndex_eq_some {off w : Nat} : imageIndex off = some w ↔ off = 0x7640 + w ∧ w < 1024 := by
  unfold imageIndex
  split_ifs with h
  · rw [Option.some_inj]; omega
  · simp only [false_iff]; omega

/-- The image word that answers a read is the address's own, where it is dirty (R2). -/
theorem State.dirtyImage_eq_some {s : State} {a : Addr} {w : Nat} :
    s.dirtyImage a = some w ↔
      (regionOffset s.path.base a).bind imageIndex = some w ∧ w ∈ s.gen.dirty := by
  unfold State.dirtyImage
  cases (regionOffset s.path.base a).bind imageIndex with
  | none => simp
  | some v =>
    by_cases h : v ∈ s.gen.dirty <;> simp [h]
    all_goals rintro rfl; exact h

theorem State.dirtyImage_eq_none {s : State} {a : Addr} :
    s.dirtyImage a = none ↔
      ∀ w, (regionOffset s.path.base a).bind imageIndex = some w → w ∉ s.gen.dirty := by
  simp only [Option.eq_none_iff_forall_ne_some, ne_eq, State.dirtyImage_eq_some, not_and]

/-- The offsets of the header words that can be watched (R6, 10.3). -/
def watchedHeader : List Nat := [0x7000, 0x7001, 0x7008, 0x7009, 0x700A, 0x700B, 0x7011, 0x7012]

theorem regionWordAt_control {n : Nat} (h : n < 1792) :
    regionWordAt (n * 16 + 15) = some (.control n) := by
  unfold regionWordAt
  rw [if_pos (by omega), if_pos (by omega), show (n * 16 + 15) / 16 = n by omega]

theorem regionWordAt_group {g i : Nat} (hg : g < 64) (hi : i ≤ 4) :
    regionWordAt (0x7040 + g * 8 + i) = some (.group g i) := by
  unfold regionWordAt
  rw [if_neg (by omega), if_neg (by omega), if_pos (by omega), if_pos (by omega),
    show (0x7040 + g * 8 + i - 0x7040) / 8 = g by omega,
    show (0x7040 + g * 8 + i - 0x7040) % 8 = i by omega]

/-- Of the header words only those of R6 can be watched. -/
theorem regionWordAt_header : ∀ i < 0x40,
    (regionWordAt (0x7000 + i)).isSome = decide (0x7000 + i ∈ watchedHeader) := by decide

/-- Only offset 7000h is k0. -/
theorem regionWordAt_header_k0 : ∀ i < 0x40,
    regionWordAt (0x7000 + i) = some .k0 ↔ i = 0 := by decide

theorem mem_watchedHeader_bounds {off : Nat} (h : off ∈ watchedHeader) : 0x7000 ≤ off ∧ off < 0x7040 := by
  simp only [watchedHeader, List.mem_cons, List.not_mem_nil, or_false] at h
  omega

/-- Above the entries and below the group records an offset is a header word's. -/
theorem header_of_bounds {off : Nat} (h : ¬ off < 0x7000) (h' : off < 0x7040) :
    ∃ i < 0x40, off = 0x7000 + i := ⟨off - 0x7000, by omega, by omega⟩

/-- A word can be watched exactly where R6 lists its offset: a control word, a header word or a group word. -/
theorem regionWordAt_isSome {off : Nat} : (regionWordAt off).isSome = true ↔
    (off < 0x7000 ∧ off % 16 = 15) ∨ off ∈ watchedHeader
      ∨ (0x7040 ≤ off ∧ off < 0x7240 ∧ (off - 0x7040) % 8 ≤ 4) := by
  by_cases h1 : off < 0x7000
  · have e : (regionWordAt off).isSome = true ↔ off % 16 = 15 := by
      simp only [regionWordAt, if_pos h1]; split_ifs with h <;> simp [h]
    have hh : off ∉ watchedHeader := fun h => by have := mem_watchedHeader_bounds h; omega
    simp only [e, hh, false_or]; omega
  by_cases h2 : off < 0x7040
  · obtain ⟨i, hi, rfl⟩ := header_of_bounds h1 h2
    have hc : ¬ (0x7000 + i < 0x7000 ∧ (0x7000 + i) % 16 = 15) := by omega
    have hg : ¬ (0x7040 ≤ 0x7000 + i ∧ 0x7000 + i < 0x7240 ∧ (0x7000 + i - 0x7040) % 8 ≤ 4) := by omega
    simp only [regionWordAt_header i hi, decide_eq_true_eq, hc, hg, false_or, or_false]
  · have e : (regionWordAt off).isSome = true ↔ off < 0x7240 ∧ (off - 0x7040) % 8 ≤ 4 := by
      simp only [regionWordAt, if_neg h1, if_neg h2]; split_ifs with h3 h4 <;> simp [*]
    have hh : off ∉ watchedHeader := fun h => by have := mem_watchedHeader_bounds h; omega
    simp only [e, hh, false_or]; omega

theorem regionWordAt_eq_k0 {off : Nat} : regionWordAt off = some .k0 ↔ off = 0x7000 := by
  by_cases h1 : off < 0x7000
  · have e : regionWordAt off ≠ some .k0 := by
      simp only [regionWordAt, if_pos h1]; split_ifs <;> simp
    exact ⟨fun h => absurd h e, fun h => by omega⟩
  by_cases h2 : off < 0x7040
  · obtain ⟨i, hi, rfl⟩ := header_of_bounds h1 h2
    simp [regionWordAt_header_k0 i hi]
  · have e : regionWordAt off ≠ some .k0 := by
      simp only [regionWordAt, if_neg h1, if_neg h2]; split_ifs <;> simp
    exact ⟨fun h => absurd h e, fun h => by omega⟩

/-! ## The watch decision (R5, R6) -/

theorem State.configured_iff {s : State} : s.configured = true ↔ s.onBoard := bne_iff_ne

/-- A region write is watched where its word can be, in UNCONFIGURED k0 alone (R6, R18). -/
theorem State.watched_region {s : State} {a : Addr} {off : Nat} (hr : s.path.inReset = false)
    (ho : regionOffset s.path.base a = some off) :
    s.watched a = true ↔
      regionWordAt off = some .k0 ∨ (s.onBoard ∧ (regionWordAt off).isSome = true) := by
  unfold State.watched
  simp only [hr, ho, ← State.configured_iff]
  cases regionWordAt off with
  | none => simp
  | some r => simp [or_comm]

/-- Outside the region the watch index decides (R5). -/
theorem State.watched_outside {s : State} {a : Addr} (hr : s.path.inReset = false)
    (ho : regionOffset s.path.base a = none) :
    s.watched a = true ↔ ∃ p ∈ s.loader.watch, p.1 = a.toNat := by
  unfold State.watched
  rw [hr, ho]
  simp

/-- Nothing is watched while a board reset is asserted (R14). -/
theorem State.watched_inReset {s : State} (h : s.path.inReset = true) (a : Addr) :
    s.watched a = false := if_pos h

theorem watchDecisionByOffset : Claim.WatchDecision := by
  intro s a hr
  refine ⟨fun off ho => ?_, State.watched_outside hr⟩
  rw [State.watched_region hr ho, regionWordAt_eq_k0, regionWordAt_isSome]
  refine or_congr_right' fun hk => and_congr_right fun _ => ?_
  simp only [watchedHeader, List.mem_cons, List.not_mem_nil, or_false]
  omega

theorem boardRegion : Claim.BoardRegion :=
  ⟨fun _ _ _ => regionOffset_eq_some, fun _ _ => imageIndex_eq_some,
    fun _ _ _ => State.dirtyImage_eq_some⟩

/-- A region item is ready at the front exactly where a whole item of a watchable word stands there (R9, R10). -/
theorem State.front_iff {s : State} {r : RegionWord} {w : Word} : s.front r w ↔
    ∃ item rest off, s.path.capture = item :: rest ∧ item.partialItem = false ∧ item.data = w
      ∧ regionOffset s.path.base item.addr = some off ∧ regionWordAt off = some r := by
  unfold State.front State.regionItem
  cases s.path.capture with
  | nil => simp
  | cons item rest =>
    cases hp : item.partialItem with
    | true => simp [hp]
    | false => simp [hp, Option.bind_eq_some_iff]; tauto

theorem regionWords : Claim.RegionWords := by
  refine ⟨by decide, fun n hn => regionWordAt_control hn, fun g i hg hi => regionWordAt_group hg hi,
    fun off h => ?_, fun s r w => State.front_iff⟩
  rcases regionWordAt_isSome.mp (Option.isSome_iff_ne_none.mpr h) with ⟨hlt, hm⟩ | hw | ⟨hle, hlt, hm⟩
  · exact .inr (.inl ⟨off / 16, by omega, by omega⟩)
  · exact .inl hw
  · exact .inr (.inr ⟨(off - 0x7040) / 8, (off - 0x7040) % 8, by omega, hm, by omega⟩)

/-- Settles O8: each range of offsets on its own, the 64 header words by evaluation. -/
theorem watchDecision : Obligations.WatchDecision :=
  ⟨watchDecisionByOffset, boardRegion, regionWords⟩

/-! ## A front-end access that meets no held one (R1 to R3, R16) -/

theorem setAccess_none {s : State} (h : s.path.access = none) : setAccess none s = s := by
  obtain ⟨_, _, ⟨_, _, _, _, _, _, _, _⟩, _, _, _, _, _, _, _, _⟩ := s
  cases h
  rfl

theorem State.captureRoom_eq_true {s : State} : s.captureRoom = true ↔ s.path.capture.length < 64 :=
  decide_eq_true_iff

theorem State.captureRoom_eq_false {s : State} :
    s.captureRoom = false ↔ ¬ s.path.capture.length < 64 := decide_eq_false_iff_not

/-- Under HRST# no access begins (R16). -/
theorem beginAccess_hostReset {s : State} (h : s.path.hostReset = true) (a : Addr) (k : AccessKind) :
    beginAccess a k s = s := if_pos h

/-- An access that needs no part word to end is taken at once (R1, R2). -/
theorem beginAccess_free {s : State} {a : Addr} {k : AccessKind} (hh : s.path.hostReset = false)
    (hp : s.portFree a k = true) : beginAccess a k s = takeAccess a k s := by
  unfold beginAccess
  rw [hh, hp]
  rfl

/-- An access that finds a part word under way is held (R3). -/
theorem beginAccess_held {s : State} {a : Addr} {k : AccessKind} (hh : s.path.hostReset = false)
    (hp : s.portFree a k = false) : beginAccess a k s = setAccess (some ⟨a, k, .partWord⟩) s := by
  unfold beginAccess
  rw [hh, hp]
  rfl

@[simp] theorem takeAccess_write (a : Addr) (w : Word) (l : BitVec 2) (s : State) :
    takeAccess a (.write w l) s = takeWrite a w l s := rfl

@[simp] theorem takeAccess_read (a : Addr) (s : State) : takeAccess a .read s = takeRead a s := rfl

theorem State.portFree_idle {s : State} (h : s.path.partAccess = none) (a : Addr) (k : AccessKind) :
    s.portFree a k = true := by
  unfold State.portFree
  cases k <;> simp [h]

theorem State.portFree_write {s : State} (a : Addr) (w : Word) (l : BitVec 2) :
    s.portFree a (.write w l) = s.path.partAccess.isNone := rfl

theorem State.portFree_read {s : State} (a : Addr) :
    s.portFree a .read = (s.path.partAccess.isNone || (s.dirtyImage a).isSome) := rfl

theorem State.readValue_dirty {s : State} {a : Addr} {i : Nat} (h : s.dirtyImage a = some i) :
    s.readValue a = s.imageWord i := by
  unfold State.readValue; rw [h]

theorem State.readValue_ram {s : State} {a : Addr} (h : s.dirtyImage a = none) :
    s.readValue a = s.ram.readWord a := by
  unfold State.readValue; rw [h]

/-- With none outstanding, a read drives HD and changes nothing else (R2). -/
theorem takeRead_eq {s : State} (h : s.path.access = none) (a : Addr) :
    takeRead a s = s.setPath { s.path with hostData := s.readValue a } := by
  unfold takeRead; rw [← h]

/-! ## Front-end writes and reads (R1, R2, R7, R8) -/

/-- A write posted with none outstanding and the port free is judged and taken in its own step (R1). -/
theorem exec_write_free {s : State} (hs : s.tickDone) (hn : s.path.access = none)
    (hh : s.path.hostReset = false) (hp : s.path.partAccess = none) (a : Addr) (w : Word)
    (l : BitVec 2) : exec (.frontEndWrite a w l) s = .next (settle (takeWrite a w l s)) := by
  rw [exec_frontEndWrite hs hn, beginAccess_free hh (State.portFree_idle hp _ _), takeAccess_write]

theorem frontEndWrite : Claim.FrontEndWrite := by
  intro s a w l hs hn hh hp
  rw [exec_write_free hs hn hh hp]
  refine ⟨fun hw => ?_, fun hw hr => ?_, fun hw hr => ?_⟩
  · rw [takeWrite_unwatched w l hw, setAccess_none hn]; rfl
  · rw [takeWrite_captured w l hw (State.captureRoom_eq_true.mpr hr), setAccess_none hn]; rfl
  · rw [takeWrite_held w l hw (State.captureRoom_eq_false.mpr hr)]; rfl

theorem Memory.readByte_writeLanes_low (m : Memory) (a : Addr) (w : Word) {l : BitVec 2}
    (h : l.getLsbD 0 = true) : (m.writeLanes a w l).readByte (cellOf a 0) = w.extractLsb' 0 8 := by
  unfold Memory.writeLanes
  rw [if_pos h]
  split_ifs
  · rw [Memory.readByte_writeByte_other _ _ (cellOf_lanes_ne a), Memory.readByte_writeByte_same]
  · rw [Memory.readByte_writeByte_same]

theorem Memory.readByte_writeLanes_high (m : Memory) (a : Addr) (w : Word) {l : BitVec 2}
    (h : l.getLsbD 1 = true) : (m.writeLanes a w l).readByte (cellOf a 1) = w.extractLsb' 8 8 := by
  unfold Memory.writeLanes
  dsimp only
  rw [if_pos h, Memory.readByte_writeByte_same]

/-- Settles O9: the three outcomes of a taken write, and each lane's byte read back. -/
theorem frontEndWrites : Obligations.FrontEndWrites :=
  ⟨frontEndWrite, fun m a w l => ⟨Memory.readByte_writeLanes_low m a w,
    Memory.readByte_writeLanes_high m a w, fun _ => Memory.readByte_writeLanes_other m a w l⟩⟩

/-- A read posted with none outstanding that needs no port drives HD in its own step (R2). -/
theorem exec_read_free {s : State} {a : Addr} (hs : s.tickDone) (hn : s.path.access = none)
    (hh : s.path.hostReset = false) (hp : s.portFree a .read = true) :
    exec (.frontEndRead a) s
      = .next (settle (s.setPath { s.path with hostData := s.readValue a })) := by
  rw [exec_frontEndRead hs hn, beginAccess_free hh hp, takeAccess_read, takeRead_eq hn]

/-- Settles O10: the read is taken at once, and what it drives is decided by the dirty set. -/
theorem frontEndRead : Obligations.FrontEndRead := by
  intro s a hs hn hh hp
  rw [exec_read_free hs hn hh (State.portFree_idle hp a _)]
  refine ⟨fun w hw hd => ?_, fun hd => ?_⟩
  · rw [State.readValue_dirty (State.dirtyImage_eq_some.mpr ⟨hw, hd⟩)]
  · rw [State.readValue_ram (State.dirtyImage_eq_none.mpr hd)]

/-! ## HWAIT (R3, R8) -/

theorem State.hwait_of_none {s : State} (h : s.path.access = none) : s.hwait = false := by
  unfold State.hwait; rw [h]

theorem State.hwait_of_some {s : State} {h : HeldAccess} (ha : s.path.access = some h) :
    s.hwait = h.reason.onHwait := by
  unfold State.hwait; rw [ha]

/-- HWAIT is a view of the outstanding access. -/
theorem State.hwait_congr {s t : State} (h : t.path.access = s.path.access) : t.hwait = s.hwait := by
  unfold State.hwait; rw [h]

@[simp] theorem settle_access (s : State) : (settle s).path.access = s.path.access :=
  settle_changes s .pathAccess (by decide)

@[simp] theorem settle_hwait (s : State) : (settle s).hwait = s.hwait := State.hwait_congr (settle_access s)

theorem HoldReason.onHwait_iff {r : HoldReason} :
    r.onHwait = true ↔ r = .partWord ∨ r = .fullQueue := by
  cases r <;> decide

theorem State.hwait_iff {s : State} : s.hwait = true ↔
    ∃ h, s.path.access = some h ∧ (h.reason = .partWord ∨ h.reason = .fullQueue) := by
  cases ha : s.path.access with
  | none => simp [State.hwait_of_none ha]
  | some h => simp [State.hwait_of_some ha, HoldReason.onHwait_iff]

/-! ## Taking a held access (R3, R8, R15) -/

/-- With its part word ended, an access not held for a place is taken (R3). -/
theorem takeHeld_taken {s : State} {h : HeldAccess} (ha : s.path.access = some h)
    (hr : h.reason ≠ .fullQueue) (hp : s.path.partAccess = none) :
    takeHeld s = takeFromHold h s := by
  unfold takeHeld
  rw [ha]
  exact if_pos ⟨hr, by rw [hp]; rfl⟩

/-- During a part word no held access is taken (R3). -/
theorem takeHeld_waits {s : State} {p : PartAccess} (hp : s.path.partAccess = some p) :
    takeHeld s = s := by
  unfold takeHeld
  split
  · exact if_neg fun h => by simp [hp] at h
  · rfl

/-- An access that no board reset has judged is judged when it is taken (R5). -/
theorem takeFromHold_judged {h : HeldAccess} (hr : h.reason ≠ .releasedWrite) (s : State) :
    takeFromHold h s = takeAccess h.addr h.kind s := by
  obtain ⟨a, k, r⟩ := h
  cases r with
  | releasedWrite => exact absurd rfl hr
  | partWord | fullQueue | released => rfl

/-- A write that a board reset released from a full queue reaches RAM alone (R15, log 21). -/
theorem takeFromHold_releasedWrite {h : HeldAccess} {w : Word} {l : BitVec 2}
    (hr : h.reason = .releasedWrite) (hk : h.kind = .write w l) (s : State) :
    takeFromHold h s = storeWord h.addr w l (setAccess none s) := by
  unfold takeFromHold
  rw [hr, hk]

/-- A read is answered in the same way whatever it was held for (R2). -/
theorem takeFromHold_read {h : HeldAccess} (hk : h.kind = .read) (s : State) :
    takeFromHold h s = takeRead h.addr s := by
  obtain ⟨a, k, r⟩ := h
  cases hk
  cases r <;> rfl

/-- Under a board reset a held write reaches RAM alone, whatever it was held for (R14, R15). -/
theorem takeFromHold_write_inReset {s : State} {h : HeldAccess} {w : Word} {l : BitVec 2}
    (hi : s.path.inReset = true) (hk : h.kind = .write w l) :
    takeFromHold h s = storeWord h.addr w l (setAccess none s) := by
  by_cases hr : h.reason = .releasedWrite
  · exact takeFromHold_releasedWrite hr hk s
  · rw [takeFromHold_judged hr, hk, takeAccess_write,
      takeWrite_unwatched w l (State.watched_inReset hi h.addr)]

theorem releaseHeld_full {s : State} {h : HeldAccess} (ha : s.path.access = some h)
    (hc : ¬ s.path.capture.length < 64) : releaseHeld s = s := by
  unfold releaseHeld
  rw [ha]
  exact if_neg fun hr => hc (State.captureRoom_eq_true.mp hr.2)

theorem releaseHeld_behindPartWord {s : State} {h : HeldAccess} {p : PartAccess}
    (ha : s.path.access = some h) (hr : h.reason = .fullQueue) (hc : s.path.capture.length < 64)
    (hp : s.path.partAccess = some p) :
    releaseHeld s = setAccess (some { h with reason := .partWord }) s := by
  unfold releaseHeld
  rw [ha, hp]
  exact if_pos ⟨hr, State.captureRoom_eq_true.mpr hc⟩

theorem releaseHeld_taken {s : State} {h : HeldAccess} (ha : s.path.access = some h)
    (hr : h.reason = .fullQueue) (hc : s.path.capture.length < 64) (hp : s.path.partAccess = none) :
    releaseHeld s = takeAccess h.addr h.kind s := by
  unfold releaseHeld
  rw [ha, hp]
  exact if_pos ⟨hr, State.captureRoom_eq_true.mpr hc⟩

/-- A release acts on a write that waits on HWAIT for a place, and on no other access (R8). -/
theorem releaseHeld_other {s : State} (h : s.hwait = false) : releaseHeld s = s := by
  unfold releaseHeld
  split
  · rename_i x ha
    refine if_neg fun hr => ?_
    rw [State.hwait_of_some ha, hr.1] at h
    cases h
  · rfl

/-! ## The board reset (R14, R15, R19) -/

/-- The machine under a board reset: every block reset, with what becomes of RAM, of the held access and of
HD[15:0] given. -/
def resetWith (s : State) (m : Memory) (x : Option HeldAccess) (d : Word) : State :=
  (resetBlocks s).setRam m |>.setPath { (resetPath s).path with access := x, hostData := d }

/-- A board reset with no access outstanding. -/
theorem boardReset_noAccess {s : State} (ha : s.path.access = none) :
    boardReset s = resetWith s s.ram none s.path.hostData := by
  unfold boardReset releaseAtReset
  rw [show (resetPath (resetBlocks s)).path.access = none from ha]
  show resetPath (resetBlocks s) = _
  unfold resetWith
  rw [← ha]
  rfl

/-- With a part word under way the held access waits for its end without HWAIT (R15, log 21). -/
theorem boardReset_partWord {s : State} {h : HeldAccess} {p : PartAccess}
    (ha : s.path.access = some h) (hp : s.path.partAccess = some p) :
    boardReset s
      = resetWith s s.ram (some { h with reason := h.reason.afterRelease }) s.path.hostData := by
  unfold boardReset releaseAtReset
  rw [show (resetPath (resetBlocks s)).path.access = some h from ha]
  refine (if_pos ?_).trans rfl
  show (s.path.partAccess.map _).isSome = true
  rw [hp]
  rfl

/-- With the port free the held access is taken. -/
theorem boardReset_taken {s : State} {h : HeldAccess} (ha : s.path.access = some h)
    (hp : s.path.partAccess = none) : boardReset s = takeFromHold h (resetPath (resetBlocks s)) := by
  unfold boardReset releaseAtReset
  rw [show (resetPath (resetBlocks s)).path.access = some h from ha]
  refine if_neg ?_
  show ¬ (s.path.partAccess.map _).isSome = true
  rw [hp]
  exact Bool.false_ne_true

theorem boardReset_write {s : State} {h : HeldAccess} {w : Word} {l : BitVec 2}
    (ha : s.path.access = some h) (hk : h.kind = .write w l) (hp : s.path.partAccess = none) :
    boardReset s = resetWith s (s.ram.writeLanes h.addr w l) none s.path.hostData := by
  rw [boardReset_taken ha hp, takeFromHold_write_inReset rfl hk]
  rfl

/-- No image word is dirty any more, so a held read is answered from RAM (R2, R19). -/
theorem boardReset_read {s : State} {h : HeldAccess} (ha : s.path.access = some h)
    (hk : h.kind = .read) (hp : s.path.partAccess = none) :
    boardReset s = resetWith s s.ram none (s.ram.readWord h.addr) := by
  have clean : (resetPath (resetBlocks s)).dirtyImage h.addr = none :=
    State.dirtyImage_eq_none.mpr fun _ _ => List.not_mem_nil
  rw [boardReset_taken ha hp, takeFromHold_read hk]
  unfold takeRead
  rw [State.readValue_ram clean]
  rfl

/-- Every board reset ends in the reset blocks, with HWAIT released (R15, R19). -/
theorem boardReset_resets (s : State) :
    ∃ m x d, boardReset s = resetWith s m x d ∧ (resetWith s m x d).hwait = false := by
  cases ha : s.path.access with
  | none => exact ⟨_, _, _, boardReset_noAccess ha, rfl⟩
  | some h =>
    cases hp : s.path.partAccess with
    | some p => exact ⟨_, _, _, boardReset_partWord ha hp, by cases h.reason <;> rfl⟩
    | none =>
      cases hk : h.kind with
      | write w l => exact ⟨_, _, _, boardReset_write ha hk hp, rfl⟩
      | read => exact ⟨_, _, _, boardReset_read ha hk hp, rfl⟩

theorem boardReset_hwait (s : State) : (boardReset s).hwait = false := by
  obtain ⟨m, x, d, e, hw⟩ := boardReset_resets s
  rw [e, hw]

theorem nextRequest_none {α : Type} (busy : Bool) : nextRequest (α := α) none busy none = none := by
  cases busy <;> rfl

/-- Under a board reset no requester wants an access (R14, R17). -/
theorem nextRequests_resetWith (s : State) (m : Memory) (x : Option HeldAccess) (d : Word) :
    (syncPanel (syncStatus (resetWith s m x d))).nextRequests = Requests.none := by
  unfold State.nextRequests Requests.none
  congr 1 <;> exact nextRequest_none _

/-- The reset blocks report what the Event Unit and the panel hold after a reset: the settling moves nothing. -/
theorem settle_resetWith (s : State) (m : Memory) (x : Option HeldAccess) (d : Word) :
    settle (resetWith s m x d) = resetWith s m x d := by
  unfold settle raiseRequests
  rw [nextRequests_resetWith]
  rfl

theorem boardResetReleases : Claim.BoardReset := by
  intro s hs
  obtain ⟨m, x, d, e, hw⟩ := boardReset_resets s
  have run : exec .boardReset s = .next (resetWith s m x d) := by
    rw [← settle_resetWith]
    exact exec_settles hs e
  refine ⟨_, run, rfl, rfl, rfl, rfl, rfl, rfl, rfl, rfl, rfl, rfl, rfl, rfl, rfl, rfl, hw, ?_⟩
  rw [← e]
  refine ⟨fun ha => ?_, fun h w l ha hk hp => ?_, fun h ha hk hp => ?_, fun h p ha hp => ?_⟩
  · rw [boardReset_noAccess ha]; exact ⟨rfl, rfl⟩
  · rw [boardReset_write ha hk hp]; exact ⟨rfl, rfl⟩
  · rw [boardReset_read ha hk hp]; exact ⟨rfl, rfl, rfl⟩
  · rw [boardReset_partWord ha hp]
    refine ⟨rfl, ?_⟩
    cases h.reason <;> rfl

theorem hostResets : Claim.HostReset := by
  refine fun s hs => ⟨exec_settles hs rfl, exec_settles hs rfl, fun hh hn a w l => ⟨?_, ?_⟩⟩
  · rw [exec_frontEndWrite hs hn, beginAccess_hostReset hh]
  · rw [exec_frontEndRead hs hn, beginAccess_hostReset hh]

theorem boardResetEnds : Claim.BoardResetEnd := by
  refine ⟨by decide, by decide, by decide, by decide, fun s straps hs hi => ?_⟩
  exact exec_settles hs (if_pos hi)

/-- Settles O12: a board reset's answer is computed in each of the four cases of the held access. -/
theorem resets : Obligations.Resets := ⟨hostResets, boardResetReleases, boardResetEnds⟩

/-! ## Held accesses (R3, R5, R8, R15, R16) -/

theorem accessHeldBehindAPartWord : Claim.AccessHeldBehindAPartWord := by
  intro s a w l p hs hn hh hp
  have busy : s.path.partAccess.isNone = false := by rw [hp]; rfl
  refine ⟨?_, fun hd => ?_, fun i hd => ?_⟩
  · rw [exec_frontEndWrite hs hn, beginAccess_held (k := .write w l) hh busy]; rfl
  · have waits : s.portFree a .read = false := by rw [State.portFree_read, busy, hd]; rfl
    rw [exec_frontEndRead hs hn, beginAccess_held hh waits]; rfl
  · have free : s.portFree a .read = true := by rw [State.portFree_read, busy, hd]; rfl
    rw [exec_read_free hs hn hh free, State.readValue_dirty hd]

theorem heldAccessIsTakenAfresh : Claim.HeldAccessIsTakenAfresh := by
  intro s h hs ha hh hp
  have judged : h.reason = .partWord ∨ h.reason = .released →
      takeHeld s = takeAccess h.addr h.kind s := fun hr => by
    rw [takeHeld_taken ha (by rcases hr with hr | hr <;> simp [hr]) hp,
      takeFromHold_judged (by rcases hr with hr | hr <;> simp [hr])]
  refine ⟨⟨fun hr => ?_, fun w l hr hk => ?_, fun hr hc => ?_⟩, fun w l hk => ?_, fun w l hk hw => ?_,
    fun w l hk hw hc => ?_, fun w l hk hw hc => ?_, fun i hk hd => ?_, fun hk hd => ?_⟩
  · exact exec_settles hs (judged hr)
  · exact exec_settles hs ((takeHeld_taken ha (by simp [hr]) hp).trans (takeFromHold_releasedWrite hr hk s))
  · exact exec_settles hs (releaseHeld_taken ha hr hc hp)
  · rw [hk, takeAccess_write]
    exact exec_write_free (s := s.setPath { s.path with access := none }) hs rfl hh hp h.addr w l
  · rw [hk, takeAccess_write, takeWrite_unwatched w l hw]; rfl
  · rw [hk, takeAccess_write, takeWrite_captured w l hw (State.captureRoom_eq_true.mpr hc)]; rfl
  · rw [hk, takeAccess_write, takeWrite_held w l hw (State.captureRoom_eq_false.mpr hc)]; rfl
  · rw [hk, takeAccess_read, takeRead, State.readValue_dirty hd]
  · rw [hk, takeAccess_read, takeRead, State.readValue_ram hd]

theorem heldAccessWaits : Claim.HeldAccessWaits :=
  fun _ _ hs ha => ⟨fun _ hc => exec_settles hs (releaseHeld_full ha hc),
    fun _ hr hc hp => exec_settles hs (releaseHeld_behindPartWord ha hr hc hp),
    fun _ hp => exec_settles hs (takeHeld_waits hp)⟩

/-- A taken write raises HWAIT exactly where it is watched and finds no place (R8). -/
theorem takeWrite_hwait (a : Addr) (w : Word) (l : BitVec 2) (s : State) :
    (takeWrite a w l s).hwait = true ↔ s.watched a = true ∧ ¬ s.path.capture.length < 64 := by
  cases hw : s.watched a with
  | false =>
    rw [takeWrite_unwatched w l hw]
    exact iff_of_false Bool.false_ne_true fun h => Bool.false_ne_true h.1
  | true =>
    by_cases hc : s.path.capture.length < 64
    · rw [takeWrite_captured w l hw (State.captureRoom_eq_true.mpr hc)]
      exact iff_of_false Bool.false_ne_true fun h => h.2 hc
    · rw [takeWrite_held w l hw (State.captureRoom_eq_false.mpr hc)]
      exact iff_of_true rfl ⟨rfl, hc⟩

/-- A posted write raises HWAIT behind a part word, or watched with a full queue (R3, R8). -/
theorem beginAccess_write_hwait {s : State} (hn : s.path.access = none) (a : Addr) (w : Word)
    (l : BitVec 2) : (beginAccess a (.write w l) s).hwait = true ↔ s.path.hostReset = false
      ∧ (s.path.partAccess ≠ none ∨ s.watched a = true ∧ ¬ s.path.capture.length < 64) := by
  cases hh : s.path.hostReset with
  | true => simp [beginAccess_hostReset hh, State.hwait_of_none hn]
  | false =>
    cases hp : s.path.partAccess with
    | none =>
      rw [beginAccess_free hh (State.portFree_idle hp _ _), takeAccess_write, takeWrite_hwait]
      simp
    | some p =>
      have busy : s.portFree a (.write w l) = false := by rw [State.portFree_write, hp]; rfl
      rw [beginAccess_held hh busy]
      exact iff_of_true rfl ⟨rfl, .inl (Option.some_ne_none p)⟩

/-- A posted read raises HWAIT behind a part word, but for one of a dirty image word (R3). -/
theorem beginAccess_read_hwait {s : State} (hn : s.path.access = none) (a : Addr) :
    (beginAccess a .read s).hwait = true ↔
      s.path.hostReset = false ∧ s.path.partAccess ≠ none ∧ s.dirtyImage a = none := by
  cases hh : s.path.hostReset with
  | true => simp [beginAccess_hostReset hh, State.hwait_of_none hn]
  | false =>
    have free : s.portFree a .read = true ↔ s.path.partAccess = none ∨ s.dirtyImage a ≠ none := by
      simp [State.portFree_read, Option.isSome_iff_ne_none]
    cases hf : s.portFree a .read with
    | true =>
      rw [beginAccess_free hh hf, takeAccess_read, takeRead_eq hn]
      refine iff_of_false (ne_true_of_eq_false (State.hwait_of_none hn)) fun h => ?_
      exact (free.mp hf).elim h.2.1 fun hd => hd h.2.2
    | false =>
      rw [beginAccess_held hh hf]
      have held := fun h => Bool.false_ne_true (hf ▸ free.mpr h)
      exact iff_of_true rfl ⟨rfl, fun h => held (.inl h), not_not.mp fun h => held (.inr h)⟩

/-- A release leaves HWAIT as it is or lets it fall. -/
theorem hwait_of_releaseHeld {s : State} (h : (releaseHeld s).hwait = true) : s.hwait = true := by
  by_contra hn
  rw [Bool.not_eq_true] at hn
  rw [releaseHeld_other hn] at h
  exact Bool.false_ne_true (hn ▸ h)

/-- A command's answer shows the HWAIT of its effect. -/
theorem exec_hwait {c : Instr} {s t : State} (h : exec c s = .next t) :
    t.hwait = (effect c (startOf c s)).hwait := by
  rw [exec_next h, settle_hwait]

theorem startOf_hwait (c : Instr) (s : State) : (startOf c s).hwait = s.hwait :=
  State.hwait_congr (startOf_changes c s .pathAccess (by decide))

theorem hwaitFollowsTheHold : Claim.Hwait := by
  refine ⟨fun s => State.hwait_iff, fun s t a w l hs hn h => ?_, fun s t a hs hn h => ?_,
    fun s t h => ?_, fun c s t hw hr ht h up => ?_⟩
  · rw [exec_hwait h, startOf_idle _ hs]
    exact beginAccess_write_hwait hn a w l
  · rw [exec_hwait h, startOf_idle _ hs]
    exact beginAccess_read_hwait hn a
  · rcases h with h | h <;> rw [exec_hwait h]
    · rfl
    · exact boardReset_hwait _
  · cases hm : movesAccess c with
    | false => rw [← State.hwait_congr (exec_access h hm)]; exact up
    | true =>
      rw [exec_hwait h] at up
      rw [← startOf_hwait c]
      cases c with
      | frontEndWrite a w l => exact absurd rfl (hw a w l)
      | frontEndRead a => exact absurd rfl (hr a)
      | heldAccessTaken => exact absurd rfl ht
      | heldWriteRelease => exact hwait_of_releaseHeld up
      | boardReset => exact absurd up (ne_true_of_eq_false (boardReset_hwait _))
      | hostReset => exact absurd up Bool.false_ne_true
      | _ => cases hm

/-- Settles O11: each way into, through and out of a hold is one case of the operation that takes it. -/
theorem heldAccesses : Obligations.HeldAccesses :=
  ⟨accessHeldBehindAPartWord, heldAccessIsTakenAfresh, heldAccessWaits, hwaitFollowsTheHold⟩

/-! ## When the arbiter grants (R8, R12, R14) -/

/-- A front-end access that waits for a place in a full queue is the one kind that leaves the slot idle (R8). -/
theorem State.frontEndUnderWay_eq_false {s : State} : s.frontEndUnderWay = false ↔
    ∀ h, s.path.access = some h → h.reason = .fullQueue ∧ ¬ s.path.capture.length < 64 := by
  unfold State.frontEndUnderWay
  cases s.path.access with
  | none => simp
  | some h => simp [State.captureRoom_eq_false]

theorem State.slotIdle_iff {s : State} : s.slotIdle = true ↔ s.path.inReset = false
    ∧ s.path.partAccess = none
    ∧ ∀ h, s.path.access = some h → h.reason = .fullQueue ∧ ¬ s.path.capture.length < 64 := by
  rw [← State.frontEndUnderWay_eq_false]
  simp [State.slotIdle, and_assoc]

theorem grantNeedsAnIdleSlot : Claim.GrantNeedsAnIdleSlot :=
  fun _ => ⟨State.slotIdle_iff, fun hs hi => exec_settles hs (if_neg (ne_true_of_eq_false hi))⟩

/-! ## Whom the arbiter serves (R12) -/

section
variable {s : State}

theorem serveHighest_reread {a : Addr} (h1 : s.path.requests.reread = some a) :
    serveHighest s = grantReread a s := by
  unfold serveHighest; rw [h1]

theorem serveHighest_ring {w : RingWrite} (h1 : s.path.requests.reread = none)
    (h2 : s.path.requests.ring = some w) : serveHighest s = grantRing w s := by
  unfold serveHighest; rw [h1, h2]

theorem serveHighest_config {r : ConfigRead} (h1 : s.path.requests.reread = none)
    (h2 : s.path.requests.ring = none) (h3 : s.path.requests.config = some r) :
    serveHighest s = grantConfig r s := by
  unfold serveHighest; rw [h1, h2, h3]

theorem serveHighest_status {w : StatusWord} (h1 : s.path.requests.reread = none)
    (h2 : s.path.requests.ring = none) (h3 : s.path.requests.config = none)
    (h4 : s.path.requests.status = some w) : serveHighest s = grantStatus w s := by
  unfold serveHighest; rw [h1, h2, h3, h4]

theorem serveHighest_image {w : Nat} (h1 : s.path.requests.reread = none)
    (h2 : s.path.requests.ring = none) (h3 : s.path.requests.config = none)
    (h4 : s.path.requests.status = none) (h5 : s.path.requests.image = some w) :
    serveHighest s = grantImage w s := by
  unfold serveHighest; rw [h1, h2, h3, h4, h5]

end

/-- A granted record word is the front record's, at its place in the slot at the head (R167, 10.5). -/
theorem grantRing_word {s : State} {r : EventRecord} {q : List EventRecord} (i : Nat)
    (hq : s.events.queue = r :: q) : grantRing (.word i) s = s.setPath { s.path with
      requests := { s.path.requests with ring := none }
      partAccess := some ⟨.ring (.word i),
        regionAddr s.path.base (0x7240 + s.events.head.toNat * 4 + i), r.word i, false⟩ } := by
  unfold grantRing
  dsimp only [State.setPath_events]
  rw [hq]
  rfl

theorem exec_grant {s t : State} (hs : s.tickDone) (hi : s.slotIdle = true) (e : serveHighest s = t) :
    exec .partAccessGrant s = .next (settle t) :=
  exec_settles hs ((if_pos hi).trans e)

theorem grantServesInOrder : Claim.GrantServesTheHighestRequest := by
  refine fun s hs hi => ⟨fun a h1 => ?_, fun i r q h1 h2 hq => ?_, fun h1 h2 => ?_, fun h1 h2 => ?_,
    fun r h1 h2 h3 => ?_, fun w h1 h2 h3 h4 => ?_, fun w h1 h2 h3 h4 h5 => ?_⟩
  · exact exec_grant hs hi (serveHighest_reread h1)
  · exact exec_grant hs hi ((serveHighest_ring h1 h2).trans (grantRing_word i hq))
  · exact exec_grant hs hi (serveHighest_ring h1 h2)
  · exact exec_grant hs hi (serveHighest_ring h1 h2)
  · exact exec_grant hs hi (serveHighest_config h1 h2 h3)
  · refine exec_grant hs hi ((serveHighest_status h1 h2 h3 h4).trans ?_)
    cases w <;> rfl
  · exact exec_grant hs hi (serveHighest_image h1 h2 h3 h4 h5)

/-! ## The words the part writes (R163, R170, R171, 10.3, 10.5) -/

theorem CfgState.code_lt (x : CfgState) : x.code < 4 := by cases x <;> decide

theorem Mode.code_lt (x : Mode) : x.code < 4 := by cases x <;> decide

theorem ChainState.code_lt (x : ChainState) : x.code < 4 := by cases x <;> decide

theorem boolBit_lt (b : Bool) : boolBit b < 2 := by cases b <;> decide

theorem EventKind.code_lt (x : EventKind) : x.code < 256 := by cases x <;> decide

theorem Origin.code_lt (x : Origin) : x.code < 4 := by cases x <;> decide

/-- A field of a word given by its number: the number cut to the field's place. -/
theorem extractLsb'_of_div_mod {n lo len code : Nat} (hn : n < 2 ^ 16) (h : n / 2 ^ lo % 2 ^ len = code) :
    (BitVec.ofNat 16 n).extractLsb' lo len = BitVec.ofNat len code := by
  apply BitVec.eq_of_toNat_eq
  rw [BitVec.extractLsb'_toNat, BitVec.toNat_ofNat, BitVec.toNat_ofNat, Nat.mod_eq_of_lt hn,
    Nat.shiftRight_eq_div_pow, ← h, Nat.mod_mod]

/-- A one-bit field of a word given by its number. -/
theorem getLsbD_of_div_mod {n i : Nat} {b : Bool} (hi : i < 16) (h : n / 2 ^ i % 2 = boolBit b) :
    (BitVec.ofNat 16 n).getLsbD i = b := by
  rw [BitVec.getLsbD_ofNat, Nat.testBit_eq_decide_div_mod_eq, h, decide_eq_true hi]
  cases b <;> rfl

theorem statusWords : Claim.StatusWords := by
  intro c
  have hcfg := c.cfg.code_lt
  have hmode := c.mode.code_lt
  have hsettling := boolBit_lt c.settling
  have htest := boolBit_lt c.test
  have hsilence := boolBit_lt c.silence
  have hhorn := boolBit_lt c.horn
  have hA := c.chainA.code_lt
  have hB := c.chainB.code_lt
  have hC := c.chainC.code_lt
  have hD := c.chainD.code_lt
  refine ⟨(extractLsb'_of_div_mod (code := c.cfg.code) (by omega) (by omega)).trans ?_,
    (extractLsb'_of_div_mod (code := c.mode.code) (by omega) (by omega)).trans ?_,
    getLsbD_of_div_mod (by omega) (by omega), getLsbD_of_div_mod (by omega) (by omega),
    getLsbD_of_div_mod (by omega) (by omega), getLsbD_of_div_mod (by omega) (by omega),
    (extractLsb'_of_div_mod (code := c.chainA.code) (by omega) (by omega)).trans ?_,
    (extractLsb'_of_div_mod (code := c.chainB.code) (by omega) (by omega)).trans ?_,
    (extractLsb'_of_div_mod (code := c.chainC.code) (by omega) (by omega)).trans ?_,
    (extractLsb'_of_div_mod (code := c.chainD.code) (by omega) (by omega)).trans ?_,
    rfl, rfl, rfl, rfl⟩
  · cases c.cfg <;> rfl
  · cases c.mode <;> rfl
  · cases c.chainA <;> rfl
  · cases c.chainB <;> rfl
  · cases c.chainC <;> rfl
  · cases c.chainD <;> rfl

theorem eventWords : Claim.EventWords := by
  refine ⟨fun r => ?_, rfl⟩
  have hkind := r.kind.code_lt
  have horigin := r.origin.code_lt
  refine ⟨extractLsb'_of_div_mod (by omega) (by omega),
    (extractLsb'_of_div_mod (code := r.origin.code) (by omega) (by omega)).trans ?_,
    extractLsb'_of_div_mod (code := 0) (by omega) (by omega), rfl, rfl, rfl⟩
  cases r.origin <;> rfl

/-! ## The addresses of the part's accesses (R4, R17, R22, R41, R53) -/

/-- Within the address space an offset's address is the base plus the offset (R4). -/
theorem regionAddr_toNat {base : Addr} {off : Nat} (h : base.toNat + off < 0x80000) :
    (regionAddr base off).toNat = base.toNat + off := by
  unfold regionAddr
  rw [BitVec.toNat_add, BitVec.toNat_ofNat]
  omega

theorem readAddresses : Claim.ReadAddresses :=
  ⟨fun _ _ => regionAddr_toNat, fun _ => ⟨rfl, fun _ _ => rfl, fun _ => ⟨rfl, fun _ => rfl⟩, fun _ _ => rfl⟩⟩

/-- Settles O13: the requesters in their order of priority, and each word by its fields. -/
theorem grantServesTheHighestRequest : Obligations.GrantServesTheHighestRequest :=
  ⟨grantNeedsAnIdleSlot, grantServesInOrder, statusWords, eventWords, readAddresses⟩

/-! ## Completions (R9, R12, R13, R15, R36) -/

/-- The end of an access frees the port, a write having reached RAM (R13). -/
theorem endAccess_eq (p : PartAccess) (s : State) :
    endAccess p s = if p.work.writes then s.partWritten p.addr p.data else s.portFreed := rfl

/-- A write under way that its requester still wants is stored, and the requester goes on (R12, R13). -/
theorem complete_written {α : Type} (sel : PartWork → Option α) (act : α → Word → State → State)
    {s : State} {work : PartWork} {a : Addr} {d : Word} {x : α} (h : s.underWay work a d)
    (hs : sel work = some x) (hw : work.writes = true) :
    complete sel act s = act x d (s.partWritten a d) := by
  rw [complete_acts h hs rfl, endAccess_eq, if_pos hw]

theorem ringWordDone_counts {s : State} {k : Nat} (h : s.events.inProgress = some k) :
    ringWordDone s = s.setEvents { s.events with inProgress := some (k + 1) } := by
  unfold ringWordDone; rw [h]; rfl

theorem partWriteCompletes : Claim.PartWriteCompletes := by
  refine fun s a d hs => ⟨fun w hu => exec_settles hs ?_, fun hu => exec_settles hs ?_,
    fun i k hu hk => exec_settles hs ?_, fun hu => exec_settles hs ?_, fun w hu => exec_settles hs ?_⟩
  · exact complete_written onStatus (fun _ _ s => s) hu rfl rfl
  · exact complete_written (onRing (fun w => w == .k18)) (fun _ _ s => s) hu rfl rfl
  · refine (complete_written (onRing RingWrite.isWord) (fun _ _ => ringWordDone) hu rfl rfl).trans ?_
    exact ringWordDone_counts (s := s.partWritten a d) hk
  · exact complete_written (onRing (fun w => w == .head)) (fun _ _ => headDone) hu rfl rfl
  · exact complete_written onImage (fun w _ => imageDone w) hu rfl rfl

/-- A re-read's word takes the place of the front item's data (R9). -/
theorem rereadDone_front {s : State} {item : CaptureItem} {rest : List CaptureItem}
    (h : s.path.capture = item :: rest) (d : Word) : rereadDone d s = s.setPath { s.path with
      capture := { item with data := d, partialItem := false } :: rest } := by
  unfold rereadDone; rw [h]

theorem captureReread : Claim.CaptureReread := by
  intro s a d item rest hs hu hc
  refine exec_settles hs ((complete_acts (sel := onReread) hu rfl rfl).trans ?_)
  exact rereadDone_front (s := s.portFreed) hc d

/-- The command that ends an access completes accesses of that access's kind; a group read is of g0 to g2 (R29). -/
theorem enderOf_completes (w : PartWork) : ∃ (α : Type) (sel : PartWork → Option α)
    (act : α → Word → State → State), (∀ s, effect (enderOf w) s = complete sel act s)
      ∧ ((∀ g i, w = .config (.group g i) → i ≤ 2) → ∃ x, sel w = some x) := by
  cases w with
  | reread => exact ⟨_, onReread, _, fun _ => rfl, fun _ => ⟨_, rfl⟩⟩
  | ring w =>
    cases w with
    | word i => exact ⟨_, onRing RingWrite.isWord, fun _ _ => ringWordDone, fun _ => rfl, fun _ => ⟨_, rfl⟩⟩
    | k18 => exact ⟨_, onRing (fun w => w == .k18), fun _ _ s => s, fun _ => rfl, fun _ => ⟨_, rfl⟩⟩
    | head => exact ⟨_, onRing (fun w => w == .head), fun _ _ => headDone, fun _ => rfl, fun _ => ⟨_, rfl⟩⟩
  | status w => exact ⟨_, onStatus, fun _ _ s => s, fun _ => rfl, fun _ => ⟨_, rfl⟩⟩
  | image w => exact ⟨_, onImage, fun w _ => imageDone w, fun _ => rfl, fun _ => ⟨_, rfl⟩⟩
  | config r =>
    cases r with
    | group g i =>
      match i with
      | 0 | 1 | 2 => exact ⟨_, _, _, fun _ => rfl, fun _ => ⟨_, rfl⟩⟩
      | i + 3 => exact ⟨_, _, _, fun _ => rfl, fun h => absurd (h g _ rfl) (by omega)⟩
    | _ => exact ⟨_, _, _, fun _ => rfl, fun _ => ⟨_, rfl⟩⟩

theorem enderOf_posts_nothing (w : PartWork) :
    (∀ a d l, enderOf w ≠ .frontEndWrite a d l) ∧ ∀ a, enderOf w ≠ .frontEndRead a := by
  unfold enderOf
  split <;> exact ⟨nofun, nofun⟩

theorem complete_absent {α : Type} {sel : PartWork → Option α} {act : α → Word → State → State}
    {s : State} (h : s.path.partAccess = none) : complete sel act s = s := by
  unfold complete; rw [h]

theorem disregardedCompletion : Claim.DisregardedCompletion := by
  refine ⟨fun s p hs hp hd hg => ?_, fun s w hs hp => ?_⟩
  · obtain ⟨α, sel, act, he, hx⟩ := enderOf_completes p.work
    obtain ⟨x, hx⟩ := hx hg
    refine exec_settles hs ?_ (enderOf_posts_nothing _)
    rw [he, complete_disregarded hp hx hd, endAccess_eq]
  · obtain ⟨α, sel, act, he, -⟩ := enderOf_completes w
    exact exec_settles hs ((he s).trans (complete_absent hp)) (enderOf_posts_nothing w)

/-- Settles O14: every command that ends an access is one use of the shared completion. -/
theorem partAccessCompletes : Obligations.PartAccessCompletes :=
  ⟨partWriteCompletes, captureReread, disregardedCompletion⟩

end Sys2Proof.Machine

/-! # Sweeps, settings and lamp claims: proofs of the statements of 02_board_region_and_start_up.md -/

namespace Sys2Proof.Machine

/-! ## Completed reads and dispatched items -/

/-- A read under way that the Loader still wants frees the port, and its word is acted on (R12). -/
theorem complete_read {α : Type} {sel : PartWork → Option α} {act : α → Word → State → State}
    {s : State} {r : ConfigRead} {a : Addr} {w : Word} {x : α} (h : s.underWay (.config r) a w)
    (hs : sel (.config r) = some x) : complete sel act s = act x w s.portFreed :=
  complete_acts h hs rfl

/-- Once the board is SWEEPING or RUNNING, a front item goes to the owner that names it (R37). -/
theorem handOn_onBoard {α : Type} {sel : RegionWord → Word → Option α} {act : α → Word → State → State}
    {s : State} {r : RegionWord} {w : Word} {x : α} (hb : s.onBoard) (h : s.front r w)
    (hs : sel r w = some x) : handOn sel act s = act x w (popCapture s) :=
  handOn_acts h hs (.inl (State.configured_iff.mpr hb))

/-- In UNCONFIGURED a front item other than k0 only leaves the queue (R37). -/
theorem handOn_unconfigured {α : Type} {sel : RegionWord → Word → Option α}
    {act : α → Word → State → State} {s : State} {r : RegionWord} {w : Word} {x : α}
    (hu : s.loader.cfg = .unconfigured) (h : s.front r w) (hk : r ≠ .k0) (hs : sel r w = some x) :
    handOn sel act s = popCapture s :=
  handOn_discards h hs fun hc => hc.elim (fun hc => State.configured_iff.mp hc hu) hk

/-- A k11 item is a remote command's where the whole word is in the command's class (R160). -/
theorem onRemote_k11 {p : Nat → Bool} {w : Word} (h : p w.toNat = true) : onRemote p .k11 w = some () :=
  if_pos ⟨rfl, h⟩

/-! ## The state after a board reset (R19, 06 6.6, R141, R142) -/

/-- Settles O5: each field is read off the reset state of its block. -/
theorem resetLeavesTheSpecifiedState : Obligations.ResetLeavesTheSpecifiedState :=
  ⟨rfl, rfl, rfl, rfl, rfl, rfl, rfl, rfl, rfl, rfl, rfl, rfl, rfl, rfl, rfl, rfl, rfl, rfl, rfl, rfl,
    rfl, rfl, rfl, rfl, rfl, rfl, rfl⟩

theorem PatternGen.afterReset_legal : PatternGen.afterReset.legal :=
  ⟨fun _ => nofun, by decide, by decide, by decide⟩

theorem Chain.afterReset_legal : Chain.afterReset.legal := ⟨Nat.zero_le 16, rfl, rfl⟩

theorem Chains.afterReset_legal : Chains.afterReset.legal :=
  ⟨Chain.afterReset_legal, Chain.afterReset_legal, Chain.afterReset_legal, Chain.afterReset_legal,
    fun _ => Nat.zero_le 2⟩

theorem Panel.afterReset_legal (shown : List Bool) : (Panel.afterReset shown).legal :=
  ⟨Nat.zero_le 3, fun _ => rfl, nofun, nofun, Nat.zero_le 3, Nat.zero_le 3⟩

/-- Settles O6: every block starts legal, no reset input is asserted, and there is no record to be exact about. -/
theorem invariantHoldsAtReset : Obligations.InvariantHoldsAtReset :=
  have exact : State.reset.Exact := .empty rfl rfl rfl rfl
  { memory := rfl
    bounds := ⟨Nat.zero_le _, Nat.zero_le _, Nat.zero_le _, Nat.zero_le _, Nat.zero_le _⟩
    gen := PatternGen.afterReset_legal
    chains := Chains.afterReset_legal
    faults := ⟨rfl, rfl⟩
    panel := Panel.afterReset_legal blankDisplay
    resets := ⟨fun h => absurd h Bool.false_ne_true, fun h => absurd h Bool.false_ne_true⟩
    pendingOnce := List.nodup_nil
    values := rfl
    records := rfl
    dirty := List.Pairwise.nil
    list := exact.list
    shelf := exact.shelf
    due := exact.due
    joined := exact.joined }

/-! ## The beginning of a sweep (R20, R21, R122) -/

/-- A sweep begun, the MODE report of the board reset left aside (R21). -/
def State.swept (s : State) : State :=
  let s := s.setLoader { s.loader with cfg := .sweeping, pass := some ⟨true, .k1, true, false⟩ }
  let s := s.setEvents { s.events with owed19 := true, owed20 := true, owed21 := true, owed22 := true }
  s.setGen { s.gen with dirty := List.range Config.imageWords }

theorem beginSweep_eq (s : State) : beginSweep s = if s.swept.gen.modeOwed then
    record .mode .part s.swept.gen.mode.code 5 (s.swept.setGen { s.swept.gen with modeOwed := false })
    else s.swept := rfl

/-- The Pattern Generator of a sweep begun, stated so that its 1,024 dirty words are never evaluated. -/
theorem State.swept_gen (s : State) :
    s.swept.gen = { s.gen with dirty := List.range Config.imageWords } := rfl

theorem State.swept_dirty (s : State) : s.swept.gen.dirty = List.range Config.imageWords := by
  rw [s.swept_gen]

theorem beginSweep_notOwed {s : State} (h : s.gen.modeOwed = false) : beginSweep s = s.swept := by
  rw [beginSweep_eq, s.swept_gen, if_neg (ne_true_of_eq_false h)]

/-- An owed MODE report becomes an event, and is owed no more (R122). -/
theorem beginSweep_owed {s : State} (h : s.gen.modeOwed = true) :
    beginSweep s = record .mode .part s.gen.mode.code 5
      (s.swept.setGen { s.swept.gen with modeOwed := false }) := by
  rw [beginSweep_eq, s.swept_gen, if_pos h]

/-- The MODE report touches nothing else of the sweep begun. -/
theorem beginSweep_swept (s : State) : Changes (.genModeOwed :: eventParts) s.swept (beginSweep s) := by
  cases h : s.gen.modeOwed with
  | false => rw [beginSweep_notOwed h]; exact .refl _ _
  | true => rw [beginSweep_owed h]; exact (record_changes _ _ _ _ _).after (setModeOwed_changes _ _).mono

theorem beginSweep_modeOwed (s : State) : (beginSweep s).gen.modeOwed = false := by
  cases h : s.gen.modeOwed with
  | false => rw [beginSweep_notOwed h, s.swept_gen]; exact h
  | true => rw [beginSweep_owed h]; exact record_changes _ _ _ _ _ .genModeOwed (by decide)

/-- The sweep is begun, so the MODE event joins a queue that has room (R122, R164). -/
theorem beginSweep_queue {s : State} (h : s.gen.modeOwed = true) (hq : s.events.queue.length < 32) :
    (beginSweep s).events.queue = s.events.queue ++
      [⟨.mode, .part, BitVec.ofNat 16 s.gen.mode.code, 5, s.gen.seconds.setWidth 16⟩] := by
  rw [beginSweep_owed h, record_configured (by exact nofun), State.setEvents_events, State.setGen_events,
    EventUnit.take_room (by exact hq), State.setGen_gen, s.swept_gen]
  dsimp only
  rfl

theorem sweepBegins : Claim.SweepBegins := by
  intro s
  have begun := beginSweep_swept s
  have dirty : (beginSweep s).gen.dirty = s.swept.gen.dirty := begun .genDirty (by decide)
  refine ⟨begun .loaderCfg (by decide), begun .loaderPass (by decide), begun .eventsOwed19 (by decide),
    begun .eventsOwed20 (by decide), begun .eventsOwed21 (by decide), begun .eventsOwed22 (by decide),
    fun w => by rw [dirty, s.swept_dirty]; exact List.mem_range, beginSweep_modeOwed s, fun h => ?_,
    fun h hq => beginSweep_queue h hq, beginSweep_changes s⟩
  rw [beginSweep_notOwed h]
  rfl

theorem judgeK0_begins {s : State} {w : Word} (hw : w = 0x4E47) (hc : s.loader.cfg = .unconfigured) :
    judgeK0 w s = beginSweep s := if_pos ⟨hw, hc⟩

theorem judgeK0_other {s : State} {w : Word} (hw : w ≠ 0x4E47) : judgeK0 w s = s :=
  if_neg fun h => hw h.1

theorem k0Read : Claim.K0Read := fun s _ w hs hu hc =>
  have read : effect .k0ReadDone s = judgeK0 w s.portFreed := complete_read hu rfl
  ⟨fun hw => exec_settles hs (read.trans (judgeK0_begins hw hc)),
    fun hw => exec_settles hs (read.trans (judgeK0_other hw))⟩

/-- Settles O15: a sweep's beginning is the sweep begun with the owed MODE report on top. -/
theorem sweepFromTheK0Read : Obligations.SweepFromTheK0Read := ⟨sweepBegins, k0Read⟩

/-! ## The signature and the deconfiguring (R34 to R36) -/

section
variable {s : State} {w : Word}

theorem takeSignature_begins (hc : s.loader.cfg = .unconfigured) (hw : w = 0x4E47) :
    takeSignature w s = beginSweep s :=
  (if_neg fun h => State.configured_iff.mp h hc).trans (if_pos hw)

theorem takeSignature_unconfigured (hc : s.loader.cfg = .unconfigured) (hw : w ≠ 0x4E47) :
    takeSignature w s = s :=
  (if_neg fun h => State.configured_iff.mp h hc).trans (if_neg hw)

theorem takeSignature_same (hb : s.onBoard) (hw : w = 0x4E47) : takeSignature w s = s :=
  (if_pos (State.configured_iff.mpr hb)).trans (if_pos hw)

theorem takeSignature_deconfigures (hb : s.onBoard) (hw : w ≠ 0x4E47) :
    takeSignature w s = deconfigure s :=
  (if_pos (State.configured_iff.mpr hb)).trans (if_neg hw)

end

theorem signatureWrite : Claim.SignatureWrite := fun s w hs hf =>
  have handed : effect .signatureWrite s = takeSignature w (popCapture s) :=
    handOn_acts hf rfl (.inr rfl)
  ⟨fun hc hw => exec_settles hs (handed.trans (takeSignature_begins hc hw)),
    fun hc hw => exec_settles hs (handed.trans (takeSignature_unconfigured hc hw)),
    fun hb hw => exec_settles hs (handed.trans (takeSignature_same hb hw)),
    fun hb hw => exec_settles hs (handed.trans (takeSignature_deconfigures hb hw))⟩

/-- Every access under way but the capture re-read is disregarded (R36, R125, log 17). -/
theorem deconfigure_partAccess {s : State} {p : PartAccess} (hp : s.path.partAccess = some p) :
    (deconfigure s).path.partAccess = some { p with disregard := p.disregard || !p.work.isReread } :=
  congrArg (Option.map _) hp

theorem PartWork.isReread_eq_false {w : PartWork} (h : w ≠ .reread) : w.isReread = false := by
  cases w with
  | reread => exact absurd rfl h
  | ring _ | config _ | status _ | image _ => rfl

theorem deconfigures : Claim.Deconfigure := by
  intro s
  refine ⟨rfl, rfl, rfl, rfl, rfl, rfl, rfl, fun _ => rfl, fun _ => rfl, rfl, rfl, rfl, rfl, rfl, rfl, rfl,
    rfl, rfl, rfl, rfl, rfl, rfl, rfl, rfl, rfl, rfl, rfl, rfl, rfl, rfl, rfl, rfl, rfl, rfl, rfl, rfl, rfl,
    fun p hp hw => ?_, fun p hp hw => ?_, rfl⟩
  · rw [deconfigure_partAccess hp, PartWork.isReread_eq_false hw, Bool.not_false, Bool.or_true]
  · rw [deconfigure_partAccess hp, hw]
    simp [PartWork.isReread, ← hw]

/-- Settles O16: the six cells are the two tests of a captured k0 write; deconfiguring is one update. -/
theorem signatureWrites : Obligations.SignatureWrites := ⟨signatureWrite, deconfigures⟩

/-! ## The order of a settings pass (R22, R24, R32) -/

section
variable {s : State} {p : Pass} {r : ConfigRead}

theorem advancePass_next {next : ConfigRead} (hp : s.loader.pass = some p) (hr : p.restart = false)
    (hk : r ≠ .k18) (hn : r.after p.ring = some next) :
    advancePass r s = s.setLoader { s.loader with pass := some { p with next := next } } := by
  unfold advancePass
  simp only [hp, if_neg hk, hr, hn, Bool.false_eq_true, if_false]

/-- A pass that a generation change met begins again at k2 (R32, log 16). -/
theorem advancePass_restarts (hp : s.loader.pass = some p) (hr : p.restart = true) (hk : r ≠ .k18) :
    advancePass r s = s.setLoader { s.loader with
      pass := some { p with next := .k2, restart := false } } := by
  unfold advancePass
  simp only [hp, if_neg hk, hr, if_true]

/-- After k18 the ring values are not read again (log 16). -/
theorem advancePass_k18 (hp : s.loader.pass = some p) (hr : p.restart = false) :
    advancePass .k18 s = s.setLoader { s.loader with
      pass := some { p with ring := false, next := .group 0 0 } } := by
  unfold advancePass
  simp only [hp, if_true, hr, Bool.false_eq_true, if_false, ConfigRead.after]

theorem advancePass_k18_restarts (hp : s.loader.pass = some p) (hr : p.restart = true) :
    advancePass .k18 s = s.setLoader { s.loader with
      pass := some { p with ring := false, next := .k2, restart := false } } := by
  unfold advancePass
  simp only [hp, if_true, hr]

/-- The read after which none follows ends the pass; k18 is no such read. -/
theorem advancePass_ends (hp : s.loader.pass = some p) (hr : p.restart = false)
    (hn : r.after p.ring = none) : advancePass r s = endPass p s := by
  have hk : r ≠ .k18 := fun h => by rw [h] at hn; cases hn
  unfold advancePass
  simp only [hp, if_neg hk, hr, hn, Bool.false_eq_true, if_false]

end

/-- Within a group its three words follow each other, and the next group comes after them (R22). -/
theorem after_group (ring : Bool) (g : Nat) :
    ConfigRead.after ring (.group g 0) = some (.group g 1)
      ∧ ConfigRead.after ring (.group g 1) = some (.group g 2)
      ∧ (g < 63 → ConfigRead.after ring (.group g 2) = some (.group (g + 1) 0)) :=
  ⟨rfl, rfl, fun h => if_pos (Nat.succ_lt_succ h)⟩

theorem settingsPassOrder : Claim.SettingsPassOrder :=
  ⟨fun _ _ _ _ => advancePass_next, fun _ _ _ => advancePass_restarts,
    fun _ _ hp => ⟨advancePass_k18 hp, advancePass_k18_restarts hp⟩,
    fun _ => ⟨rfl, rfl, rfl, rfl⟩, rfl, rfl, rfl, rfl, rfl, after_group, fun _ => rfl⟩

/-! ## The end of a settings pass and of a sweep (R22, R24) -/

theorem sweepCheck_done {s : State} (hc : s.loader.cfg = .sweeping) (hp : s.loader.pendingPoints = [])
    (hn : s.loader.pass = none) (hr : s.loader.reload = none) :
    sweepCheck s = record .sweepDone .part s.loader.installed 0
      (s.setLoader { s.loader with cfg := .running }) :=
  if_pos ⟨hc, hp, hn, hr⟩

/-- While anything is left to load, nothing happens (R24). -/
theorem sweepCheck_waits {s : State} (h : s.loader.cfg ≠ .sweeping ∨ s.loader.pendingPoints ≠ []
    ∨ s.loader.pass ≠ none ∨ s.loader.reload ≠ none) : sweepCheck s = s :=
  if_neg fun ⟨hc, hp, hn, hr⟩ => h.elim (· hc) (·.elim (· hp) (·.elim (· hn) (· hr)))

theorem mem_appendAll (l : List Nat) {n : Nat} (hn : n < 1792) : n ∈ appendAll l := by
  unfold appendAll Config.pointCount
  by_cases h : n ∈ l <;> simp [h, hn]

theorem appendAll_ne_nil (l : List Nat) : appendAll l ≠ [] :=
  List.ne_nil_of_mem (mem_appendAll l (Nat.zero_lt_succ 1791))

/-- A sweep's pass leaves points to load, so the sweep goes on after it (R22, step 7). -/
theorem endPass_sweep {s : State} {p : Pass} (h : p.sweep = true) :
    endPass p s = s.setLoader { s.loader with
      pass := none, pendingPoints := appendAll s.loader.pendingPoints } := by
  unfold endPass
  rw [if_pos h]
  exact sweepCheck_waits (.inr (.inl (appendAll_ne_nil _)))

theorem endPass_reload {s : State} {p : Pass} (h : p.sweep = false) :
    endPass p s = sweepCheck (s.setLoader { s.loader with pass := none }) := by
  unfold endPass
  rw [if_neg (ne_true_of_eq_false h)]

theorem settingsPassEnds : Claim.SettingsPassEnds := fun _ _ _ hp hr hn =>
  ⟨fun h => (advancePass_ends hp hr hn).trans (endPass_sweep h),
    fun h => (advancePass_ends hp hr hn).trans (endPass_reload h)⟩

theorem sweepDone : Claim.SweepDone := fun _ => ⟨sweepCheck_done, sweepCheck_waits, rfl⟩

/-! ## The reads of a settings pass (R22, R25 to R29, R165, R166) -/

theorem lampField_absent {w : Word} (h : w.getLsbD 15 = false) : lampField w = none :=
  if_neg (ne_true_of_eq_false h)

theorem lampField_present {w : Word} (h : w.getLsbD 15 = true) :
    lampField w = some (w.extractLsb' 0 12).toNat := if_pos h

theorem LampSetting.claimed_eq_some {x : LampSetting} {lamp : Nat} :
    x.claimed = some lamp ↔ x.granted = true ∧ x.lamp = some lamp := by
  unfold LampSetting.claimed
  cases x.granted <;> simp

theorem LampSetting.claimed_of_refused {x : LampSetting} (h : x.granted = false) : x.claimed = Option.none :=
  if_neg (ne_true_of_eq_false h)

theorem lampFields : Claim.LampField :=
  ⟨fun _ => ⟨lampField_absent, lampField_present⟩, fun _ _ => LampSetting.claimed_eq_some⟩

theorem settingsReads : Claim.SettingsReads := fun _ _ _ hs =>
  ⟨fun hu => exec_settles hs (complete_read hu rfl), fun hu => exec_settles hs (complete_read hu rfl),
    fun hu => exec_settles hs (complete_read hu rfl), fun hu => exec_settles hs (complete_read hu rfl),
    fun hu => exec_settles hs (complete_read hu rfl), fun _ hu => exec_settles hs (complete_read hu rfl),
    fun _ hu => exec_settles hs (complete_read hu rfl), fun _ hu => exec_settles hs (complete_read hu rfl)⟩

theorem ringValuesRead : Claim.RingValuesRead := fun _ _ _ hs =>
  ⟨fun hu => exec_settles hs (complete_read hu rfl), fun hu => exec_settles hs (complete_read hu rfl),
    fun hu => exec_settles hs (complete_read hu rfl)⟩

/-- Settles O17: the pass by the cases of its advance, each read by the shared completion. -/
theorem settingsPass : Obligations.SettingsPass :=
  ⟨settingsPassOrder, settingsReads, lampFields, ringValuesRead, settingsPassEnds, sweepDone⟩

/-! ## Lamp settings (R28, R29, R50, R96, R113, R114) -/

theorem State.settings_setSettings_same (g : Nat) (x : GroupSettings) (s : State) :
    (setSettings g x s).settings g = x := Table.val_assign_same _ _ _ _

theorem State.settings_setSettings_other {g h : Nat} (x : GroupSettings) (s : State) (hg : h ≠ g) :
    (setSettings g x s).settings h = s.settings h := Table.val_assign_other _ _ _ hg

theorem State.settingAt_holdSetting (p : SettingPlace) (x : LampSetting) (s : State) :
    (holdSetting p x s).settingAt p = x := by
  cases p with
  | boardFault => rfl
  | summary g => exact congrArg GroupSettings.summary (State.settings_setSettings_same g _ s)
  | stale g => exact congrArg GroupSettings.staleLamp (State.settings_setSettings_same g _ s)

/-- A lamp setting is kept in the board fault setting or in the groups' settings. -/
theorem State.settingAt_congr {s t : State} {l : List Part} (h : Changes l s t) (p : SettingPlace)
    (hf : .loaderFaultLamp ∉ l := by decide) (hg : .loaderGroups ∉ l := by decide) :
    t.settingAt p = s.settingAt p := by
  have fault : t.loader.faultLamp = s.loader.faultLamp := h .loaderFaultLamp hf
  have groups : t.loader.groups = s.loader.groups := h .loaderGroups hg
  unfold State.settingAt State.settings
  rw [fault, groups]

theorem State.settingStands_some {s : State} {held : LampSetting} {lamp : Nat} :
    s.settingStands held (some lamp) = true ↔
      held.lamp = some lamp ∧ held.granted = true ∧ s.chains.present lamp = true := by
  simp [State.settingStands, and_assoc]

/-- A setting that holds no lamp does not stand: it is judged afresh (R28). -/
theorem State.settingStands_refused {s : State} {held : LampSetting} (h : held.granted = false)
    (new : Option Nat) : s.settingStands held new = false := by
  cases new <;> simp [State.settingStands, h]

section
variable {s : State} {p : SettingPlace} {lamp : Nat}

theorem judgeSetting_stands {new : Option Nat} (h : s.settingStands (s.settingAt p) new = true) :
    judgeSetting p new s = s := if_pos h

/-- A setting without a granted claim has none to release. -/
theorem judgeSetting_refused (h : (s.settingAt p).granted = false) (new : Option Nat) :
    judgeSetting p new s = takeSetting p new s := by
  unfold judgeSetting
  dsimp only
  rw [State.settingStands_refused h, LampSetting.claimed_of_refused h]
  rfl

/-- A claim that does not stand is released before the new setting is judged (R28). -/
theorem judgeSetting_releases {new : Option Nat} (hg : (s.settingAt p).granted = true)
    (hl : (s.settingAt p).lamp = some lamp) (hn : s.settingStands (s.settingAt p) new = false) :
    judgeSetting p new s
      = takeSetting p new (releaseLamp lamp (holdSetting p ⟨some lamp, false⟩ s)) := by
  unfold judgeSetting
  dsimp only
  rw [hn, LampSetting.claimed_eq_some.mpr ⟨hg, hl⟩, hl]
  rfl

theorem takeSetting_refuses (h : s.chains.present lamp = false ∨ (s.loader.claims.look lamp).isSome = true) :
    takeSetting p (some lamp) s = record .groupLampRefused .part p.refusal.1 p.refusal.2
      (holdSetting p ⟨some lamp, false⟩ s) :=
  if_pos (h.imp_left ne_true_of_eq_false)

/-- The lamp entered as claimed by the place's owner, no pattern handed yet (R28, R50). -/
def claimSetting (p : SettingPlace) (lamp : Nat) (s : State) : State :=
  claimLamp p.owner lamp (holdSetting p ⟨some lamp, true⟩ s)

theorem takeSetting_claims (hp : s.chains.present lamp = true) (hf : s.loader.claims.look lamp = none) :
    takeSetting p (some lamp) s = handClaimed p (claimSetting p lamp s) :=
  if_neg fun h => h.elim (fun h => h hp) (fun h => by rw [hf] at h; cases h)

end

/-- What the owner of a setting's lamp hands it: R114 for the board fault lamp, R96 for a group's lamps. -/
def State.ownerPattern (s : State) : SettingPlace → Pattern
  | .boardFault => s.faultPattern
  | .summary g => (s.counts g).summaryPattern
  | .stale g => (s.counts g).stalePattern

theorem decideFaultLamp_claimed {s : State} {lamp : Nat} (h : s.loader.faultLamp.claimed = some lamp) :
    decideFaultLamp s = setPattern lamp s.faultPattern s := by
  unfold decideFaultLamp; rw [h]

theorem handSummary_claimed {s : State} {g lamp : Nat} (h : (s.settings g).summary.claimed = some lamp) :
    handSummary g s = setPattern lamp (s.counts g).summaryPattern s := by
  unfold handSummary; rw [h]

theorem handStale_claimed {s : State} {g lamp : Nat} (h : (s.settings g).staleLamp.claimed = some lamp) :
    handStale g s = setPattern lamp (s.counts g).stalePattern s := by
  unfold handStale; rw [h]

/-- The owner of a lamp that is claimed hands that lamp its pattern (R96, R113, R114). -/
theorem handClaimed_claimed {p : SettingPlace} {lamp : Nat} {s : State}
    (h : (s.settingAt p).claimed = some lamp) :
    handClaimed p s = setPattern lamp (s.ownerPattern p) s := by
  cases p with
  | boardFault => exact decideFaultLamp_claimed h
  | summary g => exact handSummary_claimed h
  | stale g => exact handStale_claimed h

section
variable (p : SettingPlace) (lamp : Nat) (s : State)

theorem settingAt_claimSetting : (claimSetting p lamp s).settingAt p = ⟨some lamp, true⟩ :=
  (State.settingAt_congr (claimLamp_changes p.owner lamp _) p).trans (State.settingAt_holdSetting p _ s)

theorem claims_claimSetting :
    (claimSetting p lamp s).loader.claims = s.loader.claims.put lamp p.owner := by
  have held : (holdSetting p ⟨some lamp, true⟩ s).loader.claims = s.loader.claims :=
    holdSetting_changes p _ s .loaderClaims (by decide)
  exact congrArg (fun t => Table.put t lamp p.owner) held

/-- A claim moves no pattern, no count and no chain. -/
theorem ownerPattern_claimSetting : (claimSetting p lamp s).ownerPattern p = s.ownerPattern p := by
  cases p <;> rfl

theorem patternOf_claimSetting (other : Nat) :
    (claimSetting p lamp s).patternOf other = s.patternOf other := by
  cases p <;> rfl

/-- A lamp just claimed takes its owner's pattern. -/
theorem handClaimed_claimSetting : handClaimed p (claimSetting p lamp s)
    = setPattern lamp (s.ownerPattern p) (claimSetting p lamp s) := by
  rw [handClaimed_claimed (lamp := lamp) (by rw [settingAt_claimSetting]; rfl), ownerPattern_claimSetting]

end

section
variable {s : State} {p : SettingPlace} {lamp : Nat}

/-- A setting without a claim whose lamp is present and free is granted, and the lamp shows its owner's pattern. -/
theorem judgeSetting_claims (hg : (s.settingAt p).granted = false) (hp : s.chains.present lamp = true)
    (hf : s.loader.claims.look lamp = none) : judgeSetting p (some lamp) s
      = setPattern lamp (s.ownerPattern p) (claimSetting p lamp s) := by
  rw [judgeSetting_refused hg, takeSetting_claims hp hf, handClaimed_claimSetting]

/-- Judging a setting moves no group's counts. -/
theorem counts_judgeSetting (new : Option Nat) (g : Nat) :
    (judgeSetting p new s).counts g = s.counts g := by
  have groups : (judgeSetting p new s).ann.groups = s.ann.groups :=
    judgeSetting_changes p new s .annGroups (by decide)
  unfold State.counts
  rw [groups]

theorem claims_setPattern (x : Pattern) : (setPattern lamp x s).loader.claims = s.loader.claims :=
  setPattern_changes lamp x s .loaderClaims (by decide)

/-- The claimed case of R28: the setting, the claim, the lamp's pattern, and every other lamp. -/
theorem judgeSetting_claimed (hg : (s.settingAt p).granted = false) (hp : s.chains.present lamp = true)
    (hf : s.loader.claims.look lamp = none) :
    (judgeSetting p (some lamp) s).settingAt p = ⟨some lamp, true⟩
      ∧ (judgeSetting p (some lamp) s).loader.claims.look lamp = some p.owner
      ∧ (judgeSetting p (some lamp) s).patternOf lamp = s.ownerPattern p
      ∧ ∀ other, other ≠ lamp →
        (judgeSetting p (some lamp) s).loader.claims.look other = s.loader.claims.look other
        ∧ (judgeSetting p (some lamp) s).patternOf other = s.patternOf other := by
  rw [judgeSetting_claims hg hp hf, claims_setPattern, claims_claimSetting]
  refine ⟨?_, Table.look_put_same _ _ _, setPattern_same _ _ _,
    fun other ho => ⟨Table.look_put_other _ _ ho, ?_⟩⟩
  · exact (State.settingAt_congr (setPattern_changes _ _ _) p).trans (settingAt_claimSetting p lamp s)
  · rw [setPattern_other _ _ ho, patternOf_claimSetting]

/-- A claim released in favour of a new setting leaves that setting to be judged on the board without it (R28). -/
theorem judgeSetting_after_release {new : Option Nat} (hg : (s.settingAt p).granted = true)
    (hl : (s.settingAt p).lamp = some lamp) (hn : new ≠ some lamp ∨ s.chains.present lamp = false) :
    judgeSetting p new s
      = judgeSetting p new (releaseLamp lamp (holdSetting p ⟨some lamp, false⟩ s)) := by
  have fails : s.settingStands (s.settingAt p) new = false := by
    refine Bool.eq_false_iff.mpr fun h => ?_
    cases new with
    | none => cases h
    | some m =>
      obtain ⟨hm, -, present⟩ := State.settingStands_some.mp h
      cases hm.symm.trans hl
      exact hn.elim (fun hn => hn rfl) (fun hn => Bool.false_ne_true (hn.symm.trans present))
  have released : ((releaseLamp lamp (holdSetting p ⟨some lamp, false⟩ s)).settingAt p).granted = false := by
    rw [State.settingAt_congr (releaseLamp_changes lamp _) p, State.settingAt_holdSetting]
  rw [judgeSetting_releases hg hl fails, judgeSetting_refused released]

end

theorem lampSettingIsJudged : Claim.LampSettingIsJudged := by
  intro s p lamp
  refine ⟨fun hh hp => ?_, fun new hg hl hn => judgeSetting_after_release hg hl hn,
    fun hg => judgeSetting_refused hg none,
    fun hg hr => (judgeSetting_refused hg _).trans (takeSetting_refuses hr), fun hg hp hf => ?_,
    fun _ => ⟨rfl, rfl, rfl⟩⟩
  · exact judgeSetting_stands (State.settingStands_some.mpr ⟨by rw [hh], by rw [hh], hp⟩)
  · obtain ⟨setting, claim, shows, others⟩ := judgeSetting_claimed hg hp hf
    refine ⟨setting, claim, fun h => ?_, fun g h => ?_, fun g h => ?_, others⟩
    · rw [shows, h]; rfl
    · unfold State.summaryShows
      rw [shows, h, counts_judgeSetting]
      rfl
    · rw [shows, h]; rfl

theorem releasedLampIsOff : Claim.ReleasedLampIsOff := by
  intro s lamp
  have claims : (releaseLamp lamp s).loader.claims = s.loader.claims.del lamp := claims_setPattern _
  rw [claims]
  exact ⟨Table.look_del_same _ _, setPattern_same _ _ _,
    fun other ho => ⟨Table.look_del_other _ ho, setPattern_other _ _ ho⟩, releaseLamp_changes lamp s⟩

/-- Settles O19: R28's steps as the cases of the judgement, the claimed one by its owner's pattern. -/
theorem lampSettings : Obligations.LampSettings := ⟨lampFields, lampSettingIsJudged, releasedLampIsOff⟩

/-! ## Dispatched writes of group settings (R29, R37) -/

theorem settings_takeEnables_same (g : Nat) (w : Word) (s : State) :
    (takeEnables g w s).settings g
      = { s.settings g with horn := w.getLsbD 0, wake := w.getLsbD 1 } :=
  State.settings_setSettings_same g _ s

theorem settings_takeEnables_other {g other : Nat} (w : Word) (s : State) (h : other ≠ g) :
    (takeEnables g w s).settings other = s.settings other :=
  State.settings_setSettings_other _ s h

theorem groupSettingsAreWritten : Claim.GroupSettingWrites := by
  refine fun s g w hs hb => ⟨fun hf => ?_, fun hf => exec_settles hs (handOn_onBoard hb hf rfl),
    fun hf => exec_settles hs (handOn_onBoard hb hf rfl)⟩
  refine ⟨exec_settles hs (handOn_onBoard hb hf rfl), ?_, ?_,
    fun other ho => settings_takeEnables_other w _ ho,
    (takeEnables_changes g w _).after (popCapture_changes s).mono⟩ <;>
  rw [settings_takeEnables_same]

/-- Settles O20: each write is one hand-on, a g0 write one update of its group's settings. -/
theorem groupSettingWrites : Obligations.GroupSettingWrites := ⟨groupSettingsAreWritten, lampFields⟩

/-! ## Dispatched generation and control words (R31, R32, R38, R40) -/

section
variable {s : State} {w : Word}

theorem takeGeneration_notHeld (h : s.loader.generation = none) : takeGeneration w s = s := by
  unfold takeGeneration; rw [h]

theorem takeGeneration_equal (h : s.loader.generation = some w) : takeGeneration w s = s := by
  unfold takeGeneration; rw [h]; exact if_pos rfl

theorem takeGeneration_reloads {g : Word} (h : s.loader.generation = some g) (hn : g ≠ w) :
    takeGeneration w s = fullReload (s.setLoader { s.loader with generation := some w }) := by
  unfold takeGeneration; rw [h]; exact if_neg hn.symm

end

/-- A pass under way keeps its kind and its ring flag, and goes back to k2 now or after its read (R32). -/
theorem passRestarted_some (out : Bool) (p : Pass) : (passRestarted out (some p)).sweep = p.sweep
    ∧ (passRestarted out (some p)).ring = p.ring
    ∧ ((passRestarted out (some p)).restart = true ∨ (passRestarted out (some p)).next = .k2) := by
  cases out with
  | false => exact ⟨rfl, rfl, .inr rfl⟩
  | true => exact ⟨rfl, rfl, .inl rfl⟩

/-- Settles O21: by whether a generation is held and equal; a change is one full reload. -/
theorem generationWrite : Obligations.GenerationWrite := by
  intro s w hs hb hf
  have handed : effect .generationWrite s = takeGeneration w (popCapture s) := handOn_onBoard hb hf rfl
  refine ⟨fun h => exec_settles hs (handed.trans (takeGeneration_notHeld h)),
    fun h => exec_settles hs (handed.trans (takeGeneration_equal h)), fun g h hn => ?_⟩
  refine ⟨_, exec_settles hs (handed.trans (takeGeneration_reloads h hn)), rfl, rfl, fun hp => ?_,
    fun p hp => ⟨_, congrArg (fun x => some (passRestarted _ x)) hp, passRestarted_some _ p⟩, rfl, rfl, ?_⟩
  · exact congrArg (fun x => some (passRestarted _ x)) hp
  · rw [← takeGeneration_reloads (s := popCapture s) h hn]
    exact (takeGeneration_changes w _).after (popCapture_changes s).mono

theorem takeControlWord_pending {s : State} {n : Nat} (h : n ∈ s.loader.pendingPoints) :
    takeControlWord n s = s := if_pos (List.contains_iff_mem.mpr h)

theorem takeControlWord_appends {s : State} {n : Nat} (h : n ∉ s.loader.pendingPoints) :
    takeControlWord n s
      = s.setLoader { s.loader with pendingPoints := s.loader.pendingPoints ++ [n] } :=
  if_neg fun hc => h (List.contains_iff_mem.mp hc)

/-- Settles O22: by whether the point is on the pending list. -/
theorem controlWordWrite : Obligations.ControlWordWrite := fun s n _ hs hb hf =>
  have handed : effect .controlWordWrite s = takeControlWord n (popCapture s) := handOn_onBoard hb hf rfl
  ⟨fun h => exec_settles hs (handed.trans (takeControlWord_pending h)),
    fun h => exec_settles hs (handed.trans (takeControlWord_appends h))⟩

/-! ## Dispatch in UNCONFIGURED (R37) -/

/-- A word that is none of the commands 1 to 7 is unknown (R160). -/
theorem unknown_of_word {w : Word} (h : w = 0 ∨ 7 < w.toNat) :
    (w.toNat == 0 || decide (7 < w.toNat)) = true := by
  rcases h with rfl | h
  · rfl
  · rw [decide_eq_true h, Bool.or_true]

/-- In UNCONFIGURED a command that hands on an item other than k0 answers the queue without that item. -/
theorem exec_discards {α : Type} {sel : RegionWord → Word → Option α} {act : α → Word → State → State}
    {c : Instr} {s : State} {r want : RegionWord} {w : Word} {x : α} (hs : s.tickDone)
    (hu : s.loader.cfg = .unconfigured) (hf : s.front r w) (hr : r = want)
    (he : exec c s = whole (handOn sel act) s) (hx : sel want w = some x)
    (hk : want ≠ .k0 := by exact nofun) : exec c s = .next (settle (popCapture s)) := by
  subst hr
  rw [he, whole_idle hs, handOn_unconfigured hu hf hk hx]

/-- A k11 item likewise, for a command whose class holds the word (R160). -/
theorem exec_discards_k11 {p : Nat → Bool} {act : Unit → Word → State → State} {c : Instr} {s : State}
    {r : RegionWord} {w : Word} (hs : s.tickDone) (hu : s.loader.cfg = .unconfigured) (hf : s.front r w)
    (hr : r = .k11) (he : exec c s = whole (handOn (onRemote p) act) s) (hp : p w.toNat = true) :
    exec c s = .next (settle (popCapture s)) :=
  exec_discards hs hu hf hr he (onRemote_k11 hp)

/-- Settles O23: every dispatching command hands on, and a hand-on in UNCONFIGURED only discards. -/
theorem unconfiguredDispatchDiscards : Obligations.UnconfiguredDispatchDiscards := fun _ _ _ hs hu hf =>
  ⟨fun h => exec_discards hs hu hf h rfl rfl, fun h => exec_discards hs hu hf h rfl rfl,
    fun h => exec_discards hs hu hf h rfl rfl, fun h => exec_discards hs hu hf h rfl rfl,
    fun h hw => exec_discards_k11 hs hu hf h rfl (by rw [hw]; rfl),
    fun h hw => exec_discards_k11 hs hu hf h rfl (by rw [hw]; rfl),
    fun h hw => exec_discards_k11 hs hu hf h rfl (by rw [hw]; rfl),
    fun h hw => exec_discards_k11 hs hu hf h rfl (by rw [hw]; rfl),
    fun h hw => exec_discards_k11 hs hu hf h rfl (by rw [hw]; rfl),
    fun h hw => exec_discards_k11 hs hu hf h rfl (by rw [hw]; rfl),
    fun h hw => exec_discards_k11 hs hu hf h rfl (by rw [hw]; rfl),
    fun h hw => exec_discards_k11 hs hu hf h rfl (unknown_of_word hw),
    fun h => exec_discards hs hu hf h rfl rfl, fun h => exec_discards hs hu hf h rfl rfl,
    fun _ h => exec_discards hs hu hf h rfl rfl, fun _ h => exec_discards hs hu hf h rfl rfl,
    fun _ h => exec_discards hs hu hf h rfl rfl, fun _ h => exec_discards hs hu hf h rfl rfl,
    fun _ h => exec_discards hs hu hf h rfl rfl, fun _ h => exec_discards hs hu hf h rfl rfl⟩

end Sys2Proof.Machine

/-! # Point reloads: proofs of the statements of 03_the_point_table.md -/

namespace Sys2Proof.Machine

/-! ## Validation (R46 to R48) -/

section
variable {s : State} {e : Entry}

/-- The word checks pass exactly where kind, field, mode and span do and the source lies outside the region (R47). -/
theorem wordCheck_eq_none (base : Addr) (e : Entry) :
    wordCheck base e = none ↔ e.fieldsPass ∧ regionOffset base e.source = none := by
  unfold wordCheck
  split_ifs with kind field mode span source
  · simp [kind]
  · refine iff_of_false nofun fun ⟨⟨_, hf, hd, hv, _⟩, _⟩ => ?_
    rcases field with h | ⟨h, hw⟩ | ⟨h, hw⟩
    · omega
    · exact hw (hd h).1
    · exact hw (hv h)
  · exact iff_of_false nofun fun ⟨⟨_, _, hd, _⟩, _⟩ => (hd mode.1).2 mode.2
  · exact iff_of_false nofun fun ⟨⟨_, _, _, _, ha⟩, _⟩ => absurd (ha span.1) (by omega)
  · exact iff_of_false nofun fun h => by rw [h.2] at source; cases source
  · push Not at field mode span
    obtain ⟨hf, hd, hv⟩ := field
    exact iff_of_true rfl ⟨⟨kind, hf, fun h => ⟨hd h, mode h⟩, hv, span⟩,
      Option.not_isSome_iff_eq_none.mp source⟩

/-- Where checks 1 to 4 pass, the word checks turn on the source (R47, check 5). -/
theorem wordCheck_of_fieldsPass (base : Addr) (h : e.fieldsPass) :
    wordCheck base e = if (regionOffset base e.source).isSome then some 5 else none := by
  obtain ⟨kind, field, discrete, valve, span⟩ := h
  unfold wordCheck
  rw [if_neg kind, if_neg, if_neg fun h => (discrete h.1).2 h.2, if_neg fun h => absurd (span h.1) (by omega)]
  rintro (h | ⟨h, hw⟩ | ⟨h, hw⟩)
  · omega
  · exact hw (discrete h).1
  · exact hw (valve h)

theorem validate_of_wordCheck {reason : Nat} (h : wordCheck s.path.base e = some reason) :
    validate s e = some reason := by
  unfold validate; rw [h]

theorem validate_lamps (h : wordCheck s.path.base e = none) : validate s e = lampCheck s e := by
  unfold validate; rw [h]

theorem validate_eq_none :
    validate s e = none ↔ wordCheck s.path.base e = none ∧ lampCheck s e = none := by
  unfold validate
  cases wordCheck s.path.base e <;> simp

theorem wordCheck_kind (base : Addr) (h : e.kind = none) : wordCheck base e = some 1 := if_pos h

/-- Check 2: the field fits the word, and has the width its kind asks for (R47). -/
theorem wordCheck_field (base : Addr) (hk : e.kind ≠ none) (h : 16 < e.shift + e.width
    ∨ (e.kind = some .discrete ∧ e.width ≠ 1) ∨ (e.kind = some .valve ∧ e.width ≠ 2)) :
    wordCheck base e = some 2 := by
  unfold wordCheck; rw [if_neg hk, if_pos h]

/-- Check 3 (R47). -/
theorem wordCheck_mode (base : Addr) (hk : e.kind = some .discrete) (hf : e.shift + e.width ≤ 16)
    (hw : e.width = 1) (hm : e.mode = none) : wordCheck base e = some 3 := by
  unfold wordCheck
  rw [if_neg (by simp [hk]), if_neg (by simp [hk, hw]; omega), if_pos ⟨hk, hm⟩]

/-- Check 4 (R47). -/
theorem wordCheck_span (base : Addr) (hk : e.kind = some .analogue) (hf : e.shift + e.width ≤ 16)
    (hs : e.full ≤ e.zero) : wordCheck base e = some 4 := by
  unfold wordCheck
  rw [if_neg (by simp [hk]), if_neg (by simp [hk]; omega), if_neg (by simp [hk]), if_pos ⟨hk, hs⟩]

/-- The alarm lamp is one of the display lamps (check 7, R48). -/
theorem alarmLamp_displayed :
    e.alarmLamp.any (fun l => e.displayLamps.contains l) = true ↔
      ∃ l ∈ e.displayLamps, e.alarmLamp = some l := by
  cases e.alarmLamp <;> simp

theorem lampCheck_absent (h : ∃ l ∈ e.lamps, s.chains.present l = false) : lampCheck s e = some 6 := by
  unfold lampCheck
  rw [if_pos]
  simpa using h

theorem lampCheck_present (h : ∀ l ∈ e.lamps, s.chains.present l = true) :
    lampCheck s e = if e.alarmLamp.any (fun l => e.displayLamps.contains l) then some 7
      else if e.lamps.any (fun l => (s.loader.claims.look l).isSome) then some 8 else none := by
  unfold lampCheck
  rw [if_neg]
  simpa using h

/-- Lamps that pass are free, and the alarm lamp is none of the display lamps (R48). -/
theorem lampCheck_eq_none (h : lampCheck s e = none) :
    (∀ l ∈ e.lamps, s.loader.claims.look l = none) ∧ ∀ l ∈ e.displayLamps, e.alarmLamp ≠ some l := by
  unfold lampCheck at h
  split_ifs at h with _ double taken
  refine ⟨by simpa using taken, fun l hl ha => double (alarmLamp_displayed.mpr ⟨l, hl, ha⟩)⟩

end

/-- Settles O24: the word checks by the first that fails, then the lamp checks likewise. -/
theorem validationOrder : Obligations.ValidationOrder := by
  refine fun s e => ⟨fun h => validate_of_wordCheck (wordCheck_kind _ h),
    fun k hk h => validate_of_wordCheck (wordCheck_field _ (by rw [hk]; nofun) (.inl h)),
    fun hk _ hw => validate_of_wordCheck (wordCheck_field _ (by rw [hk]; nofun) (.inr (.inl ⟨hk, hw⟩))),
    fun hk _ hw => validate_of_wordCheck (wordCheck_field _ (by rw [hk]; nofun) (.inr (.inr ⟨hk, hw⟩))),
    fun hk hf hw hm => validate_of_wordCheck (wordCheck_mode _ hk hf hw hm),
    fun hk hf hs => validate_of_wordCheck (wordCheck_span _ hk hf hs),
    fun hp => ⟨fun ⟨off, ho⟩ => validate_of_wordCheck ?_, fun ho => (wordCheck_eq_none _ e).mpr ⟨hp, ho⟩⟩,
    (wordCheck_eq_none _ e).mp, fun hp ho => ?_⟩
  · rw [wordCheck_of_fieldsPass _ hp, ho]; rfl
  · rw [validate_lamps ((wordCheck_eq_none _ e).mpr ⟨hp, ho⟩)]
    refine ⟨lampCheck_absent, fun present double => ?_, fun present single taken => ?_, fun free single => ?_⟩
    · rw [lampCheck_present present, if_pos (alarmLamp_displayed.mpr double)]
    · rw [lampCheck_present present, if_neg, if_pos (by simpa using taken)]
      exact fun h => have ⟨l, hl, ha⟩ := alarmLamp_displayed.mp h; single l hl ha
    · rw [lampCheck_present fun l hl => (free l hl).1, if_neg, if_neg]
      · simpa using fun l hl => (free l hl).2
      · exact fun h => have ⟨l, hl, ha⟩ := alarmLamp_displayed.mp h; single l hl ha

/-! ## The reading of an entry and its judgement (R33, R41, R43) -/

section
variable {s : State} {n : Nat} {words : List Word} {w : Word} {stage : ReloadStage}

/-- A word that neither is a clear enable bit nor completes the entry makes the reload go on (R41). -/
theorem takeEntryWord_goesOn (hr : s.loader.reload = some ⟨n, words, stage⟩)
    (h : (words = [] ∧ w.getLsbD 15 = true) ∨ (words ≠ [] ∧ words.length < 11)) :
    takeEntryWord w s = s.setLoader { s.loader with reload := some ⟨n, words ++ [w], stage⟩ } := by
  unfold takeEntryWord enabledWord
  rw [hr]
  dsimp only
  rw [if_neg]
  rcases h with ⟨rfl, hw⟩ | ⟨hn, hl⟩
  · simp [hw]
  · have := List.length_pos_iff.mpr hn
    rw [List.length_append, List.length_singleton]
    omega

/-- A clear enable bit, or the twelfth word, leads to the judgement of the words read (R41). -/
theorem takeEntryWord_judges (hr : s.loader.reload = some ⟨n, words, stage⟩)
    (h : (words = [] ∧ w.getLsbD 15 = false) ∨ words.length = 11) :
    takeEntryWord w s = judge n (words ++ [w])
      (s.setLoader { s.loader with reload := some ⟨n, words ++ [w], stage⟩ }) := by
  unfold takeEntryWord enabledWord
  rw [hr]
  dsimp only
  rw [if_pos]
  rcases h with ⟨rfl, hw⟩ | hl
  · exact .inl ⟨rfl, ne_true_of_eq_false hw⟩
  · exact .inr (by rw [List.length_append, hl]; rfl)

end

theorem entryIsRead : Claim.EntryRead := fun s _ w _ _ _ hs hu hr =>
  have read : effect .entryReadDone s = takeEntryWord w s.portFreed := complete_read hu rfl
  ⟨fun h => exec_settles hs (read.trans (takeEntryWord_goesOn (s := s.portFreed) hr h)),
    fun h => exec_settles hs (read.trans (takeEntryWord_judges (s := s.portFreed) hr h))⟩

/-- The state of a judgement: the revalidation mark of its point cleared (R33). -/
def State.unmarked (s : State) (n : Nat) : State :=
  s.setLoader { s.loader with marked := s.loader.marked.filter (fun m => m != n) }

/-- Whether an entry read equals the entry held, with no revalidation mark on the point (R33, R43). -/
def State.identicalEntry (s : State) (n : Nat) (e : Entry) : Bool :=
  match (s.point n).held with
  | some h => decide (e = h) && !s.loader.marked.contains n
  | none => false

theorem State.identicalEntry_iff {s : State} {n : Nat} {e : Entry} :
    s.identicalEntry n e = true ↔ (s.point n).held = some e ∧ n ∉ s.loader.marked := by
  unfold State.identicalEntry
  cases (s.point n).held with
  | none => simp
  | some h => simp [@eq_comm _ e h]

theorem State.identicalEntry_eq_false {s : State} {n : Nat} {e : Entry}
    (h : (s.point n).held ≠ some e ∨ n ∈ s.loader.marked) : s.identicalEntry n e = false :=
  Bool.eq_false_iff.mpr fun hi => have ⟨hh, hm⟩ := State.identicalEntry_iff.mp hi
    h.elim (· hh) hm

theorem judge_disabled (n : Nat) {w15 : Word} (s : State) (h : w15.getLsbD 15 = false) :
    judge n [w15] s = judgeDisabled n (s.unmarked n) :=
  if_neg (ne_true_of_eq_false h)

/-- Twelve words begin with the control word of the entry they make (R41). -/
theorem entryOf_head {words : List Word} {e : Entry} (h : entryOf words = some e) :
    ∃ rest, words = e.w15 :: rest := by
  unfold entryOf at h
  split at h
  · cases h; exact ⟨_, rfl⟩
  · cases h

theorem judge_enabled (n : Nat) {words : List Word} {e : Entry} (s : State) (h : entryOf words = some e)
    (hw : e.w15.getLsbD 15 = true) :
    judge n words s = judgeEnabled n e (s.identicalEntry n e) (s.unmarked n) := by
  obtain ⟨rest, rfl⟩ := entryOf_head h
  unfold judge State.identicalEntry
  rw [h]
  dsimp only
  rw [if_pos (show enabledWord e.w15 = true from hw)]
  cases (s.point n).held <;> rfl

section
variable {s : State} {n : Nat}

theorem judgeDisabled_absent (h : (s.point n).status = .absent) : judgeDisabled n s = endReload s := by
  unfold judgeDisabled; rw [h]

theorem judgeDisabled_installed (h : (s.point n).status = .installed) :
    judgeDisabled n s = endReload (removePoint n s) := by
  unfold judgeDisabled; rw [h]

theorem judgeDisabled_rejected {r : Nat} (h : (s.point n).status = .rejected r) :
    judgeDisabled n s = endReload (leaveRejected (.rejected r) (setPoint n PointRec.absent s)) := by
  unfold judgeDisabled; rw [h]

variable (e : Entry) (identical : Bool)

theorem judgeEnabled_absent (h : (s.point n).status = .absent) :
    judgeEnabled n e identical s = validatePoint n e .absent false s := by
  unfold judgeEnabled; rw [h]

theorem judgeEnabled_installed (h : (s.point n).status = .installed) :
    judgeEnabled n e identical s = if identical then endReload s
      else validatePoint n e .absent false (removePoint n s) := by
  unfold judgeEnabled; rw [h]

theorem judgeEnabled_rejected {r : Nat} (h : (s.point n).status = .rejected r) :
    judgeEnabled n e identical s = validatePoint n e (.rejected r) identical s := by
  unfold judgeEnabled; rw [h]

end

theorem judgementTable : Claim.JudgementTable := by
  rintro s _ n rfl
  refine ⟨fun words => judge_marked n words s, fun w15 hw => ?_, fun words e he hw => ?_⟩
  · rw [judge_disabled n s hw]
    exact ⟨judgeDisabled_absent (s := s.unmarked n), judgeDisabled_installed (s := s.unmarked n),
      fun r => judgeDisabled_rejected (s := s.unmarked n)⟩
  · rw [judge_enabled n s he hw]
    refine ⟨judgeEnabled_absent (s := s.unmarked n) e _, fun hs hh hm => ?_, fun hs h => ?_,
      fun r hs hh hm => ?_, fun r hs h => ?_⟩
    · rw [State.identicalEntry_iff.mpr ⟨hh, hm⟩]
      exact judgeEnabled_installed (s := s.unmarked n) e true hs
    · rw [State.identicalEntry_eq_false h]
      exact judgeEnabled_installed (s := s.unmarked n) e false hs
    · rw [State.identicalEntry_iff.mpr ⟨hh, hm⟩]
      exact judgeEnabled_rejected (s := s.unmarked n) e true hs
    · rw [State.identicalEntry_eq_false h]
      exact judgeEnabled_rejected (s := s.unmarked n) e false hs

/-- Settles O25: a word read either lengthens the reload or judges it, by the rows of R43's table. -/
theorem entryRead : Obligations.EntryRead := ⟨entryIsRead, judgementTable⟩

/-! ## What an operation outside a part leaves of it -/

section
variable {l : List Part} {s t : State}

/-- A list of parts, none of them among those that may differ. -/
theorem Changes.keepsAll (h : Changes l s t) {parts : List Part}
    (hl : parts.all (fun p => !l.contains p) = true := by rfl) : ∀ p ∈ parts, p.same s t :=
  fun p hp => h p fun hpl => by simpa [hpl] using List.all_eq_true.mp hl p hp

/-- The parts of the Event Unit. -/
def eventUnitParts : List Part :=
  [.eventsOperand, .eventsQueue, .eventsHead, .eventsTail, .eventsRingHeld, .eventsLost, .eventsSweepDiscards,
   .eventsInProgress, .eventsK18Owed, .eventsCopies, .eventsOwed19, .eventsOwed20, .eventsOwed21, .eventsOwed22]

theorem events_of_changes (h : Changes l s t)
    (hl : eventUnitParts.all (fun p => !l.contains p) = true := by rfl) : t.events = s.events := by
  have same := h.keepsAll hl
  simp only [eventUnitParts, List.forall_mem_cons, Part.same] at same
  generalize s.events = x, t.events = y at same ⊢
  cases x
  cases y
  simpa using same

theorem patternOf_of_changes (h : Changes l s t) (hl : .genPatterns ∉ l := by decide) :
    t.patternOf = s.patternOf := by
  have patterns : t.gen.patterns = s.gen.patterns := h .genPatterns hl
  unfold State.patternOf
  rw [patterns]

theorem counts_of_changes (h : Changes l s t) (hl : .annGroups ∉ l := by decide) : t.counts = s.counts := by
  have groups : t.ann.groups = s.ann.groups := h .annGroups hl
  unfold State.counts
  rw [groups]

theorem settings_of_changes (h : Changes l s t) (hl : .loaderGroups ∉ l := by decide) :
    t.settings = s.settings := by
  have groups : t.loader.groups = s.loader.groups := h .loaderGroups hl
  unfold State.settings
  rw [groups]

theorem point_of_changes (h : Changes l s t) (hl : .loaderPoints ∉ l := by decide) : t.point = s.point := by
  have points : t.loader.points = s.loader.points := h .loaderPoints hl
  unfold State.point
  rw [points]

end

/-! ## Events and the end of a reload (R24, R163, R164) -/

/-- On the board, an event joins a queue that has room (R164). -/
theorem record_queue {s : State} (hb : s.onBoard) (hq : s.events.queue.length < 32) (k : EventKind)
    (o : Origin) (a d : Nat) :
    (record k o a d s).events.queue = s.events.queue ++ [s.eventOf k o a d] := by
  rw [record_configured hb, State.setEvents_events, EventUnit.take_room hq]
  rfl

/-- An event told after an operation that leaves queue, time and configuration state. -/
theorem record_queue_after {l : List Part} {s u : State} (h : Changes l s u) (hb : s.onBoard)
    (hq : s.events.queue.length < 32) (k : EventKind) (o : Origin) (a d : Nat)
    (hl : [Part.loaderCfg, .genSeconds, .eventsQueue].all (fun p => !l.contains p) = true := by rfl) :
    (record k o a d u).events.queue = s.events.queue ++ [s.eventOf k o a d] := by
  have same := h.keepsAll hl
  have cfg : u.loader.cfg = s.loader.cfg := same .loaderCfg (by decide)
  have seconds : u.gen.seconds = s.gen.seconds := same .genSeconds (by decide)
  have queue : u.events.queue = s.events.queue := same .eventsQueue (by decide)
  rw [State.onBoard, ← cfg] at hb
  rw [record_queue hb (by rw [queue]; exact hq), queue]
  unfold State.eventOf
  rw [seconds]

/-- Something is left to load besides the reload under way, or the board is RUNNING (R24). -/
abbrev State.goesOn (s : State) : Prop :=
  s.loader.cfg = .running
    ∨ s.loader.cfg = .sweeping ∧ (s.loader.pendingPoints ≠ [] ∨ s.loader.pass ≠ none)

theorem State.goesOn.onBoard {s : State} (h : s.goesOn) : s.onBoard := by
  rcases h with h | ⟨h, -⟩ <;> exact fun hu => nomatch h.symm.trans hu

theorem State.onBoard_of_sweeping {s : State} (h : s.loader.cfg = .sweeping) : s.onBoard := by
  rw [State.onBoard, h]; nofun

theorem endReload_goesOn {s : State} (h : s.goesOn) :
    endReload s = s.setLoader { s.loader with reload := none } := by
  refine sweepCheck_waits ?_
  rcases h with h | ⟨-, h | h⟩
  · exact .inl fun hs => nomatch h.symm.trans hs
  · exact .inr (.inl h)
  · exact .inr (.inr (.inl h))

/-- With nothing left to load, the end of the reload ends the sweep (R24). -/
theorem endReload_done {s : State} (hc : s.loader.cfg = .sweeping) (hp : s.loader.pendingPoints = [])
    (hn : s.loader.pass = none) : endReload s = record .sweepDone .part s.loader.installed 0
      (s.setLoader { s.loader with cfg := .running, reload := none }) :=
  sweepCheck_done (s := s.setLoader { s.loader with reload := none }) hc hp hn rfl

theorem endReload_running {s : State} (hc : s.loader.cfg = .sweeping) (hp : s.loader.pendingPoints = [])
    (hn : s.loader.pass = none) : (endReload s).loader.cfg = .running := by
  rw [endReload_done hc hp hn]
  exact record_changes _ _ _ _ _ .loaderCfg (by decide)

/-- SWEEP_DONE joins the queue with the installed count (R24). -/
theorem endReload_queue {s : State} (hc : s.loader.cfg = .sweeping) (hp : s.loader.pendingPoints = [])
    (hn : s.loader.pass = none) (hq : s.events.queue.length < 32) :
    (endReload s).events.queue
      = s.events.queue ++ [s.eventOf .sweepDone .part s.loader.installed 0] := by
  rw [endReload_done hc hp hn]
  exact record_queue (s := s.setLoader { s.loader with cfg := .running, reload := none }) nofun hq _ _ _ _

theorem endReload_reload (s : State) : (endReload s).loader.reload = none :=
  sweepCheck_changes (s.setLoader { s.loader with reload := none }) .loaderReload (by decide)

/-- The parts that say whether the end of a reload ends the sweep, and when (R24). -/
def sweepEndParts : List Part := [.loaderCfg, .loaderPendingPoints, .loaderPass, .genSeconds]

section
variable {l : List Part} {s u : State} (h : Changes l s u)
include h

/-- A reload that ends on a board where more is left to load only ends. -/
theorem endReload_after_goesOn (hg : s.goesOn)
    (hl : sweepEndParts.all (fun p => !l.contains p) = true := by rfl) :
    endReload u = u.setLoader { u.loader with reload := none } := by
  have same := h.keepsAll hl
  have cfg : u.loader.cfg = s.loader.cfg := same .loaderCfg (by decide)
  have pending : u.loader.pendingPoints = s.loader.pendingPoints := same .loaderPendingPoints (by decide)
  have pass : u.loader.pass = s.loader.pass := same .loaderPass (by decide)
  refine endReload_goesOn ?_
  unfold State.goesOn
  rw [cfg, pending, pass]
  exact hg

/-- A reload that ends where nothing more is left to load ends the sweep, with SWEEP_DONE behind its own events. -/
theorem endReload_after_done (hc : s.loader.cfg = .sweeping) (hp : s.loader.pendingPoints = [])
    (hn : s.loader.pass = none) (hl : sweepEndParts.all (fun p => !l.contains p) = true := by rfl) :
    (endReload u).loader.cfg = .running
      ∧ (u.events.queue.length < 32 → (endReload u).events.queue
        = u.events.queue ++ [s.eventOf .sweepDone .part u.loader.installed 0]) := by
  have same := h.keepsAll hl
  have cfg := Eq.trans (same .loaderCfg (by decide)) hc
  have pending := Eq.trans (same .loaderPendingPoints (by decide)) hp
  have pass := Eq.trans (same .loaderPass (by decide)) hn
  have seconds : u.gen.seconds = s.gen.seconds := same .genSeconds (by decide)
  refine ⟨endReload_running cfg pending pass, fun hq => ?_⟩
  rw [endReload_queue cfg pending pass hq]
  unfold State.eventOf
  rw [seconds]

end

/-! ## Install (R49, R50, R52, R53, R57) -/

theorem mem_insertPair_self (p : Nat × Nat) (l : List (Nat × Nat)) : p ∈ insertPair p l := by
  induction l with
  | nil => exact List.mem_singleton_self p
  | cons q t ih =>
    unfold insertPair
    split_ifs with _ heq
    · exact List.mem_cons_self
    · rw [heq]; exact List.mem_cons_self
    · exact List.mem_cons_of_mem _ ih

/-- Lamps claimed in turn for one owner: each of them is the owner's, and no other claim moves (R50). -/
theorem claims_claimLamps (owner : Owner) (lamps : List Nat) (s : State) (l : Nat) :
    (lamps.foldl (fun s l => claimLamp owner l s) s).loader.claims.look l =
      if l ∈ lamps then some owner else s.loader.claims.look l := by
  induction lamps generalizing s with
  | nil => rfl
  | cons x xs ih =>
    rw [List.foldl_cons, ih]
    by_cases hx : l ∈ xs
    · rw [if_pos hx, if_pos (List.mem_cons_of_mem _ hx)]
    · rw [if_neg hx]
      by_cases hl : l = x
      · rw [if_pos (List.mem_cons.mpr (.inl hl)), hl]
        exact Table.look_put_same _ _ _
      · rw [if_neg (by simp [hl, hx])]
        exact Table.look_put_other _ _ hl

/-- The claims of a point: the alarm lamp's, then the display lamps', over the claims before (R48, R53). -/
theorem claims_claimPoint (n : Nat) (e : Entry) (s : State) (l : Nat) :
    (claimPoint n e s).loader.claims.look l =
      if e.alarmLamp = some l then some (.alarm n)
      else if l ∈ e.displayLamps then some (.display n)
      else s.loader.claims.look l := by
  rw [← claims_claimLamps]
  unfold claimPoint
  cases e.alarmLamp with
  | none => rfl
  | some lamp =>
    by_cases h : lamp = l
    · rw [if_pos (congrArg some h), h]
      exact Table.look_put_same _ _ _
    · rw [if_neg (fun hs => h (Option.some.inj hs))]
      exact Table.look_put_other _ _ (Ne.symm h)

theorem leaveRejected_rejected (before : PointStatus) (s : State) :
    (leaveRejected before s).loader.rejected = match before with
      | .rejected _ => s.loader.rejected - 1
      | .absent | .installed => s.loader.rejected := by
  cases before <;> rfl

theorem validatePoint_installs {s : State} {e : Entry} (n : Nat) (before : PointStatus) (identical : Bool)
    (h : validate s e = none) : validatePoint n e before identical s = beginInstall n e before s := by
  unfold validatePoint; rw [h]

theorem validatePoint_rejects {s : State} {e : Entry} {reason : Nat} (n : Nat) (before : PointStatus)
    (identical : Bool) (h : validate s e = some reason) :
    validatePoint n e before identical s = rejectPoint n e reason before identical s := by
  unfold validatePoint; rw [h]

section
variable (n : Nat) (e : Entry) (before : PointStatus) (s : State)

/-- An install that begins changes the claims as its point's claiming does. -/
theorem beginInstall_claims (l : Nat) : (beginInstall n e before s).loader.claims.look l =
      if e.alarmLamp = some l then some (.alarm n)
      else if l ∈ e.displayLamps then some (.display n)
      else s.loader.claims.look l := by
  have claims : (leaveRejected before s).loader.claims = s.loader.claims :=
    leaveRejected_changes before s .loaderClaims (by decide)
  rw [← claims]
  exact claims_claimPoint n e (leaveRejected before s) l

theorem beginInstall_point (m : Nat) :
    (beginInstall n e before s).point m = if m = n then ⟨.absent, some e, true⟩ else s.point m := by
  have points : (claimPoint n e (leaveRejected before s)).point = s.point :=
    point_of_changes ((leaveRejected_changes before s).then (claimPoint_changes n e _)
      (k := [.loaderRejected, .loaderClaims]))
  rw [← points]
  exact point_setPoint n m ⟨.absent, some e, true⟩ _

theorem beginInstall_rejected : (beginInstall n e before s).loader.rejected = match before with
      | .rejected _ => s.loader.rejected - 1
      | .absent | .installed => s.loader.rejected :=
  Eq.trans (claimPoint_changes n e (leaveRejected before s) .loaderRejected (by decide))
    (leaveRejected_rejected before s)

/-- The source word is the reload's next read (R53). -/
theorem beginInstall_wantConfig :
    (beginInstall n e before s).loader.wantConfig = some (.source n e.source) := by
  have held : ((beginInstall n e before s).loader.points.val PointRec.absent n).held = some e := by
    have h := beginInstall_point n e before s n
    rw [if_pos rfl] at h
    exact congrArg PointRec.held h
  have reload : (beginInstall n e before s).loader.reload = some ⟨n, [], .source⟩ := rfl
  unfold Loader.wantConfig
  rw [reload]
  dsimp only
  rw [held]

end

theorem installBegins : Claim.InstallBegins := by
  rintro s _ n e before identical hv rfl
  rw [validatePoint_installs n before identical hv]
  have single := (lampCheck_eq_none (validate_eq_none.mp hv).2).2
  have claims := beginInstall_claims n e before s
  have point := beginInstall_point n e before s
  refine ⟨fun l hl => ?_, fun l hl => ?_, fun l hl => ?_, mem_insertPair_self _ _, ?_, fun m hm => ?_, rfl,
    beginInstall_wantConfig n e before s, beginInstall_changes n e before s, beginInstall_rejected n e before s⟩
  · rw [claims, if_neg (single l hl), if_pos hl]
  · rw [claims, if_pos hl]
  · have off : l ∉ e.displayLamps ∧ e.alarmLamp ≠ some l := by simpa [Entry.lamps] using hl
    rw [claims, if_neg off.2, if_neg off.1]
  · rw [point, if_pos rfl]
  · rw [point, if_neg hm]

/-! ## Rejection (R24, R49, R57) -/

/-- A point REJECTED with its reason and its words held, counted where it was not REJECTED before (R49, R57). -/
def State.holdingRejected (s : State) (n : Nat) (e : Entry) (reason : Nat) (before : PointStatus) : State :=
  (setPoint n ⟨.rejected reason, some e, false⟩ s).setLoader
    { (setPoint n ⟨.rejected reason, some e, false⟩ s).loader with
      rejected := match before with
        | .rejected _ => s.loader.rejected
        | .absent | .installed => s.loader.rejected + 1 }

/-- The event of a rejection, kept back where an identical entry fails for the reason held (R49). -/
def State.reportingRejected (s : State) (n reason : Nat) (before : PointStatus) (identical : Bool) : State :=
  if identical ∧ before = .rejected reason then s else record .entryRejected .part n reason s

section
variable (s : State) (n : Nat) (e : Entry) (reason : Nat) (before : PointStatus) (identical : Bool)

/-- The rejection up to the end of its reload: held, counted and reported. -/
def State.rejecting : State :=
  (s.holdingRejected n e reason before).reportingRejected n reason before identical

theorem rejectPoint_eq :
    rejectPoint n e reason before identical s = endReload (s.rejecting n e reason before identical) := by
  cases before <;> rfl

theorem holdingRejected_changes :
    Changes [.loaderPoints, .loaderRejected] s (s.holdingRejected n e reason before) :=
  (setPoint_changes n _ s).then (setRejected_changes _ _)

theorem reportingRejected_changes :
    Changes eventParts s (s.reportingRejected n reason before identical) :=
  Changes.ite (.refl _ _) (record_changes _ _ _ _ _)

theorem rejecting_changes : Changes ([.loaderPoints, .loaderRejected] ++ eventParts) s
    (s.rejecting n e reason before identical) :=
  (holdingRejected_changes s n e reason before).then (reportingRejected_changes _ _ _ _ _)

theorem rejecting_point (m : Nat) : (s.rejecting n e reason before identical).point m
    = if m = n then ⟨.rejected reason, some e, false⟩ else s.point m := by
  unfold State.rejecting
  rw [point_of_changes (reportingRejected_changes _ _ _ _ _)]
  exact point_setPoint n m ⟨.rejected reason, some e, false⟩ s

theorem rejecting_count : (s.rejecting n e reason before identical).loader.rejected = match before with
    | .rejected _ => s.loader.rejected
    | .absent | .installed => s.loader.rejected + 1 :=
  reportingRejected_changes (s.holdingRejected n e reason before) n reason before identical
    .loaderRejected (by decide)

variable {s n e reason before identical}

/-- An identical entry that fails for the reason held is rejected in silence (R49). -/
theorem rejecting_silent (h : identical = true ∧ before = .rejected reason) :
    (s.rejecting n e reason before identical).events = s.events := by
  unfold State.rejecting State.reportingRejected
  rw [if_pos h]
  rfl

/-- Any other rejection is reported (R49). -/
theorem rejecting_queue (hb : s.onBoard) (h : ¬ (identical = true ∧ before = .rejected reason))
    (hq : s.events.queue.length < 32) : (s.rejecting n e reason before identical).events.queue
      = s.events.queue ++ [s.eventOf .entryRejected .part n reason] := by
  unfold State.rejecting State.reportingRejected
  rw [if_neg h]
  exact record_queue (s := s.holdingRejected n e reason before) hb hq _ _ _ _

end

theorem entryIsRejected : Claim.EntryIsRejected := by
  rintro s _ n reason e before identical hv rfl
  rw [validatePoint_rejects n before identical hv, rejectPoint_eq]
  have point := rejecting_point s n e reason before identical
  have rejecting := rejecting_changes s n e reason before identical
  have ending := endReload_changes (s.rejecting n e reason before identical)
  rw [point_of_changes ending]
  refine ⟨(point n).trans (if_pos rfl), fun m hm => (point m).trans (if_neg hm),
    Eq.trans (ending .loaderRejected (by decide)) (rejecting_count s n e reason before identical),
    endReload_reload _, Eq.trans (ending .loaderClaims (by decide)) (rejecting .loaderClaims (by decide)),
    Eq.trans (ending .loaderWatch (by decide)) (rejecting .loaderWatch (by decide)), fun hg => ?_,
    fun hc hp hn => ?_⟩
  · rw [endReload_after_goesOn rejecting hg]
    exact ⟨rejecting .loaderCfg (by decide), rejecting_silent, rejecting_queue (State.goesOn.onBoard hg)⟩
  · obtain ⟨running, done⟩ := endReload_after_done rejecting hc hp hn
    have installed : (s.rejecting n e reason before identical).loader.installed = s.loader.installed :=
      rejecting .loaderInstalled (by decide)
    rw [installed] at done
    refine ⟨running, fun hi hq => ?_, fun hi hq => ?_⟩
    · rw [rejecting_silent hi] at done
      exact done hq
    · have reported := rejecting_queue (n := n) (e := e) (State.onBoard_of_sweeping hc) hi (by omega)
      rw [reported, List.length_append, List.length_singleton] at done
      rw [done (by omega), List.append_assoc]
      rfl

/-- Settles O26: a validated entry by what its install claims and holds, a failed one by the events before and at
the end of its reload. -/
theorem judgedEntries : Obligations.JudgedEntries := ⟨installBegins, entryIsRejected⟩

/-! ## Group counts and first-up marks (R92 to R95) -/

theorem State.counts_setCounts (g h : Nat) (x : GroupCounts) (s : State) :
    (setCounts g x s).counts h = if h = g then x else s.counts h := by
  split_ifs with e
  · rw [e]; exact Table.val_assign_same _ _ _ _
  · exact Table.val_assign_other _ _ _ e

/-- One member fewer, by the count of its state (R94). -/
theorem GroupCounts.exit_counts (c : GroupCounts) (x : AnnState) :
    (c.exit x).unack = countMoved c.unack (x == .new || x == .fleeting) false
      ∧ (c.exit x).standing = countMoved c.standing (x == .standing) false
      ∧ (c.exit x).returned = countMoved c.returned (x == .returned) false
      ∧ (c.exit x).shelved = countMoved c.shelved (x == .shelved) false
      ∧ (c.exit x).stale = c.stale := by
  cases x <;> exact ⟨rfl, rfl, rfl, rfl, rfl⟩

/-- One member more, likewise. -/
theorem GroupCounts.enter_counts (c : GroupCounts) (x : AnnState) :
    (c.enter x).unack = countMoved c.unack false (x == .new || x == .fleeting)
      ∧ (c.enter x).standing = countMoved c.standing false (x == .standing)
      ∧ (c.enter x).returned = countMoved c.returned false (x == .returned)
      ∧ (c.enter x).shelved = countMoved c.shelved false (x == .shelved)
      ∧ (c.enter x).stale = c.stale := by
  cases x <;> exact ⟨rfl, rfl, rfl, rfl, rfl⟩

/-- The list joined: only the first-up mark of the group's record may move (R93). -/
theorem joinList_counts (n g h : Nat) (s : State) : (joinList n g s).counts h =
    if h = g then { s.counts g with
      firstUp := if (s.counts g).unack = 0 then some n else (s.counts g).firstUp } else s.counts h := by
  have woken (c : Bool) (t : State) (x : PatternGen) : (if c then t.setGen x else t).counts = t.counts := by
    split_ifs <;> rfl
  unfold joinList
  dsimp only
  rw [woken]
  by_cases h0 : (s.counts g).unack = 0
  · rw [if_pos (beq_iff_eq.mpr h0), if_pos h0, State.counts_setCounts]
    rfl
  · rw [if_neg (fun h => h0 (beq_iff_eq.mp h)), if_neg h0]
    split_ifs with e
    · rw [e]; rfl
    · rfl

/-- The list left, likewise: a mark that the point held becomes none (R93). -/
theorem leaveList_counts (n g h : Nat) (s : State) : (leaveList n g s).counts h =
    if h = g then { s.counts g with
      firstUp := if (s.counts g).firstUp = some n then none else (s.counts g).firstUp } else s.counts h := by
  have left : leaveList n g s = if (s.counts g).firstUp = some n then
      setCounts g { s.counts g with firstUp := none }
        (s.setAnn { s.ann with unack := s.ann.unack.filter (fun m => m != n) })
      else s.setAnn { s.ann with unack := s.ann.unack.filter (fun m => m != n) } := rfl
  rw [left]
  by_cases h1 : (s.counts g).firstUp = some n
  · rw [if_pos h1, if_pos h1, State.counts_setCounts]
    rfl
  · rw [if_neg h1, if_neg h1]
    split_ifs with e
    · rw [e]; rfl
    · rfl

/-- A move to or from the list moves no count, only the first-up mark of its group (R92, R93). -/
theorem moveOnList_counts (n g : Nat) (old new : AnnState) (s : State) : ∃ mark, ∀ h,
    (moveOnList n g old new s).counts h
      = if h = g then { s.counts g with firstUp := mark } else s.counts h := by
  have stands : ∃ mark, ∀ h, s.counts h
      = if h = g then { s.counts g with firstUp := mark } else s.counts h :=
    ⟨(s.counts g).firstUp, fun h => by split_ifs with e; exacts [by rw [e], rfl]⟩
  unfold moveOnList
  split
  · exact ⟨_, fun h => leaveList_counts n g h s⟩
  · exact ⟨_, fun h => joinList_counts n g h s⟩
  · exact stands
  · exact stands

/-- A stale point fewer in its group (R95). -/
theorem freshReport_counts (g h : Nat) (s : State) : (freshReport g s).counts h =
    if h = g then { s.counts g with stale := (s.counts g).stale - 1 } else s.counts h := by
  unfold freshReport
  rw [counts_of_changes (handStale_changes g _)]
  exact State.counts_setCounts g h _ s

/-! ## Lamps handed by group and point (R88, R96) -/

theorem handSummary_other {g lamp : Nat} {s : State} (h : (s.settings g).summary.claimed ≠ some lamp) :
    (handSummary g s).patternOf lamp = s.patternOf lamp := by
  unfold handSummary
  split
  · rename_i x hx
    exact setPattern_other _ _ fun e => h (e ▸ hx)
  · rfl

/-- The summary lamp shows R96's pattern of the counts it is handed from. -/
theorem handSummary_shows {g lamp : Nat} {s : State} (h : (s.settings g).summary.claimed = some lamp) :
    (handSummary g s).summaryShows g lamp := by
  unfold State.summaryShows
  rw [counts_of_changes (handSummary_changes g s), handSummary_claimed h, setPattern_same]
  rfl

theorem handStale_other {g lamp : Nat} {s : State} (h : (s.settings g).staleLamp.claimed ≠ some lamp) :
    (handStale g s).patternOf lamp = s.patternOf lamp := by
  unfold handStale
  split
  · rename_i x hx
    exact setPattern_other _ _ fun e => h (e ▸ hx)
  · rfl

theorem handStale_shows {g lamp : Nat} {s : State} (h : (s.settings g).staleLamp.claimed = some lamp) :
    (handStale g s).patternOf lamp = if 0 < ((handStale g s).counts g).stale then .steady else .off := by
  rw [counts_of_changes (handStale_changes g s), handStale_claimed h, setPattern_same]
  rfl

/-- The stale lamp after a fresh report, or after a stale point's removal (R95, R96). -/
theorem freshReport_shows {g lamp : Nat} {s : State} (h : (s.settings g).staleLamp.claimed = some lamp) :
    (freshReport g s).patternOf lamp = if 0 < ((freshReport g s).counts g).stale then .steady else .off :=
  handStale_shows (s := setCounts g _ s) h

theorem freshReport_other {g lamp : Nat} {s : State} (h : (s.settings g).staleLamp.claimed ≠ some lamp) :
    (freshReport g s).patternOf lamp = s.patternOf lamp :=
  handStale_other (s := setCounts g _ s) h

/-! ## Removal in the Annunciator (R44, R92 to R96) -/

/-- The Annunciator's part of a removal up to the lamps: off the list, out of the counts, the record and the shelf
record gone. -/
def State.annDropped (s : State) (n : Nat) (r : AnnRec) : State :=
  let left := if r.state.onList then leaveList n r.group s else s
  let counted := setCounts r.group ((left.counts r.group).exit r.state) left
  counted.setAnn { counted.ann with
    records := counted.ann.records.del n
    shelf := counted.ann.shelf.filter (fun x => x.point != n) }

theorem annRemove_none {n : Nat} {s : State} (h : s.ann.records.look n = none) : annRemove n s = s := by
  unfold annRemove; rw [h]

theorem annRemove_some {n : Nat} {r : AnnRec} {s : State} (h : s.ann.records.look n = some r) :
    annRemove n s = decideHorn (finishShelf (handSummary r.group (s.annDropped n r))) := by
  unfold annRemove; rw [h]; rfl

theorem annDropped_changes (n : Nat) (r : AnnRec) (s : State) :
    Changes [.annRecords, .annUnack, .annGroups, .annShelf] s (s.annDropped n r) := by
  refine (setRecordsShelf_changes _ _ _).after ((setCounts_changes _ _ _).after ?_)
  exact Changes.ite (leaveList_changes n r.group s).mono (.refl _ s)

theorem annDropped_records (n : Nat) (r : AnnRec) (s : State) :
    (s.annDropped n r).ann.records = s.ann.records.del n := by
  have left : (if r.state.onList then leaveList n r.group s else s).ann.records = s.ann.records :=
    Changes.ite (leaveList_changes n r.group s) (.refl _ s) .annRecords (by decide)
  exact congrArg (fun t => Table.del t n) left

/-- The point leaves the count of its state; no other count moves, and no other group's mark (R93, R94). -/
theorem annDropped_counts (n : Nat) (r : AnnRec) (s : State) : ∃ mark, ∀ g,
    (s.annDropped n r).counts g = if g = r.group then
      GroupCounts.exit { s.counts r.group with firstUp := mark } r.state else s.counts g := by
  have left : ∃ mark, ∀ h, (if r.state.onList then leaveList n r.group s else s).counts h
      = if h = r.group then { s.counts r.group with firstUp := mark } else s.counts h := by
    split_ifs
    · exact ⟨_, fun h => leaveList_counts n r.group h s⟩
    · exact ⟨(s.counts r.group).firstUp, fun h => by split_ifs with e; exacts [by rw [e], rfl]⟩
  obtain ⟨mark, left⟩ := left
  refine ⟨mark, fun g => ?_⟩
  refine Eq.trans (State.counts_setCounts r.group g _ _) ?_
  rw [left, left, if_pos rfl]
  split_ifs <;> rfl

theorem annRemove_annDropped {n : Nat} {r : AnnRec} {s : State} (h : s.ann.records.look n = some r) :
    Changes ([.annShelf, .annShelfDue, .annHornClass] ++ imageParts) (s.annDropped n r) (annRemove n s) := by
  rw [annRemove_some h]
  exact (decideHorn_changes _).after ((finishShelf_changes _).after (handSummary_changes _ _).mono)

theorem annRemove_look (n m : Nat) (s : State) :
    (annRemove n s).ann.records.look m = if m = n then none else s.ann.records.look m := by
  cases h : s.ann.records.look n with
  | none =>
    rw [annRemove_none h]
    split_ifs with e
    · rw [e, h]
    · rfl
  | some r =>
    have records : (annRemove n s).ann.records = (s.annDropped n r).ann.records :=
      annRemove_annDropped h .annRecords (by decide)
    rw [records, annDropped_records]
    split_ifs with e
    · rw [e]; exact Table.look_del_same _ _
    · exact Table.look_del_other _ e

/-- A removal takes the point from the count of its state in its own group, and moves no other count (R94). -/
theorem annRemove_counts (n g : Nat) (s : State) :
    ((annRemove n s).counts g).unack = countMoved (s.counts g).unack (s.groupOf n == some g
        && (s.annState n == some .new || s.annState n == some .fleeting)) false
      ∧ ((annRemove n s).counts g).standing = countMoved (s.counts g).standing
        (s.groupOf n == some g && s.annState n == some .standing) false
      ∧ ((annRemove n s).counts g).returned = countMoved (s.counts g).returned
        (s.groupOf n == some g && s.annState n == some .returned) false
      ∧ ((annRemove n s).counts g).shelved = countMoved (s.counts g).shelved
        (s.groupOf n == some g && s.annState n == some .shelved) false
      ∧ ((annRemove n s).counts g).stale = (s.counts g).stale := by
  cases h : s.ann.records.look n with
  | none =>
    have group : s.groupOf n = none := by unfold State.groupOf; rw [h]; rfl
    rw [annRemove_none h, group]
    exact ⟨rfl, rfl, rfl, rfl, rfl⟩
  | some r =>
    have group : s.groupOf n = some r.group := by unfold State.groupOf; rw [h]; rfl
    have state : s.annState n = some r.state := by unfold State.annState; rw [h]; rfl
    obtain ⟨mark, counts⟩ := annDropped_counts n r s
    rw [group, state, counts_of_changes (annRemove_annDropped h), counts]
    by_cases e : g = r.group
    · subst e
      rw [if_pos rfl, beq_self_eq_true]
      exact GroupCounts.exit_counts { s.counts r.group with firstUp := mark } r.state
    · have other : (some r.group == some g) = false := by
        simpa using Ne.symm e
      rw [if_neg e, other]
      exact ⟨rfl, rfl, rfl, rfl, rfl⟩

/-- The summary lamp of the point's group follows a removal (R96). -/
theorem annRemove_summary {n g lamp : Nat} {s : State} (hg : s.groupOf n = some g)
    (h : (s.settings g).summary.claimed = some lamp) : (annRemove n s).summaryShows g lamp := by
  obtain ⟨r, hr, rfl⟩ := Option.map_eq_some_iff.mp hg
  have after := (finishShelf_changes (handSummary r.group (s.annDropped n r))).then
    (decideHorn_changes _) (k := [.annShelf, .annShelfDue, .annHornClass])
  unfold State.summaryShows
  rw [annRemove_some hr, patternOf_of_changes after, counts_of_changes after]
  refine handSummary_shows ?_
  rw [settings_of_changes (annDropped_changes n r s)]
  exact h

/-! ## Removal in the Evaluator (R44, R80, R83, R95) -/

/-- The value record of a point gone, with a board second still due at it (R44, R83). -/
def State.valueDropped (s : State) (n : Nat) : State :=
  s.setEvaluator { s.evaluator with
    values := s.evaluator.values.del n
    secondDue := s.evaluator.secondDue.filter (fun m => m != n) }

section
variable {n : Nat} {v : ValueRec} {s : State} (g : Nat)

theorem evaluatorRemove_none (h : s.evaluator.values.look n = none) : evaluatorRemove n g s = s := by
  unfold evaluatorRemove; rw [h]

theorem evaluatorRemove_fresh (h : s.evaluator.values.look n = some v) (hv : v.stale = false) :
    evaluatorRemove n g s = s.valueDropped n := by
  unfold evaluatorRemove; rw [h]; exact if_neg (ne_true_of_eq_false hv)

theorem evaluatorRemove_stale (h : s.evaluator.values.look n = some v) (hv : v.stale = true) :
    evaluatorRemove n g s = freshReport g (s.valueDropped n) := by
  unfold evaluatorRemove; rw [h]; exact if_pos hv

end

theorem evaluatorRemove_values {n : Nat} {v : ValueRec} {s : State} (g : Nat)
    (h : s.evaluator.values.look n = some v) :
    (evaluatorRemove n g s).evaluator.values = s.evaluator.values.del n := by
  cases hv : v.stale with
  | false => rw [evaluatorRemove_fresh g h hv]; rfl
  | true => rw [evaluatorRemove_stale g h hv]; exact freshReport_changes g _ .evaluatorValues (by decide)

theorem evaluatorRemove_look (n g m : Nat) (s : State) : (evaluatorRemove n g s).evaluator.values.look m
    = if m = n then none else s.evaluator.values.look m := by
  cases h : s.evaluator.values.look n with
  | none =>
    rw [evaluatorRemove_none g h]
    split_ifs with e
    · rw [e, h]
    · rfl
  | some v =>
    rw [evaluatorRemove_values g h]
    split_ifs with e
    · rw [e]; exact Table.look_del_same _ _
    · exact Table.look_del_other _ e

/-- A stale point leaves the stale count of its group; a fresh one, no count (R83, R95). -/
theorem evaluatorRemove_counts (n g h : Nat) (s : State) : (evaluatorRemove n g s).counts h =
    { s.counts h with
      stale := countMoved (s.counts h).stale
        (h == g && (s.evaluator.values.look n).any ValueRec.stale) false } := by
  cases hl : s.evaluator.values.look n with
  | none => rw [evaluatorRemove_none g hl, Option.any_none, Bool.and_false]; rfl
  | some v =>
    rw [Option.any_some]
    cases hv : v.stale with
    | false => rw [evaluatorRemove_fresh g hl hv, Bool.and_false]; rfl
    | true =>
      rw [evaluatorRemove_stale g hl hv, freshReport_counts, Bool.and_true]
      by_cases e : h = g
      · rw [if_pos e, e, beq_self_eq_true]; rfl
      · rw [if_neg e, beq_eq_false_iff_ne.mpr e]; rfl

theorem evaluatorRemove_other {n g lamp : Nat} {s : State}
    (h : (s.settings g).staleLamp.claimed ≠ some lamp) :
    (evaluatorRemove n g s).patternOf lamp = s.patternOf lamp := by
  cases hl : s.evaluator.values.look n with
  | none => rw [evaluatorRemove_none g hl]
  | some v =>
    cases hv : v.stale with
    | false => rw [evaluatorRemove_fresh g hl hv]; rfl
    | true => rw [evaluatorRemove_stale g hl hv]; exact freshReport_other (s := s.valueDropped n) h

/-- The stale lamp of the group follows the removal of a stale point (R96). -/
theorem evaluatorRemove_shows {n g lamp : Nat} {v : ValueRec} {s : State}
    (hl : s.evaluator.values.look n = some v) (hv : v.stale = true)
    (h : (s.settings g).staleLamp.claimed = some lamp) : (evaluatorRemove n g s).patternOf lamp
      = if 0 < ((evaluatorRemove n g s).counts g).stale then .steady else .off := by
  rw [evaluatorRemove_stale g hl hv]
  exact freshReport_shows (s := s.valueDropped n) h

/-! ## Removal (R44, R50, R52, R57) -/

/-- Lamps released in turn: each of them is unclaimed and OFF, and no other moves (R50, R113). -/
theorem releaseLamps_lamp (lamps : List Nat) (s : State) (l : Nat) :
    (l ∈ lamps → (releaseLamps lamps s).loader.claims.look l = none
      ∧ (releaseLamps lamps s).patternOf l = .off)
    ∧ (l ∉ lamps → (releaseLamps lamps s).loader.claims.look l = s.loader.claims.look l
      ∧ (releaseLamps lamps s).patternOf l = s.patternOf l) := by
  induction lamps generalizing s with
  | nil => exact ⟨nofun, fun _ => ⟨rfl, rfl⟩⟩
  | cons x xs ih =>
    obtain ⟨free, off, others, -⟩ := releasedLampIsOff s x
    obtain ⟨inside, outside⟩ := ih (releaseLamp x s)
    refine ⟨fun h => ?_, fun h => ?_⟩
    · by_cases hx : l ∈ xs
      · exact inside hx
      · obtain ⟨claim, shows⟩ := outside hx
        cases (List.mem_cons.mp h).resolve_right hx
        exact ⟨claim.trans free, shows.trans off⟩
    · obtain ⟨hl, hx⟩ := not_or.mp (List.mem_cons.not.mp h)
      obtain ⟨claim, shows⟩ := outside hx
      obtain ⟨claim', shows'⟩ := others l hl
      exact ⟨claim.trans claim', shows.trans shows'⟩

/-- What a removal leaves to the Loader: the pairs, the claims and lamps, the record and the count (R44). -/
def State.loaderDropped (s : State) (n : Nat) (lamps : List Nat) : State :=
  let off := setPoint n PointRec.absent (releaseLamps lamps (dropPairs n s))
  off.setLoader { off.loader with installed := off.loader.installed - 1 }

theorem removePoint_some {n : Nat} {e : Entry} {s : State} (h : s.entryOf n = some e) :
    removePoint n s = (evaluatorRemove n e.group (annRemove n s)).loaderDropped n e.lamps := by
  unfold removePoint; rw [h]; rfl

section
variable (n : Nat) (lamps : List Nat) (s : State)

theorem loaderDropped_changes : Changes
    ([.loaderWatch, .loaderClaims, .loaderPoints, .loaderInstalled] ++ imageParts) s
    (s.loaderDropped n lamps) := by
  refine (setInstalled_changes _ _).after ((setPoint_changes _ _ _).after ?_)
  exact (dropPairs_changes n s).then (releaseLamps_changes _ _)

theorem loaderDropped_point (m : Nat) :
    (s.loaderDropped n lamps).point m = if m = n then PointRec.absent else s.point m := by
  have points : (releaseLamps lamps (dropPairs n s)).point = s.point := point_of_changes
    ((dropPairs_changes n s).then (releaseLamps_changes lamps _)
      (k := .loaderWatch :: .loaderClaims :: imageParts))
  rw [← points]
  exact point_setPoint n m PointRec.absent _

theorem loaderDropped_installed :
    (s.loaderDropped n lamps).loader.installed = s.loader.installed - 1 :=
  congrArg (· - 1) (releaseLamps_changes lamps (dropPairs n s) .loaderInstalled (by decide))

theorem loaderDropped_watch :
    (s.loaderDropped n lamps).loader.watch = s.loader.watch.filter (fun p => p.2 != n) :=
  releaseLamps_changes lamps (dropPairs n s) .loaderWatch (by decide)

variable {lamps} {l : Nat}

theorem loaderDropped_lamp (h : l ∈ lamps) :
    (s.loaderDropped n lamps).loader.claims.look l = none ∧ (s.loaderDropped n lamps).patternOf l = .off :=
  (releaseLamps_lamp lamps (dropPairs n s) l).1 h

theorem loaderDropped_other (h : l ∉ lamps) : (s.loaderDropped n lamps).patternOf l = s.patternOf l :=
  ((releaseLamps_lamp lamps (dropPairs n s) l).2 h).2

end

/-- What the Annunciator and the Evaluator do before the Loader in a removal. -/
theorem annEvaluatorRemove_changes (n g : Nat) (s : State) : Changes ([.evaluatorValues, .evaluatorSecondDue,
    .annRecords, .annUnack, .annGroups, .annShelf, .annShelfDue, .annHornClass] ++ imageParts) s
    (evaluatorRemove n g (annRemove n s)) :=
  (annRemove_changes n s).then (evaluatorRemove_changes n g _)

section
variable {n : Nat} {e : Entry} {s : State} (h : s.entryOf n = some e)
include h

/-- What the Loader does last in a removal. -/
theorem removePoint_after_evaluator : Changes
    ([.loaderWatch, .loaderClaims, .loaderPoints, .loaderInstalled] ++ imageParts)
    (evaluatorRemove n e.group (annRemove n s)) (removePoint n s) := by
  rw [removePoint_some h]
  exact loaderDropped_changes _ _ _

/-- What the Evaluator and the Loader do after the Annunciator in a removal. -/
theorem removePoint_after_ann : Changes
    ([.loaderWatch, .loaderClaims, .loaderPoints, .loaderInstalled, .evaluatorValues, .evaluatorSecondDue,
      .annGroups] ++ imageParts) (annRemove n s) (removePoint n s) :=
  (evaluatorRemove_changes n e.group _).then (removePoint_after_evaluator h)

theorem removePoint_point (m : Nat) :
    (removePoint n s).point m = if m = n then PointRec.absent else s.point m := by
  rw [removePoint_some h, loaderDropped_point, point_of_changes (annEvaluatorRemove_changes n e.group s)]

theorem removePoint_installed : (removePoint n s).loader.installed = s.loader.installed - 1 := by
  have same : (evaluatorRemove n e.group (annRemove n s)).loader.installed = s.loader.installed :=
    annEvaluatorRemove_changes n e.group s .loaderInstalled (by decide)
  rw [removePoint_some h, loaderDropped_installed, same]

theorem removePoint_watch :
    (removePoint n s).loader.watch = s.loader.watch.filter (fun p => p.2 != n) := by
  have same : (evaluatorRemove n e.group (annRemove n s)).loader.watch = s.loader.watch :=
    annEvaluatorRemove_changes n e.group s .loaderWatch (by decide)
  rw [removePoint_some h, loaderDropped_watch, same]

theorem removePoint_values (m : Nat) : (removePoint n s).evaluator.values.look m
    = if m = n then none else s.evaluator.values.look m := by
  have values : (removePoint n s).evaluator.values = _ :=
    removePoint_after_evaluator h .evaluatorValues (by decide)
  have same : (annRemove n s).evaluator.values = s.evaluator.values :=
    annRemove_changes n s .evaluatorValues (by decide)
  rw [values, evaluatorRemove_look, same]

theorem removePoint_records (m : Nat) : (removePoint n s).ann.records.look m
    = if m = n then none else s.ann.records.look m := by
  have records : (removePoint n s).ann.records = (annRemove n s).ann.records :=
    removePoint_after_ann h .annRecords (by decide)
  rw [records, annRemove_look]

/-- The list of a removal is the exact one of the board without the point (R92). -/
theorem removePoint_unlisted (hl : s.listExact) : n ∉ (removePoint n s).ann.unack := by
  have unack : (removePoint n s).ann.unack = (annRemove n s).ann.unack :=
    removePoint_after_ann h .annUnack (by decide)
  rw [unack, ((annRemove_lists n s).list hl).2 n, annRemove_state, if_pos rfl]
  simp

/-- The shelf likewise (R102). -/
theorem removePoint_unshelved (hs : s.shelfExact) : n ∉ (removePoint n s).ann.shelf.map ShelfRec.point := by
  have shelf : (removePoint n s).ann.shelf = (annRemove n s).ann.shelf :=
    removePoint_after_ann h .annShelf (by decide)
  rw [shelf, ((annRemove_lists n s).shelf hs).2 n, annRemove_state, if_pos rfl]
  simp

theorem removePoint_becomes (hr : s.ann.records.look n ≠ none) :
    s.shelfBecomes (removePoint n s) (s.ann.shelf.filter (fun x => x.point != n)) := by
  obtain ⟨r, hr⟩ := Option.ne_none_iff_exists'.mp hr
  have shelf : (removePoint n s).ann.shelf = (annRemove n s).ann.shelf :=
    removePoint_after_ann h .annShelf (by decide)
  have due : (removePoint n s).ann.shelfDue = (annRemove n s).ann.shelfDue :=
    removePoint_after_ann h .annShelfDue (by decide)
  unfold State.shelfBecomes
  rw [shelf, due]
  exact annRemove_becomes hr

/-- The counts of a removal: the state's by the Annunciator, the stale count by the Evaluator (R94, R95). -/
theorem removePoint_counts (g : Nat) : (removePoint n s).counts g =
    { (annRemove n s).counts g with
      stale := countMoved (s.counts g).stale
        (g == e.group && (s.evaluator.values.look n).any ValueRec.stale) false } := by
  have values : (annRemove n s).evaluator.values = s.evaluator.values :=
    annRemove_changes n s .evaluatorValues (by decide)
  obtain ⟨-, -, -, -, stale⟩ := annRemove_counts n g s
  rw [counts_of_changes (removePoint_after_evaluator h), evaluatorRemove_counts, values, stale]

/-- A lamp that is none of the point's shows what the Annunciator and the Evaluator left. -/
theorem removePoint_pattern {lamp : Nat} (hl : lamp ∉ e.lamps) : (removePoint n s).patternOf lamp
    = (evaluatorRemove n e.group (annRemove n s)).patternOf lamp := by
  rw [removePoint_some h, loaderDropped_other n _ hl]

/-- The summary lamp of the point's group shows R96's pattern of the counts left. -/
theorem removePoint_summary {g lamp : Nat} (hg : s.groupOf n = some g)
    (hc : (s.settings g).summary.claimed = some lamp) (hl : lamp ∉ e.lamps)
    (hs : (s.settings e.group).staleLamp.claimed ≠ some lamp) : (removePoint n s).summaryShows g lamp := by
  rw [← settings_of_changes (annRemove_changes n s)] at hs
  unfold State.summaryShows
  rw [removePoint_pattern h hl, evaluatorRemove_other hs, removePoint_counts h]
  exact annRemove_summary hg hc

/-- The stale lamp of a stale point's group shows R96's pattern of the stale count left. -/
theorem removePoint_stale {v : ValueRec} {lamp : Nat} (hv : s.evaluator.values.look n = some v)
    (hs : v.stale = true) (hc : (s.settings e.group).staleLamp.claimed = some lamp) (hl : lamp ∉ e.lamps) :
    (removePoint n s).patternOf lamp
      = if 0 < ((removePoint n s).counts e.group).stale then .steady else .off := by
  have values : (annRemove n s).evaluator.values = s.evaluator.values :=
    annRemove_changes n s .evaluatorValues (by decide)
  rw [← settings_of_changes (annRemove_changes n s)] at hc
  rw [removePoint_pattern h hl, counts_of_changes (removePoint_after_evaluator h)]
  exact evaluatorRemove_shows (by rw [values]; exact hv) hs hc

end

/-- Settles O27: the Annunciator drops the point first, then the Evaluator, then the Loader; each clause is about
the block that drops its part, and the blocks after it leave that part as it is. -/
theorem removalIsSilent : Obligations.RemovalIsSilent := by
  rintro s _ n e h rfl
  have point := removePoint_point h
  have values := removePoint_values h
  have records := removePoint_records h
  have mem (p : Nat × Nat) : p ∈ (removePoint n s).loader.watch ↔ p ∈ s.loader.watch ∧ p.2 ≠ n := by
    rw [removePoint_watch h, List.mem_filter, bne_iff_ne]
  refine ⟨events_of_changes (removePoint_changes n s), (point n).trans (if_pos rfl),
    fun m hm => (point m).trans (if_neg hm), removePoint_installed h, fun p hp => ((mem p).mp hp).2,
    fun p hp hn => (mem p).mpr ⟨hp, hn⟩, fun l hl => ?_, (values n).trans (if_pos rfl),
    (records n).trans (if_pos rfl), removePoint_unlisted h, removePoint_unshelved h, removePoint_becomes h,
    fun m hm => ⟨(values m).trans (if_neg hm), (records m).trans (if_neg hm)⟩, fun g => ?_,
    fun _ _ => removePoint_summary h, fun _ _ => removePoint_stale h⟩
  · rw [removePoint_some h]
    exact loaderDropped_lamp n _ hl
  · obtain ⟨unack, standing, returned, shelved, -⟩ := annRemove_counts n g s
    rw [removePoint_counts h]
    exact ⟨unack, standing, returned, shelved, rfl⟩

/-! ## A transition's counts and lamps (R86, R88, R93, R94, R96) -/

/-- A transition told of a state is told of one with the same counts and lamps. -/
theorem State.moved.of_changes {l : List Part} {s t u : State} {n : Nat} {r : AnnRec} {new : AnnState}
    (m : s.moved t n r new) (h : Changes l t u) (hc : .annGroups ∉ l := by decide)
    (hp : .genPatterns ∉ l := by decide) : s.moved u n r new := by
  unfold State.moved State.countsMoved State.lampsFollow State.summaryShows at m ⊢
  rw [counts_of_changes h hc, patternOf_of_changes h hp]
  exact m

theorem handAlarm_other {n lamp : Nat} {s : State}
    (h : ∀ e, s.entryOf n = some e → e.alarmLamp ≠ some lamp) :
    (handAlarm n s).patternOf lamp = s.patternOf lamp := by
  unfold handAlarm
  split
  · rename_i x _ hx
    obtain ⟨e, he, ha⟩ := Option.bind_eq_some_iff.mp hx
    exact setPattern_other _ _ fun hl => h e he (hl ▸ ha)
  · rfl

/-- The alarm lamp shows R88's pattern of the point's state and mark. -/
theorem handAlarm_shows {n lamp : Nat} {r : AnnRec} {e : Entry} {s : State}
    (hr : s.ann.records.look n = some r) (he : s.entryOf n = some e) (ha : e.alarmLamp = some lamp) :
    (handAlarm n s).patternOf lamp
      = r.state.alarmPattern ((s.counts r.group).firstUp == some n) := by
  have bound : (s.entryOf n).bind Entry.alarmLamp = some lamp := by rw [he]; exact ha
  unfold handAlarm
  rw [hr, bound]
  exact setPattern_same _ _ _

theorem AnnState.alarmPattern_eq (x : AnnState) (n : Nat) (mark : Option Nat) :
    x.alarmPattern (mark == some n) = match x with
      | .quiet | .shelved => .off
      | .new | .fleeting => if mark = some n then .first else .fast
      | .standing => .steady
      | .returned => .slow := by
  cases x <;> simp [AnnState.alarmPattern]

/-- A transition up to the lamps: list and mark, counts, record (R86, R92 to R94). -/
def State.annMoved (s : State) (n : Nat) (r : AnnRec) (new : AnnState) : State :=
  let listed := moveOnList n r.group r.state new s
  let counted := setCounts r.group (((listed.counts r.group).exit r.state).enter new) listed
  counted.setAnn { counted.ann with records := counted.ann.records.put n { r with state := new } }

section
variable {n : Nat} {r : AnnRec} {new : AnnState} {s : State}

theorem transition_some (h : s.ann.records.look n = some r) :
    transition n new s = handSummary r.group (handAlarm n (s.annMoved n r new)) := by
  unfold transition; rw [h]; rfl

theorem annMoved_changes (n : Nat) (r : AnnRec) (new : AnnState) (s : State) :
    Changes [.annRecords, .annUnack, .annGroups, .annSilence, .genWakeRequests] s (s.annMoved n r new) :=
  (setRecords_changes _ _).after
    ((setCounts_changes _ _ _).after (moveOnList_changes n r.group r.state new s).mono)

/-- R94's table for a transition of a member of the group. -/
theorem annMoved_counts (n : Nat) (r : AnnRec) (new : AnnState) (s : State) :
    s.countsMoved (s.annMoved n r new) r.group r.state new := by
  obtain ⟨mark, listed⟩ := moveOnList_counts n r.group r.state new s
  have counts (h : Nat) : (s.annMoved n r new).counts h = if h = r.group then
      (GroupCounts.exit { s.counts r.group with firstUp := mark } r.state).enter new else s.counts h := by
    refine Eq.trans (State.counts_setCounts r.group h _ _) ?_
    rw [listed, listed, if_pos rfl]
    split_ifs <;> rfl
  obtain ⟨u, st, re, sh, stale⟩ :=
    (GroupCounts.exit { s.counts r.group with firstUp := mark } r.state).enter_counts new
  obtain ⟨u', st', re', sh', stale'⟩ :=
    GroupCounts.exit_counts { s.counts r.group with firstUp := mark } r.state
  unfold State.countsMoved
  rw [counts, if_pos rfl, u, u', st, st', re, re', sh, sh', stale, stale']
  exact ⟨rfl, rfl, rfl, rfl, rfl, fun h hh => (counts h).trans (if_neg hh)⟩

theorem annMoved_look (n : Nat) (r : AnnRec) (new : AnnState) (s : State) :
    (s.annMoved n r new).ann.records.look n = some { r with state := new } :=
  Table.look_put_same _ _ _

/-- A transition moves its group's counts as R94 says, and its lamps as R88 and R96 say. -/
theorem transition_moved (h : s.ann.records.look n = some r) :
    s.moved (transition n new s) n r new := by
  have inAnn := annMoved_changes n r new s
  have moved := annMoved_counts n r new s
  have look := annMoved_look n r new s
  have settings := settings_of_changes inAnn
  have point := point_of_changes inAnn
  rw [transition_some h]
  generalize s.annMoved n r new = u at *
  have alarm := handAlarm_changes n u
  have summary := handSummary_changes r.group (handAlarm n u)
  have counts : (handSummary r.group (handAlarm n u)).counts = u.counts :=
    (counts_of_changes summary).trans (counts_of_changes alarm)
  have settings' : (handAlarm n u).settings = s.settings := (settings_of_changes alarm).trans settings
  refine ⟨?_, fun e lamp he ha hs => ?_, fun lamp hs => ?_⟩
  · unfold State.countsMoved
    rw [counts]
    exact moved
  · have he' : u.entryOf n = some e := by
      unfold State.entryOf
      rw [point]
      exact he
    rw [handSummary_other (by rw [settings']; exact hs), handAlarm_shows look he' ha, counts]
    exact new.alarmPattern_eq n _
  · exact handSummary_shows (by rw [settings']; exact hs)

/-- No other lamp changes in a transition (R88, R96). -/
theorem transition_other_lamp {lamp : Nat} (ha : ∀ e, s.entryOf n = some e → e.alarmLamp ≠ some lamp)
    (hs : ∀ r, s.ann.records.look n = some r → (s.settings r.group).summary.claimed ≠ some lamp) :
    (transition n new s).patternOf lamp = s.patternOf lamp := by
  cases h : s.ann.records.look n with
  | none => rw [transition_none new (annState_eq_none.mpr h)]
  | some r =>
    have inAnn := annMoved_changes n r new s
    rw [transition_some h, handSummary_other, handAlarm_other, patternOf_of_changes inAnn]
    · unfold State.entryOf
      rw [point_of_changes inAnn]
      exact ha
    · rw [settings_of_changes (handAlarm_changes n _), settings_of_changes inAnn]
      exact hs r h

/-! ## An alarm report taken (R85 to R88, R91, R94, R96) -/

variable {rep : Report} {kind : EventKind} {d : Nat}

theorem takeReport_noEffect (h : (s.annState n).bind rep.effect = none) : takeReport n rep s = s := by
  unfold takeReport; rw [h]

theorem takeReport_effect (h : s.ann.records.look n = some r)
    (he : rep.effect r.state = some (new, kind, d)) :
    takeReport n rep s = decideHorn (record kind .part n d (transition n new s)) := by
  have effect : (s.annState n).bind rep.effect = some (new, kind, d) := by
    unfold State.annState; rw [h]; exact he
  unfold takeReport
  rw [effect]

/-- What follows the transition of a report. -/
theorem takeReport_after_transition (h : s.ann.records.look n = some r)
    (he : rep.effect r.state = some (new, kind, d)) :
    Changes (.annHornClass :: eventParts) (transition n new s) (takeReport n rep s) := by
  rw [takeReport_effect h he]
  exact (record_changes kind .part n d _).then (decideHorn_changes _)

theorem takeReport_state (h : s.ann.records.look n = some r)
    (he : rep.effect r.state = some (new, kind, d)) : (takeReport n rep s).annState n = some new :=
  (annState_of_changes (takeReport_after_transition h he) (by decide) n).trans (transition_state new h)

theorem takeReport_unack (h : s.ann.records.look n = some r)
    (he : rep.effect r.state = some (new, kind, d)) :
    (takeReport n rep s).ann.unack = (transition n new s).ann.unack :=
  takeReport_after_transition h he .annUnack (by decide)

theorem takeReport_moved (h : s.ann.records.look n = some r)
    (he : rep.effect r.state = some (new, kind, d)) : s.moved (takeReport n rep s) n r new :=
  (transition_moved h).of_changes (takeReport_after_transition h he)

/-- A report changes no lamp but the point's alarm lamp and its group's summary lamp (R88, R96). -/
theorem takeReport_other_lamp {lamp : Nat} (ha : ∀ e, s.entryOf n = some e → e.alarmLamp ≠ some lamp)
    (hs : ∀ r, s.ann.records.look n = some r → (s.settings r.group).summary.claimed ≠ some lamp) :
    (takeReport n rep s).patternOf lamp = s.patternOf lamp := by
  unfold takeReport
  split
  · rename_i new kind d _
    have after : Changes (.annHornClass :: eventParts) (transition n new s) _ :=
      (record_changes kind .part n d _).then (decideHorn_changes _)
    rw [patternOf_of_changes after, transition_other_lamp ha hs]
  · rfl

end

/-! ## First values (R54, R82) -/

section
variable {s : State} {w : Word} {r : Reload}

theorem takeSourceWord_waiting (hr : s.loader.reload = some r) (hs : r.stage = .source) :
    takeSourceWord w s = (s.setLoader { s.loader with reload := some { r with stage := .value } }).setEvaluator
      { s.evaluator with firstValue := some (r.point, w) } := by
  unfold takeSourceWord; rw [hr]; exact if_pos hs

theorem takeSourceWord_other (hr : s.loader.reload = some r) (hs : r.stage ≠ .source) :
    takeSourceWord w s = s := by
  unfold takeSourceWord; rw [hr]; exact if_neg hs

end

theorem sourceRead : Claim.SourceRead := fun s _ _ w _ hs hu hr =>
  have read : effect .sourceReadDone s = takeSourceWord w s.portFreed := complete_read hu rfl
  ⟨fun h => exec_settles hs (read.trans (takeSourceWord_waiting (s := s.portFreed) hr h)),
    fun h => exec_settles hs (read.trans (takeSourceWord_other (s := s.portFreed) hr h))⟩

/-- From flags not set, a limit alone decides (R70, R71, R82). -/
theorem nextHigh_first (e : Entry) (r : Nat) :
    nextHigh e false r = true ↔ e.highEnabled = true ∧ e.highLimit ≤ r := by
  simp [nextHigh]

theorem nextLow_first (e : Entry) (r : Nat) :
    nextLow e false r = true ↔ e.lowEnabled = true ∧ r ≤ e.lowLimit := by
  simp [nextLow]

theorem judgeFirst_discrete {e : Entry} (r : Nat) (h : e.kind = some .discrete) :
    judgeFirst e r = (.discrete, discreteCondition e r) := by
  unfold judgeFirst; rw [h]

theorem judgeFirst_analogue {e : Entry} (r : Nat) (h : e.kind = some .analogue) :
    judgeFirst e r = (.analogue (barCount e r) (nextHigh e false r) (nextLow e false r),
      analogueCondition .normal (nextHigh e false r) (nextLow e false r)) := by
  unfold judgeFirst; rw [h]

theorem judgeFirst_valve {e : Entry} (r : Nat) (h : e.kind = some .valve) :
    judgeFirst e r = (.valve (positionOf r) (nextTimer e .closed none (positionOf r)) false,
      valveCondition (positionOf r) false) := by
  unfold judgeFirst; rw [h]

/-- A first value in travel starts the timer where the point has a travel time (R74, R82). -/
theorem nextTimer_first (e : Entry) (x : Position) : nextTimer e .closed none x
    = if x = .travel ∧ 0 < e.travel then some e.travel else none := by
  unfold nextTimer
  by_cases h : x = .travel <;> simp [h]

/-- Without an overrun a valve is abnormal only where it is discrepant (R76). -/
theorem valveCondition_first (x : Position) : valveCondition x false
    = if x = .discrepant then .abnormal .discrepant else .normal := by
  cases x <;> rfl

theorem firstJudged : Claim.FirstJudged := by
  refine fun e r => ⟨judgeFirst_discrete r, fun hk high low hh hl => ?_, fun hk => ?_⟩
  · have hh' : nextHigh e false r = high := Bool.eq_iff_iff.mpr ((nextHigh_first e r).trans hh.symm)
    have hl' : nextLow e false r = low := Bool.eq_iff_iff.mpr ((nextLow_first e r).trans hl.symm)
    rw [judgeFirst_analogue r hk, hh', hl']
    rfl
  · rw [judgeFirst_valve r hk, nextTimer_first, valveCondition_first]

/-! ## The install of a first value (R55, R63, R84, R113) -/

/-- A first value up to its report: the point INSTALLED and counted, joined to its group in QUIET, its value record
built, its display patterns handed (R55, R63, R82, R84). -/
def State.firstValued (s : State) (n : Nat) (e : Entry) (r : Nat) : State :=
  let placed := setPoint n ⟨.installed, some e, false⟩ s
  let counted := placed.setLoader { placed.loader with installed := placed.loader.installed + 1 }
  handDisplay e (firstRecord e r) (setValue n (firstRecord e r) (annJoin n e counted))

/-- The report of a first value taken, and the value no longer waiting (R55, R82). -/
def State.firstReported (s : State) (n : Nat) (e : Entry) (r : Nat) : State :=
  let told := takeReport n (reportOf .normal (firstRecord e r).condition) (s.firstValued n e r)
  told.setEvaluator { told.evaluator with firstValue := none }

theorem takeFirstValue_waiting {s : State} {n : Nat} {w : Word} {e : Entry}
    (hw : s.evaluator.firstValue = some (n, w)) (hi : s.evaluator.item = none) (he : s.entryOf n = some e) :
    takeFirstValue s = endReload (s.firstReported n e (e.field w)) := by
  unfold takeFirstValue
  rw [hw, hi]
  show evaluateFirst n w s = _
  unfold evaluateFirst
  rw [he]
  rfl

section
variable (s : State) (n : Nat) (e : Entry) (r : Nat)

theorem firstValued_changes : Changes
    ([.loaderPoints, .loaderInstalled, .annRecords, .evaluatorValues] ++ imageParts) s
    (s.firstValued n e r) := by
  refine (handDisplay_changes _ _ _).after ((setValue_changes _ _ _).after ((annJoin_changes _ _ _).after ?_))
  exact (setPoint_changes n _ s).then (setInstalled_changes _ _)

theorem firstValued_point (m : Nat) :
    (s.firstValued n e r).point m = if m = n then ⟨.installed, some e, false⟩ else s.point m := by
  have later (v : ValueRec) (t : State) :
      Changes ([.annRecords, .evaluatorValues] ++ imageParts) t (handDisplay e v (setValue n v (annJoin n e t))) :=
    (handDisplay_changes _ _ _).after ((setValue_changes _ _ _).after (annJoin_changes _ _ _).mono)
  unfold State.firstValued
  rw [point_of_changes (later _ _)]
  exact point_setPoint n m ⟨.installed, some e, false⟩ s

theorem firstValued_installed : (s.firstValued n e r).loader.installed = s.loader.installed + 1 :=
  Eq.trans (handDisplay_changes _ _ _ .loaderInstalled (by decide))
    (annJoin_changes n e _ .loaderInstalled (by decide))

theorem firstValued_values :
    (s.firstValued n e r).evaluator.values = s.evaluator.values.put n (firstRecord e r) := by
  refine Eq.trans (handDisplay_changes _ _ _ .evaluatorValues (by decide)) ?_
  exact congrArg (fun t => Table.put t n (firstRecord e r)) (annJoin_changes n e _ .evaluatorValues (by decide))

/-- The point joins its group where it is alarm-capable (R84). -/
theorem firstValued_records : (s.firstValued n e r).ann.records
    = if e.alarmCapable then s.ann.records.put n ⟨.quiet, e.cls, e.group⟩ else s.ann.records := by
  refine Eq.trans (handDisplay_changes _ _ _ .annRecords (by decide)) ?_
  show (annJoin n e _).ann.records = _
  unfold annJoin
  split_ifs <;> rfl

theorem firstValued_joined (hc : e.alarmCapable = true) :
    (s.firstValued n e r).ann.records.look n = some ⟨.quiet, e.cls, e.group⟩ := by
  rw [firstValued_records, if_pos hc]
  exact Table.look_put_same _ _ _

/-- The group of the point's record, where it has one, is the entry's. -/
theorem firstValued_group {x : AnnRec} (hc : e.alarmCapable = true ∨ s.ann.records.look n = none)
    (hx : (s.firstValued n e r).ann.records.look n = some x) : x.group = e.group := by
  by_cases h : e.alarmCapable = true
  · cases (firstValued_joined s n e r h).symm.trans hx
    rfl
  · rw [firstValued_records, if_neg h, hc.resolve_left h] at hx
    cases hx

theorem firstValued_lamp {i lamp : Nat} {p : Pattern} (hl : e.displayLamps[i]? = some lamp)
    (hp : (firstRecord e r).handed[i]? = some p) : (s.firstValued n e r).patternOf lamp = p :=
  handDisplay_at e _ _ hl hp

theorem firstValued_other_lamp {lamp : Nat} (h : lamp ∉ e.displayLamps) :
    (s.firstValued n e r).patternOf lamp = s.patternOf lamp := by
  refine (handDisplay_other e _ _ h).trans (congrFun (patternOf_of_changes (s := s)
    (l := [.loaderPoints, .loaderInstalled, .annRecords, .evaluatorValues]) ?_) lamp)
  refine (setValue_changes _ _ _).after ((annJoin_changes _ _ _).after ?_)
  exact (setPoint_changes n _ s).then (setInstalled_changes _ _)

/-! ## The report of a first value (R82, R86, R88, R91, R92) -/

theorem firstReported_after : Changes (.evaluatorFirstValue :: reportParts) (s.firstValued n e r)
    (s.firstReported n e r) :=
  (takeReport_changes n _ _).then (setFirstValue_changes none _)

theorem firstReported_changes : Changes
    ([.loaderPoints, .loaderInstalled, .evaluatorValues, .evaluatorFirstValue] ++ reportParts) s
    (s.firstReported n e r) :=
  (firstReported_after s n e r).after (firstValued_changes s n e r).mono

variable {s n e r}

/-- A normal first value, and one of a point without a record, reports nothing (R62, R82). -/
theorem firstReported_quiet (h : (judgeFirst e r).2 = .normal
      ∨ e.alarmCapable = false ∧ s.ann.records.look n = none) :
    s.firstReported n e r = (s.firstValued n e r).setEvaluator
      { (s.firstValued n e r).evaluator with firstValue := none } := by
  have quiet : takeReport n (reportOf .normal (firstRecord e r).condition) (s.firstValued n e r)
      = s.firstValued n e r := by
    refine takeReport_noEffect ?_
    rcases h with h | ⟨hc, hn⟩
    · rw [show (firstRecord e r).condition = .normal from h]
      cases (s.firstValued n e r).annState n <;> rfl
    · have absent : (s.firstValued n e r).annState n = none := annState_eq_none.mpr (by
        rw [firstValued_records, hc]; exact hn)
      rw [absent]
      rfl
  unfold State.firstReported
  rw [quiet]

/-- An abnormal first value is an onset from QUIET (R82, R86). -/
theorem firstReport_effect {c : Cause} (h : (judgeFirst e r).2 = .abnormal c) :
    (reportOf .normal (firstRecord e r).condition).effect .quiet = some (.new, .raised, c.code) := by
  rw [show (firstRecord e r).condition = .abnormal c from h]
  rfl

section
variable {c : Cause} (hc : e.alarmCapable = true) (h : (judgeFirst e r).2 = .abnormal c)
include hc h

theorem firstReported_state : (s.firstReported n e r).annState n = some .new :=
  takeReport_state (firstValued_joined s n e r hc) (firstReport_effect h)

theorem firstReported_unack : (s.firstReported n e r).ann.unack = s.ann.unack ++ [n] := by
  have joined := firstValued_joined s n e r hc
  have state : (s.firstValued n e r).annState n = some .quiet := by unfold State.annState; rw [joined]; rfl
  have unack : (s.firstValued n e r).ann.unack = s.ann.unack := firstValued_changes s n e r .annUnack (by decide)
  refine (takeReport_unack joined (firstReport_effect h)).trans ?_
  rw [transition_unack .new state, unack]
  rfl

theorem firstReported_moved (he : s.entryOf n = some e) :
    s.moved (s.firstReported n e r) n ⟨.quiet, e.cls, e.group⟩ .new := by
  have valued := firstValued_changes s n e r
  have held : (s.firstValued n e r).entryOf n = s.entryOf n := by
    rw [he, State.entryOf, firstValued_point, if_pos rfl]
  have moved := takeReport_moved (firstValued_joined s n e r hc) (firstReport_effect h)
  unfold State.moved State.countsMoved State.lampsFollow at moved ⊢
  rw [counts_of_changes valued, settings_of_changes valued, held] at moved
  exact moved

/-- RAISED joins the queue with its cause (R82, R91). -/
theorem firstReported_queue (hb : s.onBoard) (hq : s.events.queue.length < 32) :
    (s.firstReported n e r).events.queue = s.events.queue ++ [s.eventOf .raised .part n c.code] := by
  have told := takeReport_effect (firstValued_joined s n e r hc) (firstReport_effect h)
  have moving : Changes ([.loaderPoints, .loaderInstalled, .evaluatorValues] ++ transitionParts) s
      (transition n .new (s.firstValued n e r)) :=
    (firstValued_changes s n e r).then (transition_changes n .new _)
  exact (congrArg (fun t : State => t.events.queue) told).trans
    (record_queue_after moving hb hq .raised .part n c.code)

end

/-- A first value shows its display, and moves no other lamp but the alarm lamp and the group's (R63, R88, R96). -/
theorem firstReported_displayed (hc : e.alarmCapable = true ∨ s.ann.records.look n = none) :
    s.displayed (s.firstReported n e r) e e.group (firstRecord e r).handed := by
  have reported {lamp : Nat} (hl : ¬ s.besideDisplay e e.group lamp) :
      (s.firstReported n e r).patternOf lamp = (s.firstValued n e r).patternOf lamp := by
    obtain ⟨alarm, lamps⟩ := not_or.mp hl
    refine takeReport_other_lamp (s := s.firstValued n e r) (fun x hx => ?_) (fun x hx => ?_)
    · rw [State.entryOf, firstValued_point, if_pos rfl] at hx
      cases hx
      exact alarm
    · rw [settings_of_changes (firstValued_changes s n e r), firstValued_group s n e r hc hx]
      exact (not_or.mp lamps).1
  exact ⟨fun i lamp p hd hp hl => (reported hl).trans (firstValued_lamp s n e r hd hp),
    fun lamp hd hl => (reported hl).trans (firstValued_other_lamp s n e r hd)⟩

end

/-! ## A first value taken (R24, R54, R55) -/

/-- A condition other than normal has a cause. -/
theorem Condition.cause_of_ne_normal {x : Condition} (h : x ≠ .normal) : ∃ c, x = .abnormal c := by
  cases x with
  | normal => exact absurd rfl h
  | abnormal c => exact ⟨c, rfl⟩

theorem firstReported_point (s : State) (n : Nat) (e : Entry) (r m : Nat) :
    (s.firstReported n e r).point m = if m = n then ⟨.installed, some e, false⟩ else s.point m := by
  rw [point_of_changes (firstReported_after s n e r), firstValued_point]

theorem firstReported_installed (s : State) (n : Nat) (e : Entry) (r : Nat) :
    (s.firstReported n e r).loader.installed = s.loader.installed + 1 :=
  Eq.trans (firstReported_after s n e r .loaderInstalled (by decide)) (firstValued_installed s n e r)

theorem firstReported_values (s : State) (n : Nat) (e : Entry) (r : Nat) :
    (s.firstReported n e r).evaluator.values = s.evaluator.values.put n (firstRecord e r) :=
  Eq.trans (takeReport_changes n _ (s.firstValued n e r) .evaluatorValues (by decide))
    (firstValued_values s n e r)

section
variable {s : State} {n : Nat} {e : Entry} {r : Nat}

/-- An alarm-capable point is QUIET after a normal first value and NEW after an abnormal one (R82). -/
theorem firstReported_annState (hc : e.alarmCapable = true) : (s.firstReported n e r).annState n =
    some (if (judgeFirst e r).2 = .normal then .quiet else .new) := by
  split_ifs with h
  · rw [firstReported_quiet (.inl h)]
    exact congrArg (Option.map AnnRec.state) (firstValued_joined s n e r hc)
  · obtain ⟨c, h⟩ := Condition.cause_of_ne_normal h
    exact firstReported_state hc h

section
variable (h : (judgeFirst e r).2 = .normal ∨ e.alarmCapable = false ∧ s.ann.records.look n = none)
include h

theorem firstReported_quiet_groups : (s.firstReported n e r).ann.groups = s.ann.groups := by
  rw [firstReported_quiet h]
  exact firstValued_changes s n e r .annGroups (by decide)

theorem firstReported_quiet_unack : (s.firstReported n e r).ann.unack = s.ann.unack := by
  rw [firstReported_quiet h]
  exact firstValued_changes s n e r .annUnack (by decide)

theorem firstReported_quiet_events : (s.firstReported n e r).events = s.events := by
  have valued : (s.firstValued n e r).events = s.events := events_of_changes (firstValued_changes s n e r)
  rw [firstReported_quiet h]
  exact valued

end

theorem firstReported_unjoined (hc : e.alarmCapable = false) (hn : s.ann.records.look n = none) :
    (s.firstReported n e r).ann.records = s.ann.records := by
  rw [firstReported_quiet (.inr ⟨hc, hn⟩)]
  refine (firstValued_records s n e r).trans ?_
  rw [hc]
  rfl

end

section
variable {s : State} {n : Nat} {e : Entry} {r : Nat}

/-- The value record that a first value leaves, and what the Annunciator and the lamps make of it (R63, R82, R86,
R88, R94, R96, R113). -/
theorem firstEnded_record (he : s.entryOf n = some e) :
    ∃ v, (endReload (s.firstReported n e r)).evaluator.values.look n = some v
      ∧ v.last = r ∧ v.age = 0 ∧ v.stale = false
      ∧ v.condition = (judgeFirst e r).2 ∧ v.kind = (judgeFirst e r).1
      ∧ v.handed = displayPatterns e v.kind r false
      ∧ (e.alarmCapable = true → (endReload (s.firstReported n e r)).annState n =
          some (if v.condition = .normal then .quiet else .new))
      ∧ (e.alarmCapable = true → v.condition ≠ .normal →
          s.moved (endReload (s.firstReported n e r)) n ⟨.quiet, e.cls, e.group⟩ .new)
      ∧ (v.condition = .normal ∨ e.alarmCapable = false ∧ s.ann.records.look n = none →
          (endReload (s.firstReported n e r)).ann.groups = s.ann.groups)
      ∧ (e.alarmCapable = true ∨ s.ann.records.look n = none →
          s.displayed (endReload (s.firstReported n e r)) e e.group v.handed) := by
  have ending := endReload_changes (s.firstReported n e r)
  refine ⟨firstRecord e r, ?_, rfl, rfl, rfl, rfl, rfl, rfl, fun hc => ?_, fun hc hj => ?_, fun h => ?_,
    fun hc => ?_⟩
  · have values : (endReload (s.firstReported n e r)).evaluator.values = _ :=
      ending .evaluatorValues (by decide)
    rw [values, firstReported_values]
    exact Table.look_put_same _ _ _
  · exact (annState_of_changes ending (by decide) n).trans (firstReported_annState hc)
  · obtain ⟨c, hj⟩ := Condition.cause_of_ne_normal hj
    exact (firstReported_moved hc hj he).of_changes ending
  · exact Eq.trans (ending .annGroups (by decide)) (firstReported_quiet_groups h)
  · have displayed := firstReported_displayed (r := r) hc
    unfold State.displayed at displayed ⊢
    rw [patternOf_of_changes ending]
    exact displayed

/-- Where more is left to load, the reload of a first value ends with the point's own event alone (R24, R82, R91). -/
theorem firstEnded_goesOn (hg : s.goesOn) :
    (endReload (s.firstReported n e r)).loader.cfg = s.loader.cfg
      ∧ (∀ c, e.alarmCapable = true → (judgeFirst e r).2 = .abnormal c → s.events.queue.length < 32 →
          (endReload (s.firstReported n e r)).events.queue
            = s.events.queue ++ [s.eventOf .raised .part n c.code])
      ∧ ((judgeFirst e r).2 = .normal ∨ e.alarmCapable = false ∧ s.ann.records.look n = none →
          (endReload (s.firstReported n e r)).events = s.events) := by
  have reported := firstReported_changes s n e r
  rw [endReload_after_goesOn reported hg]
  exact ⟨reported .loaderCfg (by decide),
    fun c hc hj => firstReported_queue hc hj (State.goesOn.onBoard hg), firstReported_quiet_events⟩

/-- Where nothing is left to load, SWEEP_DONE stands behind the point's own event, with the count that the install
has raised (R24). -/
theorem firstEnded_done (hc : s.loader.cfg = .sweeping) (hp : s.loader.pendingPoints = [])
    (hn : s.loader.pass = none) :
    (endReload (s.firstReported n e r)).loader.cfg = .running
      ∧ (∀ c, e.alarmCapable = true → (judgeFirst e r).2 = .abnormal c → s.events.queue.length < 31 →
          (endReload (s.firstReported n e r)).events.queue
            = s.events.queue ++ [s.eventOf .raised .part n c.code,
              s.eventOf .sweepDone .part (s.loader.installed + 1) 0])
      ∧ ((judgeFirst e r).2 = .normal ∨ e.alarmCapable = false ∧ s.ann.records.look n = none →
          s.events.queue.length < 32 → (endReload (s.firstReported n e r)).events.queue
            = s.events.queue ++ [s.eventOf .sweepDone .part (s.loader.installed + 1) 0]) := by
  obtain ⟨running, done⟩ := endReload_after_done (firstReported_changes s n e r) hc hp hn
  rw [firstReported_installed] at done
  refine ⟨running, fun c ha hj hq => ?_, fun h hq => ?_⟩
  · have raised := firstReported_queue (n := n) ha hj (State.onBoard_of_sweeping hc) (by omega)
    rw [raised, List.length_append, List.length_singleton] at done
    rw [done (by omega), List.append_assoc]
    rfl
  · rw [firstReported_quiet_events h] at done
    exact done hq

end

theorem firstValue : Claim.FirstValue := by
  intro s n w e hs hw hi he
  have ending := endReload_changes (s.firstReported n e (e.field w))
  have point := firstReported_point s n e (e.field w)
  have values : (endReload (s.firstReported n e (e.field w))).evaluator.values = _ :=
    ending .evaluatorValues (by decide)
  refine ⟨_, exec_settles hs (takeFirstValue_waiting hw hi he), ?_⟩
  rw [point_of_changes ending]
  refine ⟨(point n).trans (if_pos rfl), fun m hm => (point m).trans (if_neg hm),
    Eq.trans (ending .loaderInstalled (by decide)) (firstReported_installed s n e _), endReload_reload _,
    ending .evaluatorFirstValue (by decide), firstEnded_record he,
    fun hc hn => Eq.trans (ending .annRecords (by decide)) (firstReported_unjoined hc hn), fun m hm => ?_,
    fun c hc hj => Eq.trans (ending .annUnack (by decide)) (firstReported_unack hc hj),
    fun h => Eq.trans (ending .annUnack (by decide)) (firstReported_quiet_unack h),
    firstEnded_goesOn, firstEnded_done⟩
  rw [values, firstReported_values]
  exact Table.look_put_other _ _ hm

/-- Settles O28: the source word and the judgement by their cases; the install up to its report, the report, and
what ends the reload each say what they move, and what follows leaves it. -/
theorem firstValues : Obligations.FirstValues := ⟨sourceRead, firstJudged, firstValue⟩

end Sys2Proof.Machine

/-! # Point evaluation: proofs of the statements of 04_point_evaluation.md -/

namespace Sys2Proof.Machine

/-! ## The fields of an entry (R41, R60, 10.2) -/

theorem Entry.source_toNat (e : Entry) :
    e.source.toNat = (e.w1.extractLsb' 0 3).toNat * 65536 + e.w0.toNat := by
  unfold Entry.source
  rw [BitVec.toNat_append, ← Nat.shiftLeft_add_eq_or_of_lt e.w0.isLt, Nat.shiftLeft_eq]

/-- Mode codes 5 to 7 name no mode. -/
theorem Entry.mode_invalid {e : Entry} (h : 5 ≤ (e.w3.extractLsb' 12 3).toNat) : e.mode = none := by
  unfold Entry.mode bits
  split
  case h_6 => rfl
  all_goals omega

theorem Entry.field_eq (e : Entry) (w : Word) : e.field w = w.toNat / 2 ^ e.shift % 2 ^ e.width := by
  unfold Entry.field
  rw [Nat.shiftRight_eq_div_pow]

theorem Entry.field_le (e : Entry) (w : Word) : e.field w ≤ 2 ^ e.width - 1 :=
  Nat.le_sub_one_of_lt (Nat.mod_lt _ (Nat.two_pow_pos _))

theorem entryFields : Claim.EntryFields := by
  refine ⟨fun _ _ _ _ _ _ _ _ _ _ _ _ => rfl, fun e => ?_⟩
  have kind {c : Nat} (h : (e.w1.extractLsb' 12 2).toNat = c) : bits e.w1 12 2 = c := h
  have mode {c : Nat} (h : (e.w3.extractLsb' 12 3).toNat = c) : bits e.w3 12 3 = c := h
  refine ⟨e.source_toNat, fun h => ?_, fun h => ?_, fun h => ?_, fun h => ?_, rfl, rfl, rfl,
    fun h => ?_, fun h => ?_, fun h => ?_, fun h => ?_, fun h => ?_, Entry.mode_invalid,
    rfl, rfl, rfl, rfl, rfl, rfl, rfl, rfl, rfl, rfl, rfl, rfl, rfl⟩
  iterate 4 · unfold Entry.kind; rw [kind h]; rfl
  iterate 5 · unfold Entry.mode; rw [mode h]; rfl

/-- Settles O29: a shift right is a division and the bits kept are a remainder; each field is its bits by
definition, the kind and the mode by their codes. -/
theorem fieldOfAPoint : Obligations.FieldOfAPoint :=
  ⟨fun e w => ⟨e.field_eq w, e.field_le w, rfl, rfl⟩, entryFields⟩

/-! ## The bar count (R67, R68) -/

section
variable {e : Entry} {x y : Int}

theorem clampSpan_below (h : x ≤ e.zero) (hs : e.zero < e.full) : clampSpan e x = e.zero := by
  unfold clampSpan; split_ifs <;> omega

theorem clampSpan_above (h : (e.full : Int) ≤ x) (hs : e.zero < e.full) : clampSpan e x = e.full := by
  unfold clampSpan; split_ifs <;> omega

theorem clampSpan_inside (hz : (e.zero : Int) ≤ x) (hf : x ≤ e.full) : clampSpan e x = x := by
  unfold clampSpan; split_ifs <;> omega

theorem clampSpan_mono (h : x ≤ y) (hs : e.zero < e.full) : clampSpan e x ≤ clampSpan e y := by
  unfold clampSpan; split_ifs <;> omega

theorem clampSpan_ge (x : Int) (hs : e.zero < e.full) : (e.zero : Int) ≤ clampSpan e x := by
  unfold clampSpan; split_ifs <;> omega

theorem clampSpan_le (x : Int) (hs : e.zero < e.full) : clampSpan e x ≤ e.full := by
  unfold clampSpan; split_ifs <;> omega

/-- The count as a number that may be compared: nothing is lost in making it a natural number. -/
theorem barCount_cast (x : Int) (hs : e.zero < e.full) : (barCount e x : Int) =
    ((clampSpan e x - e.zero) * (2 * e.barLength) + (e.full - e.zero)) / (2 * (e.full - e.zero)) := by
  have above : 0 ≤ (clampSpan e x - e.zero) * (2 * e.barLength) :=
    mul_nonneg (by have := clampSpan_ge x hs; omega) (by omega)
  exact Int.toNat_of_nonneg (Int.ediv_nonneg (by omega) (by omega))

/-- The count rises with the clamped value. -/
theorem barCount_le_of_clampSpan_le (h : clampSpan e x ≤ clampSpan e y) (hs : e.zero < e.full) :
    barCount e x ≤ barCount e y := by
  have scaled : (clampSpan e x - e.zero) * (2 * e.barLength) ≤ (clampSpan e y - e.zero) * (2 * e.barLength) :=
    mul_le_mul_of_nonneg_right (by omega) (by omega)
  rw [← Int.ofNat_le, barCount_cast x hs, barCount_cast y hs]
  exact Int.ediv_le_ediv (by omega) (by omega)

/-- Half a step of the bar alone lights no lamp. -/
theorem half_span_ediv {span : Int} (h : 0 < span) : span / (2 * span) = 0 :=
  Int.ediv_eq_zero_of_lt h.le (by omega)

theorem barCount_below (h : x ≤ e.zero) (hs : e.zero < e.full) : barCount e x = 0 := by
  rw [← Int.natCast_inj, barCount_cast x hs, clampSpan_below h hs, sub_self, zero_mul, zero_add,
    half_span_ediv (by omega)]
  rfl

theorem barCount_above (h : (e.full : Int) ≤ x) (hs : e.zero < e.full) : barCount e x = e.barLength := by
  have whole : ((e.full : Int) - e.zero) * (2 * e.barLength) + (e.full - e.zero)
      = (e.full - e.zero) + 2 * (e.full - e.zero) * e.barLength := by ring
  rw [← Int.natCast_inj, barCount_cast x hs, clampSpan_above h hs, whole,
    Int.add_mul_ediv_left _ _ (by omega), half_span_ediv (by omega), zero_add]

theorem barCount_le (x : Int) (hs : e.zero < e.full) : barCount e x ≤ e.barLength := by
  rw [← barCount_above (x := e.full) le_rfl hs]
  refine barCount_le_of_clampSpan_le ?_ hs
  rw [clampSpan_above (x := e.full) le_rfl hs]
  exact clampSpan_le x hs

theorem nextCount_rises {d r : Nat} (h : d < barCount e ((r : Int) - e.hysteresis)) :
    nextCount e d r = barCount e ((r : Int) - e.hysteresis) := if_pos h

theorem nextCount_falls {d r : Nat} (h : barCount e ((r : Int) - e.hysteresis) ≤ d)
    (hf : barCount e ((r : Int) + e.hysteresis) < d) :
    nextCount e d r = barCount e ((r : Int) + e.hysteresis) :=
  (if_neg h.not_gt).trans (if_pos hf)

theorem nextCount_stands {d r : Nat} (h : barCount e ((r : Int) - e.hysteresis) ≤ d)
    (hf : d ≤ barCount e ((r : Int) + e.hysteresis)) : nextCount e d r = d :=
  (if_neg h.not_gt).trans (if_neg hf.not_gt)

end

theorem barCounts : Claim.BarCounts := by
  refine ⟨fun e x y hs => ⟨barCount_le x hs, fun h => ?_, fun h => barCount_below h hs,
    fun h => barCount_above h hs, fun hz hf => ?_⟩, fun e d r => ⟨nextCount_rises, nextCount_falls,
    nextCount_stands⟩⟩
  · exact barCount_le_of_clampSpan_le (clampSpan_mono h hs) hs
  · rw [barCount_cast x hs, clampSpan_inside hz hf]

/-! ## The limit flags (R70 to R72) -/

theorem nextHigh_disabled {e : Entry} (h : e.highEnabled = false) (b : Bool) (r : Nat) :
    nextHigh e b r = false := by
  unfold nextHigh; rw [h, Bool.false_and]

/-- A high flag that is set clears below the limit less the deadband (R70). -/
theorem nextHigh_clears {e : Entry} (h : e.highEnabled = true) (r : Nat) :
    nextHigh e true r = false ↔ (r : Int) < (e.highLimit : Int) - e.deadband := by
  simp [nextHigh, h]

theorem nextLow_disabled {e : Entry} (h : e.lowEnabled = false) (b : Bool) (r : Nat) :
    nextLow e b r = false := by
  unfold nextLow; rw [h, Bool.false_and]

/-- A low flag that is set clears above the limit plus the deadband (R71). -/
theorem nextLow_clears {e : Entry} (h : e.lowEnabled = true) (r : Nat) :
    nextLow e true r = false ↔ e.lowLimit + e.deadband < r := by
  simp [nextLow, h]

/-- With at most one flag set the condition before plays no part (R72). -/
theorem analogueCondition_one (old : Condition) :
    analogueCondition old false false = .normal ∧ analogueCondition old true false = .abnormal .high
      ∧ analogueCondition old false true = .abnormal .low := by
  unfold analogueCondition
  split <;> exact ⟨rfl, rfl, rfl⟩

theorem limitFlags : Claim.LimitFlags := by
  refine fun e r => ⟨fun h b => nextHigh_disabled h b r, fun h => ⟨?_, nextHigh_clears h r⟩,
    fun h b => nextLow_disabled h b r, fun h => ⟨?_, nextLow_clears h r⟩, fun old => ?_⟩
  · exact (nextHigh_first e r).trans (and_iff_right h)
  · exact (nextLow_first e r).trans (and_iff_right h)
  · obtain ⟨neither, high, low⟩ := analogueCondition_one old
    exact ⟨neither, high, low, rfl, rfl, rfl⟩

/-- Settles O31: the count through the clamp, the flags through what sets and what clears each. -/
theorem analogueArithmetic : Obligations.AnalogueArithmetic := ⟨barCounts, limitFlags⟩

/-! ## The lamps of a point (R25, R46) -/

section
variable {e : Entry}

theorem Entry.displayLamps_discrete (h : e.kind = some .discrete) : e.displayLamps = [e.firstLamp] := by
  unfold Entry.displayLamps; rw [h]

theorem Entry.displayLamps_analogue (h : e.kind = some .analogue) :
    e.displayLamps = (List.range e.barLength).map (fun i => e.firstLamp + i) := by
  unfold Entry.displayLamps; rw [h]

theorem Entry.displayLamps_valve (h : e.kind = some .valve) :
    e.displayLamps = [e.firstLamp, e.firstLamp + 1] := by
  unfold Entry.displayLamps; rw [h]

/-- A kind alone, a mode and an enabled limit make a point alarm-capable (R46). -/
theorem Entry.alarmCapable_iff : e.alarmCapable = true ↔
    (e.kind = some .discrete ∧ (e.mode = some .level ∨ e.mode = some .rising ∨ e.mode = some .falling
      ∨ e.mode = some .both))
    ∨ (e.kind = some .analogue ∧ (e.highEnabled = true ∨ e.lowEnabled = true))
    ∨ e.kind = some .valve := by
  unfold Entry.alarmCapable
  cases e.kind with
  | none => simp
  | some k =>
    cases k with
    | discrete =>
      cases e.mode with
      | none => simp
      | some m => cases m <;> simp
    | analogue => simp
    | valve => simp

theorem Entry.alarmLamp_iff {lamp : Nat} : e.alarmLamp = some lamp ↔
    e.alarmCapable = true ∧ e.w3.getLsbD 15 = true ∧ lamp = (e.w3.extractLsb' 0 12).toNat := by
  unfold Entry.alarmLamp Entry.alarmPresent Entry.alarmField bits
  rw [Option.ite_none_right_eq_some, Bool.and_eq_true, and_assoc, Option.some.injEq, eq_comm (a := lamp)]

end

theorem displayLamps : Claim.DisplayLamps := by
  refine fun e => ⟨Entry.displayLamps_discrete, fun h => ?_, Entry.displayLamps_valve⟩
  rw [Entry.displayLamps_analogue h]
  exact ⟨by simp, fun i hi => by simp [hi]⟩

/-- The chain of a lamp is the one whose number its thousand (of 1,024) gives (R25). -/
theorem chainOfLamp_of_index {lamp : Nat} {k : ChainId} (h : lamp / 1024 = chainIndex k) :
    chainOfLamp lamp = k := by
  unfold chainOfLamp
  rw [h]
  cases k <;> rfl

theorem exists_chainIndex {i : Nat} : (∃ k, i = chainIndex k) ↔ i < 4 := by
  refine ⟨fun ⟨k, hk⟩ => ?_, fun h => ?_⟩
  · cases k <;> exact hk ▸ by decide
  · interval_cases i
    exacts [⟨.a, rfl⟩, ⟨.b, rfl⟩, ⟨.c, rfl⟩, ⟨.d, rfl⟩]

theorem Chains.present_iff (c : Chains) (lamp : Nat) : c.present lamp = true ↔
    ∃ k, lamp / 1024 = chainIndex k ∧ lamp % 1024 / 64 < (c.get k).count := by
  have onBoard : lamp < Config.lampCount ↔ ∃ k, lamp / 1024 = chainIndex k := by
    rw [exists_chainIndex, Nat.div_lt_iff_lt_mul (by decide)]
    rfl
  unfold Chains.present cardOfLamp
  rw [Bool.and_eq_true, decide_eq_true_iff, decide_eq_true_iff, onBoard, ← exists_and_right]
  exact exists_congr fun k => and_congr_right fun hk => by rw [chainOfLamp_of_index hk]

theorem lampsPresent : Claim.LampsPresent := ⟨Chains.present_iff, rfl, fun _ => ⟨rfl, rfl, rfl, rfl⟩⟩

/-! ## Display patterns (R64, R69, R73, R79) -/

section
variable (e : Entry) (d r : Nat) (high low : Bool)

theorem displayPatterns_analogue_length (stale : Bool) :
    (displayPatterns e (.analogue d high low) r stale).length = e.barLength := by
  simp [displayPatterns]

variable {i : Nat} (hi : i < e.barLength)
include hi

theorem displayPatterns_bar_fresh :
    (displayPatterns e (.analogue d high low) r false).getD i .off = barPattern e d r i := by
  simp [displayPatterns, List.getD, hi]

theorem displayPatterns_bar_stale :
    (displayPatterns e (.analogue d high low) r true).getD i .off = staleBarPattern d i := by
  simp [displayPatterns, List.getD, hi]

end

/-- A bar that marks nothing is lit up to its count (R69). -/
theorem barPattern_unmarked {e : Entry} (h : e.marking = false) (d r i : Nat) :
    barPattern e d r i = if i < d then .steady else .off := by
  unfold barPattern
  rw [if_neg (by simp [h]), if_neg (by simp [h])]

/-- A bar that marks shows a value beyond its span on its last or first lamp (R69). -/
theorem barPattern_marked {e : Entry} (h : e.marking = true) (d r i : Nat) : barPattern e d r i =
    if e.full < r ∧ i = e.barLength - 1 then .slow
    else if r < e.zero ∧ i = 0 then .slow
    else if i < d then .steady else .off := by
  unfold barPattern
  simp only [h, true_and]

theorem patternsOfAKind : Claim.PatternsOfAKind := by
  refine fun e r kind => ⟨?_, ?_, ?_, ?_, ?_⟩
  · rintro rfl
    exact ⟨rfl, rfl⟩
  · rintro pos timer ov rfl
    exact ⟨rfl, by cases pos <;> rfl⟩
  · rintro d high low rfl hm i hi
    exact ⟨(displayPatterns_bar_fresh e d r high low hi).trans (barPattern_unmarked hm d r i),
      displayPatterns_bar_stale e d r high low hi⟩
  · rintro d high low rfl hm i hi
    exact ⟨(displayPatterns_bar_fresh e d r high low hi).trans (barPattern_marked hm d r i),
      displayPatterns_bar_stale e d r high low hi⟩
  · rintro d high low stale rfl
    exact displayPatterns_analogue_length e d r high low stale

/-- Settles O32 (`displayPatterns` names the model's own function): the lamps by the kind, presence by the chain of a
lamp, the patterns by the kind's items. -/
theorem displayPatterns_hold : Obligations.DisplayPatterns :=
  ⟨displayLamps, fun _ => ⟨Entry.alarmCapable_iff, fun _ => Entry.alarmLamp_iff, rfl⟩, lampsPresent,
    patternsOfAKind⟩

/-! ## The judging of a later value (R65, R66, R68, R70 to R74, R76) -/

section
variable {e : Entry} {v : ValueRec} {r : Nat}

theorem judgeLater_discrete (h : v.kind = .discrete) : judgeLater e v r = (.discrete, discreteCondition e r) := by
  unfold judgeLater; rw [h]

theorem judgeLater_valve {pos : Position} {timer : Option Nat} {ov : Bool} (h : v.kind = .valve pos timer ov) :
    judgeLater e v r = (.valve (positionOf r) (nextTimer e pos timer (positionOf r))
      (ov && positionOf r == .travel), valveCondition (positionOf r) (ov && positionOf r == .travel)) := by
  unfold judgeLater; rw [h]

theorem discreteCondition_level (h : e.mode = some .level) :
    discreteCondition e r = if r = e.active then .abnormal .level else .normal := by
  simp only [discreteCondition, h, true_and]

theorem discreteCondition_edge (h : e.mode ≠ some .level) : discreteCondition e r = .normal :=
  if_neg fun hl => h hl.1

/-- Which edges qualify, by the mode (R66). -/
theorem qualifyingEdge_iff {previous : Nat} : qualifyingEdge e previous r = true ↔
    (e.mode = some .rising ∧ previous = 0 ∧ r = 1) ∨ (e.mode = some .falling ∧ previous = 1 ∧ r = 0)
      ∨ (e.mode = some .both ∧ previous ≠ r) := by
  unfold qualifyingEdge
  split <;> rename_i hm <;> simp [hm]

/-- A qualifying edge of a DISCRETE point is reported as momentary, whatever its condition (R66). -/
theorem laterReport_momentary {new : Condition} (hk : v.kind = .discrete)
    (he : qualifyingEdge e v.last r = true) : laterReport e v r new = .momentary := if_pos ⟨hk, he⟩

/-- Without an edge the report goes by the conditions before and after (R62). -/
theorem laterReport_noEdge {new : Condition} (h : v.kind = .discrete → ¬ qualifyingEdge e v.last r = true) :
    laterReport e v r new = reportOf v.condition new := if_neg fun he => h he.1 he.2

theorem qualifyingEdge_level (h : e.mode = some .level) : ¬ qualifyingEdge e v.last r = true := by
  simp [qualifyingEdge_iff, h]

/-- Back and forth between a condition and itself there is nothing to report. -/
theorem reportOf_same (x : Condition) : reportOf x x = .none := by
  cases x with
  | normal => rfl
  | abnormal c => exact if_pos rfl

/-- A cause that has changed is reported with the new cause (R72, R76). -/
theorem reportOf_causes {c c' : Cause} (h : c ≠ c') :
    reportOf (.abnormal c) (.abnormal c') = .causeChange c' := if_neg h

end

theorem discreteJudged : Claim.DiscreteJudged := by
  intro e v r hk
  rw [judgeLater_discrete hk]
  have byLevel (hm : e.mode = some .level) (new : Condition) :
      laterReport e v r new = reportOf v.condition new :=
    laterReport_noEdge fun _ => qualifyingEdge_level hm
  refine ⟨rfl, discreteCondition_level, discreteCondition_edge, fun hm hc hr => ?_, fun hm hc hr => ?_,
    fun hm h => ?_, fun hc hm => ?_⟩
  · rw [byLevel hm, hc, discreteCondition_level hm, if_pos hr]; rfl
  · rw [byLevel hm, hc, discreteCondition_level hm, if_neg hr]; rfl
  · rw [byLevel hm, discreteCondition_level hm]
    rcases h with ⟨hc, hr⟩ | ⟨hc, hr⟩
    · rw [hc, if_neg hr, reportOf_same]
    · rw [hc, if_pos hr, reportOf_same]
  · have momentary (h : qualifyingEdge e v.last r = true) :=
      laterReport_momentary (new := discreteCondition e r) hk h
    have silent (h : ¬ qualifyingEdge e v.last r = true) : laterReport e v r (discreteCondition e r) = .none := by
      rw [laterReport_noEdge fun _ => h, hc, discreteCondition_edge hm, reportOf_same]
    refine ⟨fun h h0 h1 => momentary ?_, fun h h1 h0 => momentary ?_, fun h hn => silent ?_,
      fun h hn => silent ?_, fun h => silent ?_, fun h => silent ?_⟩ <;> rw [qualifyingEdge_iff]
    · rcases h with h | h
      · exact .inl ⟨h, h0, h1⟩
      · exact .inr (.inr ⟨h, by omega⟩)
    · rcases h with h | h
      · exact .inr (.inl ⟨h, h1, h0⟩)
      · exact .inr (.inr ⟨h, by omega⟩)
    · simpa [h] using hn
    · simpa [h] using hn
    · rintro (⟨-, h0, h1⟩ | ⟨-, h1, h0⟩ | ⟨-, hne⟩)
      · omega
      · omega
      · exact hne h
    · rcases h with h | h <;> simp [h]

theorem analogueJudged : Claim.AnalogueJudged := by
  intro e v r d high low h
  unfold judgeLater
  rw [h]

theorem valveJudged : Claim.ValveJudged := by
  intro e v r pos timer ov hk
  rw [judgeLater_valve hk]
  refine ⟨⟨rfl, rfl, rfl, rfl⟩, fun new hn h => ?_, fun hn hp ho => ?_, fun hn hp => ?_, fun hn => ?_⟩
  · rw [hn]
    rcases h with rfl | rfl <;> cases ov <;> rfl
  · rw [hn, ho]
    unfold nextTimer
    rw [if_pos rfl, if_neg hp]
    rfl
  · rw [hn, hp]
    cases ov <;> rfl
  · rw [hn]
    cases ov <;> rfl

theorem reportOfAChange : Claim.ReportOfAChange := by
  intro e v r hk
  have byChange (new : Condition) : laterReport e v r new = reportOf v.condition new :=
    laterReport_noEdge fun h => absurd h hk
  simp only [byChange]
  refine ⟨fun h => ?_, fun c h => ?_, fun c h => ?_, fun c h => ?_, fun c c' h hne => ?_⟩ <;> rw [h]
  · exact reportOf_same _
  · rfl
  · rfl
  · exact reportOf_same _
  · exact reportOf_causes hne

/-! ## Source items (R10, R51, R54, R59) -/

theorem State.mem_pointsAt {s : State} {a : Addr} {n : Nat} :
    n ∈ s.pointsAt a ↔ (a.toNat, n) ∈ s.loader.watch := by
  simp [State.pointsAt]

theorem pointsOfAnAddress : Claim.PointsOfAnAddress := fun s a =>
  ⟨fun _ => State.mem_pointsAt, by
    unfold State.installingAt
    rw [List.any_eq_true]
    exact exists_congr fun n => and_congr_left fun _ => State.mem_pointsAt⟩

section
variable {s : State} {item : CaptureItem} {rest : List CaptureItem}

/-- A whole item from outside the region is the Evaluator's, unless a point of its address is installing. -/
theorem sourceItem_front (hc : s.path.capture = item :: rest) (hw : item.partialItem = false)
    (ho : regionOffset s.path.base item.addr = none) (hi : s.installingAt item.addr = false) :
    s.sourceItem = some item := by
  unfold State.sourceItem
  rw [hc]
  exact if_pos ⟨hw, ho, hi⟩

theorem takeSourceItem_takes (hn : s.evaluator.item = none) (hs : s.sourceItem = some item) :
    takeSourceItem s = (popCapture s).setEvaluator
      { s.evaluator with item := some ⟨item.data, s.pointsAt item.addr⟩ } := by
  unfold takeSourceItem; rw [hn, hs]

/-- With an item in progress none is taken. -/
theorem takeSourceItem_busy {it : ItemInProgress} (h : s.evaluator.item = some it) : takeSourceItem s = s := by
  unfold takeSourceItem; rw [h]

/-- An evaluation carried over all the points left ends the item (R59). -/
theorem evaluateItem_all {it : ItemInProgress} {k : Nat} (h : s.evaluator.item = some it)
    (hk : it.points.length ≤ k) : evaluateItem k s =
      (overPoints (evaluateLater it.data) it.points s).setEvaluator
        { (overPoints (evaluateLater it.data) it.points s).evaluator with item := none } := by
  unfold evaluateItem
  rw [h]
  dsimp only
  rw [List.take_of_length_le hk, if_pos (List.drop_eq_nil_of_le hk)]

end

theorem exec_sourceItemEvaluation {s : State} (hs : s.tickDone) (k : Nat) :
    exec (.sourceItemEvaluation k) s = .next (settle (evaluateItem k (takeSourceItem s))) :=
  exec_settles hs rfl

theorem sourceItemEvaluation : Claim.SourceItemEvaluation := by
  refine ⟨fun s t item rest k hs hn hc hw ho hi hk ht => ?_, fun s it k hs hi => ?_⟩
  · have taken : takeSourceItem s = (s.setPath { s.path with capture := rest }).setEvaluator
        { s.evaluator with item := some ⟨item.data, s.pointsAt item.addr⟩ } := by
      rw [takeSourceItem_takes hn (sourceItem_front hc hw ho hi), popCapture, hc]
      rfl
    have inProgress : (takeSourceItem s).evaluator.item = some ⟨item.data, s.pointsAt item.addr⟩ := by
      rw [taken]; rfl
    have capture : (takeSourceItem s).path.capture = rest := by rw [taken]; rfl
    have carried : Changes pointParts (takeSourceItem s) t := by
      rw [ht, ← taken]
      exact overPoints_changes (evaluateLater_changes _) _ _
    refine ⟨?_, Eq.trans (carried .pathCapture (by decide)) capture, (takeSourceItem_changes s).then carried⟩
    rw [exec_sourceItemEvaluation hs, evaluateItem_all inProgress hk, ht, ← taken]
  · rw [exec_sourceItemEvaluation hs, takeSourceItem_busy hi]

/-! ## What a report depends on (R85, R86) -/

section
variable {l parts : List Part} (hl : parts.all (fun p => !l.contains p) = true)
include hl

theorem not_mem_of_absent {p : Part} (hp : p ∈ parts) : p ∉ l :=
  fun hpl => by simpa [hpl] using List.all_eq_true.mp hl p hp

theorem absent_mono {sub : List Part} (h : ∀ p ∈ sub, p ∈ parts) : sub.all (fun p => !l.contains p) = true :=
  List.all_eq_true.mpr fun p hp => List.all_eq_true.mp hl p (h p hp)

end

/-- The parts that an event's record and its reception depend on (R163 to R165). -/
def eventSourceParts : List Part := .loaderCfg :: .genSeconds :: eventUnitParts

/-- An event depends on the Event Unit, the board second and the configuration state alone. -/
theorem record_events_of_changes {l : List Part} {s u : State} (h : Changes l s u) (k : EventKind) (o : Origin)
    (a d : Nat) (hl : eventSourceParts.all (fun p => !l.contains p) = true := by rfl) :
    (record k o a d u).events = (record k o a d s).events := by
  have same := h.keepsAll hl
  have cfg : u.loader.cfg = s.loader.cfg := same .loaderCfg (by decide)
  have seconds : u.gen.seconds = s.gen.seconds := same .genSeconds (by decide)
  have events : u.events = s.events := events_of_changes h (absent_mono hl (by decide))
  by_cases hc : s.loader.cfg = .unconfigured
  · rw [record_unconfigured (cfg.trans hc), record_unconfigured hc, events]
  · rw [record_configured (fun hu => hc (cfg.symm.trans hu)), record_configured hc, events, seconds]
    rfl

section
variable {n : Nat} {rep : Report} {s u : State}

/-- A report with an effect finds its point's record. -/
theorem effect_some {new : AnnState} {kind : EventKind} {d : Nat}
    (h : (s.annState n).bind rep.effect = some (new, kind, d)) :
    ∃ r, s.ann.records.look n = some r ∧ rep.effect r.state = some (new, kind, d) := by
  obtain ⟨x, hx, he⟩ := Option.bind_eq_some_iff.mp h
  obtain ⟨r, hr, rfl⟩ := look_of_annState hx
  exact ⟨r, hr, he⟩

/-- The event of a report is told as on the state the report finds. -/
theorem takeReport_events {r : AnnRec} {new : AnnState} {kind : EventKind} {d : Nat}
    (h : s.ann.records.look n = some r) (he : rep.effect r.state = some (new, kind, d)) :
    (takeReport n rep s).events = (record kind .part n d s).events := by
  rw [takeReport_effect h he]
  exact (events_of_changes (decideHorn_changes _)).trans
    (record_events_of_changes (transition_changes n new s) kind .part n d)

theorem takeReport_annState_other {m : Nat} (h : m ≠ n) : (takeReport n rep s).annState m = s.annState m := by
  unfold takeReport
  split
  · rename_i new kind d _
    have after : Changes (.annHornClass :: eventParts) (transition n new s) _ :=
      (record_changes kind .part n d _).then (decideHorn_changes _)
    exact (annState_of_changes after (by decide) m).trans (transition_other s new h)
  · rfl

/-- A report moves no stale count (R94, R95). -/
theorem takeReport_stale (n : Nat) (rep : Report) (s : State) (g : Nat) :
    ((takeReport n rep s).counts g).stale = (s.counts g).stale := by
  cases h : (s.annState n).bind rep.effect with
  | none => rw [takeReport_noEffect h]
  | some x =>
    obtain ⟨r, hr, he⟩ := effect_some h
    obtain ⟨-, -, -, -, stale, others⟩ := (takeReport_moved hr he).1
    by_cases hg : g = r.group
    · rw [hg]; exact stale
    · rw [others g hg]

section
variable (state : u.annState n = s.annState n)
include state

theorem takeReport_annState_congr : (takeReport n rep u).annState n = (takeReport n rep s).annState n := by
  cases h : (s.annState n).bind rep.effect with
  | none => rw [takeReport_noEffect h, takeReport_noEffect (by rw [state]; exact h), state]
  | some x =>
    obtain ⟨r, hr, he⟩ := effect_some h
    obtain ⟨r', hr', he'⟩ := effect_some (s := u) (by rw [state]; exact h)
    rw [takeReport_state hr he, takeReport_state hr' he']

theorem takeReport_unack_congr (unack : u.ann.unack = s.ann.unack) :
    (takeReport n rep u).ann.unack = (takeReport n rep s).ann.unack := by
  cases h : (s.annState n).bind rep.effect with
  | none => rw [takeReport_noEffect h, takeReport_noEffect (by rw [state]; exact h), unack]
  | some x =>
    obtain ⟨r, hr, he⟩ := effect_some h
    obtain ⟨r', hr', he'⟩ := effect_some (s := u) (by rw [state]; exact h)
    have old : s.annState n = some r.state := by unfold State.annState; rw [hr]; rfl
    rw [takeReport_unack hr he, takeReport_unack hr' he', transition_unack _ old,
      transition_unack _ (state.trans old), unack]

theorem takeReport_events_congr {l : List Part} (h : Changes l s u)
    (hl : eventSourceParts.all (fun p => !l.contains p) = true := by rfl) :
    (takeReport n rep u).events = (takeReport n rep s).events := by
  cases hx : (s.annState n).bind rep.effect with
  | none =>
    rw [takeReport_noEffect hx, takeReport_noEffect (by rw [state]; exact hx)]
    exact events_of_changes h (absent_mono hl (by decide))
  | some x =>
    obtain ⟨r, hr, he⟩ := effect_some hx
    obtain ⟨r', hr', he'⟩ := effect_some (s := u) (by rw [state]; exact hx)
    rw [takeReport_events hr he, takeReport_events hr' he', record_events_of_changes h _ _ _ _ hl]

end

/-- An onset at a QUIET point: NEW, at the end of the list, RAISED with its cause (R86, R91, R92). -/
theorem takeReport_onset_quiet {c : Cause} (h : s.annState n = some .quiet) :
    (takeReport n (.onset c) s).annState n = some .new
      ∧ (takeReport n (.onset c) s).ann.unack = s.ann.unack ++ [n]
      ∧ (s.onBoard → s.events.queue.length < 32 → (takeReport n (.onset c) s).events.queue
          = s.events.queue ++ [s.eventOf .raised .part n c.code]) := by
  obtain ⟨r, hr, hs⟩ := look_of_annState h
  have he : (Report.onset c).effect r.state = some (.new, .raised, c.code) := by rw [hs]; rfl
  refine ⟨takeReport_state hr he, ?_, fun hb hq => ?_⟩
  · rw [takeReport_unack hr he, transition_unack .new h]
    rfl
  · rw [takeReport_events hr he, record_queue hb hq]

/-- A SHELVED point takes no transition and tells nothing (R87). -/
theorem takeReport_shelved (h : s.annState n = some .shelved) : takeReport n rep s = s := by
  refine takeReport_noEffect ?_
  rw [h]
  cases rep <;> rfl

/-- A transition told from a state is told from one with the same counts, settings and held words. -/
theorem State.moved.of_source {l : List Part} {t : State} {r : AnnRec} {new : AnnState}
    (m : u.moved t n r new) (h : Changes l s u)
    (hl : [Part.annGroups, .loaderGroups, .loaderPoints].all (fun p => !l.contains p) = true := by rfl) :
    s.moved t n r new := by
  have absent {p : Part} := not_mem_of_absent hl (p := p)
  unfold State.moved State.countsMoved State.lampsFollow State.entryOf at m ⊢
  rw [counts_of_changes h (absent (by decide)), settings_of_changes h (absent (by decide)),
    point_of_changes h (absent (by decide))] at m
  exact m

/-- The parts that the onset of an overrun is judged by. -/
def onsetParts : List Part :=
  [.annRecords, .annUnack, .annGroups, .loaderGroups, .loaderPoints] ++ eventSourceParts

/-- The onset of an overrun taken on a state that differs only in what a report does not read (R75, R85 to R88,
R91, R94, R96). -/
theorem takeReport_overrunTaken {l : List Part} (h : Changes l s u)
    (hl : onsetParts.all (fun p => !l.contains p) = true := by rfl) :
    s.overrunTaken (takeReport n (.onset .overrun) u) n := by
  have same := h.keepsAll hl
  have records : u.ann.records = s.ann.records := same .annRecords (by decide)
  have state : u.annState n = s.annState n := by unfold State.annState; rw [records]
  have events := takeReport_events_congr (rep := .onset .overrun) state h (absent_mono hl (by decide))
  rw [State.overrunTaken, takeReport_annState_congr state,
    takeReport_unack_congr state (same .annUnack (by decide)), events]
  refine ⟨rfl, rfl, rfl, rfl, fun r new kind d hr he => ?_, takeReport_onset_quiet, fun hx => ?_⟩
  · exact (takeReport_moved (s := u) (by rw [records]; exact hr) he).of_source h (absent_mono hl (by decide))
  · rw [takeReport_shelved hx]
    exact ⟨hx, rfl⟩

/-- What is said of an onset holds of a state with the same annunciation, queue and lamps. -/
theorem State.overrunTaken.of_changes {l : List Part} {t t' : State} (o : s.overrunTaken t n) (h : Changes l t t')
    (hl : [Part.annRecords, .annUnack, .annGroups, .genPatterns, .eventsQueue, .eventsLost].all
      (fun p => !l.contains p) = true := by rfl) : s.overrunTaken t' n := by
  have absent {p : Part} := not_mem_of_absent hl (p := p)
  have unack : t'.ann.unack = t.ann.unack := h .annUnack (absent (by decide))
  have queue : t'.events.queue = t.events.queue := h .eventsQueue (absent (by decide))
  have lost : t'.events.lost = t.events.lost := h .eventsLost (absent (by decide))
  obtain ⟨state, list, told, uncounted, moved, quiet, shelved⟩ := o
  rw [State.overrunTaken, annState_of_changes h (absent (by decide)) n, unack, queue, lost]
  exact ⟨state, list, told, uncounted, fun r new kind d hr he => (moved r new kind d hr he).of_changes h
    (absent (by decide)) (absent (by decide)), quiet, shelved⟩

end

/-! ## The lamps of a point, and the lamps beside them (R46, R63, R113) -/

section
variable {s t u : State} {e : Entry} {g : Nat} {ps : List Pattern}

/-- A display handed where the lamps stand, those beside it apart. -/
theorem handDisplay_displayed (v : ValueRec)
    (h : ∀ lamp, ¬ s.besideDisplay e g lamp → t.patternOf lamp = s.patternOf lamp) :
    s.displayed (handDisplay e v t) e g v.handed :=
  ⟨fun _ _ _ hl hp _ => handDisplay_at e v t hl hp,
    fun lamp hl hb => (handDisplay_other e v t hl).trans (h lamp hb)⟩

/-- What follows a display and moves only lamps beside it leaves it displayed. -/
theorem State.displayed.after (d : s.displayed t e g ps)
    (h : ∀ lamp, ¬ s.besideDisplay e g lamp → u.patternOf lamp = t.patternOf lamp) : s.displayed u e g ps :=
  ⟨fun i lamp p hl hp hb => (h lamp hb).trans (d.1 i lamp p hl hp hb),
    fun lamp hl hb => (h lamp hb).trans (d.2 lamp hl hb)⟩

/-- The alarm lamp of the point and the summary lamp of its group are all that a report moves (R88, R96). -/
theorem takeReport_lamp {l : List Part} {n lamp : Nat} {rep : Report} (h : Changes l s t)
    (he : s.entryOf n = some e) (ha : e.alarmLamp ≠ some lamp)
    (hs : ∀ r, s.ann.records.look n = some r → (s.settings r.group).summary.claimed ≠ some lamp)
    (hl : [Part.loaderGroups, .loaderPoints, .annRecords].all (fun p => !l.contains p) = true := by rfl) :
    (takeReport n rep t).patternOf lamp = t.patternOf lamp := by
  have absent {p : Part} := not_mem_of_absent hl (p := p)
  have records : t.ann.records = s.ann.records := h .annRecords (absent (by decide))
  refine takeReport_other_lamp (fun e' he' => ?_) (fun r hr => ?_)
  · rw [State.entryOf, point_of_changes h (absent (by decide))] at he'
    cases he.symm.trans he'
    exact ha
  · rw [settings_of_changes h (absent (by decide))]
    exact hs r (by rw [← records]; exact hr)

/-- A report leaves the display of its point, with the group of the point's record among the lamps beside it. -/
theorem State.displayed.takeReport {l : List Part} {n : Nat} {rep : Report} (d : s.displayed t e g ps)
    (h : Changes l s t) (he : s.entryOf n = some e)
    (hg : ∀ r, s.ann.records.look n = some r → r.group = g)
    (hl : [Part.loaderGroups, .loaderPoints, .annRecords].all (fun p => !l.contains p) = true := by rfl) :
    s.displayed (takeReport n rep t) e g ps :=
  d.after fun lamp hb => by
    obtain ⟨alarm, summary, -⟩ : _ ∧ _ ∧ _ := by simpa [State.besideDisplay] using hb
    exact takeReport_lamp h he alarm (fun r hr => by rw [hg r hr]; exact summary) hl

theorem State.displayed.of_changes {l : List Part} (d : s.displayed t e g ps) (h : Changes l t u)
    (hl : .genPatterns ∉ l := by decide) : s.displayed u e g ps :=
  d.after fun _ _ => by rw [patternOf_of_changes h hl]

end

/-! ## One value record (R58) -/

@[simp] theorem setValue_look (n : Nat) (v : ValueRec) (s : State) :
    (setValue n v s).evaluator.values.look n = some v := Table.look_put_same _ _ _

theorem setValue_look_other {n m : Nat} (v : ValueRec) (s : State) (h : m ≠ n) :
    (setValue n v s).evaluator.values.look m = s.evaluator.values.look m := Table.look_put_other _ _ h

theorem mem_dropDue {n m : Nat} {s : State} :
    m ∈ (dropDue n s).evaluator.secondDue ↔ m ∈ s.evaluator.secondDue ∧ m ≠ n := by
  simp [dropDue]

/-! ## Counting the age and the travel timer (R74, R75, R77, R78) -/

section
variable {v : ValueRec} {e : Entry}

theorem staling_iff : v.staling e = true ↔ 0 < e.timeout ∧ v.stale = false ∧ e.timeout ≤ v.age + 1 := by
  simp [ValueRec.staling, and_assoc]

theorem expiring_iff : v.expiring = true ↔ ∃ pos t ov, v.kind = .valve pos (some t) ov ∧ t ≤ 1 := by
  unfold ValueRec.expiring
  split
  · rename_i hk
    simp [hk]
  all_goals
    rename_i hk
    simp [hk]

theorem countAge_staling (h : v.staling e = true) : v.countAge e = { v with age := min 255 (v.age + 1) } := by
  obtain ⟨timeout, fresh, -⟩ := staling_iff.mp h
  exact if_pos ⟨timeout, fresh⟩

theorem countAge_age : (v.countAge e).age
    = if 0 < e.timeout ∧ v.stale = false then min 255 (v.age + 1) else v.age := by
  unfold ValueRec.countAge; split_ifs <;> rfl

/-- The age is all that the count of it moves. -/
theorem countAge_eq : v.countAge e = { v with age := (v.countAge e).age } := by
  unfold ValueRec.countAge; split_ifs <;> rfl

/-- A travel timer one second on, if it does not expire (R74). -/
def KindState.counted : KindState → KindState
  | .valve pos (some t) ov => .valve pos (some (t - 1)) ov
  | k => k

theorem countTimer_running (h : v.expiring = false) : v.countTimer = { v with kind := v.kind.counted } := by
  have stands (hk : v.kind.counted = v.kind) : v = { v with kind := v.kind.counted } := by rw [hk]
  unfold ValueRec.countTimer
  split
  · rename_i pos t ov hk
    have ht : ¬ t ≤ 1 := fun ht => ne_true_of_eq_false h (expiring_iff.mpr ⟨pos, t, ov, hk, ht⟩)
    rw [if_neg ht, hk]
    rfl
  all_goals
    rename_i hk
    exact stands (by rw [hk]; rfl)

theorem countTimer_expired {pos : Position} {ov : Bool} (h : v.kind = .valve pos (some 1) ov) :
    v.countTimer = { v with kind := .valve pos none true, condition := .abnormal .overrun } := by
  unfold ValueRec.countTimer; rw [h]; rfl

/-- The record of a point after the first half of a board second's step: the age counted and, where it reaches the
timeout, stale with the stale patterns (R77 to R79). -/
def ValueRec.aged (v : ValueRec) (e : Entry) : ValueRec :=
  if v.staling e then ValueRec.withPatterns { v.countAge e with stale := true } e else v.countAge e

theorem aged_staling (h : v.staling e = true) : v.aged e = { v with
    age := min 255 (v.age + 1), stale := true, handed := displayPatterns e v.kind v.last true } := by
  unfold ValueRec.aged
  rw [if_pos h, countAge_staling h]
  rfl

theorem aged_fresh (h : v.staling e = false) : v.aged e = { v with
    age := if 0 < e.timeout ∧ v.stale = false then min 255 (v.age + 1) else v.age } := by
  unfold ValueRec.aged
  rw [if_neg (ne_true_of_eq_false h), ← countAge_age]
  exact countAge_eq

theorem aged_kind (v : ValueRec) (e : Entry) : (v.aged e).kind = v.kind := by
  cases h : v.staling e with
  | true => rw [aged_staling h]
  | false => rw [aged_fresh h]

theorem aged_expiring (v : ValueRec) (e : Entry) : (v.aged e).expiring = v.expiring := by
  unfold ValueRec.expiring; rw [aged_kind]

end

/-! ## The report of a point that becomes stale (R78, R95, R96) -/

theorem staleReport_counts (g h : Nat) (s : State) : (staleReport g s).counts h =
    if h = g then { s.counts g with stale := (s.counts g).stale + 1 } else s.counts h := by
  unfold staleReport
  rw [counts_of_changes (handStale_changes g _)]
  exact State.counts_setCounts g h _ s

/-- STALE recorded and the stale report taken (R78, R95). -/
def State.staleTold (s : State) (n g : Nat) : State := staleReport g (record .stale .part n 0 s)

section
variable (s : State) (n g : Nat)

theorem staleTold_changes : Changes (.annGroups :: imageParts ++ eventParts) s (s.staleTold n g) :=
  (record_changes _ _ _ _ s).then (staleReport_changes _ _)

theorem staleTold_counts (h : Nat) : (s.staleTold n g).counts h =
    if h = g then { s.counts g with stale := (s.counts g).stale + 1 } else s.counts h := by
  unfold State.staleTold
  rw [staleReport_counts, counts_of_changes (record_changes _ _ _ _ s)]

theorem staleTold_events : (s.staleTold n g).events = (record .stale .part n 0 s).events :=
  events_of_changes (staleReport_changes g _)

variable {g} in
theorem staleTold_other {lamp : Nat} (h : (s.settings g).staleLamp.claimed ≠ some lamp) :
    (s.staleTold n g).patternOf lamp = s.patternOf lamp := by
  have recorded : Changes eventParts s (record .stale .part n 0 s) := record_changes _ _ _ _ s
  refine (handStale_other (s := setCounts g _ (record .stale .part n 0 s)) ?_).trans
    (congrFun (patternOf_of_changes recorded) lamp)
  show ((record .stale .part n 0 s).settings g).staleLamp.claimed ≠ some lamp
  rw [settings_of_changes recorded]
  exact h

variable {g} in
/-- With a stale point more, the stale lamp is STEADY (R96). -/
theorem staleTold_steady {lamp : Nat} (h : (s.settings g).staleLamp.claimed = some lamp) :
    (s.staleTold n g).patternOf lamp = .steady := by
  have recorded : Changes eventParts s (record .stale .part n 0 s) := record_changes _ _ _ _ s
  have shows : (s.staleTold n g).patternOf lamp
      = if 0 < ((s.staleTold n g).counts g).stale then .steady else .off := by
    refine handStale_shows (s := setCounts g _ (record .stale .part n 0 s)) ?_
    show ((record .stale .part n 0 s).settings g).staleLamp.claimed = some lamp
    rw [settings_of_changes recorded]
    exact h
  rw [shows, staleTold_counts, if_pos rfl, if_pos (Nat.succ_pos _)]

end

/-! ## Reports beside the Evaluator's block -/

section
variable (s : State) (x : Evaluator)

theorem record_setEvaluator (k : EventKind) (o : Origin) (a d : Nat) :
    record k o a d (s.setEvaluator x) = (record k o a d s).setEvaluator x := by
  refine Eq.trans ?_ (apply_ite (fun t : State => t.setEvaluator x) _ _ _).symm
  rfl

theorem touchWord_setEvaluator (w : Nat) : touchWord w (s.setEvaluator x) = (touchWord w s).setEvaluator x := by
  refine Eq.trans ?_ (apply_ite (fun t : State => t.setEvaluator x) _ _ _).symm
  rfl

theorem setPattern_setEvaluator (lamp : Nat) (p : Pattern) :
    setPattern lamp p (s.setEvaluator x) = (setPattern lamp p s).setEvaluator x := by
  refine Eq.trans ?_ (apply_ite (fun t : State => t.setEvaluator x) _ _ _).symm
  rw [← touchWord_setEvaluator]
  rfl

theorem handStale_setEvaluator (g : Nat) : handStale g (s.setEvaluator x) = (handStale g s).setEvaluator x := by
  have settings : (s.setEvaluator x).settings g = s.settings g := rfl
  unfold handStale
  rw [settings]
  cases (s.settings g).staleLamp.claimed with
  | none => rfl
  | some lamp => exact setPattern_setEvaluator s x lamp _

/-- The report of a stale point reads and moves nothing of the Evaluator's. -/
theorem staleTold_setEvaluator (n g : Nat) :
    (s.setEvaluator x).staleTold n g = (s.staleTold n g).setEvaluator x := by
  unfold State.staleTold
  rw [record_setEvaluator]
  exact handStale_setEvaluator (setCounts g _ (record .stale .part n 0 s)) x g

theorem staleTold_evaluator (n g : Nat) : (s.staleTold n g).evaluator = s.evaluator := by
  have told : ((s.setEvaluator s.evaluator).staleTold n g).evaluator = s.evaluator := by
    rw [staleTold_setEvaluator]; rfl
  exact told

end

/-! ## The board second's step at a point (R74, R75, R77 to R79, R81) -/

section
variable (s : State) (n : Nat) (e : Entry) (v : ValueRec)

/-- The board second's step at a point up to the report of an overrun: no longer due, the age and the travel timer
counted, staleness told and shown (R77 to R79, R81). -/
def State.secondCounted : State := setValue n (v.aged e).countTimer (ageAt n e v (dropDue n s))

theorem ageAt_values : (ageAt n e v s).evaluator.values = s.evaluator.values.put n (v.aged e) := by
  unfold ageAt ValueRec.aged
  split_ifs
  · refine Eq.trans (handDisplay_changes _ _ _ .evaluatorValues (by decide)) ?_
    refine Eq.trans (staleReport_changes _ _ .evaluatorValues (by decide)) ?_
    exact record_changes _ _ _ _ _ .evaluatorValues (by decide)
  · rfl

theorem secondAt_some (hv : s.evaluator.values.look n = some v) (he : s.entryOf n = some e) :
    secondAt n s = if v.expiring then takeReport n (.onset .overrun) (s.secondCounted n e v)
      else s.secondCounted n e v := by
  have aged : (ageAt n e v (dropDue n s)).evaluator.values.look n = some (v.aged e) := by
    rw [ageAt_values]; exact Table.look_put_same _ _ _
  unfold secondAt
  rw [hv, he]
  dsimp only
  unfold timerAt
  rw [aged]
  dsimp only
  rw [aged_expiring]
  rfl

theorem secondCounted_look :
    (s.secondCounted n e v).evaluator.values.look n = some (v.aged e).countTimer := setValue_look _ _ _

theorem secondCounted_look_other {m : Nat} (h : m ≠ n) :
    (s.secondCounted n e v).evaluator.values.look m = s.evaluator.values.look m := by
  refine (setValue_look_other _ _ h).trans ?_
  rw [ageAt_values]
  exact Table.look_put_other _ _ h

theorem secondCounted_due (m : Nat) :
    m ∈ (s.secondCounted n e v).evaluator.secondDue ↔ m ∈ s.evaluator.secondDue ∧ m ≠ n := by
  have due : (s.secondCounted n e v).evaluator.secondDue = (dropDue n s).evaluator.secondDue :=
    ageAt_changes n e v (dropDue n s) .evaluatorSecondDue (by decide)
  rw [due]
  exact mem_dropDue

/-- What follows the counting is at most a report. -/
theorem secondAt_after (hv : s.evaluator.values.look n = some v) (he : s.entryOf n = some e) :
    Changes reportParts (s.secondCounted n e v) (secondAt n s) := by
  rw [secondAt_some s n e v hv he]
  exact Changes.ite (takeReport_changes _ _ _) (.refl _ _)

theorem secondAt_look (hv : s.evaluator.values.look n = some v) (he : s.entryOf n = some e) :
    (secondAt n s).evaluator.values.look n = some (v.aged e).countTimer := by
  have values : (secondAt n s).evaluator.values = (s.secondCounted n e v).evaluator.values :=
    secondAt_after s n e v hv he .evaluatorValues (by decide)
  rw [values, secondCounted_look]

/-- A fresh point that stays so is only counted. -/
theorem secondCounted_fresh (h : v.staling e = false) :
    Changes [.evaluatorValues, .evaluatorSecondDue] s (s.secondCounted n e v) := by
  unfold State.secondCounted ageAt
  rw [if_neg (ne_true_of_eq_false h)]
  exact (setValue_changes _ _ _).after ((setValue_changes _ _ _).after (dropDue_changes n s).mono)

variable {e v}

/-- A point that becomes stale is counted beside the report that it does (R78, R79). -/
theorem secondCounted_staling (h : v.staling e = true) : s.secondCounted n e v =
    setValue n (v.aged e).countTimer (handDisplay e (v.aged e)
      (setValue n (v.aged e) (dropDue n (s.staleTold n e.group)))) := by
  have told : setValue n (v.aged e) (dropDue n (s.staleTold n e.group))
      = (setValue n (v.aged e) (dropDue n s)).staleTold n e.group := by
    unfold setValue dropDue
    rw [staleTold_setEvaluator, staleTold_setEvaluator, staleTold_evaluator]
    rfl
  have becomes : ageAt n e v (dropDue n s) = handDisplay e (v.aged e)
      ((setValue n (v.aged e) (dropDue n s)).staleTold n e.group) := by
    unfold ageAt ValueRec.aged
    rw [if_pos h, if_pos h]
    rfl
  rw [told, ← becomes]
  rfl

section
variable (h : v.staling e = true)
include h

theorem secondCounted_told : Changes ([.evaluatorValues, .evaluatorSecondDue] ++ imageParts)
    (s.staleTold n e.group) (s.secondCounted n e v) := by
  rw [secondCounted_staling s n h]
  refine (setValue_changes _ _ _).after ((handDisplay_changes _ _ _).after ?_)
  exact (setValue_changes _ _ _).after (dropDue_changes n _).mono

theorem secondCounted_changes :
    Changes ([.evaluatorValues, .evaluatorSecondDue, .annGroups] ++ imageParts ++ eventParts) s
      (s.secondCounted n e v) :=
  (staleTold_changes s n e.group).then (secondCounted_told s n h)

theorem secondCounted_displayed (g : Nat) :
    s.displayed (s.secondCounted n e v) e g (displayPatterns e v.kind v.last true) := by
  have shown : s.displayed (handDisplay e (v.aged e) (setValue n (v.aged e) (dropDue n (s.staleTold n e.group))))
      e g (v.aged e).handed :=
    handDisplay_displayed (v.aged e) fun lamp hb =>
      staleTold_other s n fun hl => hb (.inr (.inr hl))
  rw [secondCounted_staling s n h]
  rw [aged_staling h] at shown ⊢
  exact shown.of_changes (setValue_changes _ _ _)

theorem secondCounted_lamp {lamp : Nat} (hl : lamp ∉ e.displayLamps) :
    (s.secondCounted n e v).patternOf lamp = (s.staleTold n e.group).patternOf lamp := by
  rw [secondCounted_staling s n h]
  exact handDisplay_other e (v.aged e) (setValue n (v.aged e) (dropDue n (s.staleTold n e.group))) hl

theorem secondCounted_counts (g : Nat) : (s.secondCounted n e v).counts g =
    if g = e.group then { s.counts e.group with stale := (s.counts e.group).stale + 1 } else s.counts g := by
  rw [counts_of_changes (secondCounted_told s n h), staleTold_counts]

theorem secondCounted_events : (s.secondCounted n e v).events = (record .stale .part n 0 s).events :=
  (events_of_changes (secondCounted_told s n h)).trans (staleTold_events s n e.group)

end

end

section
variable {s : State} {n : Nat}

theorem secondAt_none (h : s.evaluator.values.look n = none ∨ s.entryOf n = none) :
    secondAt n s = dropDue n s := by
  unfold secondAt
  split
  · rename_i hv he
    rcases h with h | h
    · cases h.symm.trans hv
    · cases h.symm.trans he
  · rfl

/-- A point has a value record and its held words, or the board second finds nothing to do there. -/
theorem secondAt_cases (n : Nat) (s : State) : secondAt n s = dropDue n s
    ∨ ∃ v e, s.evaluator.values.look n = some v ∧ s.entryOf n = some e := by
  cases hv : s.evaluator.values.look n with
  | none => exact .inl (secondAt_none (.inl hv))
  | some v =>
    cases he : s.entryOf n with
    | none => exact .inl (secondAt_none (.inr he))
    | some e => exact .inr ⟨v, e, rfl, rfl⟩

theorem secondAt_look_other {m : Nat} (h : m ≠ n) :
    (secondAt n s).evaluator.values.look m = s.evaluator.values.look m := by
  rcases secondAt_cases n s with dropped | ⟨v, e, hv, he⟩
  · rw [dropped]; rfl
  · have values : (secondAt n s).evaluator.values = (s.secondCounted n e v).evaluator.values :=
      secondAt_after s n e v hv he .evaluatorValues (by decide)
    rw [values, secondCounted_look_other s n e v h]

theorem secondAt_notDue : n ∉ (secondAt n s).evaluator.secondDue := by
  rcases secondAt_cases n s with dropped | ⟨v, e, hv, he⟩
  · rw [dropped, mem_dropDue]
    exact fun hm => hm.2 rfl
  · have due : (secondAt n s).evaluator.secondDue = (s.secondCounted n e v).evaluator.secondDue :=
      secondAt_after s n e v hv he .evaluatorSecondDue (by decide)
    rw [due, secondCounted_due]
    exact fun hm => hm.2 rfl

/-- A step that takes no timer to 0 only counts, and tells and shows staleness. -/
theorem secondAt_running {v : ValueRec} {e : Entry} (hv : s.evaluator.values.look n = some v)
    (he : s.entryOf n = some e) (h : v.expiring = false) : secondAt n s = s.secondCounted n e v := by
  rw [secondAt_some s n e v hv he, if_neg (ne_true_of_eq_false h)]

end

/-! ## The two ends of a board second at a point (R75, R78, R81) -/

theorem crossing_iff {s : State} {n : Nat} : s.crossing n = true ↔
    ∃ v e, s.evaluator.values.look n = some v ∧ s.entryOf n = some e
      ∧ (v.staling e = true ∨ v.expiring = true) := by
  unfold State.crossing
  cases s.evaluator.values.look n with
  | none => simp
  | some v =>
    cases s.entryOf n with
    | none => simp
    | some e => simp

theorem endsOfABoardSecond : Claim.EndsOfABoardSecond :=
  ⟨fun _ _ => ⟨staling_iff, expiring_iff⟩, fun _ _ => crossing_iff⟩

section
variable {s : State} {n : Nat} {v : ValueRec} {e : Entry} (hs : s.tickDone)
  (hd : n ∈ s.evaluator.secondDue) (hv : s.evaluator.values.look n = some v)
include hs hd hv

theorem exec_becomesStale (he : s.entryOf n = some e) (h : v.staling e = true) :
    exec (.becomesStale n) s = .next (settle (secondAt n s)) := by
  have due : s.staleDue n = true := by
    unfold State.staleDue
    rw [hv, he, List.contains_iff_mem.mpr hd]
    exact h
  exact exec_settles hs (if_pos due)

theorem exec_travelTimerExpiry (h : v.expiring = true) :
    exec (.travelTimerExpiry n) s = .next (settle (secondAt n s)) := by
  have due : s.expiryDue n = true := by
    unfold State.expiryDue
    rw [hv, List.contains_iff_mem.mpr hd]
    exact h
  exact exec_settles hs (if_pos due)

end

theorem becomesStale : Claim.BecomesStale := by
  intro s n v e hs hd hv he hst hex
  have counted := secondAt_running hv he hex
  have ending : Changes settleParts (s.secondCounted n e v) (settle (s.secondCounted n e v)) := settle_changes _
  have events := secondCounted_events s n hst
  have aged : (v.aged e).countTimer = { v with
      age := min 255 (v.age + 1), stale := true, handed := displayPatterns e v.kind v.last true
      kind := v.kind.counted } := by
    rw [countTimer_running (by rw [aged_expiring]; exact hex), aged_staling hst]
  refine ⟨settle (s.secondCounted n e v), by rw [exec_becomesStale hs hd hv he hst, counted], ?_, fun g => ?_,
    ?_, fun lamp hl hn => ?_, fun g hg => ?_, ?_, ?_, fun hb hq => ?_, fun m hm => ?_⟩
  · refine ⟨_, (secondCounted_look s n e v).trans (congrArg some aged), rfl, rfl, rfl, rfl, rfl,
      fun pos p ov hk => by rw [hk]; rfl, fun hk => ?_⟩
    show v.kind.counted = v.kind
    unfold KindState.counted
    split
    · rename_i hk'
      exact absurd hk' (hk _ _ _)
    · rfl
  · exact (secondCounted_displayed s n hst g).of_changes ending
  · rw [counts_of_changes ending, secondCounted_counts s n hst, if_pos rfl]
  · rw [patternOf_of_changes ending, secondCounted_lamp s n hst hn]
    exact staleTold_steady s n hl
  · rw [counts_of_changes ending, secondCounted_counts s n hst, if_neg hg]
  · exact fun hm => ((secondCounted_due s n e v n).mp hm).2 rfl
  · exact secondCounted_changes s n hst .annRecords (by decide)
  · have queue : (settle (s.secondCounted n e v)).events.queue = (s.secondCounted n e v).events.queue :=
      ending .eventsQueue (by decide)
    rw [queue, events]
    exact record_queue hb hq _ _ _ _
  · exact secondCounted_look_other s n e v hm

/-- A travel timer at 1 expires. -/
theorem expiring_of_one {v : ValueRec} {pos : Position} {ov : Bool} (h : v.kind = .valve pos (some 1) ov) :
    v.expiring = true := expiring_iff.mpr ⟨pos, 1, ov, h, le_rfl⟩

section
variable {s : State} {n : Nat} {v : ValueRec} {e : Entry} {pos : Position} {ov : Bool}
  (hv : s.evaluator.values.look n = some v) (he : s.entryOf n = some e)
  (hk : v.kind = .valve pos (some 1) ov)
include hv he hk

/-- A step that takes the timer to 0 ends with the onset of the overrun (R75). -/
theorem secondAt_expiring :
    secondAt n s = takeReport n (.onset .overrun) (s.secondCounted n e v) := by
  rw [secondAt_some s n e v hv he, if_pos (expiring_of_one hk)]

theorem secondAt_expiring_look : (secondAt n s).evaluator.values.look n =
    some { v.aged e with kind := .valve pos none true, condition := .abnormal .overrun } := by
  rw [secondAt_look s n e v hv he, countTimer_expired ((aged_kind v e).trans hk)]

theorem settle_secondAt_others {m : Nat} (hm : m ≠ n)
    (records : (s.secondCounted n e v).ann.records = s.ann.records) :
    (settle (secondAt n s)).evaluator.values.look m = s.evaluator.values.look m
      ∧ (settle (secondAt n s)).annState m = s.annState m := by
  have counted : (s.secondCounted n e v).annState m = s.annState m := by
    unfold State.annState; rw [records]
  rw [settle_evaluator, secondAt_look_other hm, annState_of_changes (settle_changes _) (by decide) m,
    secondAt_expiring hv he hk, takeReport_annState_other hm, counted]
  exact ⟨rfl, rfl⟩

end

theorem travelTimerExpiry : Claim.TravelTimerExpiry := by
  intro s n v e pos ov hs hd hv he hk hst
  have counted := secondCounted_fresh s n e v hst
  have records : (s.secondCounted n e v).ann.records = s.ann.records := counted .annRecords (by decide)
  have onset := secondAt_expiring hv he hk
  have ending : Changes settleParts (secondAt n s) (settle (secondAt n s)) := settle_changes _
  refine ⟨settle (secondAt n s), exec_travelTimerExpiry hs hd hv (expiring_of_one hk), ?_, ?_,
    fun lamp ha hg => ?_, secondAt_notDue (s := s),
    fun m hm => settle_secondAt_others hv he hk hm records⟩
  · refine ⟨_, secondAt_expiring_look hv he hk, rfl, rfl, ?_⟩
    rw [aged_fresh hst]
    exact ⟨rfl, rfl, rfl, rfl⟩
  · refine State.overrunTaken.of_changes ?_ ending
    rw [onset]
    exact takeReport_overrunTaken counted
  · rw [patternOf_of_changes ending, onset, takeReport_lamp counted he ha hg, patternOf_of_changes counted]

theorem staleThenExpiry : Claim.StaleThenExpiry := by
  intro s n v e pos ov hs hd hv he hk hst
  have counted := secondCounted_changes s n hst
  have records : (s.secondCounted n e v).ann.records = s.ann.records := counted .annRecords (by decide)
  have onset := secondAt_expiring hv he hk
  have ending : Changes settleParts (secondAt n s) (settle (secondAt n s)) := settle_changes _
  have overrun : (s.staleTold n e.group).overrunTaken (secondAt n s) n := by
    rw [onset]
    exact takeReport_overrunTaken (secondCounted_told s n hst)
  have patterns : displayPatterns e v.kind v.last true = [.stale, .stale] := by rw [hk]; rfl
  refine ⟨settle (secondAt n s), exec_becomesStale hs hd hv he hst,
    exec_travelTimerExpiry hs hd hv (expiring_of_one hk), ?_, fun g hg => ?_, ?_, fun lamp hl hn ha hg => ?_,
    overrun.of_changes ending, fun hb hq => ?_, secondAt_notDue (s := s),
    fun m hm => settle_secondAt_others hv he hk hm records⟩
  · refine ⟨_, secondAt_expiring_look hv he hk, ?_⟩
    rw [aged_staling hst, patterns]
    exact ⟨rfl, rfl, rfl, rfl, rfl, rfl⟩
  · refine State.displayed.of_changes ?_ ending
    rw [onset, ← patterns]
    exact (secondCounted_displayed s n hst g).takeReport counted he hg
  · rw [counts_of_changes ending, onset, takeReport_stale, secondCounted_counts s n hst, if_pos rfl]
  · rw [patternOf_of_changes ending, onset, takeReport_lamp counted he ha hg, secondCounted_lamp s n hst hn]
    exact staleTold_steady s n hl
  · have settled : (settle (secondAt n s)).events.queue = (secondAt n s).events.queue :=
      ending .eventsQueue (by decide)
    have told := staleTold_changes s n e.group
    have seconds : (s.staleTold n e.group).gen.seconds = s.gen.seconds := told .genSeconds (by decide)
    have cfg : (s.staleTold n e.group).loader.cfg = s.loader.cfg := told .loaderCfg (by decide)
    have state : (s.staleTold n e.group).annState n = s.annState n := annState_of_changes told (by decide) n
    have queue : (s.staleTold n e.group).events.queue = s.events.queue ++ [s.eventOf .stale .part n 0] := by
      rw [staleTold_events]
      exact record_queue hb (by omega) _ _ _ _
    obtain ⟨-, -, -, -, -, quiet, shelved⟩ := overrun
    rw [state, queue, State.onBoard, cfg, List.length_append, List.length_singleton] at quiet
    rw [state, queue] at shelved
    rw [settled]
    refine ⟨fun hx => ?_, fun hx => (shelved hx).2⟩
    obtain ⟨-, -, raised⟩ := quiet hx
    rw [raised hb (by omega), List.append_assoc, State.eventOf, State.eventOf, State.eventOf, seconds]
    rfl

/-- Settles O33: one step counts, tells and shows staleness, then an overrun's onset is a report on what that
left. -/
theorem boardSecondAtAPoint : Obligations.BoardSecondAtAPoint :=
  ⟨endsOfABoardSecond, becomesStale, travelTimerExpiry, staleThenExpiry⟩

/-! ## A later value judged, shown and reported (R61 to R63, R80) -/

section
variable (s : State) (n : Nat) (e : Entry) (v : ValueRec) (r : Nat)

/-- FRESH recorded where the point was stale (R80). -/
def State.freshTold : State := if v.stale then record .fresh .part n 0 s else s

/-- A later value up to its alarm report: the point fresh, its record judged and held, its display handed (R61). -/
def State.laterValued : State :=
  handDisplay e (laterRecord e v r) (setValue n (laterRecord e v r) (freshen n e v s))

/-- The alarm report that a later value makes (R61, R62, R66). -/
def laterTold : Report := laterReport e v r (laterRecord e v r).condition

theorem judgeValue_some (w : Word) (hv : s.evaluator.values.look n = some v) (he : s.entryOf n = some e) :
    judgeValue w n s = takeReport n (laterTold e v (e.field w)) (s.laterValued n e v (e.field w)) := by
  unfold judgeValue
  rw [hv, he]
  rfl

theorem freshTold_changes : Changes eventParts s (s.freshTold n v) :=
  Changes.ite (record_changes _ _ _ _ s) (.refl _ s)

theorem freshen_told : Changes (.annGroups :: imageParts) (s.freshTold n v) (freshen n e v s) := by
  unfold State.freshTold freshen
  split_ifs
  · exact freshReport_changes _ _
  · exact .refl _ _

variable {v} in
theorem freshen_stale (h : v.stale = true) :
    freshen n e v s = freshReport e.group (record .fresh .part n 0 s) := if_pos h

variable {v} in
theorem freshen_fresh (h : v.stale = false) : freshen n e v s = s := if_neg (ne_true_of_eq_false h)

variable {e} in
/-- A point that becomes fresh moves no lamp but its group's stale lamp (R80, R96). -/
theorem freshen_other {lamp : Nat} (h : (s.settings e.group).staleLamp.claimed ≠ some lamp) :
    (freshen n e v s).patternOf lamp = s.patternOf lamp := by
  cases hs : v.stale with
  | false => rw [freshen_fresh s n e hs]
  | true =>
    have recorded : Changes eventParts s (record .fresh .part n 0 s) := record_changes _ _ _ _ s
    rw [freshen_stale s n e hs, freshReport_other (by rw [settings_of_changes recorded]; exact h),
      patternOf_of_changes recorded]

theorem laterValued_freshened :
    Changes (.evaluatorValues :: imageParts) (freshen n e v s) (s.laterValued n e v r) :=
  (handDisplay_changes _ _ _).after (setValue_changes _ _ _).mono

theorem laterValued_told :
    Changes ([.evaluatorValues, .annGroups] ++ imageParts) (s.freshTold n v) (s.laterValued n e v r) :=
  (freshen_told s n e v).then (laterValued_freshened s n e v r)

theorem laterValued_changes :
    Changes ([.evaluatorValues, .annGroups] ++ imageParts ++ eventParts) s (s.laterValued n e v r) :=
  (freshTold_changes s n v).then (laterValued_told s n e v r)

theorem laterValued_values :
    (s.laterValued n e v r).evaluator.values = s.evaluator.values.put n (laterRecord e v r) := by
  have fresh : (freshen n e v s).evaluator.values = s.evaluator.values :=
    freshen_changes n e v s .evaluatorValues (by decide)
  refine Eq.trans (handDisplay_changes _ _ _ .evaluatorValues (by decide)) ?_
  exact congrArg (fun t => Table.put t n (laterRecord e v r)) fresh

theorem laterValued_displayed (g : Nat) :
    s.displayed (s.laterValued n e v r) e g (laterRecord e v r).handed :=
  handDisplay_displayed _ fun _ hb => freshen_other s n v fun hl => hb (.inr (.inr hl))

end

/-! ## A board second still due after a value (R81) -/

section
variable {s : State} {n : Nat}

theorem crossing_some {v : ValueRec} {e : Entry} (hv : s.evaluator.values.look n = some v)
    (he : s.entryOf n = some e) : s.crossing n = (v.staling e || v.expiring) := by
  unfold State.crossing; rw [hv, he]

/-- Where the second only counts, it moves nothing outside the Evaluator. -/
theorem secondAt_changes_counting (h : s.crossing n = false) :
    Changes [.evaluatorValues, .evaluatorSecondDue] s (secondAt n s) := by
  rcases secondAt_cases n s with dropped | ⟨v, e, hv, he⟩
  · rw [dropped]
    exact (dropDue_changes n s).mono
  · rw [crossing_some hv he, Bool.or_eq_false_iff] at h
    rw [secondAt_running hv he h.2]
    exact secondCounted_fresh s n e v h.1

theorem finishSecond_changes (n : Nat) (s : State) :
    Changes [.evaluatorValues, .evaluatorSecondDue] s (finishSecond n s) := by
  unfold finishSecond
  split_ifs with h
  · exact secondAt_changes_counting (by simpa using (Bool.and_eq_true_iff.mp h).2)
  · exact .refl _ _

theorem finishSecond_notDue (h : n ∉ s.evaluator.secondDue) : finishSecond n s = s :=
  if_neg (by simp [h])

theorem finishSecond_crossing (h : s.crossing n = true) : finishSecond n s = s :=
  if_neg (by simp [h])

theorem finishSecond_counts (hd : n ∈ s.evaluator.secondDue) (h : s.crossing n = false) :
    finishSecond n s = secondAt n s :=
  if_pos (by simp [h, hd])

theorem finishSecond_look_other {m : Nat} (h : m ≠ n) :
    (finishSecond n s).evaluator.values.look m = s.evaluator.values.look m := by
  unfold finishSecond
  split_ifs
  · exact secondAt_look_other h
  · rfl

end

/-! ## The evaluation of a later value (R61, R81) -/

section
variable {s : State} {n : Nat} {w : Word} {v : ValueRec} {e : Entry}
  (hv : s.evaluator.values.look n = some v) (he : s.entryOf n = some e)
include hv he

theorem judgeValue_values : (judgeValue w n s).evaluator.values
    = s.evaluator.values.put n (laterRecord e v (e.field w)) := by
  rw [judgeValue_some s n e v w hv he]
  exact Eq.trans (takeReport_changes _ _ _ .evaluatorValues (by decide)) (laterValued_values s n e v _)

theorem judgeValue_look : (judgeValue w n s).evaluator.values.look n = some (laterRecord e v (e.field w)) := by
  rw [judgeValue_values hv he]; exact Table.look_put_same _ _ _

theorem judgeValue_crossing : (judgeValue w n s).crossing n
    = ((laterRecord e v (e.field w)).staling e || (laterRecord e v (e.field w)).expiring) := by
  refine crossing_some (judgeValue_look hv he) ?_
  rw [State.entryOf, point_of_changes (judgeValue_changes w n s)]
  exact he

/-- Beyond the report, the evaluation moves the Evaluator's block alone. -/
theorem evaluateLater_after : Changes [.evaluatorValues, .evaluatorSecondDue]
    (takeReport n (laterTold e v (e.field w)) (s.laterValued n e v (e.field w))) (evaluateLater w n s) := by
  rw [← judgeValue_some s n e v w hv he]
  exact finishSecond_changes n _

theorem evaluateLater_look_other {m : Nat} (h : m ≠ n) :
    (evaluateLater w n s).evaluator.values.look m = s.evaluator.values.look m := by
  refine (finishSecond_look_other h).trans ?_
  rw [judgeValue_values hv he]
  exact Table.look_put_other _ _ h

theorem evaluateLater_displayed {g : Nat} (hg : ∀ r, s.ann.records.look n = some r → r.group = g) :
    s.displayed (evaluateLater w n s) e g (laterRecord e v (e.field w)).handed :=
  ((laterValued_displayed s n e v (e.field w) g).takeReport (laterValued_changes s n e v _) he hg).of_changes
    (evaluateLater_after hv he)

theorem evaluateLater_annState : (evaluateLater w n s).annState n
    = (takeReport n (laterTold e v (e.field w)) s).annState n :=
  (annState_of_changes (evaluateLater_after hv he) (by decide) n).trans
    (takeReport_annState_congr (annState_of_changes (laterValued_changes s n e v _) (by decide) n))

theorem evaluateLater_annState_other {m : Nat} (h : m ≠ n) : (evaluateLater w n s).annState m = s.annState m :=
  (annState_of_changes (evaluateLater_after hv he) (by decide) m).trans
    ((takeReport_annState_other h).trans (annState_of_changes (laterValued_changes s n e v _) (by decide) m))

theorem evaluateLater_unack : (evaluateLater w n s).ann.unack
    = (takeReport n (laterTold e v (e.field w)) s).ann.unack := by
  have valued := laterValued_changes s n e v (e.field w)
  exact Eq.trans (evaluateLater_after hv he .annUnack (by decide))
    (takeReport_unack_congr (annState_of_changes valued (by decide) n) (valued .annUnack (by decide)))

theorem evaluateLater_events : (evaluateLater w n s).events
    = (takeReport n (laterTold e v (e.field w)) (s.freshTold n v)).events := by
  have told := laterValued_told s n e v (e.field w)
  exact (events_of_changes (evaluateLater_after hv he)).trans
    (takeReport_events_congr (annState_of_changes told (by decide) n) told)

/-- The stale count moves only where the point was stale (R80, R95). -/
theorem evaluateLater_stale : ((evaluateLater w n s).counts e.group).stale
    = ((freshen n e v s).counts e.group).stale := by
  rw [counts_of_changes (evaluateLater_after hv he), takeReport_stale,
    counts_of_changes (laterValued_freshened s n e v _)]

end

theorem evaluateLater_notDue {s : State} {n : Nat} {w : Word} (h : n ∉ s.evaluator.secondDue) :
    evaluateLater w n s = judgeValue w n s := by
  have due : (judgeValue w n s).evaluator.secondDue = s.evaluator.secondDue :=
    judgeValue_changes w n s .evaluatorSecondDue (by decide)
  exact finishSecond_notDue (by rw [due]; exact h)

theorem laterValue : Claim.LaterValue := by
  intro s n w v e hv he
  have due : (judgeValue w n s).evaluator.secondDue = s.evaluator.secondDue :=
    judgeValue_changes w n s .evaluatorSecondDue (by decide)
  have crossing := judgeValue_crossing (w := w) hv he
  refine ⟨⟨laterRecord e v (e.field w), rfl, rfl, rfl, rfl, rfl, rfl, fun g => evaluateLater_displayed hv he,
    fun hd => ?_, fun hd hc => ?_, fun hd hst hex => ?_, evaluateLater_annState hv he, evaluateLater_unack hv he,
    evaluateLater_events hv he⟩, fun m hm => evaluateLater_look_other hv he hm,
    fun m hm => evaluateLater_annState_other hv he hm, fun hs => ?_, fun hs => ?_, evaluateLater_changes w n s⟩
  · rw [evaluateLater_notDue hd, judgeValue_look hv he]
  · have stands : evaluateLater w n s = judgeValue w n s :=
      finishSecond_crossing (by rw [crossing, Bool.or_eq_true]; exact hc)
    rw [stands, due]
    exact ⟨judgeValue_look hv he, hd⟩
  · have counts : evaluateLater w n s = secondAt n (judgeValue w n s) :=
      finishSecond_counts (by rw [due]; exact hd) (by rw [crossing, hst, hex]; rfl)
    have held : (judgeValue w n s).entryOf n = some e := by
      rw [State.entryOf, point_of_changes (judgeValue_changes w n s)]
      exact he
    have look := secondAt_look _ n e _ (judgeValue_look hv he) held
    rw [countTimer_running (by rw [aged_expiring]; exact hex), aged_fresh hst] at look
    rw [counts]
    refine ⟨secondAt_notDue (s := judgeValue w n s), _, look, ?_, ?_, rfl, rfl, rfl, rfl⟩
    · show (if 0 < e.timeout ∧ false = false then min 255 (0 + 1) else 0) = _
      simp
    · show (laterRecord e v (e.field w)).kind.counted = _
      cases (laterRecord e v (e.field w)).kind with
      | discrete | analogue => rfl
      | valve pos timer ov => cases timer <;> rfl
  · rw [evaluateLater_stale hv he, freshen_stale s n e hs, freshReport_counts, if_pos rfl,
      counts_of_changes (record_changes _ _ _ _ s)]
  · rw [evaluateLater_stale hv he, freshen_fresh s n e hs]

/-- Settles O30: the value is judged, held, shown and reported, then a second still due counts or stays; each kind
is judged by its own rules, and the item is carried over the points of its address. -/
theorem laterValues : Obligations.LaterValues :=
  ⟨laterValue, pointsOfAnAddress, sourceItemEvaluation, discreteJudged, analogueJudged, valveJudged,
    reportOfAChange⟩

end Sys2Proof.Machine

/-! # Annunciation: proofs of the statements of 05_annunciation.md -/

/-! ## A table's entries and what is read back of them -/

namespace Sys2Proof

variable {α : Type}

theorem Table.mem_of_look {t : Table α} {i : Nat} {v : α} (h : t.look i = some v) : (i, v) ∈ t := by
  induction t with
  | nil => cases h
  | cons e t ih =>
    obtain ⟨k, w⟩ := e
    unfold Table.look at h
    split_ifs at h with hk
    · cases h
      rw [hk]
      exact List.mem_cons_self
    · exact List.mem_cons_of_mem _ (ih h)

theorem Table.sorted_pairwise {t : Table α} (h : t.sorted = true) :
    t.Pairwise (fun x y => x.1 < y.1) := by
  induction t with
  | nil => exact .nil
  | cons e t ih =>
    obtain ⟨k, w⟩ := e
    obtain ⟨above, sorted⟩ := (Table.sorted_cons k w t).mp h
    exact List.pairwise_cons.mpr ⟨above, ih sorted⟩

theorem Table.look_of_mem {t : Table α} (h : t.sorted = true) {i : Nat} {v : α} (hm : (i, v) ∈ t) :
    t.look i = some v := by
  induction t with
  | nil => cases hm
  | cons e t ih =>
    obtain ⟨k, w⟩ := e
    obtain ⟨above, sorted⟩ := (Table.sorted_cons k w t).mp h
    unfold Table.look
    rcases List.mem_cons.mp hm with e | hm
    · cases e
      exact if_pos rfl
    · rw [if_neg (Nat.ne_of_lt (above _ hm)), ih sorted hm]

end Sys2Proof

namespace Sys2Proof.Machine

/-! ## Every command keeps a state sound (R7, R25, R102, R111, R137, R142, R164) -/

theorem takeSourceWord_keeps (w : Word) (s : State) : Keeps s (takeSourceWord w s) :=
  .of_changes (takeSourceWord_changes w s)

theorem remoteDone_keeps (code : Nat) (s : State) : Keeps s (remoteDone code s) := record_keeps _ _ _ _ s

/-- A captured k18 write is a 16-bit word, so the lost count stays in its range (R165). -/
theorem lostWrite_keeps (w : Word) (s : State) :
    Keeps s (s.setEvents { s.events with lost := w.toNat, k18Owed := true }) :=
  fun h => { h with lost := Nat.le_of_lt_succ w.isLt }

/-- The panel lock is no part of what a legal panel is (R142). -/
theorem lockWrite_keeps (w : Word) (s : State) :
    Keeps s (s.setPanel { s.panel with lock := w.getLsbD 0 }) := fun h => { h with panel := h.panel }

theorem operandWrite_keeps (w : Word) (s : State) : Keeps s (s.setEvents { s.events with operand := w }) :=
  fun h => { h with }

/-- Whatever command it is, its effect keeps a state sound. -/
theorem effect_keeps (c : Instr) (s : State) : Keeps s (effect c s) := by
  cases c with
  | frontEndWrite | frontEndRead => exact beginAccess_keeps _ _ s
  | heldAccessTaken => exact takeHeld_keeps s
  | heldWriteRelease => exact releaseHeld_keeps s
  | boardReset => exact boardReset_keeps_sound s
  | partAccessGrant => exact .ite (serveHighest_keeps s) (.refl s)
  | captureRereadDone => exact complete_keeps _ (fun _ w s => rereadDone_keeps w s) s
  | k0ReadDone => exact complete_keeps _ (fun _ w s => judgeK0_keeps w s) s
  | generationRead =>
    exact complete_keeps _ (passRead_keeps fun _ w s => .of_changes (holdGeneration_changes w s)) s
  | cardCountRead => exact complete_keeps _ (passRead_keeps countsRead_keeps) s
  | flashShelveRead => exact complete_keeps _ (passRead_keeps fun _ => takeFlashShelve_keeps) s
  | boardFaultLampRead => exact complete_keeps _ (passRead_keeps fun _ _ s => judgeSetting_keeps _ _ s) s
  | ringValuesRead => exact complete_keeps _ (passRead_keeps takeRingValue_keeps) s
  | groupSettingsRead | groupLampRead => exact complete_keeps _ (passRead_keeps groupRead_keeps) s
  | entryReadDone => exact complete_keeps _ (fun _ => takeEntryWord_keeps) s
  | imageWriteDone => exact complete_keeps _ (fun w _ s => imageDone_keeps w s) s
  | headWriteDone => exact complete_keeps _ (fun _ _ => headDone_keeps) s
  | sourceReadDone => exact complete_keeps _ (fun _ => takeSourceWord_keeps) s
  | ringWordWriteDone => exact complete_keeps _ (fun _ _ s => .of_changes (ringWordDone_changes s)) s
  | statusWriteDone | k18WriteDone => exact complete_keeps _ (fun _ _ s => .refl s) s
  | signatureWrite => exact handOn_keeps _ (fun _ => takeSignature_keeps) s
  | generationWrite => exact handOn_keeps _ (fun _ => takeGeneration_keeps) s
  | modeRequest => exact handOn_keeps _ (fun _ _ s => requestMode_keeps _ s) s
  | panelLockWrite => exact handOn_keeps _ (fun _ => lockWrite_keeps) s
  | remoteOperandWrite => exact handOn_keeps _ (fun _ => operandWrite_keeps) s
  | remoteAck => exact handOn_keeps _ (fun _ _ => remoteScoped_keeps _ acknowledge_keeps) s
  | remoteClear => exact handOn_keeps _ (fun _ _ => remoteScoped_keeps _ clear_keeps) s
  | remoteSilence =>
    exact handOn_keeps _ (fun _ _ s => (silence_keeps s).trans (remoteDone_keeps _ _)) s
  | remoteTest =>
    exact handOn_keeps _ (fun _ _ s => (requestTest_keeps s).trans (remoteDone_keeps _ _)) s
  | remoteDim =>
    exact handOn_keeps _ (fun _ _ s => (requestDim_keeps _ _ s).trans (remoteDone_keeps _ _)) s
  | remoteGroup | remoteUnknownCommand => exact handOn_keeps _ (fun _ _ s => record_keeps _ _ _ _ s) s
  | remoteShelve => exact handOn_keeps _ (fun _ _ => remoteShelve_keeps) s
  | tailWrite => exact handOn_keeps _ (fun _ w s => .of_changes (takeTail_changes w s)) s
  | lostCountWrite => exact handOn_keeps _ (fun _ => lostWrite_keeps) s
  | controlWordWrite => exact handOn_keeps _ (fun n _ => takeControlWord_keeps n) s
  | groupEnableWrite => exact handOn_keeps _ takeEnables_keeps s
  | summaryLampWrite | staleLampWrite => exact handOn_keeps _ (fun _ _ s => judgeSetting_keeps _ _ s) s
  | groupAckRequest => exact handOn_keeps _ (fun _ _ s => acknowledge_keeps _ _ s) s
  | groupClearRequest => exact handOn_keeps _ (fun _ _ s => clear_keeps _ _ s) s
  | firstValue => exact takeFirstValue_keeps s
  | sourceItemEvaluation k => exact (takeSourceItem_keeps s).trans (evaluateItem_keeps k _)
  | tick => exact countTick_keeps _ s
  | phaseBoundary | settleEnd | lampTestEnd | frameSlot | boardSecond | keyRelease =>
    exact runThrough_keeps _ s
  | becomesStale | travelTimerExpiry => exact .ite (secondAt_keeps _ s) (.refl s)
  | shelfExpiry => exact .ite (shelfSecond_keeps s) (.refl s)
  | wakeByAlarm => exact takeWakeRequest_keeps s
  | exchangeEnd => exact endExchange_keeps _ _ _ _ s
  | dataKey => exact onPress_keeps _ dataKey_keeps s
  | ackKey | clearKey | groupKey | shelveKey => exact onPress_keeps _ (fun _ => pendCommand_keeps _) s
  | silenceKey => exact onPress_keeps _ (fun _ s => (silence_keeps s).trans (record_keeps _ _ _ _ _)) s
  | testKey => exact onPress_keeps _ (fun _ s => (requestTest_keeps s).trans (record_keeps _ _ _ _ _)) s
  | dimKey => exact onPress_keeps _ (fun _ s => (requestDim_keeps _ _ s).trans (record_keeps _ _ _ _ _)) s
  | enterNoCommand => exact onEnter_keeps _ (refusePress_keeps (by decide)) s
  | enterAck =>
    exact onEnter_keeps _ (enterScope_keeps _ acknowledge_keeps fun _ _ _ _ => acknowledge_range) s
  | enterClear => exact onEnter_keeps _ (enterScope_keeps _ clear_keeps fun _ _ _ _ => clear_range) s
  | enterGroup => exact onEnter_keeps _ enterGroup_keeps s
  | enterShelve => exact onEnter_keeps _ enterShelve_keeps s
  | boardResetEnd | hostReset | hostResetRelease => exact .of_changes (effect_changes _ s)

/-! ## Every command keeps list, shelf and records exact (R39, R84, R92, R102, R104) -/

/-- Whatever command it is, its effect keeps them exact: an effect that keeps list and shelf moves no point unless
it is one of the Loader's. -/
theorem effect_exact (c : Instr) {s : State} (e : s.Exact) : (effect c s).Exact := by
  have kept {t : State} (k : ListsKept s t) (h : t = effect c s)
      (hl : joinedParts.all (fun p => !(effectParts c).contains p) = true) : (effect c s).Exact :=
    h ▸ k.exact (h ▸ effect_changes c s) hl e
  cases c with
  | boardReset => exact boardReset_exact s
  | firstValue => exact takeFirstValue_exact e
  | entryReadDone => exact complete_exact _ (fun _ w _ => takeEntryWord_exact w) e
  | sourceReadDone => exact complete_exact _ (fun _ w _ => takeSourceWord_exact w) e
  | signatureWrite => exact handOn_exact _ (fun _ w _ => takeSignature_exact w) e
  | remoteAck =>
    exact kept (handOn_lists _ (fun _ _ => remoteScoped_lists _ acknowledge_lists) s) rfl rfl
  | remoteClear => exact kept (handOn_lists _ (fun _ _ => remoteScoped_lists _ clear_lists) s) rfl rfl
  | remoteShelve => exact kept (handOn_lists _ (fun _ _ => remoteShelve_lists) s) rfl rfl
  | groupAckRequest => exact kept (handOn_lists _ (fun _ _ s => acknowledge_lists _ _ s) s) rfl rfl
  | groupClearRequest => exact kept (handOn_lists _ (fun _ _ s => clear_lists _ _ s) s) rfl rfl
  | sourceItemEvaluation k =>
    exact kept ((ListsKept.of_changes (takeSourceItem_changes s)).trans (evaluateItem_lists k _)) rfl rfl
  | phaseBoundary | settleEnd | lampTestEnd | frameSlot | boardSecond | keyRelease =>
    exact kept (runThrough_lists _ s) rfl rfl
  | becomesStale | travelTimerExpiry => exact kept (.ite (secondAt_lists _ s) (.refl s)) rfl rfl
  | shelfExpiry => exact kept (.ite (shelfSecond_lists s) (.refl s)) rfl rfl
  | enterAck => exact kept (onEnter_lists _ (enterScope_lists _ acknowledge_lists) s) rfl rfl
  | enterClear => exact kept (onEnter_lists _ (enterScope_lists _ clear_lists) s) rfl rfl
  | enterNoCommand =>
    exact kept (onEnter_lists _ (fun s => .of_changes (refusePress_changes _ _ s)) s) rfl rfl
  | enterGroup => exact kept (onEnter_lists _ enterGroup_lists s) rfl rfl
  | enterShelve => exact kept (onEnter_lists _ enterShelve_lists s) rfl rfl
  | _ => exact e.of_changes (effect_changes _ s)

/-! ## Every command keeps what the resets hold (R14 to R16) -/

/-- The machine under an asserted BRST#: no capture, no configuration, no request, and only disregarded part
words (R14, R15). -/
structure State.UnderReset (s : State) : Prop where
  inReset : s.path.inReset = true
  capture : s.path.capture = []
  cfg : s.loader.cfg = .unconfigured
  requests : s.path.requests = Requests.none
  port : ∀ a, s.path.partAccess = some a → a.disregard = true

/-- The parts that it speaks of. -/
def underResetParts : List Part := [.pathInReset, .pathCapture, .loaderCfg, .pathRequests, .pathPartAccess]

theorem State.UnderReset.of_changes {l : List Part} {s t : State} (u : s.UnderReset) (h : Changes l s t)
    (hl : underResetParts.all (fun p => !l.contains p) = true := by rfl) : t.UnderReset := by
  have same := h.keepsAll hl
  have inReset : t.path.inReset = s.path.inReset := same .pathInReset (by decide)
  have capture : t.path.capture = s.path.capture := same .pathCapture (by decide)
  have cfg : t.loader.cfg = s.loader.cfg := same .loaderCfg (by decide)
  have requests : t.path.requests = s.path.requests := same .pathRequests (by decide)
  have port : t.path.partAccess = s.path.partAccess := same .pathPartAccess (by decide)
  exact ⟨inReset.trans u.inReset, capture.trans u.capture, cfg.trans u.cfg, requests.trans u.requests,
    fun a ha => u.port a (port ▸ ha)⟩

/-- No requester wants an access under a board reset (R14, R17). -/
theorem State.UnderReset.nextRequests {s : State} (u : s.UnderReset) : s.nextRequests = Requests.none := by
  have reread : s.wantReread = none := by unfold State.wantReread; rw [u.capture]
  have configured : s.configured = false := by unfold State.configured; rw [u.cfg]; rfl
  unfold State.nextRequests Requests.none
  rw [u.requests, reread, configured]
  congr 1 <;> exact nextRequest_none _

theorem State.UnderReset.settle {s : State} (u : s.UnderReset) : (settle s).UnderReset := by
  have synced : (syncPanel (syncStatus s)).UnderReset :=
    u.of_changes ((syncStatus_changes s).then (syncPanel_changes _)
      (k := statusParts ++ [.panelTestOn, .panelSilenceOn, .panelDimOn]))
  have requests : (Machine.settle s).path.requests = Requests.none := by
    rw [settle_requests, synced.nextRequests]
  exact ⟨u.inReset, u.capture, Eq.trans (settle_changes s .loaderCfg (by decide)) u.cfg, requests, u.port⟩

theorem State.UnderReset.startOf {s : State} (u : s.UnderReset) (c : Instr) : (startOf c s).UnderReset := by
  unfold Machine.startOf finishTick
  split_ifs
  · exact u
  · exact u
  · exact ((u.of_changes (setTickWork_changes [] s)).of_changes (runAll_changes _ _)).settle

/-- Only a disregarded word can end: its requester does nothing with it (R15). -/
theorem State.UnderReset.complete {α : Type} {sel : PartWork → Option α} {act : α → Word → State → State}
    {s : State} (u : s.UnderReset) : (complete sel act s).UnderReset := by
  cases hp : s.path.partAccess with
  | none => rw [complete_absent hp]; exact u
  | some a =>
    have freed : s.portFreed.UnderReset := ⟨u.inReset, u.capture, u.cfg, u.requests, nofun⟩
    cases hx : sel a.work with
    | none =>
      have other : Machine.complete sel act s = s := by unfold Machine.complete; simp only [hp, hx]
      rw [other]
      exact u
    | some x =>
      rw [complete_disregarded hp hx (u.port a hp)]
      unfold endAccess
      exact .of_changes freed (.ite (storeWord_changes _ _ _ s.portFreed) (.refl _ _))

/-- No item is handed on from an empty queue. -/
theorem State.UnderReset.handOn {α : Type} {sel : RegionWord → Word → Option α}
    {act : α → Word → State → State} {s : State} (u : s.UnderReset) : (handOn sel act s).UnderReset := by
  have item : s.regionItem = none := by unfold State.regionItem; rw [u.capture]
  unfold Machine.handOn
  rw [item]
  exact u

/-- An access taken under a board reset is not captured (R14). -/
theorem State.UnderReset.takeAccess {s : State} (u : s.UnderReset) (a : Addr) (k : AccessKind) :
    (takeAccess a k s).UnderReset := by
  cases k with
  | read => exact u.of_changes (takeRead_changes a s)
  | write w l =>
    rw [takeAccess_write, takeWrite_unwatched w l (State.watched_inReset u.inReset a)]
    exact (u.of_changes (setAccess_changes none s)).of_changes (storeWord_changes a w l _)

theorem State.UnderReset.takeFromHold {s : State} (u : s.UnderReset) (h : HeldAccess) :
    (takeFromHold h s).UnderReset := by
  cases hk : h.kind with
  | read => rw [takeFromHold_read hk]; exact u.of_changes (takeRead_changes _ s)
  | write w l =>
    rw [takeFromHold_write_inReset u.inReset hk]
    exact (u.of_changes (setAccess_changes none s)).of_changes (storeWord_changes _ w l _)

theorem State.UnderReset.ite {p : Prop} {_ : Decidable p} {s t : State} (u : s.UnderReset)
    (v : t.UnderReset) : (if p then s else t).UnderReset := by
  split_ifs
  · exact u
  · exact v

/-- The board stays UNCONFIGURED where a sweep's end is asked for (R24). -/
theorem sweepCheck_unconfigured {s : State} (h : s.loader.cfg = .unconfigured) : sweepCheck s = s :=
  sweepCheck_waits (.inl (by rw [h]; nofun))

theorem State.UnderReset.takeFirstValue {s : State} (u : s.UnderReset) :
    (takeFirstValue s).UnderReset := by
  unfold Machine.takeFirstValue
  split
  · rename_i n w _ _
    unfold evaluateFirst
    split
    · exact u
    · rename_i e _
      have told : (s.firstReported n e (e.field w)).UnderReset := u.of_changes (firstReported_changes s n e _)
      have ended := told.of_changes (setReload_changes none _)
      exact (congrArg State.UnderReset (sweepCheck_unconfigured ended.cfg)).mpr ended
  · exact u

/-- Nothing is taken where no item is ready (R10, R54). -/
theorem takeSourceItem_none {s : State} (h : s.sourceItem = none) : takeSourceItem s = s := by
  unfold takeSourceItem
  rw [h]
  cases s.evaluator.item <;> rfl

/-- A command under a board reset, the reset's own two apart, leaves the machine under it. -/
theorem State.UnderReset.effect {s : State} (u : s.UnderReset) {c : Instr} (h : c ≠ .boardReset)
    (h' : ∀ x, c ≠ .boardResetEnd x) : (effect c s).UnderReset := by
  have idle : s.slotIdle = false := by unfold State.slotIdle; rw [u.inReset]; rfl
  have item : s.sourceItem = none := by unfold State.sourceItem; rw [u.capture]
  cases c with
  | boardReset => exact absurd rfl h
  | boardResetEnd x => exact absurd rfl (h' x)
  | frontEndWrite | frontEndRead =>
    exact .ite u (.ite (u.takeAccess _ _) (u.of_changes (setAccess_changes _ s)))
  | heldAccessTaken =>
    show (takeHeld s).UnderReset
    unfold takeHeld
    split
    · exact .ite (u.takeFromHold _) u
    · exact u
  | heldWriteRelease =>
    show (releaseHeld s).UnderReset
    unfold releaseHeld
    split
    · exact .ite (.ite (u.of_changes (setAccess_changes _ s)) (u.takeAccess _ _)) u
    · exact u
  | partAccessGrant =>
    show (if s.slotIdle = true then serveHighest s else s).UnderReset
    rw [idle]
    exact u
  | sourceItemEvaluation k =>
    show (evaluateItem k (takeSourceItem s)).UnderReset
    rw [takeSourceItem_none item]
    exact u.of_changes (evaluateItem_changes k s)
  | firstValue => exact u.takeFirstValue
  | captureRereadDone | k0ReadDone | generationRead | cardCountRead | flashShelveRead | boardFaultLampRead
  | ringValuesRead | groupSettingsRead | groupLampRead | entryReadDone | sourceReadDone | imageWriteDone
  | ringWordWriteDone | headWriteDone | statusWriteDone | k18WriteDone =>
    unfold Machine.effect
    exact u.complete
  | signatureWrite | generationWrite | modeRequest | panelLockWrite | remoteOperandWrite | remoteAck
  | remoteClear | remoteSilence | remoteTest | remoteGroup | remoteShelve | remoteDim
  | remoteUnknownCommand | tailWrite | lostCountWrite | controlWordWrite | groupEnableWrite
  | summaryLampWrite | staleLampWrite | groupAckRequest | groupClearRequest =>
    unfold Machine.effect
    exact u.handOn
  | _ => exact u.of_changes (effect_changes _ s)

/-- A board reset leaves the machine under it (R14, R15). -/
theorem boardReset_underReset (s : State) : (boardReset s).UnderReset := by
  obtain ⟨m, x, d, e, -⟩ := boardReset_resets s
  rw [e]
  refine ⟨rfl, rfl, rfl, rfl, fun a ha => ?_⟩
  obtain ⟨b, -, rfl⟩ := Option.map_eq_some_iff.mp ha
  rfl

theorem boardResetEnd_released (x : BitVec 2) (s : State) : (endBoardReset x s).path.inReset = false := by
  unfold endBoardReset
  split_ifs with h
  · rfl
  · exact eq_false_of_ne_true h

/-- The commands that assert or release a reset input. -/
def movesReset : Instr → Bool
  | .boardReset | .boardResetEnd _ | .hostReset | .hostResetRelease => true
  | _ => false

theorem resets_untouched {c : Instr} (h : movesReset c = false) :
    (tickParts ++ effectParts c ++ settleParts).contains .pathInReset = false
      ∧ (tickParts ++ effectParts c ++ settleParts).contains .pathHostReset = false := by
  cases c <;> first | exact ⟨rfl, rfl⟩ | cases h

/-- Every other command leaves the reset inputs as they are. -/
theorem exec_resetInputs {c : Instr} {s t : State} (h : exec c s = .next t) (hc : movesReset c = false) :
    t.path.inReset = s.path.inReset ∧ t.path.hostReset = s.path.hostReset :=
  ⟨exec_keeps .pathInReset h (resets_untouched hc).1, exec_keeps .pathHostReset h (resets_untouched hc).2⟩

/-- Where a command ends under a board reset, the machine is under it whole, if it was so before. -/
theorem exec_underReset {c : Instr} {s t : State} (h : exec c s = .next t)
    (before : s.path.inReset = true → s.UnderReset) (after : t.path.inReset = true) : t.UnderReset := by
  have other (hr : c ≠ .boardReset) (he : ∀ x, c ≠ .boardResetEnd x)
      (same : t.path.inReset = s.path.inReset) : t.UnderReset := by
    rw [exec_next h]
    exact (((before (same.symm.trans after)).startOf c).effect hr he).settle
  cases c with
  | hostReset | hostResetRelease => exact other nofun nofun (exec_keeps .pathInReset h)
  | boardReset =>
    rw [exec_next h]
    exact (boardReset_underReset _).settle
  | boardResetEnd x =>
    rw [exec_next h] at after
    have released := boardResetEnd_released x (startOf (.boardResetEnd x) s)
    exact absurd after (ne_true_of_eq_false released)
  | _ => exact other nofun nofun (exec_resetInputs h rfl).1

theorem takeHeld_noAccess {s : State} (h : s.path.access = none) : takeHeld s = s := by
  unfold takeHeld; rw [h]

/-- While HRST# is asserted no command begins an access (R16). -/
theorem exec_hostReset {c : Instr} {s t : State} (h : exec c s = .next t)
    (before : s.path.hostReset = true → s.path.access = none) (after : t.path.hostReset = true) :
    t.path.access = none := by
  have started : (startOf c s).path.hostReset = s.path.hostReset :=
    startOf_changes c s .pathHostReset (by decide)
  have free (hs : s.path.hostReset = true) : (startOf c s).path.access = none :=
    Eq.trans (startOf_changes c s .pathAccess (by decide)) (before hs)
  cases c with
  | hostReset => rw [exec_next h]; rfl
  | hostResetRelease => rw [exec_next h] at after; cases after
  | boardReset =>
    have hs : s.path.hostReset = true := (exec_keeps .pathHostReset h).symm.trans after
    rw [exec_next h]
    exact (congrArg (fun u => (settle u).path.access) (boardReset_noAccess (free hs))).trans rfl
  | frontEndWrite | frontEndRead =>
    have hs := (exec_resetInputs h rfl).2.symm.trans after
    rw [exec_next h]
    exact (congrArg (fun u => (settle u).path.access) (beginAccess_hostReset (started.trans hs) _ _)).trans
      (free hs)
  | heldAccessTaken =>
    have hs := (exec_resetInputs h rfl).2.symm.trans after
    rw [exec_next h]
    exact (congrArg (fun u => (settle u).path.access) (takeHeld_noAccess (free hs))).trans (free hs)
  | heldWriteRelease =>
    have hs := (exec_resetInputs h rfl).2.symm.trans after
    rw [exec_next h]
    exact (congrArg (fun u => (settle u).path.access)
      (releaseHeld_other (State.hwait_of_none (free hs)))).trans (free hs)
  | boardResetEnd x => exact (exec_access h rfl).trans (before ((exec_keeps .pathHostReset h).symm.trans after))
  | _ => exact (exec_access h rfl).trans (before ((exec_resetInputs h rfl).2.symm.trans after))

theorem exec_resetsHold {c : Instr} {s t : State} (h : exec c s = .next t) (r : s.resetsHold) :
    t.resetsHold := by
  refine ⟨exec_hostReset h r.1, fun hi => ?_⟩
  obtain ⟨-, capture, cfg, requests, port⟩ := exec_underReset h (fun hi => ⟨hi, (r.2 hi).1, (r.2 hi).2.1,
    (r.2 hi).2.2.1, (r.2 hi).2.2.2⟩) hi
  exact ⟨capture, cfg, requests, port⟩

/-! ## The invariant (O7) -/

theorem State.Inv.sound {s : State} (i : s.Inv) : s.Sound :=
  { i with
    capture := i.bounds.1, queue := i.bounds.2.1, shelf := i.bounds.2.2.1, lost := i.bounds.2.2.2.1
    discards := i.bounds.2.2.2.2 }

theorem State.Inv.exact {s : State} (i : s.Inv) : s.Exact := ⟨i.list, i.shelf, i.due, i.joined⟩

/-- The invariant is soundness, exactness and what the resets hold. -/
theorem State.Sound.inv {s : State} (k : s.Sound) (e : s.Exact) (r : s.resetsHold) : s.Inv :=
  { k with
    bounds := ⟨k.capture, k.queue, k.shelf, k.lost, k.discards⟩
    list := e.list, shelf := e.shelf, due := e.due, joined := e.joined, resets := r }

/-- A command that completes keeps the invariant: each of its three parts goes through the tick's end, the
command's effect and the settling. -/
theorem exec_inv {c : Instr} {s t : State} (h : exec c s = .next t) (i : s.Inv) : t.Inv := by
  have sound : t.Sound := by
    rw [exec_next h]
    exact settle_keeps _ (effect_keeps c _ (startOf_keeps c s i.sound))
  have exact : t.Exact := by
    rw [exec_next h]
    exact settle_exact (effect_exact c (startOf_exact c i.exact))
  exact sound.inv exact (exec_resetsHold h i.resets)

/-- Settles O7: a step idles, or runs its front command on the same machine with the queue's rest, which the
invariant does not speak of. -/
theorem everyStepKeepsTheInvariant : Obligations.EveryStepKeepsTheInvariant := by
  intro s t i h
  cases hp : s.pending with
  | nil =>
    rw [step_empty s hp] at h
    cases h
    exact i
  | cons c rest =>
    rw [step_front s c rest hp] at h
    exact exec_inv h { i with }

/-! ## The list and the shelf stay exact (R92, R102) -/

theorem unacknowledgedListStaysExact : Claim.UnacknowledgedListStaysExact := fun s h =>
  ⟨fun n rep => (takeReport_lists n rep s).list h, fun x o => (acknowledge_lists x o s).list h,
    fun x o => (clear_lists x o s).list h, fun n o => (shelve_lists n o s).list h,
    (shelfSecond_lists s).list h, (silence_lists s).list h, fun n => (annRemove_lists n s).list h,
    fun _ e hn => (annJoin_exact e hn).1 h⟩

theorem shelfStaysExact : Claim.ShelfStaysExact := fun s h =>
  ⟨fun n rep => (takeReport_lists n rep s).shelf h, fun x o => (acknowledge_lists x o s).shelf h,
    fun x o => (clear_lists x o s).shelf h, fun n o => (shelve_lists n o s).shelf h,
    (shelfSecond_lists s).shelf h, fun n => (annRemove_lists n s).shelf h,
    fun _ e hn => (annJoin_exact e hn).2 h⟩

/-- Settles O35: each operation has one lemma that it keeps both exact. -/
theorem listAndShelfStayExact : Obligations.ListAndShelfStayExact :=
  ⟨unacknowledgedListStaysExact, shelfStaysExact⟩

/-! ## The alarm reports (R85 to R88, R91, R94 to R96) -/

section
variable {s : State} {n : Nat} {rep : Report} {x new : AnnState} {kind : EventKind} {d : Nat}

/-- A cell of R86's table marked no change, or one that does not arise. -/
theorem takeReport_stands (h : s.annState n = some x) (he : rep.effect x = none) : takeReport n rep s = s :=
  takeReport_noEffect (by rw [h]; exact he)

/-- A cell of R86's table with a new state: the state and the place on the list. -/
theorem takeReport_cell (h : s.annState n = some x) (he : rep.effect x = some (new, kind, d)) :
    (takeReport n rep s).annState n = some new
      ∧ (takeReport n rep s).ann.unack = match x.onList, new.onList with
        | true, false => s.ann.unack.filter (fun m => m != n)
        | false, true => s.ann.unack ++ [n]
        | true, true | false, false => s.ann.unack := by
  obtain ⟨r, hr, rfl⟩ := look_of_annState h
  exact ⟨takeReport_state hr he, (takeReport_unack hr he).trans (transition_unack new h)⟩

/-- A cell with a new state has one event, told as on the state the report finds (R91). -/
theorem takeReport_tells (h : s.annState n = some x) (he : rep.effect x = some (new, kind, d)) :
    (takeReport n rep s).events = (record kind .part n d s).events := by
  obtain ⟨r, hr, rfl⟩ := look_of_annState h
  exact takeReport_events hr he

end

/-- R86's table is read cell by cell off the effects of the reports. -/
theorem alarmReportTable : Claim.AlarmReportTable := by
  refine fun s n c => ⟨fun h => ?_, fun h => ?_, fun h => ?_, fun h => ?_, fun h => ?_,
    fun h _ => takeReport_shelved h, fun _ _ => takeReport_annState_other, fun rep => takeReport_changes n rep s⟩
  · obtain ⟨onset, joined⟩ := takeReport_cell (rep := .onset c) h rfl
    obtain ⟨momentary, joined'⟩ := takeReport_cell (rep := .momentary) h rfl
    exact ⟨onset, joined, momentary, joined', takeReport_stands h rfl, takeReport_stands h rfl⟩
  · obtain ⟨ret, stays⟩ := takeReport_cell (rep := .ret) h rfl
    obtain ⟨change, stays'⟩ := takeReport_cell (rep := .causeChange c) h rfl
    exact ⟨ret, stays, change, stays', takeReport_stands h rfl⟩
  · obtain ⟨onset, stays⟩ := takeReport_cell (rep := .onset c) h rfl
    obtain ⟨momentary, stays'⟩ := takeReport_cell (rep := .momentary) h rfl
    exact ⟨onset, stays, momentary, stays', takeReport_stands h rfl, takeReport_stands h rfl⟩
  · obtain ⟨ret, stays⟩ := takeReport_cell (rep := .ret) h rfl
    obtain ⟨change, joined⟩ := takeReport_cell (rep := .causeChange c) h rfl
    exact ⟨ret, stays, change, joined, takeReport_stands h rfl⟩
  · obtain ⟨onset, joined⟩ := takeReport_cell (rep := .onset c) h rfl
    obtain ⟨momentary, joined'⟩ := takeReport_cell (rep := .momentary) h rfl
    exact ⟨onset, joined, momentary, joined', takeReport_stands h rfl, takeReport_stands h rfl⟩

theorem alarmReportEvents : Claim.AlarmReportEvents := by
  refine ⟨fun s n c => ⟨fun h => ?_, fun h => ?_⟩, rfl, rfl, rfl, rfl, rfl, rfl⟩
  · rcases h with h | h | h <;> exact ⟨takeReport_tells h rfl, takeReport_tells h rfl⟩
  · rcases h with h | h <;> exact ⟨takeReport_tells h rfl, takeReport_tells h rfl⟩

theorem transitionMoves : Claim.TransitionMoves := by
  refine fun s n new r hr => ⟨transition_moved hr, fun lamp ha hs => transition_other_lamp ha fun r' hr' => ?_,
    fun _ _ _ => takeReport_moved hr⟩
  cases hr.symm.trans hr'
  exact hs

theorem staleReport_shows {g lamp : Nat} {s : State} (h : (s.settings g).staleLamp.claimed = some lamp) :
    (staleReport g s).patternOf lamp = if 0 < ((staleReport g s).counts g).stale then .steady else .off :=
  handStale_shows (s := setCounts g _ s) h

theorem staleReport_other {g lamp : Nat} {s : State} (h : (s.settings g).staleLamp.claimed ≠ some lamp) :
    (staleReport g s).patternOf lamp = s.patternOf lamp :=
  handStale_other (s := setCounts g _ s) h

theorem staleReports : Claim.StaleReports := by
  intro s g
  have raised := staleReport_counts g g s
  have lowered := freshReport_counts g g s
  rw [if_pos rfl] at raised lowered
  refine ⟨raised, lowered, fun h hh => ⟨?_, ?_⟩, fun lamp hl => ⟨?_, ?_⟩,
    fun lamp hl => ⟨staleReport_other hl, freshReport_other hl⟩⟩
  · rw [staleReport_counts, if_neg hh]
  · rw [freshReport_counts, if_neg hh]
  · rw [staleReport_shows hl, raised, if_pos (Nat.succ_pos _)]
  · rw [freshReport_shows hl, lowered]
    simp only [Nat.sub_pos_iff_lt]

/-- Settles O34: each report is a cell of R86's table or none, and moves what its transition moves. -/
theorem alarmReports : Obligations.AlarmReports :=
  ⟨alarmReportTable, alarmReportEvents, transitionMoves, staleReports⟩

/-! ## The horn (R106 to R108) -/

theorem State.hornMember_eq_some {s : State} {n c : Nat} : s.hornMember n = some c ↔
    ∃ r, s.ann.records.look n = some r ∧ r.cls = c ∧ (s.settings r.group).horn = true := by
  unfold State.hornMember
  cases s.ann.records.look n with
  | none => simp
  | some r => by_cases hh : (s.settings r.group).horn = true <;> simp [hh]

theorem State.hornClassNow_silenced {s : State} (h : s.ann.silence = true) : s.hornClassNow = none :=
  if_pos h

/-- Without the silence flag the horn class is the lowest of the horn-enabled members, where it sounds (R107). -/
theorem State.hornClassNow_eq_some {s : State} {c : Nat} (h : s.ann.silence = false) :
    s.hornClassNow = some c ↔ c ≤ 3 ∧ (s.ann.unack.filterMap s.hornMember).min? = some c := by
  unfold State.hornClassNow
  rw [if_neg (ne_true_of_eq_false h)]
  cases (s.ann.unack.filterMap s.hornMember).min? with
  | none => simp
  | some d =>
    simp only [Option.some_inj]
    split_ifs with hd
    · simp only [Option.some_inj]
      exact ⟨fun e => ⟨e ▸ hd, e⟩, fun e => e.2⟩
    · simp only [false_iff]
      rintro ⟨hc, rfl⟩
      exact hd hc

/-- Settles O41: the class is decided from the list at once; the lowest member is the minimum of the horn-enabled
classes, and HORN reads the class and the phase. -/
theorem hornClass : Obligations.HornClass := by
  refine fun s => ⟨State.hornClassNow_silenced, fun hs c => ?_, fun n c => State.hornMember_eq_some,
    fun h => ?_, fun h => ?_, fun h => ?_, fun h => ?_⟩
  · show s.hornClassNow = some c ↔ _
    rw [State.hornClassNow_eq_some hs, List.min?_eq_some_iff]
    simp only [List.mem_filterMap]
    refine and_congr_right fun _ => and_congr_right fun _ => ?_
    exact ⟨fun l n hn d hd => l d ⟨n, hn, hd⟩, fun l d ⟨n, hn, hd⟩ => l n hn d hd⟩
  all_goals unfold State.horn; rw [h]
  · rfl
  · rfl
  · exact List.contains_iff_mem
  · exact List.contains_iff_mem

/-! ## A point that joins or leaves the list (R92, R93, R97, R106) -/

theorem joinList_silence (n g : Nat) (s : State) :
    (joinList n g s).ann.silence = (s.ann.silence && !(s.settings g).horn) := by
  unfold joinList
  dsimp only
  split_ifs <;> rfl

/-- The new indicator of a wake-enabled group hands one wake request as it rises (R97). -/
theorem joinList_wakeRequests (n g : Nat) (s : State) : (joinList n g s).gen.wakeRequests =
    s.gen.wakeRequests + (if (s.counts g).unack = 0 ∧ (s.settings g).wake = true then 1 else 0) := by
  have wakes (t : State) (hs : t.settings = s.settings) (hg : t.gen = s.gen) :
      (if (s.counts g).unack == 0 && (t.settings g).wake then
        t.setGen { t.gen with wakeRequests := t.gen.wakeRequests + 1 } else t).gen.wakeRequests
      = s.gen.wakeRequests + (if (s.counts g).unack = 0 ∧ (s.settings g).wake = true then 1 else 0) := by
    rw [hs, hg]
    simp only [Bool.and_eq_true, beq_iff_eq]
    split_ifs
    · rfl
    · exact congrArg PatternGen.wakeRequests hg
  unfold joinList
  refine wakes _ ?_ ?_ <;> split_ifs <;> rfl

/-- Settles O42: the list, the mark, the flag and the request are read off the join and the leave. -/
theorem joiningTheList : Obligations.JoiningTheList := by
  intro s n g
  have joined := joinList_counts n g g s
  have left := leaveList_counts n g g s
  rw [if_pos rfl] at joined left
  refine ⟨joinList_unack n g s, fun h => ?_, fun h => ?_, fun h => ?_, fun h => ?_, joinList_wakeRequests n g s,
    leaveList_unack n g s, fun h => ?_, fun h => ?_, fun h hg => ⟨?_, ?_⟩⟩
  · rw [joined, if_pos h]
  · rw [joined, if_neg h]
  · rw [joinList_silence, h, Bool.not_true, Bool.and_false]
  · rw [joinList_silence, h, Bool.not_false, Bool.and_true]
  · rw [left, if_pos h]
  · rw [left, if_neg h]
  · rw [joinList_counts, if_neg hg]
  · rw [leaveList_counts, if_neg hg]

/-! ## Whose scope is refused (R98) -/

theorem pointRefusal_notInstalled {s : State} {n : Nat} (h : (s.point n).status ≠ .installed) :
    s.pointRefusal n = some 5 := if_pos h

theorem pointRefusal_noRecord {s : State} {n : Nat} (h : (s.point n).status = .installed)
    (hn : s.annState n = none) : s.pointRefusal n = some 6 := by
  unfold State.pointRefusal
  rw [if_neg (not_not.mpr h), annState_eq_none.mp hn]
  rfl

theorem pointRefusal_none {s : State} {n : Nat} (h : (s.point n).status = .installed)
    (hn : s.annState n ≠ none) : s.pointRefusal n = none := by
  obtain ⟨x, hx⟩ := Option.ne_none_iff_exists'.mp hn
  obtain ⟨r, hr, -⟩ := look_of_annState hx
  unfold State.pointRefusal
  rw [if_neg (not_not.mpr h), hr]
  rfl

section
variable {s : State} {x : Scope} (o : Origin)

theorem acknowledge_refused {reason : Nat} (h : s.scopeRefusal x = some reason) :
    acknowledge x o s = (s, some reason) := by
  unfold acknowledge; rw [h]

theorem acknowledge_accepted (h : s.scopeRefusal x = none) :
    acknowledge x o s = (decideHorn (overPoints (ackPoint o) (s.ackTargets x) s), none) := by
  unfold acknowledge; rw [h]

theorem clear_refused {reason : Nat} (h : s.scopeRefusal x = some reason) :
    clear x o s = (s, some reason) := by
  unfold clear; rw [h]

theorem clear_accepted (h : s.scopeRefusal x = none) :
    clear x o s = (decideHorn (overPoints (clearPoint o) (s.clearTargets x) s), none) := by
  unfold clear; rw [h]

end

theorem annState_ne_none {s : State} {n : Nat} {x : AnnState} (h : s.annState n = some x) :
    s.annState n ≠ none := by rw [h]; nofun

theorem annState_of_look {s : State} {n : Nat} {r : AnnRec} (h : s.ann.records.look n = some r) :
    s.annState n = some r.state := by unfold State.annState; rw [h]; rfl

/-! ## Several points in turn (R99, R100, R104) -/

/-- Operations in turn, each with one event, whatever state the ones before it have left: the events stand in the
order of the points (R164). What an operation needs of its point, `ready`, the operations at other points leave. -/
theorem overPoints_queue {l : List Part} {act : Nat → State → State} {ready : State → Nat → Prop}
    {kind : EventKind} {o : Origin} {d : Nat} (points : List Nat) {s : State}
    (changes : ∀ n s, Changes l s (act n s))
    (hl : [Part.loaderCfg, .genSeconds].all (fun p => !l.contains p) = true)
    (tells : ∀ n s, s.onBoard → s.events.queue.length < 32 → ready s n →
      (act n s).events.queue = s.events.queue ++ [s.eventOf kind o n d])
    (stays : ∀ n m s, m ≠ n → ready s m → ready (act n s) m)
    (hb : s.onBoard) (hq : s.events.queue.length + points.length ≤ 32) (nodup : points.Nodup)
    (hr : ∀ n ∈ points, ready s n) :
    (overPoints act points s).events.queue = s.events.queue ++ points.map (fun n => s.eventOf kind o n d) := by
  induction points generalizing s with
  | nil => exact (List.append_nil _).symm
  | cons n points ih =>
    rw [List.length_cons] at hq
    obtain ⟨hn, nodup⟩ := List.nodup_cons.mp nodup
    have same := (changes n s).keepsAll hl
    have cfg : (act n s).loader.cfg = s.loader.cfg := same .loaderCfg (by decide)
    have seconds : (act n s).gen.seconds = s.gen.seconds := same .genSeconds (by decide)
    have first := tells n s hb (by omega) (hr n List.mem_cons_self)
    have rest := ih (s := act n s) (by rw [State.onBoard, cfg]; exact hb)
      (by rw [first, List.length_append, List.length_singleton]; omega) nodup
      (fun m hm => stays n m s (fun e => hn (e ▸ hm)) (hr m (List.mem_cons_of_mem _ hm)))
    have told : (fun m => (act n s).eventOf kind o m d) = fun m => s.eventOf kind o m d := by
      unfold State.eventOf
      rw [seconds]
    show (overPoints act points (act n s)).events.queue = _
    rw [rest, told, first, List.append_assoc, List.map_cons, List.singleton_append]

/-! ## A clear of one point (R90, R91, R94, R96) -/

section
variable {s : State} {n : Nat} (o : Origin)

theorem clearPoint_returned (h : s.annState n = some .returned) :
    clearPoint o n s = record .cleared o n 0 (transition n .quiet s) := by
  unfold clearPoint; rw [h]

theorem clearPoint_other (h : s.annState n ≠ some .returned) : clearPoint o n s = s := by
  unfold clearPoint
  split
  · contradiction
  all_goals rfl

/-- RETURNED goes to QUIET, and no other state and no other point moves. -/
theorem clearPoint_annState (m : Nat) : (clearPoint o n s).annState m =
    if m = n ∧ s.annState n = some .returned then some .quiet else s.annState m := by
  by_cases h : s.annState n = some .returned
  · rw [clearPoint_returned o h, record_annState, transition_annState]
    simp [h]
  · rw [clearPoint_other o h, if_neg (fun hc => h hc.2)]

theorem clearPoint_unack : (clearPoint o n s).ann.unack = s.ann.unack := by
  by_cases h : s.annState n = some .returned
  · rw [clearPoint_returned o h]
    exact Eq.trans (record_changes _ _ _ _ _ .annUnack (by decide)) (transition_unack .quiet h)
  · rw [clearPoint_other o h]

theorem clearPoint_queue (h : s.annState n = some .returned) (hb : s.onBoard)
    (hq : s.events.queue.length < 32) :
    (clearPoint o n s).events.queue = s.events.queue ++ [s.eventOf .cleared o n 0] := by
  rw [clearPoint_returned o h]
  exact record_queue_after (transition_changes n .quiet s) hb hq _ _ _ _

theorem clear_point (hi : (s.point n).status = .installed) (hn : s.annState n ≠ none) :
    clear (.point n) o s = (decideHorn (clearPoint o n s), none) :=
  clear_accepted o (pointRefusal_none hi hn)

end

/-- Settles O37: the clear of a point is its one transition with its one event, or nothing. -/
theorem clearOfAPoint : Obligations.ClearOfAPoint := by
  refine fun s o n => ⟨fun h => ⟨?_, fun hb hq => clearPoint_queue o h hb hq, fun m hm => ?_⟩,
    clearPoint_other o, clear_point o⟩
  · rw [clearPoint_annState, if_pos ⟨rfl, h⟩]
  · rw [clearPoint_annState, if_neg (fun hc => hm hc.1)]

/-! ## A clear in board and group scope (R98, R100) -/

section
variable (o : Origin) (points : List Nat) (s : State)

theorem clearAll_annState (m : Nat) : (overPoints (clearPoint o) points s).annState m =
    if m ∈ points ∧ s.annState m = some .returned then some .quiet else s.annState m := by
  induction points generalizing s with
  | nil => simp [overPoints]
  | cons n points ih =>
    show (overPoints (clearPoint o) points (clearPoint o n s)).annState m = _
    rw [ih, clearPoint_annState]
    by_cases hm : m = n
    · subst hm
      by_cases hx : s.annState m = some .returned <;> simp [hx]
    · simp [hm]

theorem clearAll_unack : (overPoints (clearPoint o) points s).ann.unack = s.ann.unack := by
  induction points generalizing s with
  | nil => rfl
  | cons n points ih => exact (ih (clearPoint o n s)).trans (clearPoint_unack o)

end

/-- A point in RETURNED is among the points that a board clear goes over. -/
theorem State.mem_returnedPoints_of {s : State} {n : Nat} (h : s.annState n = some .returned) :
    n ∈ s.returnedPoints := by
  obtain ⟨r, hr, hs⟩ := look_of_annState h
  exact List.mem_map.mpr ⟨(n, r), List.mem_filter.mpr ⟨Table.mem_of_look hr, beq_iff_eq.mpr hs⟩, rfl⟩

/-- With the records in rising order these points are just the RETURNED ones. -/
theorem State.mem_returnedPoints {s : State} (h : s.ann.records.sorted = true) (n : Nat) :
    n ∈ s.returnedPoints ↔ s.annState n = some .returned := by
  refine ⟨fun hn => ?_, State.mem_returnedPoints_of⟩
  obtain ⟨⟨k, r⟩, hm, rfl⟩ := List.mem_map.mp hn
  obtain ⟨hm, hs⟩ := List.mem_filter.mp hm
  rw [annState_of_look (Table.look_of_mem h hm), beq_iff_eq.mp hs]

theorem State.returnedPoints_rising {s : State} (h : s.ann.records.sorted = true) :
    s.returnedPoints.Pairwise (· < ·) :=
  List.pairwise_map.mpr ((Table.sorted_pairwise h).filter _)

theorem clear_unack (x : Scope) (o : Origin) (s : State) : (clear x o s).1.ann.unack = s.ann.unack := by
  unfold clear
  split
  · rfl
  · exact clearAll_unack o _ s

theorem clearedStates : Claim.ClearedStates := by
  intro s o g n
  refine ⟨rfl, rfl, fun m => ?_, fun m => ?_, fun h => clear_refused o (pointRefusal_notInstalled h),
    fun h hn => clear_refused o (pointRefusal_noRecord h hn), fun h hn => ?_,
    fun x => ⟨clear_unack x o s, clear_changes x o s .annShelf (by decide)⟩⟩
  · refine (clearAll_annState o s.returnedPoints s m).trans (if_congr ?_ rfl rfl)
    exact and_iff_right_of_imp State.mem_returnedPoints_of
  · refine (clearAll_annState o (s.clearTargets (.group g)) s m).trans (if_congr ?_ rfl rfl)
    rw [State.clearTargets, List.mem_filter, beq_iff_eq]
    exact ⟨fun ⟨⟨_, hg⟩, hx⟩ => ⟨hx, hg⟩, fun ⟨hx, hg⟩ => ⟨⟨State.mem_returnedPoints_of hx, hg⟩, hx⟩⟩
  · rw [clear_point o h (annState_ne_none hn)]
    refine (annState_of_changes (decideHorn_changes _) (by decide) n).trans ?_
    rw [clearPoint_annState, if_pos ⟨rfl, hn⟩]

/-- The clears of RETURNED points, each once, have their events in the order of the points (R91, R100). -/
theorem clearAll_queue {s : State} (o : Origin) {points : List Nat} (hb : s.onBoard)
    (hq : s.events.queue.length + points.length ≤ 32) (nodup : points.Nodup)
    (h : ∀ n ∈ points, s.annState n = some .returned) :
    (overPoints (clearPoint o) points s).events.queue
      = s.events.queue ++ points.map (fun m => s.eventOf .cleared o m 0) :=
  overPoints_queue (ready := fun s n => s.annState n = some .returned) points (clearPoint_changes o) rfl
    (fun _ _ hb hq hn => clearPoint_queue o hn hb hq)
    (fun _ _ _ hm hx => (clearPoint_annState o _).trans ((if_neg fun hc => hm hc.1).trans hx)) hb hq nodup h

theorem clearEvents : Claim.ClearEvents := by
  intro s o g sorted
  have rising := State.returnedPoints_rising sorted
  have mem := State.mem_returnedPoints sorted
  have nodup : s.returnedPoints.Nodup := rising.imp fun h => Nat.ne_of_lt h
  refine ⟨rising, mem, fun hb hq => ⟨?_, ?_⟩⟩
  · exact clearAll_queue o hb hq nodup fun n hn => (mem n).mp hn
  · have shorter := List.length_filter_le (fun m => s.groupOf m == some g) s.returnedPoints
    exact clearAll_queue o hb (le_trans (Nat.add_le_add_left shorter _) hq) (nodup.filter _)
      fun n hn => (mem n).mp (List.mem_of_mem_filter hn)

theorem clearMoves : Claim.ClearMoves := by
  intro s t o n r hr ht
  have hn := annState_of_look hr
  have ends : t = clearPoint o n s ∨ t = decideHorn (clearPoint o n s) :=
    ht.imp_right fun ⟨hi, e⟩ => e.trans (congrArg Prod.fst (clear_point o hi (annState_ne_none hn)))
  refine ⟨fun h => ?_, fun h => ?_⟩
  · have cleared : s.moved (clearPoint o n s) n r .quiet := by
      rw [clearPoint_returned o (by rw [hn, h])]
      exact (transition_moved hr).of_changes (record_changes _ _ _ _ _)
    rcases ends with rfl | rfl
    · exact cleared
    · exact cleared.of_changes (decideHorn_changes _)
  · rw [clearPoint_other o (by rw [hn]; exact fun e => h (Option.some_inj.mp e))] at ends
    rcases ends with rfl | rfl <;> exact ⟨rfl, rfl⟩

/-- Settles O38: a board or group clear is a clear of each of its RETURNED points in turn, in rising order. -/
theorem clear_holds : Obligations.Clear := ⟨clearedStates, clearEvents, clearMoves⟩

/-! ## A point comes off the shelf (R88, R91, R94, R96, R104, R105) -/

section
variable {s : State} {n : Nat} (a : AnnState) (d : Nat) (o : Origin)

theorem unshelve_isAbnormal (m : Nat) : (unshelve n a d o s).isAbnormal m = s.isAbnormal m := by
  have values : (unshelve n a d o s).evaluator.values = s.evaluator.values :=
    unshelve_changes n a d o s .evaluatorValues (by decide)
  unfold State.isAbnormal
  rw [values]

theorem unshelve_moved {r : AnnRec} (hr : s.ann.records.look n = some r) :
    s.moved (unshelve n a d o s) n r (if s.isAbnormal n then a else .quiet) := by
  have off := setShelf_changes (s.ann.shelf.filter (fun x => x.point != n)) s
  have moved := transition_moved (new := if s.isAbnormal n then a else .quiet)
    (s := s.setAnn { s.ann with shelf := s.ann.shelf.filter (fun x => x.point != n) }) hr
  exact (moved.of_changes (record_changes .unshelved o n d _)).of_source off

theorem unshelve_queue (hb : s.onBoard) (hq : s.events.queue.length < 32) :
    (unshelve n a d o s).events.queue = s.events.queue ++ [s.eventOf .unshelved o n d] := by
  refine record_queue_after (l := .annShelf :: transitionParts) ?_ hb hq _ _ _ _
  exact (setShelf_changes _ s).then (transition_changes _ _ _)

/-- An abnormal point that expires joins the end of the list (R92, R104). -/
theorem unshelve_unack (h : s.annState n = some .shelved) :
    (unshelve n .new d o s).ann.unack = s.ann.unack ++ (if s.isAbnormal n then [n] else []) := by
  refine Eq.trans (record_changes _ _ _ _ _ .annUnack (by decide)) ?_
  refine Eq.trans (transition_unack _ (s := s.setAnn { s.ann with
    shelf := s.ann.shelf.filter (fun x => x.point != n) }) h) ?_
  show (match AnnState.shelved.onList, (if s.isAbnormal n then AnnState.new else .quiet).onList with
    | true, false => s.ann.unack.filter (fun m => m != n)
    | false, true => s.ann.unack ++ [n]
    | true, true | false, false => s.ann.unack) = _
  cases s.isAbnormal n
  · exact (List.append_nil _).symm
  · rfl

/-- Points that expire in turn: the abnormal ones join the list in their order (R92, R104). -/
theorem unshelveAll_unack (points : List Nat) (s : State) (nodup : points.Nodup)
    (h : ∀ n ∈ points, s.annState n = some .shelved) :
    (overPoints (fun n => unshelve n .new d o) points s).ann.unack
      = s.ann.unack ++ points.filter s.isAbnormal := by
  induction points generalizing s with
  | nil => exact (List.append_nil _).symm
  | cons n points ih =>
    obtain ⟨hn, nodup⟩ := List.nodup_cons.mp nodup
    have stays : ∀ m ∈ points, (unshelve n .new d o s).annState m = some .shelved := fun m hm => by
      rw [unshelve_state, if_neg]
      · exact h m (List.mem_cons_of_mem _ hm)
      · rintro ⟨rfl, -⟩
        exact hn hm
    have abnormal : (unshelve n .new d o s).isAbnormal = s.isAbnormal :=
      funext (unshelve_isAbnormal .new d o)
    show (overPoints (fun n => unshelve n .new d o) points (unshelve n .new d o s)).ann.unack = _
    rw [ih _ nodup stays, unshelve_unack d o (h n List.mem_cons_self), abnormal, List.append_assoc,
      List.filter_cons]
    split_ifs <;> rfl

end

theorem unshelveMoves : Claim.UnshelveMoves := fun _ _ d o a _ => unshelve_moved a d o

/-! ## The board second at the shelf (R104) -/

/-- The points that expire are those with one second left, in shelf order. -/
theorem lowerShelf_expired (l : List ShelfRec) :
    (lowerShelf l).2 = (l.filter (fun x => decide (x.seconds ≤ 1))).map ShelfRec.point := by
  unfold lowerShelf
  dsimp only
  rw [List.filter_map, List.map_map]
  refine congrArg (List.map _) (List.filter_congr fun x _ => ?_)
  show (x.seconds - 1 == 0) = decide (x.seconds ≤ 1)
  rw [Bool.eq_iff_iff, beq_iff_eq, decide_eq_true_iff]
  omega

/-- What stays on the lowered shelf is none of the points that expire. -/
theorem lowerShelf_stays {l : List ShelfRec} (h : (l.map ShelfRec.point).Nodup) :
    (lowerShelf l).1.filter (fun x => !(lowerShelf l).2.contains x.point) = (lowerShelf l).1 :=
  List.filter_eq_self.mpr fun x hx => by simpa using lowerShelf_apart h (List.mem_map_of_mem hx)

section
variable {s : State}

theorem shelfSecond_shelf (h : s.shelfExact) : (shelfSecond s).ann.shelf = (lowerShelf s.ann.shelf).1 :=
  (unshelveAll_shelf _ _ _ _ _).trans (lowerShelf_stays h.1)

theorem shelfSecond_due : (shelfSecond s).ann.shelfDue = false := unshelveAll_due _ _ _ _ _

/-- The points that expire take the state of their condition, where they have a record, and no other moves. -/
theorem shelfSecond_annState (m : Nat) : (shelfSecond s).annState m =
    if m ∈ (lowerShelf s.ann.shelf).2 ∧ s.annState m ≠ none then
      some (if s.isAbnormal m then .new else .quiet) else s.annState m :=
  unshelveAll_state .new 0 .part _ (s.setAnn { s.ann with
    shelf := (lowerShelf s.ann.shelf).1, shelfDue := false }) m

theorem lowerShelf_expired_nodup (h : s.shelfExact) : (lowerShelf s.ann.shelf).2.Nodup := by
  rw [lowerShelf_expired]
  exact h.1.sublist (List.filter_sublist.map _)

theorem lowerShelf_expired_shelved (h : s.shelfExact) :
    ∀ n ∈ (lowerShelf s.ann.shelf).2, s.annState n = some .shelved :=
  fun n hn => (h.2 n).mp ((lowerShelf_points _ n).mpr (.inr hn))

theorem shelfSecond_unack (h : s.shelfExact) : (shelfSecond s).ann.unack =
    s.ann.unack ++ (lowerShelf s.ann.shelf).2.filter s.isAbnormal :=
  unshelveAll_unack 0 .part _ (s.setAnn { s.ann with shelf := (lowerShelf s.ann.shelf).1, shelfDue := false })
    (lowerShelf_expired_nodup h) (lowerShelf_expired_shelved h)

theorem shelfSecond_queue (h : s.shelfExact) (hb : s.onBoard)
    (hq : s.events.queue.length + (lowerShelf s.ann.shelf).2.length ≤ 32) :
    (shelfSecond s).events.queue = s.events.queue
      ++ (lowerShelf s.ann.shelf).2.map (fun n => s.eventOf .unshelved .part n 0) :=
  overPoints_queue (ready := fun _ _ => True)
    (s := s.setAnn { s.ann with shelf := (lowerShelf s.ann.shelf).1, shelfDue := false }) _
    (fun n s => unshelve_changes n .new 0 .part s) rfl
    (fun _ _ hb hq _ => unshelve_queue .new 0 .part hb hq) (fun _ _ _ _ _ => trivial) hb hq
    (lowerShelf_expired_nodup h) (fun _ _ => trivial)

theorem shelfSecond_evaluator : (shelfSecond s).evaluator = s.evaluator := by
  have same := (shelfSecond_changes s).keepsAll
    (parts := [.evaluatorValues, .evaluatorItem, .evaluatorFirstValue, .evaluatorSecondDue])
  simp only [List.forall_mem_cons, Part.same] at same
  generalize s.evaluator = x, (shelfSecond s).evaluator = y at same ⊢
  cases x
  cases y
  simpa using same

end

theorem shelfExpires : Claim.ShelfExpiry := by
  intro s hs hd h
  have run : exec .shelfExpiry s = .next (settle (shelfSecond s)) := exec_settles hs (if_pos hd)
  have ann := settle_ann (shelfSecond s)
  have state := annState_of_changes (settle_changes (shelfSecond s)) (by decide)
  have queue : (settle (shelfSecond s)).events.queue = (shelfSecond s).events.queue :=
    settle_changes _ .eventsQueue (by decide)
  have evaluator := settle_evaluator (shelfSecond s)
  have expired := lowerShelf_expired s.ann.shelf
  refine ⟨_, run, ?_⟩
  generalize settle (shelfSecond s) = t at ann state queue evaluator
  rw [ann, queue, evaluator]
  refine ⟨shelfSecond_shelf h, shelfSecond_due, fun x hx hsec => ?_, fun n hn => ?_, ?_, fun hb hq => ?_,
    shelfSecond_evaluator⟩
  · rw [state, shelfSecond_annState, if_pos]
    refine ⟨?_, annState_ne_none ((h.2 _).mp (List.mem_map_of_mem hx))⟩
    rw [expired]
    exact List.mem_map_of_mem (List.mem_filter.mpr ⟨hx, decide_eq_true hsec⟩)
  · rw [state, shelfSecond_annState, if_neg]
    rintro ⟨hm, -⟩
    rw [expired] at hm
    obtain ⟨x, hx, rfl⟩ := List.mem_map.mp hm
    obtain ⟨hx, hsec⟩ := List.mem_filter.mp hx
    exact absurd (of_decide_eq_true hsec) (Nat.not_le.mpr (hn x hx rfl))
  · rw [shelfSecond_unack h, expired, List.filter_map, List.filter_filter]
    refine congrArg (fun l => s.ann.unack ++ List.map ShelfRec.point l) (List.filter_congr fun x _ => ?_)
    exact Bool.and_comm _ _
  · have shorter : (lowerShelf s.ann.shelf).2.length ≤ s.ann.shelf.length := by
      rw [expired, List.length_map]
      exact List.length_filter_le _ _
    rw [shelfSecond_queue h hb (le_trans (Nat.add_le_add_left shorter _) hq), expired, List.map_map]
    rfl

/-- Settles O40: the shelf is lowered, and each point that expires is unshelved in turn. -/
theorem shelfExpiry : Obligations.ShelfExpiry := ⟨shelfExpires, unshelveMoves⟩

/-! ## A shelve (R88, R94, R96, R98, R103) -/

section
variable {s : State} {n : Nat} (o : Origin)

theorem shelve_refused {reason : Nat} (h : s.shelveRefusal n = some reason) :
    shelve n o s = (s, some reason) := by
  unfold shelve; rw [h]

theorem shelve_accepted (h : s.shelveRefusal n = none) : shelve n o s = (shelveAccepted n o s, none) := by
  unfold shelve; rw [h]

/-- The checks of the point come first (R98). -/
theorem shelveRefusal_point {reason : Nat} (h : s.pointRefusal n = some reason) :
    s.shelveRefusal n = some reason := by
  unfold State.shelveRefusal; rw [h]

/-- Behind them come the minutes and then the places of the shelf (R98). -/
theorem shelveRefusal_behind (h : s.pointRefusal n = none) : s.shelveRefusal n =
    if s.ann.shelveMinutes = 0 then some 8
    else if 32 ≤ s.ann.shelf.length ∧ ¬ ∃ x ∈ s.ann.shelf, x.point = n then some 7 else none := by
  unfold State.shelveRefusal
  rw [h]
  simp only [List.any_eq_true, beq_iff_eq]
  rfl

/-- A shelve up to its transition: the point's record at the end of the shelf (R103). -/
def State.shelfJoined (s : State) (n : Nat) : State :=
  s.setAnn { s.ann with
    shelf := s.ann.shelf.filter (fun x => x.point != n) ++ [⟨n, s.ann.shelveMinutes * 60⟩] }

/-- What follows the transition of a shelve to SHELVED. -/
theorem shelveAccepted_after :
    Changes ([.annShelf, .annShelfDue, .annHornClass] ++ eventParts) (transition n .shelved (s.shelfJoined n))
      (shelveAccepted n o s) :=
  (decideHorn_changes _).after ((finishShelf_changes _).after (record_changes _ _ _ _ _).mono)

theorem shelveAccepted_annState (m : Nat) : (shelveAccepted n o s).annState m =
    if m = n ∧ s.annState n ≠ none then some .shelved else s.annState m :=
  (annState_of_changes (shelveAccepted_after o) (by decide) m).trans
    (transition_annState n m .shelved (s.shelfJoined n))

theorem shelveAccepted_moved {r : AnnRec} (hr : s.ann.records.look n = some r) :
    s.moved (shelveAccepted n o s) n r .shelved :=
  ((transition_moved (s := s.shelfJoined n) hr).of_changes (shelveAccepted_after o)).of_source
    (setShelf_changes _ s)

/-- The point is off an exact list, wherever it stood on it (R92). -/
theorem shelveAccepted_unack (h : s.listExact) (hn : s.annState n ≠ none) :
    (shelveAccepted n o s).ann.unack = s.ann.unack.filter (fun m => m != n) := by
  obtain ⟨x, hx⟩ := Option.ne_none_iff_exists'.mp hn
  refine Eq.trans (shelveAccepted_after o .annUnack (by decide)) ?_
  refine Eq.trans (transition_unack .shelved (s := s.shelfJoined n) hx) ?_
  cases hl : x.onList with
  | true => rfl
  | false =>
    refine (List.filter_eq_self.mpr fun m hm => ?_).symm
    rw [bne_iff_ne]
    rintro rfl
    have listed := (h.2 m).mp hm
    rw [hx, Option.some_inj, Option.some_inj, ← x.onList_iff, hl] at listed
    cases listed

theorem shelveAccepted_queue (hb : s.onBoard) (hq : s.events.queue.length < 32) :
    (shelveAccepted n o s).events.queue
      = s.events.queue ++ [s.eventOf .shelved o n s.ann.shelveMinutes] := by
  refine Eq.trans (finishShelf_changes _ .eventsQueue (by decide)) ?_
  refine record_queue_after (l := .annShelf :: transitionParts) ?_ hb hq _ _ _ _
  exact (setShelf_changes _ s).then (transition_changes _ _ _)

end

/-- Settles O39: the checks are read in their order, and an accepted shelve is a transition to SHELVED with the
record at the end of the shelf. -/
theorem shelve_holds : Obligations.Shelve := by
  intro s o n
  have behind (hi : (s.point n).status = .installed) (hn : s.annState n ≠ none) :=
    shelveRefusal_behind (pointRefusal_none hi hn)
  refine ⟨fun hi => shelve_refused o (shelveRefusal_point (pointRefusal_notInstalled hi)),
    fun hi hn => shelve_refused o (shelveRefusal_point (pointRefusal_noRecord hi hn)),
    fun hi hn hm => shelve_refused o ?_, fun hi hn hm hf hx => shelve_refused o ?_,
    fun hi hn hm hf => ?_, fun m hm => ?_⟩
  · rw [behind hi hn, if_pos hm]
  · rw [behind hi hn, if_neg hm, if_pos ⟨hf, fun ⟨x, hmem, he⟩ => hx x hmem he⟩]
  · have accepted : s.shelveRefusal n = none := by
      rw [behind hi hn, if_neg hm, if_neg]
      rintro ⟨full, absent⟩
      exact hf.elim (fun h => absurd full (Nat.not_le.mpr h)) absent
    rw [shelve_accepted o accepted]
    refine ⟨rfl, (shelveAccepted_annState o n).trans (if_pos ⟨rfl, hn⟩), fun r => shelveAccepted_moved o,
      shelveAccepted_becomes n o s, fun h => shelveAccepted_unack o h hn, shelveAccepted_queue o⟩
  · cases hr : s.shelveRefusal n with
    | some reason => rw [shelve_refused o hr]
    | none =>
      rw [shelve_accepted o hr]
      exact (shelveAccepted_annState o m).trans (if_neg fun hc => hm hc.1)

/-! ## An acknowledge of one point (R89, R91, R94, R96, R105) -/

/-- The state in which an acknowledge leaves a member of the list; in the other states it is no member (R89). -/
def AnnState.acked : AnnState → AnnState
  | .new => .standing
  | .fleeting => .returned
  | .quiet => .quiet
  | .standing => .standing
  | .returned => .returned
  | .shelved => .shelved

theorem AnnState.acked_offList (x : AnnState) : x.acked.onList = false := by cases x <;> rfl

section
variable {s : State} {n : Nat} {x : AnnState} (o : Origin)

/-- An acknowledge of a member of the list (R89). -/
theorem ackPoint_member (h : s.annState n = some x) (hx : x.onList = true) :
    ackPoint o n s = record .acked o n 0 (transition n x.acked s) := by
  unfold ackPoint
  rw [h]
  cases x <;> first | rfl | cases hx

/-- An acknowledge of a SHELVED point (R105). -/
theorem ackPoint_shelved (h : s.annState n = some .shelved) :
    ackPoint o n s = finishShelf (unshelve n .standing 1 o s) := by
  unfold ackPoint; rw [h]

/-- An acknowledge of a point in QUIET, STANDING or RETURNED (R89). -/
theorem ackPoint_stands (h : s.annState n = some x) (hx : x.onList = false) (hs : x ≠ .shelved) :
    ackPoint o n s = s := by
  unfold ackPoint
  rw [h]
  cases x <;> first | rfl | exact absurd rfl hs | cases hx

theorem ackPoint_noRecord (h : s.annState n = none) : ackPoint o n s = s := by
  unfold ackPoint; rw [h]

/-- An acknowledge moves its point alone. -/
theorem ackPoint_annState_other {m : Nat} (hm : m ≠ n) : (ackPoint o n s).annState m = s.annState m := by
  cases h : s.annState n with
  | none => rw [ackPoint_noRecord o h]
  | some x =>
    cases hx : x.onList with
    | true => rw [ackPoint_member o h hx, record_annState, transition_other s _ hm]
    | false =>
      by_cases hs : x = .shelved
      · rw [ackPoint_shelved o (hs ▸ h)]
        refine (annState_of_changes (finishShelf_changes _) (by decide) m).trans ?_
        rw [unshelve_state, if_neg (fun hc => hm hc.1)]
      · rw [ackPoint_stands o h hx hs]

theorem ackPoint_member_annState (h : s.annState n = some x) (hx : x.onList = true) (m : Nat) :
    (ackPoint o n s).annState m = if m = n then some x.acked else s.annState m := by
  rw [ackPoint_member o h hx, record_annState, transition_annState]
  exact if_congr (and_iff_left (annState_ne_none h)) rfl rfl

theorem ackPoint_member_unack (h : s.annState n = some x) (hx : x.onList = true) :
    (ackPoint o n s).ann.unack = s.ann.unack.filter (fun m => m != n) := by
  rw [ackPoint_member o h hx]
  refine Eq.trans (record_changes _ _ _ _ _ .annUnack (by decide)) ((transition_unack x.acked h).trans ?_)
  rw [hx, x.acked_offList]

theorem ackPoint_member_changes (h : s.annState n = some x) (hx : x.onList = true) :
    Changes (transitionParts ++ eventParts) s (ackPoint o n s) := by
  rw [ackPoint_member o h hx]
  exact (transition_changes _ _ s).then (record_changes _ _ _ _ _)

theorem ackPoint_member_queue (h : s.annState n = some x) (hx : x.onList = true) (hb : s.onBoard)
    (hq : s.events.queue.length < 32) :
    (ackPoint o n s).events.queue = s.events.queue ++ [s.eventOf .acked o n 0] := by
  rw [ackPoint_member o h hx]
  exact record_queue_after (transition_changes n _ s) hb hq _ _ _ _

end

/-! ## The members of the list acknowledged in turn (R99) -/

/-- A point is in NEW or FLEETING, the states of the list's members (R92). -/
def State.isMember (s : State) (n : Nat) : Prop := ∃ x, s.annState n = some x ∧ x.onList = true

theorem State.isMember_iff {s : State} {n : Nat} :
    s.isMember n ↔ s.annState n = some .new ∨ s.annState n = some .fleeting := by
  unfold State.isMember
  simp only [AnnState.onList_iff]
  constructor
  · rintro ⟨x, hx, rfl | rfl⟩
    · exact .inl hx
    · exact .inr hx
  · rintro (h | h)
    · exact ⟨_, h, .inl rfl⟩
    · exact ⟨_, h, .inr rfl⟩

theorem State.listExact.mem {s : State} (h : s.listExact) (n : Nat) : n ∈ s.ann.unack ↔ s.isMember n :=
  (h.2 n).trans State.isMember_iff.symm

theorem ackPoint_isMember {s : State} {n m : Nat} (o : Origin) (hm : m ≠ n) (h : s.isMember m) :
    (ackPoint o n s).isMember m := by
  obtain ⟨x, hx, hl⟩ := h
  exact ⟨x, (ackPoint_annState_other o hm).trans hx, hl⟩

section
variable (o : Origin) {points : List Nat} {s : State} (nodup : points.Nodup) (h : ∀ n ∈ points, s.isMember n)
include nodup h

/-- Members acknowledged in turn: each goes to its acknowledged state and off the list; no other point moves, and
neither does the shelf. -/
theorem ackAll_members :
    (∀ m, (overPoints (ackPoint o) points s).annState m =
        if m ∈ points then (s.annState m).map AnnState.acked else s.annState m)
      ∧ (overPoints (ackPoint o) points s).ann.unack = s.ann.unack.filter (fun m => !points.contains m)
      ∧ Changes (transitionParts ++ eventParts) s (overPoints (ackPoint o) points s) := by
  induction points generalizing s with
  | nil =>
    exact ⟨fun m => (if_neg List.not_mem_nil).symm, (List.filter_eq_self.mpr fun _ _ => rfl).symm, .refl _ _⟩
  | cons n points ih =>
    obtain ⟨hn, nodup⟩ := List.nodup_cons.mp nodup
    obtain ⟨x, hx, hl⟩ := h n List.mem_cons_self
    have first := ackPoint_member_annState o hx hl
    obtain ⟨state, unack, changes⟩ := ih (s := ackPoint o n s) nodup fun m hm =>
      ackPoint_isMember o (fun e => hn (e ▸ hm)) (h m (List.mem_cons_of_mem _ hm))
    refine ⟨fun m => (state m).trans ?_, unack.trans ?_, (ackPoint_member_changes o hx hl).trans changes⟩
    · rw [first]
      by_cases hm : m = n
      · subst hm
        simp [hn, hx]
      · simp [hm]
    · rw [ackPoint_member_unack o hx hl, List.filter_filter]
      refine List.filter_congr fun m _ => ?_
      by_cases hm : m = n <;> simp [hm]

/-- Their events stand in the order of the list (R91, R99). -/
theorem ackAll_queue (hb : s.onBoard) (hq : s.events.queue.length + points.length ≤ 32) :
    (overPoints (ackPoint o) points s).events.queue
      = s.events.queue ++ points.map (fun m => s.eventOf .acked o m 0) :=
  overPoints_queue (ready := State.isMember) points (ackPoint_changes o) rfl
    (fun _ _ hb hq ⟨_, hx, hl⟩ => ackPoint_member_queue o hx hl hb hq)
    (fun _ _ _ hm => ackPoint_isMember o hm) hb hq nodup h

end

/-- R89's transitions, as they stand in the statements. -/
theorem AnnState.map_acked (x : Option AnnState) : x.map AnnState.acked = match x with
    | some .new => some .standing
    | some .fleeting => some .returned
    | x => x := by
  rcases x with - | x
  · rfl
  · cases x <;> rfl

/-- A point off the list is not changed by them. -/
theorem State.acked_of_not_member {s : State} {n : Nat} (h : ¬ s.isMember n) :
    (s.annState n).map AnnState.acked = s.annState n := by
  rw [State.isMember_iff] at h
  rw [AnnState.map_acked]
  split
  · rename_i e; exact absurd (.inl e) h
  · rename_i e; exact absurd (.inr e) h
  · rfl

/-- With no member, no class sounds (R107). -/
theorem State.hornClassNow_empty {s : State} (h : s.ann.unack = []) : s.hornClassNow = none := by
  unfold State.hornClassNow
  rw [h]
  split_ifs <;> rfl

theorem ackTargets_group (s : State) (g : Nat) :
    s.ackTargets (.group g) = s.ann.unack.filter (fun m => s.groupOf m == some g) := rfl

/-- The members of a group, each once (R92, R99). -/
theorem mem_ackTargets_group {s : State} (h : s.listExact) (g m : Nat) :
    m ∈ s.ackTargets (.group g) ↔ s.isMember m ∧ s.groupOf m = some g := by
  rw [ackTargets_group, List.mem_filter, h.mem, beq_iff_eq]

theorem boardAndGroupAcknowledge : Claim.BoardAndGroupAcknowledge := by
  intro s o g h
  have member (m : Nat) := h.mem m
  obtain ⟨boardState, boardList, boardParts⟩ := ackAll_members o h.1 (fun n hn => (member n).mp hn)
  obtain ⟨groupState, groupList, groupParts⟩ := ackAll_members o (points := s.ackTargets (.group g))
    (h.1.filter _) (fun n hn => ((mem_ackTargets_group h g n).mp hn).1)
  have emptied : (overPoints (ackPoint o) s.ann.unack s).ann.unack = [] := by
    rw [boardList, List.filter_eq_nil_iff]
    intro m hm
    simp [hm]
  refine ⟨rfl, rfl, emptied, State.hornClassNow_empty emptied, ?_, fun n => ?_, groupList.trans ?_, fun n => ?_⟩
  · rintro x (rfl | rfl)
    · exact ⟨boardParts .annShelf (by decide), boardParts .annShelfDue (by decide)⟩
    · exact ⟨groupParts .annShelf (by decide), groupParts .annShelfDue (by decide)⟩
  · refine Eq.trans ?_ (AnnState.map_acked (s.annState n))
    refine (boardState n).trans ?_
    split_ifs with hn
    · rfl
    · exact (State.acked_of_not_member fun hm => hn ((member n).mpr hm)).symm
  · refine List.filter_congr fun m hm => ?_
    rw [ackTargets_group]
    by_cases hg : s.groupOf m = some g <;> simp [hm, hg]
  · refine Eq.trans ?_ (if_congr Iff.rfl (AnnState.map_acked (s.annState n)) rfl)
    refine (groupState n).trans ?_
    have mem := mem_ackTargets_group h g n
    by_cases hg : s.groupOf n = some g
    · rw [if_pos hg]
      split_ifs with hn
      · rfl
      · exact (State.acked_of_not_member fun hm => hn (mem.mpr ⟨hm, hg⟩)).symm
    · rw [if_neg hg, if_neg (fun hn => hg (mem.mp hn).2)]

/-! ## An acknowledge in point scope (R89, R98, R105) -/

theorem acknowledge_point {s : State} {n : Nat} (o : Origin) (hi : (s.point n).status = .installed)
    (hn : s.annState n ≠ none) :
    acknowledge (.point n) o s = (decideHorn (ackPoint o n s), none) :=
  acknowledge_accepted o (pointRefusal_none hi hn)

theorem acknowledge_annState_other {s : State} {n m : Nat} (o : Origin) (hm : m ≠ n) :
    (acknowledge (.point n) o s).1.annState m = s.annState m := by
  unfold acknowledge
  split
  · rfl
  · exact ackPoint_annState_other o hm

/-- The state of an acknowledged point (R89, R105). -/
theorem ackPoint_annState {s : State} {n : Nat} {x : AnnState} (o : Origin) (h : s.annState n = some x) :
    (ackPoint o n s).annState n =
      some (if x = .shelved then (if s.isAbnormal n then .standing else .quiet) else x.acked) := by
  cases hl : x.onList with
  | true =>
    have hs : x ≠ .shelved := by rintro rfl; cases hl
    rw [ackPoint_member_annState o h hl, if_pos rfl, if_neg hs]
  | false =>
    by_cases hs : x = .shelved
    · rw [ackPoint_shelved o (hs ▸ h), if_pos hs]
      refine (annState_of_changes (finishShelf_changes _) (by decide) n).trans ?_
      rw [unshelve_state, if_pos ⟨rfl, annState_ne_none h⟩]
    · rw [ackPoint_stands o h hl hs, if_neg hs, h]
      cases x <;> first | rfl | cases hl

/-- An acknowledge of a point that is not SHELVED leaves the shelf (R89). -/
theorem ackPoint_shelf {s : State} {n : Nat} {x : AnnState} (o : Origin) (h : s.annState n = some x)
    (hs : x ≠ .shelved) : (ackPoint o n s).ann.shelf = s.ann.shelf
      ∧ (ackPoint o n s).ann.shelfDue = s.ann.shelfDue := by
  cases hl : x.onList with
  | true =>
    have changes := ackPoint_member_changes o h hl
    exact ⟨changes .annShelf (by decide), changes .annShelfDue (by decide)⟩
  | false => rw [ackPoint_stands o h hl hs]; exact ⟨rfl, rfl⟩

theorem pointAcknowledge : Claim.PointAcknowledge := by
  refine fun s o n => ⟨fun hi => acknowledge_refused o (pointRefusal_notInstalled hi),
    fun hi hn => acknowledge_refused o (pointRefusal_noRecord hi hn), fun hi hn => ?_,
    fun m => acknowledge_annState_other o, acknowledge_changes (.point n) o s⟩
  obtain ⟨x, hx⟩ := Option.ne_none_iff_exists'.mp hn
  have state : (acknowledge (.point n) o s).1.annState n =
      some (if x = .shelved then (if s.isAbnormal n then .standing else .quiet) else x.acked) := by
    rw [acknowledge_point o hi hn]
    exact ackPoint_annState o hx
  refine ⟨by rw [acknowledge_point o hi hn], ?_, fun hs => ?_, fun hs => ?_, fun h => ?_⟩
  · rw [state, hx]
    cases x <;> rfl
  · rw [acknowledge_point o hi hn, ackPoint_shelved o hs]
    exact unshelved_becomes n .standing 1 o s
  · rw [acknowledge_point o hi hn]
    exact ackPoint_shelf o hx fun e => hs (e ▸ hx)
  · rw [((acknowledge_lists (.point n) o s).list h).mem]
    rintro ⟨y, hy, hl⟩
    cases state.symm.trans hy
    split_ifs at hl
    · cases hl
    · cases hl
    · rw [x.acked_offList] at hl
      cases hl

/-! ## The events, counts and lamps of an acknowledge (R88, R91, R94, R96, R99) -/

theorem acknowledgeEvents : Claim.AcknowledgeEvents := by
  refine fun s o g n hb h => ⟨fun hq => ⟨?_, ?_⟩, fun hi hq => ⟨fun hx => ?_, fun hx => ?_, fun hx => ?_⟩⟩
  · exact ackAll_queue o h.1 (fun n hn => (h.mem n).mp hn) hb hq
  · have shorter := List.length_filter_le (fun m => s.groupOf m == some g) s.ann.unack
    exact ackAll_queue o (h.1.filter _) (fun n hn => (h.mem n).mp (List.mem_of_mem_filter hn)) hb
      (le_trans (Nat.add_le_add_left shorter _) hq)
  · obtain ⟨x, hx, hl⟩ := State.isMember_iff.mpr hx
    rw [acknowledge_point o hi (annState_ne_none hx)]
    exact ackPoint_member_queue o hx hl hb hq
  · rw [acknowledge_point o hi (annState_ne_none hx), ackPoint_shelved o hx]
    exact Eq.trans (finishShelf_changes _ .eventsQueue (by decide)) (unshelve_queue .standing 1 o hb hq)
  · rcases hx with hx | hx | hx
    all_goals
      rw [acknowledge_point o hi (annState_ne_none hx), ackPoint_stands o hx rfl (by decide)]
      rfl

theorem acknowledgeMoves : Claim.AcknowledgeMoves := by
  intro s t o n r hr ht
  have hn := annState_of_look hr
  have ends : t = ackPoint o n s ∨ t = decideHorn (ackPoint o n s) :=
    ht.imp_right fun ⟨hi, e⟩ => e.trans (congrArg Prod.fst (acknowledge_point o hi (annState_ne_none hn)))
  have follows {x : AnnState} (m : s.moved (ackPoint o n s) n r x) : s.moved t n r x := by
    rcases ends with rfl | rfl
    · exact m
    · exact m.of_changes (decideHorn_changes _)
  have member (hl : r.state.onList = true) : s.moved t n r r.state.acked := follows (by
    rw [ackPoint_member o hn hl]
    exact (transition_moved hr).of_changes (record_changes _ _ _ _ _))
  refine ⟨fun h => ?_, fun h => ?_, fun h => follows ?_, fun h => ?_⟩
  · have m := member (by rw [h]; rfl)
    rwa [h] at m
  · have m := member (by rw [h]; rfl)
    rwa [h] at m
  · rw [ackPoint_shelved o (by rw [hn, h])]
    exact (unshelve_moved .standing 1 o hr).of_changes (finishShelf_changes _)
  · have stands : ackPoint o n s = s := by
      rcases h with h | h | h <;> exact ackPoint_stands o hn (by rw [h]; rfl) (by rw [h]; decide)
    rw [stands] at ends
    rcases ends with rfl | rfl <;> exact ⟨rfl, rfl⟩

/-- Settles O36: a board or group acknowledge is an acknowledge of each of its members in turn, in list order. -/
theorem acknowledge_holds : Obligations.Acknowledge :=
  ⟨boardAndGroupAcknowledge, pointAcknowledge, acknowledgeEvents, acknowledgeMoves⟩

end Sys2Proof.Machine

/-! # Lamp patterns and board modes: proofs of the statements of 06_lamp_patterns_and_board_modes.md -/

namespace Sys2Proof.Machine

/-! ## Board modes (R117 to R121) -/

section
variable (d : Nat) (o : Origin) (s : State)

/-- A change into DARK abandons a settle (R117, R120). -/
theorem changeMode_dark : changeMode .dark d o s = record .mode o 2 d
    (s.setGen { s.gen with mode := .dark, settling := false, settleCount := 0 }) := by
  unfold changeMode
  cases s.gen.mode <;> rfl

variable {s}

/-- A change out of DARK begins a settle (R117, R121). -/
theorem changeMode_wakes {new : Mode} (h : s.gen.mode = .dark) (hn : new ≠ .dark) :
    changeMode new d o s = record .mode o new.code d
      (s.setGen { s.gen with mode := new, settling := true, settleCount := 0 }) := by
  unfold changeMode
  rw [h]
  cases new with
  | dark => exact absurd rfl hn
  | lit | dim => rfl

/-- A change between LIT and DIM leaves a settle as it is (R117, R119). -/
theorem changeMode_lights {new : Mode} (h : s.gen.mode ≠ .dark) (hn : new ≠ .dark) :
    changeMode new d o s = record .mode o new.code d (s.setGen { s.gen with mode := new }) := by
  unfold changeMode
  generalize hm : s.gen.mode = old at h
  cases new with
  | dark => exact absurd rfl hn
  | lit | dim =>
    cases old with
    | dark => exact absurd rfl h
    | lit | dim => rfl

theorem requestMode_same {m : Mode} (h : s.gen.mode = m) : requestMode m s = s := if_pos h

theorem requestMode_other {m : Mode} (h : s.gen.mode ≠ m) : requestMode m s = changeMode m 2 .remote s :=
  if_neg h

theorem requestDim_lit (h : s.gen.mode = .lit) : requestDim d o s = changeMode .dim d o s := by
  unfold requestDim; rw [h]

theorem requestDim_dim (h : s.gen.mode = .dim) : requestDim d o s = changeMode .lit d o s := by
  unfold requestDim; rw [h]

theorem requestDim_dark (h : s.gen.mode = .dark) : requestDim d o s = s := by
  unfold requestDim; rw [h]

theorem wake_dark (h : s.gen.mode = .dark) : wake d o s = changeMode .lit d o s := if_pos h

theorem wake_lit (h : s.gen.mode ≠ .dark) : wake d o s = s := if_neg h

end

theorem modeTable : Claim.ModeTable := by
  intro s d o
  have not_dark {m : Mode} (h : s.gen.mode = m) (hm : m ≠ .dark) : s.gen.mode ≠ .dark := h ▸ hm
  refine ⟨fun _ => requestMode_same, fun h => ?_, fun h => ?_, fun h => ?_, fun h => ?_, fun h => ?_,
    fun h => ?_, fun h => ?_, requestDim_dark d o, fun h => ?_, wake_lit d o⟩
  · rw [requestMode_other h, changeMode_dark]
  · rw [requestMode_other (by rw [h]; decide), changeMode_wakes 2 .remote h (by decide)]; rfl
  · rw [requestMode_other (by rw [h]; decide), changeMode_wakes 2 .remote h (by decide)]; rfl
  · rw [requestMode_other (by rw [h]; decide),
      changeMode_lights 2 .remote (not_dark h (by decide)) (by decide)]; rfl
  · rw [requestMode_other (by rw [h]; decide),
      changeMode_lights 2 .remote (not_dark h (by decide)) (by decide)]; rfl
  · rw [requestDim_lit d o h, changeMode_lights d o (not_dark h (by decide)) (by decide)]; rfl
  · rw [requestDim_dim d o h, changeMode_lights d o (not_dark h (by decide)) (by decide)]; rfl
  · rw [wake_dark d o h, changeMode_wakes d o h (by decide)]; rfl

section
variable {w : Word}

theorem modeField_lit (h : (w.extractLsb' 0 2 : BitVec 2) = 0) : modeField w = .lit := by
  unfold modeField bits; rw [h]; rfl

theorem modeField_dim (h : (w.extractLsb' 0 2 : BitVec 2) = 1) : modeField w = .dim := by
  unfold modeField bits; rw [h]; rfl

theorem modeField_dark (h : (w.extractLsb' 0 2 : BitVec 2) = 2 ∨ (w.extractLsb' 0 2 : BitVec 2) = 3) :
    modeField w = .dark := by
  unfold modeField bits
  rcases h with h | h <;> rw [h] <;> rfl

/-- A dispatched k8 item requests the mode of its field (R118). -/
theorem exec_modeRequest {s : State} {m : Mode} (hs : s.tickDone) (hb : s.onBoard) (hf : s.front .k8 w)
    (h : modeField w = m) : exec .modeRequest s = .next (settle (requestMode m (popCapture s))) :=
  exec_settles hs (h ▸ handOn_onBoard hb hf (if_pos rfl))

end

/-- A wake request that waits is taken (R97, R121). -/
theorem takeWakeRequest_waiting {s : State} {k : Nat} (h : s.gen.wakeRequests = k + 1) :
    takeWakeRequest s = wake 3 .part (s.setGen { s.gen with wakeRequests := k }) := by
  unfold takeWakeRequest
  rw [h, if_neg (Nat.succ_ne_zero k), Nat.add_sub_cancel]

theorem modeCommands : Claim.ModeCommands :=
  ⟨fun _ _ hs hb hf => ⟨fun h => exec_modeRequest hs hb hf (modeField_lit h),
    fun h => exec_modeRequest hs hb hf (modeField_dim h),
    fun h => exec_modeRequest hs hb hf (modeField_dark h)⟩,
    fun _ _ hs h => exec_settles hs (takeWakeRequest_waiting h)⟩

/-! ## The lamp supply (R123) -/

theorem Chains.anyExchange_iff (x : Chains) :
    x.anyExchange = true ↔ ∃ c, (x.get c).exchange ≠ none := by
  unfold Chains.anyExchange
  simp only [Bool.or_eq_true, Option.isSome_iff_ne_none]
  refine ⟨?_, fun ⟨c, hc⟩ => ?_⟩
  · rintro (((h | h) | h) | h)
    exacts [⟨.a, h⟩, ⟨.b, h⟩, ⟨.c, h⟩, ⟨.d, h⟩]
  · cases c with
    | a => exact .inl (.inl (.inl hc))
    | b => exact .inl (.inl (.inr hc))
    | c => exact .inl (.inr hc)
    | d => exact .inr hc

theorem State.lsup_iff (s : State) : s.lsup = true ↔ s.path.inReset = false
    ∧ (s.gen.mode ≠ .dark ∨ ∃ c, (s.chains.get c).exchange ≠ none) := by
  unfold State.lsup
  rw [Bool.and_eq_true, Bool.or_eq_true, Bool.not_eq_true', bne_iff_ne, Chains.anyExchange_iff]

theorem lampSupply : Claim.LampSupply := by
  refine ⟨State.lsup_iff, fun s t u straps reset ended => ?_⟩
  obtain ⟨m, x, d, blocks, -⟩ := boardReset_resets (finishTick s)
  have hu := exec_next ended
  have ht : t = resetWith (finishTick s) m x d := by
    rw [← settle_resetWith, ← blocks]
    exact exec_next reset
  subst ht
  subst hu
  exact ⟨rfl, (State.lsup_iff _).mpr ⟨rfl, .inl nofun⟩⟩

/-- Settles O43: a change of mode goes into DARK, out of it or between LIT and DIM, and each request is one of these;
the supply is read off the reset blocks. -/
theorem boardModes : Obligations.BoardModes := ⟨modeTable, modeCommands, lampSupply⟩

/-! ## The tick (R109 to R111, R116, R122, R143, R158) -/

theorem countTick_inReset {s : State} (h : s.path.inReset = true) (down : List Key) :
    countTick down s = s := if_pos h

theorem countTick_counts {s : State} (h : s.path.inReset = false) (down : List Key) : countTick down s =
    (s.setGen (s.gen.tick (s.panel.releases down))).setPanel
      { s.panel.scan down with shown := (s.panel.scan down).display } :=
  if_neg (ne_true_of_eq_false h)

section
variable (g : PatternGen) (released : Bool) (number : Nat)

/-- A piece that is due under a condition of its own is among them where the condition holds. -/
theorem mem_due_iff {w : TickWork} {p : Prop} {_ : Decidable p} {x : TickWork} :
    w ∈ (if p then [x] else []) ↔ p ∧ w = x := by
  split_ifs with h <;> simp [h]

/-- The end that a counter reaches at a tick of this number, by the piece that it makes due (R109). -/
def PatternGen.reaches : TickWork → Prop
  | .keyRelease => released = true
  | .phaseBoundary => g.atBoundary = true
  | .settleEnd => g.atSettleEnd = true
  | .lampTestEnd => g.testTimer = 1
  | .frameSlot => number % 2 = 0
  | .boardSecond => number % 100 = 0

/-- A piece is due at a tick exactly where its end is reached (R109). -/
theorem PatternGen.mem_workOf (w : TickWork) :
    w ∈ g.workOf released number ↔ g.reaches released number w := by
  unfold PatternGen.workOf
  simp only [List.mem_append, mem_due_iff]
  cases w <;> simp [PatternGen.reaches]

/-- R109's order, the panel's release first (R143). -/
theorem PatternGen.workOf_sublist : (g.workOf released number).Sublist
    [.keyRelease, .phaseBoundary, .settleEnd, .lampTestEnd, .frameSlot, .boardSecond] := by
  have due (p : Prop) [Decidable p] (x : TickWork) : (if p then [x] else []).Sublist [x] := by
    split_ifs
    · exact .refl _
    · exact List.nil_sublist _
  exact ((((((due _ _).append (due _ _)).append (due _ _)).append (due _ _)).append (due _ _)).append (due _ _))

variable {g}

theorem PatternGen.atBoundary_iff : g.atBoundary = true ↔ 2 ^ (3 + g.flash.toNat) ≤ g.phaseTicks + 1 :=
  decide_eq_true_iff

theorem PatternGen.atSettleEnd_iff : g.atSettleEnd = true ↔ g.settling = true ∧ 256 ≤ g.settleCount + 1 := by
  unfold PatternGen.atSettleEnd
  rw [Bool.and_eq_true, decide_eq_true_iff]

theorem PatternGen.tick_phaseTicks (h : ¬ g.atBoundary = true) :
    (g.tick released).phaseTicks = g.phaseTicks + 1 := if_neg h

theorem PatternGen.tick_settleCount (hs : g.settling = true) (h : ¬ g.atSettleEnd = true) :
    (g.tick released).settleCount = g.settleCount + 1 := if_pos ⟨hs, h⟩

theorem PatternGen.tick_testTimer (h : 1 < g.testTimer) :
    (g.tick released).testTimer = g.testTimer - 1 := if_neg (Nat.not_le.mpr h)

end

/-- Settles O44: the effect is the counted tick and the scan, and each piece is due by its counter's end. -/
theorem tick : Obligations.Tick := by
  intro s r0 r1 r2 hs
  refine ⟨fun h => exec_settles hs (countTick_inReset h _), fun h => ?_⟩
  refine ⟨_, exec_settles hs (countTick_counts h _), ?_⟩
  generalize hr : s.panel.releases (keysDown r0 r1 r2) = released
  have due := s.gen.mem_workOf released (s.gen.tickCount + 1)
  refine ⟨rfl, decide_eq_true_iff, fun hp => ?_, fun hp => ?_, fun hset hp => ?_, fun hset hp => ?_,
    fun ht => ?_, fun ht => ?_, due .frameSlot, due .boardSecond,
    s.gen.workOf_sublist released _, rfl, rfl, rfl, rfl, rfl, due .keyRelease,
    rfl, rfl, rfl, rfl, rfl, rfl, rfl⟩
  · have running : ¬ s.gen.atBoundary = true := fun hb =>
      absurd (PatternGen.atBoundary_iff.mp hb) (Nat.not_le.mpr hp)
    exact ⟨PatternGen.tick_phaseTicks released running, fun hm => running ((due .phaseBoundary).mp hm)⟩
  · exact (due .phaseBoundary).mpr (PatternGen.atBoundary_iff.mpr hp)
  · have running : ¬ s.gen.atSettleEnd = true := fun hb =>
      absurd (PatternGen.atSettleEnd_iff.mp hb).2 (Nat.not_le.mpr hp)
    exact ⟨PatternGen.tick_settleCount released hset running, fun hm => running ((due .settleEnd).mp hm)⟩
  · exact (due .settleEnd).mpr (PatternGen.atSettleEnd_iff.mpr ⟨hset, hp⟩)
  · exact ⟨PatternGen.tick_testTimer released ht, fun hm => ht.ne' ((due .lampTestEnd).mp hm)⟩
  · exact (due .lampTestEnd).mpr ht

/-! ## The pieces of a tick (R109 to R111, R115, R116, R122, R143) -/

/-- A piece that is the next one due is run alone, and the later ones stay due. -/
theorem runThrough_front {s : State} {w : TickWork} {rest : List TickWork} (h : s.gen.tickWork = w :: rest) :
    runThrough w s = runWork w (s.setGen { s.gen with tickWork := rest }) := by
  unfold runThrough
  simp [h, runAll]

theorem tickPieceRuns : Claim.TickPieces := by
  intro s rest
  have run {c : Instr} {w : TickWork} {t : State} (hc : exec c s = .next (settle (runThrough w s)))
      (ht : runWork w (s.setGen { s.gen with tickWork := rest }) = t) (h : s.gen.tickWork = w :: rest) :
      exec c s = .next (settle t) := by rw [hc, runThrough_front h, ht]
  exact ⟨run rfl rfl, run rfl rfl, run rfl rfl, run rfl rfl, run rfl rfl, run rfl rfl⟩

/-! ## A board second over the points where it only counts (R77, R81) -/

section
variable {s : State}

theorem entryOf_of_changes {l : List Part} {t : State} (h : Changes l s t)
    (hl : .loaderPoints ∉ l := by decide) : t.entryOf = s.entryOf := by
  unfold State.entryOf
  rw [point_of_changes h hl]

theorem crossing_of_look {t : State} {n : Nat} (values : t.evaluator.values.look n = s.evaluator.values.look n)
    (entries : t.entryOf n = s.entryOf n) : t.crossing n = s.crossing n := by
  unfold State.crossing
  rw [values, entries]

/-- The step at one point leaves what a board second finds at another. -/
theorem secondAt_crossing_other {n m : Nat} (h : m ≠ n) : (secondAt n s).crossing m = s.crossing m :=
  crossing_of_look (secondAt_look_other h) (congrFun (entryOf_of_changes (secondAt_changes n s)) m)

theorem secondsAt_look_other {points : List Nat} {n : Nat} (h : n ∉ points) :
    (overPoints secondAt points s).evaluator.values.look n = s.evaluator.values.look n := by
  unfold overPoints
  induction points generalizing s with
  | nil => rfl
  | cons m points ih =>
    rw [List.mem_cons, not_or] at h
    exact (ih h.2).trans (secondAt_look_other h.1)

/-- A point among several has its record counted, once (R81). -/
theorem secondsAt_look {points : List Nat} (nodup : points.Nodup) {n : Nat} (hn : n ∈ points) {v : ValueRec}
    {e : Entry} (hv : s.evaluator.values.look n = some v) (he : s.entryOf n = some e) :
    (overPoints secondAt points s).evaluator.values.look n = some (v.aged e).countTimer := by
  induction points generalizing s with
  | nil => cases hn
  | cons m points ih =>
    obtain ⟨fresh, nodup⟩ := List.nodup_cons.mp nodup
    show (overPoints secondAt points (secondAt m s)).evaluator.values.look n = _
    by_cases h : n = m
    · subst h
      rw [secondsAt_look_other fresh, secondAt_look s n e v hv he]
    · refine ih nodup (List.mem_of_ne_of_mem h hn) ?_ ?_
      · rw [secondAt_look_other h, hv]
      · rw [entryOf_of_changes (secondAt_changes m s), he]

/-- Over points at which it only counts, a board second moves nothing outside the Evaluator. -/
theorem secondsAt_changes_counting {points : List Nat} (nodup : points.Nodup)
    (counting : ∀ n ∈ points, s.crossing n = false) :
    Changes [.evaluatorValues, .evaluatorSecondDue] s (overPoints secondAt points s) := by
  unfold overPoints
  induction points generalizing s with
  | nil => exact .refl _ _
  | cons m points ih =>
    obtain ⟨fresh, nodup⟩ := List.nodup_cons.mp nodup
    refine (secondAt_changes_counting (counting m List.mem_cons_self)).trans (ih nodup fun n hn => ?_)
    rw [secondAt_crossing_other (ne_of_mem_of_not_mem hn fresh)]
    exact counting n (List.mem_cons_of_mem m hn)

end

/-! ## A board second at the Evaluator (R77, log 11) -/

/-- A point at which nothing ends: its age and its timer move by one, and nothing else of its record (R74, R77). -/
theorem aged_countTimer_running {v : ValueRec} {e : Entry} (hs : v.staling e = false) (hx : v.expiring = false) :
    (v.aged e).countTimer = { v with
      age := if 0 < e.timeout ∧ v.stale = false then min 255 (v.age + 1) else v.age
      kind := v.kind.counted } := by
  rw [countTimer_running (by rw [aged_expiring, hx]), aged_fresh hs]

section
variable (s : State)

/-- The points of the value records. -/
def State.valuePoints : List Nat := s.evaluator.values.map Prod.fst

/-- The points that a board second leaves due: it brings them to an end (log 11). -/
def State.pointsLeftDue : List Nat := s.valuePoints.filter s.crossing

/-- The points at which a board second only counts. -/
def State.countedPoints : List Nat := s.valuePoints.filter (fun n => !s.crossing n)

/-- The Evaluator's part of a board second with nothing due from before: counted where it only counts, the other
points left due (log 11). -/
def State.pointsCounted : State :=
  (overPoints secondAt s.countedPoints s).setEvaluator
    { (overPoints secondAt s.countedPoints s).evaluator with secondDue := s.pointsLeftDue }

/-- The Annunciator's part of a board second: the shelf is counted, or left due where a record expires (log 11). -/
def shelfHandSecond : State :=
  if s.shelfExpiring then s.setAnn { s.ann with shelfDue := true } else shelfSecond s

theorem handSecond_eq : handSecond s =
    let t := overPoints secondAt s.evaluator.secondDue s
    shelfHandSecond (if t.ann.shelfDue then shelfSecond t else t).pointsCounted := rfl

variable {s}

theorem handSecond_nothingDue (hd : s.evaluator.secondDue = []) (hs : s.ann.shelfDue = false) :
    handSecond s = shelfHandSecond s.pointsCounted := by
  rw [handSecond_eq, hd]
  exact congrArg (fun t : State => shelfHandSecond t.pointsCounted) (if_neg (ne_true_of_eq_false hs))

theorem valuePoints_nodup (sorted : s.evaluator.values.sorted = true) : s.valuePoints.Nodup :=
  List.pairwise_map.mpr ((Table.sorted_pairwise sorted).imp Nat.ne_of_lt)

theorem mem_valuePoints {n : Nat} {v : ValueRec} (hv : s.evaluator.values.look n = some v) :
    n ∈ s.valuePoints := List.mem_map.mpr ⟨_, Table.mem_of_look hv, rfl⟩

theorem mem_pointsLeftDue {n : Nat} : n ∈ s.pointsLeftDue ↔ n ∈ s.valuePoints ∧ s.crossing n = true :=
  List.mem_filter

theorem mem_countedPoints {n : Nat} : n ∈ s.countedPoints ↔ n ∈ s.valuePoints ∧ s.crossing n = false := by
  unfold State.countedPoints
  rw [List.mem_filter, Bool.not_eq_true']

theorem countedPoints_nodup (sorted : s.evaluator.values.sorted = true) : s.countedPoints.Nodup :=
  (valuePoints_nodup sorted).filter _

theorem pointsCounted_changes_counting (sorted : s.evaluator.values.sorted = true) :
    Changes [.evaluatorValues, .evaluatorSecondDue] s s.pointsCounted :=
  (setSecondDue_changes _ _).after
    (secondsAt_changes_counting (countedPoints_nodup sorted) fun _ hn => (mem_countedPoints.mp hn).2)

theorem pointsCounted_changes (s : State) : Changes pointParts s s.pointsCounted :=
  (setSecondDue_changes _ _).after (overPoints_changes secondAt_changes _ s)

theorem pointsCounted_counted (sorted : s.evaluator.values.sorted = true) {n : Nat} {v : ValueRec} {e : Entry}
    (hv : s.evaluator.values.look n = some v) (he : s.entryOf n = some e) (hc : s.crossing n = false) :
    s.pointsCounted.evaluator.values.look n = some (v.aged e).countTimer :=
  secondsAt_look (countedPoints_nodup sorted) (mem_countedPoints.mpr ⟨mem_valuePoints hv, hc⟩) hv he

theorem pointsCounted_left {n : Nat} (hc : s.crossing n = true) :
    s.pointsCounted.evaluator.values.look n = s.evaluator.values.look n :=
  secondsAt_look_other fun hn => absurd (mem_countedPoints.mp hn).2 (by rw [hc]; decide)

theorem shelfHandSecond_evaluator (s : State) : (shelfHandSecond s).evaluator = s.evaluator := by
  unfold shelfHandSecond
  split_ifs
  · rfl
  · exact shelfSecond_evaluator

end

theorem boardSecondCounts : Claim.BoardSecondCounts := by
  intro s n v e hd hs sorted hv he
  rw [handSecond_nothingDue hd hs, shelfHandSecond_evaluator]
  refine ⟨fun hc => ?_, fun hc => ⟨mem_pointsLeftDue.mpr ⟨mem_valuePoints hv, hc⟩, ?_⟩⟩
  · have ends := hc
    rw [crossing_some hv he, Bool.or_eq_false_iff] at ends
    refine ⟨_, pointsCounted_counted sorted hv he hc, ?_⟩
    rw [aged_countTimer_running ends.1 ends.2]
    refine ⟨rfl, fun pos t ov hk => ?_, rfl, rfl, rfl, fun hm => ?_⟩
    · show v.kind.counted = _
      rw [hk]
      rfl
    · exact ne_true_of_eq_false hc (mem_pointsLeftDue.mp hm).2
  · rw [pointsCounted_left hc, hv]

/-! ## A board second at the shelf (R104, log 11) -/

section
variable {s : State}

theorem State.shelfExpiring_iff : s.shelfExpiring = true ↔ ∃ x ∈ s.ann.shelf, x.seconds ≤ 1 := by
  unfold State.shelfExpiring
  simp

theorem shelfHandSecond_left (h : s.shelfExpiring = true) :
    shelfHandSecond s = s.setAnn { s.ann with shelfDue := true } := if_pos h

/-- A shelf with no record that expires only has its seconds counted, and the horn class decided afresh (R104, R107). -/
theorem shelfHandSecond_counts (h : s.shelfExpiring = false) : shelfHandSecond s =
    decideHorn (s.setAnn { s.ann with
      shelf := s.ann.shelf.map (fun x => { x with seconds := x.seconds - 1 }), shelfDue := false }) := by
  have running : ∀ x ∈ s.ann.shelf, ¬ x.seconds ≤ 1 := fun x hx hle =>
    ne_true_of_eq_false h (State.shelfExpiring_iff.mpr ⟨x, hx, hle⟩)
  have expired : (lowerShelf s.ann.shelf).2 = [] := by
    rw [lowerShelf_expired, List.map_eq_nil_iff, List.filter_eq_nil_iff]
    simpa using running
  have stays : (lowerShelf s.ann.shelf).1 = s.ann.shelf.map (fun x => { x with seconds := x.seconds - 1 }) := by
    refine List.filter_eq_self.mpr fun y hy => ?_
    obtain ⟨x, hx, rfl⟩ := List.mem_map.mp hy
    have := running x hx
    show (x.seconds - 1 != 0) = true
    rw [bne_iff_ne]
    omega
  unfold shelfHandSecond shelfSecond
  rw [if_neg (ne_true_of_eq_false h)]
  dsimp only
  rw [expired, stays]
  rfl

theorem setShelfSettled_changes (x : List ShelfRec) (s : State) : Changes [.annShelf, .annShelfDue] s
    (s.setAnn { s.ann with shelf := x, shelfDue := false }) :=
  (setShelf_changes x s).then (setShelfDue_changes false (s.setAnn { s.ann with shelf := x }))

theorem shelfHandSecond_changes (s : State) :
    Changes [.annShelf, .annShelfDue, .annHornClass] s (shelfHandSecond s) := by
  cases h : s.shelfExpiring with
  | true =>
    rw [shelfHandSecond_left h]
    exact (setShelfDue_changes _ s).mono
  | false =>
    rw [shelfHandSecond_counts h]
    exact (decideHorn_changes _).after (setShelfSettled_changes _ s).mono

/-- What is done of earlier board seconds, and this one at the points, leaves the shelf where none is due there. -/
theorem handSecond_shelf (h : s.ann.shelfDue = false) : ∃ t, handSecond s = shelfHandSecond t
    ∧ t.ann.shelf = s.ann.shelf := by
  have seconds := overPoints_changes secondAt_changes s.evaluator.secondDue s
  have notDue : (overPoints secondAt s.evaluator.secondDue s).ann.shelfDue = false :=
    Eq.trans (seconds .annShelfDue (by decide)) h
  have counted := pointsCounted_changes (overPoints secondAt s.evaluator.secondDue s)
  refine ⟨_, ?_, Eq.trans (counted .annShelf (by decide)) (seconds .annShelf (by decide))⟩
  exact congrArg (fun t : State => shelfHandSecond t.pointsCounted) (if_neg (ne_true_of_eq_false notDue))

end

theorem boardSecondAtTheShelf : Claim.BoardSecondAtTheShelf := by
  intro s h
  obtain ⟨t, run, shelf⟩ := handSecond_shelf h
  refine ⟨fun running => ?_, fun expiring => ?_, fun hd sorted => ?_⟩
  · have counts : t.shelfExpiring = false := by
      rw [Bool.eq_false_iff, ne_eq, State.shelfExpiring_iff, shelf]
      rintro ⟨x, hx, hle⟩
      exact absurd (running x hx) (Nat.not_lt.mpr hle)
    rw [run, shelfHandSecond_counts counts, ← shelf]
    exact ⟨rfl, rfl⟩
  · rw [run, shelfHandSecond_left (State.shelfExpiring_iff.mpr (by rw [shelf]; exact expiring)), ← shelf]
    exact ⟨rfl, rfl⟩
  · rw [handSecond_nothingDue hd h]
    exact (pointsCounted_changes_counting sorted).then (shelfHandSecond_changes _)

/-- Settles O45: the next piece due is run alone, and a board second is the step at the points, then the shelf's. -/
theorem workOfATick : Obligations.WorkOfATick :=
  ⟨tickPieceRuns, boardSecondCounts, boardSecondAtTheShelf⟩

/-! ## Patterns and phases (R112) -/

/-- Settles O47: the lit phases of a pattern are the list its definition searches, or the one phase it compares with. -/
theorem patternPhases : Obligations.PatternPhases := fun _ =>
  ⟨rfl, rfl, List.contains_iff_mem, List.contains_iff_mem, List.contains_iff_mem, beq_iff_eq,
    rfl, rfl, rfl, rfl, rfl, rfl⟩

/-! ## The lamp image (R113, R124 to R126) -/

theorem Pattern.code_lt (p : Pattern) : p.code < 8 := by cases p <;> decide

/-- A pattern code and the fault flag above it fill one nibble (R124). -/
theorem State.nibble_lt (s : State) (lamp : Nat) : s.nibble lamp < 16 := by
  have code := (s.patternOf lamp).code_lt
  unfold State.nibble
  split_ifs <;> omega

/-- Lamp 4w + i stands in nibble i of image word w (R124). -/
theorem State.imageWord_nibble (s : State) (w : Nat) {i : Nat} (hi : i < 4) :
    (s.imageWord w).extractLsb' (4 * i) 4 = BitVec.ofNat 4 (s.nibble (4 * w + i)) := by
  have n0 := s.nibble_lt (4 * w)
  have n1 := s.nibble_lt (4 * w + 1)
  have n2 := s.nibble_lt (4 * w + 2)
  have n3 := s.nibble_lt (4 * w + 3)
  refine extractLsb'_of_div_mod (by omega) ?_
  have first : s.nibble (4 * w + 0) = s.nibble (4 * w) := rfl
  interval_cases i <;> omega

/-- On the board a touched word joins the dirty set; in UNCONFIGURED there is none to join (R125). -/
theorem touchWord_dirty (w : Nat) (s : State) :
    (touchWord w s).gen.dirty = if s.configured then insertNat w s.gen.dirty else s.gen.dirty :=
  apply_ite (fun t : State => t.gen.dirty) _ _ _

theorem setPattern_held {lamp : Nat} {p : Pattern} {s : State} (h : s.patternOf lamp = p) :
    setPattern lamp p s = s := if_pos h

/-- A changed pattern touches its lamp's image word (R113, R125). -/
theorem setPattern_changed_dirty {lamp : Nat} {p : Pattern} {s : State} (h : s.patternOf lamp ≠ p) :
    (setPattern lamp p s).gen.dirty
      = if s.configured then insertNat (lamp / 4) s.gen.dirty else s.gen.dirty := by
  unfold setPattern
  rw [if_neg h]
  exact touchWord_dirty _ _

theorem setPattern_joins_dirty {lamp : Nat} {p : Pattern} {s : State} (hb : s.onBoard)
    (h : s.patternOf lamp ≠ p) : lamp / 4 ∈ (setPattern lamp p s).gen.dirty := by
  rw [setPattern_changed_dirty h, if_pos (State.configured_iff.mpr hb)]
  exact insertNat_mem.mpr (.inl rfl)

theorem setPattern_keeps_dirty (lamp : Nat) (p : Pattern) {s : State} {w : Nat} (hw : w ∈ s.gen.dirty) :
    w ∈ (setPattern lamp p s).gen.dirty := by
  by_cases h : s.patternOf lamp = p
  · rwa [setPattern_held h]
  · rw [setPattern_changed_dirty h]
    split_ifs
    · exact insertNat_mem.mpr (.inr hw)
    · exact hw

theorem setPattern_unconfigured_dirty (lamp : Nat) (p : Pattern) {s : State}
    (hu : s.loader.cfg = .unconfigured) : (setPattern lamp p s).gen.dirty = s.gen.dirty := by
  by_cases h : s.patternOf lamp = p
  · rw [setPattern_held h]
  · rw [setPattern_changed_dirty h, if_neg fun hc => State.configured_iff.mp hc hu]

section
variable {g : PatternGen} {w : Nat}

/-- The writer's choice is the first dirty word above the last one written, or else the first of all (R126). -/
theorem PatternGen.wantImage_eq_some : g.wantImage = some w ↔
    g.dirty.find? (fun w => decide (g.lastWord < w)) = some w
      ∨ g.dirty.find? (fun w => decide (g.lastWord < w)) = none ∧ g.dirty.head? = some w := by
  unfold PatternGen.wantImage
  cases g.dirty.find? (fun w => decide (g.lastWord < w)) <;> simp

theorem PatternGen.wantImage_eq_none : g.wantImage = none ↔ g.dirty = [] := by
  unfold PatternGen.wantImage
  split
  · rename_i found
    have member := List.mem_of_find?_eq_some found
    exact iff_of_false (by simp) (List.ne_nil_of_mem member)
  · exact List.head?_eq_none_iff

theorem PatternGen.wantImage_mem (h : g.wantImage = some w) : w ∈ g.dirty := by
  rcases PatternGen.wantImage_eq_some.mp h with found | ⟨-, first⟩
  · exact List.mem_of_find?_eq_some found
  · exact List.mem_of_head? first

/-- The first word of a rising list is its least. -/
theorem le_of_head?_of_rising {l : List Nat} (rising : l.Pairwise (· < ·)) (h : l.head? = some w) :
    ∀ v ∈ l, w ≤ v := by
  obtain ⟨rest, rfl⟩ := List.head?_eq_some_iff.mp h
  intro v hv
  rcases List.mem_cons.mp hv with rfl | hv
  · exact le_rfl
  · exact (List.rel_of_pairwise_cons rising hv).le

/-- The choice comes before every other dirty word above the last one written. -/
theorem PatternGen.wantImage_above (rising : g.dirty.Pairwise (· < ·)) (h : g.wantImage = some w)
    {v : Nat} (hv : v ∈ g.dirty) (hl : g.lastWord < v) : w ≤ v := by
  rcases PatternGen.wantImage_eq_some.mp h with found | ⟨-, first⟩
  · obtain ⟨-, before, after, split, fails⟩ := List.find?_eq_some_iff_append.mp found
    rw [split] at hv rising
    rcases List.mem_append.mp hv with hb | ha
    · have := fails v hb
      simp only [Bool.not_eq_true', decide_eq_false_iff_not] at this
      exact absurd hl this
    · exact le_of_head?_of_rising (List.pairwise_append.mp rising).2.1 rfl v ha
  · exact le_of_head?_of_rising rising first v hv

/-- A choice at or below the last word written has passed from 1023 to 0: no dirty word is above, and it is the
least of all. -/
theorem PatternGen.wantImage_around (rising : g.dirty.Pairwise (· < ·)) (h : g.wantImage = some w)
    (below : w ≤ g.lastWord) {v : Nat} (hv : v ∈ g.dirty) : v ≤ g.lastWord ∧ w ≤ v := by
  rcases PatternGen.wantImage_eq_some.mp h with found | ⟨none_above, first⟩
  · have above : g.lastWord < w := by simpa using List.find?_some found
    omega
  · have not_above := List.find?_eq_none.mp none_above v hv
    simp only [decide_eq_true_eq, not_lt] at not_above
    exact ⟨not_above, le_of_head?_of_rising rising first v hv⟩

end

/-- Settles O51: the nibbles of an image word are read off by division, a handed pattern touches its own word, and
the writer's search runs through a rising dirty set. -/
theorem lampImage : Obligations.LampImage := by
  refine ⟨fun s lamp => ?_, fun s lamp p => ⟨setPattern_same lamp p s, fun _ => setPattern_other p s,
    setPattern_joins_dirty, fun _ => setPattern_keeps_dirty lamp p, setPattern_unconfigured_dirty lamp p⟩,
    fun g rising => ⟨PatternGen.wantImage_eq_none, fun w h => ⟨PatternGen.wantImage_mem h,
      fun _ _ => PatternGen.wantImage_above rising h,
      fun below _ => PatternGen.wantImage_around rising h below⟩⟩⟩
  have nibble := s.imageWord_nibble (lamp / 4) (Nat.mod_lt lamp (by decide : 0 < 4))
  rwa [Nat.div_add_mod] at nibble

/-! ## The CRC of a frame (R173) -/

theorem crc_append_byte (l : List Byte) (b : Byte) : crc (l ++ [b]) = crcShift^[8] (crc l ^^^ b.setWidth 16) := by
  unfold crc
  rw [List.foldl_append]
  rfl

/-- A word against the two bytes that hold it, the low one first (R132). -/
theorem eq_append_iff_toNat (r : Word) (hi lo : Byte) :
    r = hi ++ lo ↔ r.toNat = lo.toNat + 256 * hi.toNat := by
  have value : (hi ++ lo).toNat = lo.toNat + 256 * hi.toNat := by
    rw [BitVec.toNat_append, ← Nat.shiftLeft_add_eq_or_of_lt lo.isLt, Nat.shiftLeft_eq]
    omega
  rw [← value]
  exact BitVec.toNat_inj.symm

theorem frameGood_iff (n : Nat) (frame : List Byte) : frameGood n frame = true ↔
    (crc (frame.take (9 * n))).toNat =
      (frame.getD (9 * n) 0).toNat + 256 * (frame.getD (9 * n + 1) 0).toNat := by
  unfold frameGood
  rw [beq_iff_eq]
  exact eq_append_iff_toNat _ _ _

/-- The two bytes of a word, put together again. -/
theorem append_bytes (r : Word) : r.extractLsb' 8 8 ++ r.extractLsb' 0 8 = r :=
  (BitVec.extractLsb'_append_extractLsb'_eq_extractLsb' rfl).trans BitVec.extractLsb'_eq_self

section
variable {n : Nat} {sections : List Byte}

theorem closeFrame_length (h : sections.length = 9 * n) : (closeFrame sections).length = 9 * n + 2 := by
  unfold closeFrame
  rw [List.length_append, h]
  rfl

/-- A closed frame holds its sections in front. -/
theorem byteAt_closeFrame {i : Nat} (h : i < sections.length) :
    byteAt (closeFrame sections) i = byteAt sections i :=
  List.getD_append _ _ _ _ h

theorem closeFrame_good (h : sections.length = 9 * n) : frameGood n (closeFrame sections) = true := by
  have front : (closeFrame sections).take (9 * n) = sections := by
    rw [← h]; exact List.take_left
  have closing (i : Nat) : byteAt (closeFrame sections) (9 * n + i)
      = [(crc sections).extractLsb' 0 8, (crc sections).extractLsb' 8 8].getD i 0 := by
    unfold byteAt closeFrame
    rw [List.getD_append_right _ _ _ _ (by omega), h, Nat.add_sub_cancel_left]
  unfold frameGood
  rw [front, closing 1, ← Nat.add_zero (9 * n), closing 0, beq_iff_eq]
  exact (append_bytes _).symm

end

/-- R173's check value: the CRC of the nine digits. -/
theorem crc_digits : crc [0x31, 0x32, 0x33, 0x34, 0x35, 0x36, 0x37, 0x38, 0x39] = 0x4B37 := by decide +kernel

theorem frameCrc : Claim.FrameCrc :=
  ⟨rfl, crc_append_byte, fun _ => rfl, frameGood_iff, crc_digits,
    fun _ _ h => ⟨closeFrame_good h, closeFrame_length h⟩⟩

/-! ## The sections of a frame (10.7) -/

/-- The bits of a byte are the values that it is made of, the first in bit 0. -/
theorem byteOfBits_getLsbD (l : List Bool) {j : Nat} (hj : j < 8) :
    (byteOfBits l).getLsbD j = l.getD j false := by
  induction l generalizing j with
  | nil => simp [byteOfBits]
  | cons b l ih =>
    have step : byteOfBits (b :: l) = byteOfBits l <<< 1 ||| (if b then 1 else 0) := rfl
    rw [step]
    cases j with
    | zero => cases b <;> simp
    | succ j =>
      have high : (if b then 1 else 0 : Byte).getLsbD (j + 1) = false := by cases b <;> simp
      rw [BitVec.getLsbD_or, high, BitVec.getLsbD_shiftLeft]
      simpa [hj] using ih (by omega)

/-- One card's section: eight bytes of lamp bits or sense bits, and the control or status byte. -/
def cardSection (bytes : Nat → Byte) (tail : Byte) : List Byte := (List.range 8).map bytes ++ [tail]

/-- The sections of n cards, card 0 first. -/
def cardSections (n : Nat) (bytes : Nat → Nat → Byte) (tail : Nat → Byte) : List Byte :=
  (List.range n).flatMap (fun k => cardSection (bytes k) (tail k))

section
variable {n k : Nat} (bytes : Nat → Nat → Byte) (tail : Nat → Byte)

theorem cardSections_succ (n : Nat) : cardSections (n + 1) bytes tail =
    cardSections n bytes tail ++ cardSection (bytes n) (tail n) := by
  unfold cardSections
  rw [List.range_succ, List.flatMap_append, List.flatMap_singleton]

theorem cardSections_length (n : Nat) : (cardSections n bytes tail).length = 9 * n := by
  induction n with
  | zero => rfl
  | succ n ih =>
    rw [cardSections_succ, List.length_append, ih]
    rfl

/-- Byte i of card k's section stands 9k bytes in. -/
theorem byteAt_cardSections (hk : k < n) {i : Nat} (hi : i < 9) :
    byteAt (cardSections n bytes tail) (9 * k + i) = byteAt (cardSection (bytes k) (tail k)) i := by
  induction n with
  | zero => omega
  | succ n ih =>
    have length := cardSections_length bytes tail n
    rw [cardSections_succ]
    unfold byteAt
    by_cases h : k < n
    · rw [List.getD_append _ _ _ _ (by omega)]
      exact ih h
    · obtain rfl : k = n := by omega
      rw [List.getD_append_right _ _ _ _ (by omega), length, Nat.add_sub_cancel_left]

theorem byteAt_closedSections (hk : k < n) {i : Nat} (hi : i < 9) :
    byteAt (closeFrame (cardSections n bytes tail)) (9 * k + i) = byteAt (cardSection (bytes k) (tail k)) i := by
  rw [byteAt_closeFrame (by rw [cardSections_length]; omega), byteAt_cardSections bytes tail hk hi]

theorem sectionTail_closedSections (hk : k < n) :
    sectionTail (closeFrame (cardSections n bytes tail)) k = tail k :=
  byteAt_closedSections bytes tail hk (by decide : 8 < 9)

theorem sectionBit_closedSections (hk : k < n) {j : Nat} (hj : j < 64) :
    sectionBit (closeFrame (cardSections n bytes tail)) k j = (bytes k (j / 8)).getLsbD (j % 8) := by
  have place : byteAt (cardSection (bytes k) (tail k)) (j / 8) = bytes k (j / 8) := by
    have hb : j / 8 < 8 := by omega
    unfold byteAt cardSection
    rw [List.getD_append _ _ _ _ (by simpa using hb)]
    simp [hb]
  unfold sectionBit
  rw [byteAt_closedSections bytes tail hk (by omega), place]

end

/-! ## The outbound frame of a frame slot (R115, R130) -/

section
variable (n : Nat) (bits : List Bool) (dim : Bool)

/-- The eight lamp bits that byte b of card k's section takes. -/
def lampByte (bits : List Bool) (k b : Nat) : Byte := byteOfBits ((bits.drop (64 * k + 8 * b)).take 8)

theorem outboundSections_eq : outboundSections n bits dim =
    cardSections n (lampByte bits) (fun _ => if dim then 1 else 0) := rfl

theorem outboundSections_length : (outboundSections n bits dim).length = 9 * n := cardSections_length _ _ n

variable {n}

theorem sectionBit_outbound {k j : Nat} (hk : k < n) (hj : j < 64) :
    sectionBit (closeFrame (outboundSections n bits dim)) k j = bits.getD (64 * k + j) false := by
  rw [outboundSections_eq, sectionBit_closedSections _ _ hk hj]
  unfold lampByte
  rw [byteOfBits_getLsbD _ (by omega)]
  have place : 64 * k + 8 * (j / 8) + j % 8 = 64 * k + j := by omega
  have inByte : j % 8 < 8 := by omega
  simp only [List.getD_eq_getElem?_getD, List.getElem?_take, List.getElem?_drop, place, if_pos inByte]

theorem sectionTail_outbound {k : Nat} (hk : k < n) :
    sectionTail (closeFrame (outboundSections n bits dim)) k = if dim then 1 else 0 :=
  sectionTail_closedSections (lampByte bits) (fun _ => if dim then 1 else 0) hk

end

section
variable (s : State) (c : ChainId) (n : Nat)

theorem chainBits_length : (s.chainBits c n).length = 64 * n := by
  unfold State.chainBits
  rw [List.length_map, List.length_range]

theorem chainBits_at {n i : Nat} (h : i < 64 * n) :
    (s.chainBits c n).getD i false = s.outputOn (chainIndex c * 1024 + i) := by
  unfold State.chainBits
  simp [h]

theorem frameDim_iff : s.frameDim = true ↔ s.gen.mode = .dim ∧ s.testRunning = false := by
  unfold State.frameDim
  rw [Bool.and_eq_true, beq_iff_eq, Bool.not_eq_true']

variable {s}

theorem giveFrames_none (h : s.gen.mode = .dark ∨ s.gen.settling = true) : giveFrames s = s := if_pos h

theorem giveFrames_chain (hm : s.gen.mode ≠ .dark) (hs : s.gen.settling = false) :
    (giveFrames s).chains.get c = beginExchange s c (s.chains.get c) := by
  unfold giveFrames
  rw [if_neg (not_or.mpr ⟨hm, ne_true_of_eq_false hs⟩)]
  cases c <;> rfl

theorem beginExchange_stands {x : Chain} (h : x.state = .idle ∨ x.exchange.isSome = true) :
    beginExchange s c x = x := if_pos h

theorem beginExchange_begins {x : Chain} (hi : x.state ≠ .idle) (he : x.exchange = none) :
    beginExchange s c x = { x with exchange := some (s.newExchange c x) } :=
  if_neg (not_or.mpr ⟨hi, by simp [he]⟩)

end

theorem frameSlot : Claim.FrameSlot := by
  intro s c
  refine ⟨giveFrames_none, fun hm hs => ?_, giveFrames_changes s⟩
  rw [giveFrames_chain c hm hs]
  refine ⟨fun hi => beginExchange_stands c (.inl hi), fun hx => beginExchange_stands c (.inr hx),
    fun hi hx => ⟨s.newExchange c (s.chains.get c), beginExchange_begins c hi hx, rfl,
      chainBits_length s c _, fun i => chainBits_at s c, frameDim_iff s,
      closeFrame_length (outboundSections_length _ _ _), closeFrame_good (outboundSections_length _ _ _),
      fun k j => sectionBit_outbound _ _, fun k => sectionTail_outbound _ _, rfl, rfl⟩⟩

/-! ## The lamp cards (R128, R129) -/

/-- Bit by bit, a byte put below bits that follow it in a frame. -/
theorem getLsbD_append_byte {w : Nat} {frame : List Byte} {a : Nat} {high : BitVec (8 * w)}
    (h : ∀ j, j < 8 * w → high.getLsbD j = (byteAt frame (a + 1 + j / 8)).getLsbD (j % 8)) :
    ∀ j, j < 8 * (w + 1) → (high ++ byteAt frame a).getLsbD j = (byteAt frame (a + j / 8)).getLsbD (j % 8) := by
  intro j hj
  rw [BitVec.getLsbD_append]
  split_ifs with low
  · rw [Nat.div_eq_of_lt low, Nat.mod_eq_of_lt low, Nat.add_zero]
  · have place : a + 1 + (j - 8) / 8 = a + j / 8 := by omega
    have bit : (j - 8) % 8 = j % 8 := by omega
    rw [h (j - 8) (by omega), place, bit]

/-- The outputs that a section gives are its lamp bits (10.7). -/
theorem sectionOutputs_getLsbD (frame : List Byte) (k : Nat) {j : Nat} (hj : j < 64) :
    (sectionOutputs frame k).getLsbD j = sectionBit frame k j := by
  have top : ∀ j, j < 8 * 1 → (byteAt frame (9 * k + 7)).getLsbD j
      = (byteAt frame (9 * k + 7 + j / 8)).getLsbD (j % 8) := by
    intro j hj
    rw [Nat.div_eq_of_lt hj, Nat.mod_eq_of_lt hj, Nat.add_zero]
  exact getLsbD_append_byte (getLsbD_append_byte (getLsbD_append_byte (getLsbD_append_byte
    (getLsbD_append_byte (getLsbD_append_byte (getLsbD_append_byte top)))))) j hj

section
variable (card : Card) {n k : Nat} {frame : List Byte}

theorem takeFrame_good (h : frameGood n frame = true) (hk : k < n) : card.takeFrame n k frame =
    ⟨sectionOutputs frame k, (sectionTail frame k).getLsbD 0, false⟩ := by
  unfold Card.takeFrame
  rw [if_pos h, if_pos hk]

theorem takeFrame_beyond (h : frameGood n frame = true) (hk : n ≤ k) :
    card.takeFrame n k frame = { card with rejected := false } := by
  unfold Card.takeFrame
  rw [if_pos h, if_neg (Nat.not_lt.mpr hk)]

theorem takeFrame_bad (h : frameGood n frame = false) :
    card.takeFrame n k frame = { card with rejected := true } := if_neg (ne_true_of_eq_false h)

end

theorem cardTakesItsSection : Claim.CardTakesItsSection := by
  refine fun card n k frame => ⟨fun h hk => ?_, takeFrame_beyond card, takeFrame_bad card, fun _ => rfl, rfl⟩
  rw [takeFrame_good card h hk]
  exact ⟨fun _ => sectionOutputs_getLsbD frame k, rfl, rfl⟩

/-- The last damage at or before a card is what reaches it (R128). -/
theorem frameAtCard_damaged {before after : List (Nat × List Byte)} {j k : Nat} {damaged : List Byte}
    (sent : List Byte) (hj : j ≤ k) (h : ∀ x ∈ after, k < x.1) :
    frameAtCard (before ++ (j, damaged) :: after) sent k = damaged := by
  have last : frameAtCard (before ++ (j, damaged) :: after) sent k = frameAtCard after damaged k := by
    unfold frameAtCard
    rw [List.foldl_append, List.foldl_cons, if_pos hj]
  rw [last, frameAtCard_sent damaged h]

theorem frameOfLength_length (n : Nat) (bytes : List Byte) : (frameOfLength n bytes).length = 9 * n + 2 := by
  unfold frameOfLength
  rw [List.length_map, List.length_range]

theorem frameOfLength_getD {n i : Nat} (bytes : List Byte) (h : i < 9 * n + 2) :
    (frameOfLength n bytes).getD i 0 = bytes.getD i 0 := by
  unfold frameOfLength
  simp [h, byteAt]

section
variable (c : ChainId) (n : Nat) (arrivals : List (Nat × List Byte)) (sent : List Byte) (cards : Table Card)

theorem strobe_card {k : Nat} (hk : k < 16) : (strobe c n arrivals sent cards).val Card.off (cardPlace c k) =
    (cards.val Card.off (cardPlace c k)).takeFrame n k (frameOfLength n (frameAtCard arrivals sent k)) := by
  have first : cardPlace c k - cardPlace c 0 = k := by unfold cardPlace; omega
  unfold strobe
  rw [strobe_places, if_pos (by unfold cardPlace; omega), first]

theorem strobe_other {place : Nat} (h : ∀ k, k < 16 → place ≠ cardPlace c k) :
    (strobe c n arrivals sent cards).val Card.off place = cards.val Card.off place := by
  unfold strobe
  rw [strobe_places, if_neg]
  rintro ⟨from_first, to_last⟩
  refine h (place - cardPlace c 0) (by omega) ?_
  unfold cardPlace at from_first ⊢
  omega

end

theorem cardsAtTheStrobe : Claim.CardsAtTheStrobe :=
  ⟨fun c n arrivals sent cards => ⟨fun _ => strobe_card c n arrivals sent cards,
      fun _ => strobe_other c n arrivals sent cards⟩,
    fun _ sent _ => ⟨frameAtCard_sent sent, fun _ _ _ _ e hj h => e ▸ frameAtCard_damaged sent hj h⟩,
    fun n bytes => ⟨frameOfLength_length n bytes, fun _ => frameOfLength_getD bytes⟩⟩

/-! ## What the cards return and how they light a lamp (R129, R130) -/

section
variable (s : State) (c : ChainId) {n : Nat} (noCurrent : List Nat)

/-- The eight sense bits that byte b of card k's section returns. -/
def State.senseByte (s : State) (c : ChainId) (noCurrent : List Nat) (k b : Nat) : Byte :=
  byteOfBits ((List.range 8).map (fun j =>
    (s.card c k).outputs.getLsbD (8 * b + j) && noCurrent.contains (lampAt c k (8 * b + j))))

theorem cardsReturn_eq (n : Nat) : cardsReturn s c n noCurrent = closeFrame (cardSections n
    (s.senseByte c noCurrent) (fun k => if (s.card c k).rejected then 1 else 0)) := rfl

theorem cardsReturn_length (n : Nat) : (cardsReturn s c n noCurrent).length = 9 * n + 2 :=
  closeFrame_length (cardSections_length _ _ n)

theorem cardsReturn_good (n : Nat) : frameGood n (cardsReturn s c n noCurrent) = true :=
  closeFrame_good (cardSections_length _ _ n)

theorem sectionTail_cardsReturn {k : Nat} (hk : k < n) :
    sectionTail (cardsReturn s c n noCurrent) k = if (s.card c k).rejected then 1 else 0 :=
  sectionTail_closedSections (s.senseByte c noCurrent) (fun k => if (s.card c k).rejected then 1 else 0) hk

theorem sectionBit_cardsReturn {k j : Nat} (hk : k < n) (hj : j < 64) :
    sectionBit (cardsReturn s c n noCurrent) k j = true ↔
      (s.card c k).outputs.getLsbD j = true ∧ chainIndex c * 1024 + k * 64 + j ∈ noCurrent := by
  have inByte : j % 8 < 8 := by omega
  have place : 8 * (j / 8) + j % 8 = j := Nat.div_add_mod j 8
  rw [cardsReturn_eq, sectionBit_closedSections _ _ hk hj]
  unfold State.senseByte
  rw [byteOfBits_getLsbD _ inByte]
  simp [inByte, place, lampAt]

/-- A lamp number is taken apart into its chain, its card and its output (R25). -/
theorem lampLight_at {k j : Nat} (hk : k < 16) (hj : j < 64) :
    s.lampLight (chainIndex c * 1024 + k * 64 + j) =
      if s.lsup = true ∧ (s.card c k).outputs.getLsbD j = true then some (s.card c k).dim else none := by
  have chain : chainOfLamp (chainIndex c * 1024 + k * 64 + j) = c := chainOfLamp_of_index (by omega)
  have card : cardOfLamp (chainIndex c * 1024 + k * 64 + j) = k := by unfold cardOfLamp; omega
  have output : (chainIndex c * 1024 + k * 64 + j) % 64 = j := by omega
  unfold State.lampLight
  rw [chain, card, output]
  simp only [Bool.and_eq_true]

end

theorem cardsReturns : Claim.CardsReturn :=
  ⟨fun s c n noCurrent => ⟨cardsReturn_length s c noCurrent n, cardsReturn_good s c noCurrent n,
    fun _ hk => ⟨fun _ hj => sectionBit_cardsReturn s c noCurrent hk hj,
      sectionTail_cardsReturn s c noCurrent hk⟩⟩,
    fun _ _ _ => rfl, fun s c _ _ => lampLight_at s c⟩

/-- Settles O48: outbound and return frames are the same closed card sections, read back byte by byte; a strobe is
the frame taken at each of its places. -/
theorem framesAndCards : Obligations.FramesAndCards :=
  ⟨frameSlot, frameCrc, cardTakesItsSection, cardsAtTheStrobe, cardsReturns⟩

end Sys2Proof.Machine

/-! # Lamp chains: proofs of the statements of 07_lamp_chains.md -/

namespace Sys2Proof.Machine

/-! ## The four chains as a family -/

theorem Chains.get_set_same (x : Chains) (c : ChainId) (y : Chain) : (x.set c y).get c = y := by
  cases c <;> rfl

theorem Chains.get_set_other (x : Chains) {c i : ChainId} (y : Chain) (h : i ≠ c) :
    (x.set c y).get i = x.get i := by
  cases c <;> cases i <;> first | rfl | exact absurd rfl h

@[simp] theorem Chains.set_fails (x : Chains) (c : ChainId) (y : Chain) : (x.set c y).fails = x.fails := by
  cases c <;> rfl

@[simp] theorem Chains.set_faultCount (x : Chains) (c : ChainId) (y : Chain) :
    (x.set c y).faultCount = x.faultCount := by
  cases c <;> rfl

theorem Chains.anyFaulted_iff (x : Chains) : x.anyFaulted = true ↔ ∃ c, (x.get c).state = .faulted := by
  unfold Chains.anyFaulted
  simp only [Bool.or_eq_true, beq_iff_eq]
  refine ⟨?_, fun ⟨c, hc⟩ => ?_⟩
  · rintro (((h | h) | h) | h)
    exacts [⟨.a, h⟩, ⟨.b, h⟩, ⟨.c, h⟩, ⟨.d, h⟩]
  · cases c with
    | a => exact .inl (.inl (.inl hc))
    | b => exact .inl (.inl (.inr hc))
    | c => exact .inl (.inr hc)
    | d => exact .inr hc

@[simp] theorem setChain_chains (c : ChainId) (x : Chain) (s : State) :
    (setChain c x s).chains = s.chains.set c x := rfl

/-- The parts of the Chain Controller. -/
def chainParts : List Part := [.chainsA, .chainsB, .chainsC, .chainsD, .chainsFails, .chainsFaultCount]

section
variable {l : List Part} {s t : State}

theorem chains_of_changes (h : Changes l s t)
    (hl : chainParts.all (fun p => !l.contains p) = true := by rfl) : t.chains = s.chains := by
  have same := h.keepsAll hl
  simp only [chainParts, List.forall_mem_cons, Part.same] at same
  generalize s.chains = x, t.chains = y at same ⊢
  cases x
  cases y
  simpa using same

theorem chain_of_changes (h : Changes l s t) (c : ChainId)
    (hl : [Part.chainsA, .chainsB, .chainsC, .chainsD].all (fun p => !l.contains p) = true := by rfl) :
    t.chains.get c = s.chains.get c := by
  have same := h.keepsAll hl
  cases c with
  | a => exact same .chainsA (by decide)
  | b => exact same .chainsB (by decide)
  | c => exact same .chainsC (by decide)
  | d => exact same .chainsD (by decide)

end

/-! ## The board fault lamp (R114) -/

theorem State.faultPattern_steady {s : State}
    (h : 0 < s.chains.faultCount ∨ ∃ c, (s.chains.get c).state = .faulted) : s.faultPattern = .steady :=
  if_pos (h.imp_right s.chains.anyFaulted_iff.mpr)

theorem State.faultPattern_off {s : State} (hf : s.chains.faultCount = 0)
    (hc : ∀ c, (s.chains.get c).state ≠ .faulted) : s.faultPattern = .off := by
  refine if_neg (not_or.mpr ⟨by omega, fun h => ?_⟩)
  obtain ⟨c, faulted⟩ := s.chains.anyFaulted_iff.mp h
  exact hc c faulted

/-- R114's decision looks at the lamp fault count and at the chains' states. -/
theorem State.faultPattern_congr {s t : State} (hf : t.chains.faultCount = s.chains.faultCount)
    (hc : ∀ c, (t.chains.get c).state = (s.chains.get c).state) : t.faultPattern = s.faultPattern := by
  have faulted : t.chains.anyFaulted = s.chains.anyFaulted := by
    rw [Bool.eq_iff_iff, Chains.anyFaulted_iff, Chains.anyFaulted_iff]
    simp only [hc]
  unfold State.faultPattern
  rw [hf, faulted]

/-- A claimed board fault lamp shows what R114 decides. -/
def State.faultLampDecided (s : State) : Prop :=
  ∀ lamp, s.loader.faultLamp.claimed = some lamp → s.patternOf lamp = s.faultPattern

theorem State.faultLampDecided.congr {s t : State} (h : s.faultLampDecided)
    (hl : t.loader.faultLamp = s.loader.faultLamp) (hp : t.patternOf = s.patternOf)
    (hf : t.faultPattern = s.faultPattern) : t.faultLampDecided := by
  intro lamp claimed
  rw [hl] at claimed
  rw [hp, hf]
  exact h lamp claimed

theorem State.faultLampDecided.of_changes {l : List Part} {s t : State} (h : s.faultLampDecided)
    (ch : Changes l s t)
    (hl : (.loaderFaultLamp :: .genPatterns :: chainParts).all (fun p => !l.contains p) = true := by rfl) :
    t.faultLampDecided := by
  have same := ch.keepsAll hl
  have chains : t.chains = s.chains := chains_of_changes ch (absent_mono hl (by decide))
  refine h.congr (same .loaderFaultLamp (by decide))
    (patternOf_of_changes ch (not_mem_of_absent hl (by decide))) ?_
  unfold State.faultPattern
  rw [chains]

theorem decideFaultLamp_faultPattern (s : State) : (decideFaultLamp s).faultPattern = s.faultPattern := by
  have chains : (decideFaultLamp s).chains = s.chains := chains_of_changes (decideFaultLamp_changes s)
  unfold State.faultPattern
  rw [chains]

theorem decideFaultLamp_decided (s : State) : (decideFaultLamp s).faultLampDecided := by
  intro lamp claimed
  have held : (decideFaultLamp s).loader.faultLamp = s.loader.faultLamp :=
    decideFaultLamp_changes s .loaderFaultLamp (by decide)
  rw [held] at claimed
  rw [decideFaultLamp_faultPattern, decideFaultLamp_claimed claimed, setPattern_same]

/-- A lamp that is not the board fault lamp is not decided. -/
theorem decideFaultLamp_other {s : State} {other : Nat} (h : s.loader.faultLamp.claimed ≠ some other) :
    (decideFaultLamp s).patternOf other = s.patternOf other := by
  unfold decideFaultLamp
  split
  · rename_i lamp claimed
    exact setPattern_other _ _ fun e => h (e ▸ claimed)
  · rfl

/-- A dirty word stays dirty while the board fault lamp is decided. -/
theorem decideFaultLamp_keeps_dirty {s : State} {w : Nat} (h : w ∈ s.gen.dirty) :
    w ∈ (decideFaultLamp s).gen.dirty := by
  unfold decideFaultLamp
  split
  · exact setPattern_keeps_dirty _ _ h
  · exact h

/-! ## Card counts (R25, R33, R127) -/

section
variable {x : Chain} {n : Nat}

theorem withCount_zero (x : Chain) : x.withCount 0 =
    { count := 0, state := .idle, bad := 0, prev := none,
      exchange := x.exchange.map (fun e => { e with void := true }) } := rfl

theorem withCount_begins (hn : n ≠ 0) (h : x.state = .idle) :
    x.withCount n = { x with count := n, state := .ok, bad := 0, prev := none } := by
  unfold Chain.withCount
  rw [if_neg hn, h]

theorem withCount_goes_on (hn : n ≠ 0) (h : x.state ≠ .idle) : x.withCount n = { x with count := n } := by
  unfold Chain.withCount
  rw [if_neg hn]
  cases hs : x.state with
  | idle => exact absurd hs h
  | ok | faulted => rfl

end

theorem cardCountActsOnTheChain : Claim.CardCountActsOnTheChain := by
  refine fun x n => ⟨?_, fun hn hi => ?_, withCount_goes_on⟩
  · rintro rfl
    rw [withCount_zero]
    exact ⟨rfl, rfl, rfl, rfl⟩
  · rw [withCount_begins hn hi]
    exact ⟨rfl, rfl, rfl, rfl⟩

theorem handCount_chains (c : ChainId) (n : Nat) (s : State) :
    (handCount c n s).chains = s.chains.set c ((s.chains.get c).withCount n) :=
  chains_of_changes (decideFaultLamp_changes _)

/-- The two counts of a word handed to their chains (R25). -/
def countsHanded (x y : ChainId) (w : Word) (s : State) : State :=
  handCount y (cardCountField w true) (handCount x (cardCountField w false) s)

/-- A full reload finds a count of the word changed (R33). -/
def State.countsMark (s : State) (x y : ChainId) (w : Word) : Prop :=
  ((s.chains.get x).count ≠ cardCountField w false ∨ (s.chains.get y).count ≠ cardCountField w true)
    ∧ ∃ p, s.loader.pass = some p ∧ p.sweep = false

section
variable {x y : ChainId} {w : Word} {s : State}

theorem takeCounts_marks (h : s.countsMark x y w) : takeCounts x y w s = (countsHanded x y w s).setLoader
    { (countsHanded x y w s).loader with marked := List.range 1792 } := by
  obtain ⟨changed, p, pass, full⟩ := h
  unfold takeCounts
  dsimp only
  rw [pass, if_pos (by simpa [full] using changed)]
  rfl

theorem takeCounts_unmarked (h : ¬ s.countsMark x y w) : takeCounts x y w s = countsHanded x y w s := by
  refine if_neg fun marks => h ?_
  rw [Bool.and_eq_true, Bool.or_eq_true, decide_eq_true_eq, decide_eq_true_eq] at marks
  obtain ⟨changed, full⟩ := marks
  cases pass : s.loader.pass with
  | none => rw [pass] at full; cases full
  | some p =>
    rw [pass] at full
    exact ⟨changed, p, pass, by simpa using full⟩

/-- What the two counts of a word change beside the marks. -/
theorem countsHanded_changes (x y : ChainId) (w : Word) (s : State) :
    Changes ([.chainsA, .chainsB, .chainsC, .chainsD] ++ imageParts) s (countsHanded x y w s) :=
  (handCount_changes x _ s).trans (handCount_changes y _ _)

/-- The marks are all that a word's counts bring beside the hand-over (R33). -/
theorem takeCounts_after_hand (x y : ChainId) (w : Word) (s : State) :
    Changes [.loaderMarked] (countsHanded x y w s) (takeCounts x y w s) := by
  by_cases h : s.countsMark x y w
  · rw [takeCounts_marks h]
    exact setMarked_changes _ _
  · rw [takeCounts_unmarked h]
    exact .refl _ _

theorem takeCounts_chains (x y : ChainId) (w : Word) (s : State) :
    (takeCounts x y w s).chains = (countsHanded x y w s).chains :=
  chains_of_changes (takeCounts_after_hand x y w s)

theorem takeCounts_first (w : Word) (s : State) (h : x ≠ y) :
    (takeCounts x y w s).chains.get x = (s.chains.get x).withCount (cardCountField w false) := by
  rw [takeCounts_chains]
  unfold countsHanded
  rw [handCount_chains, Chains.get_set_other _ _ h, handCount_chains, Chains.get_set_same]

theorem takeCounts_second (w : Word) (s : State) (h : y ≠ x) :
    (takeCounts x y w s).chains.get y = (s.chains.get y).withCount (cardCountField w true) := by
  rw [takeCounts_chains]
  unfold countsHanded
  rw [handCount_chains, Chains.get_set_same, handCount_chains, Chains.get_set_other _ _ h]

theorem takeCounts_marks_all (h : s.countsMark x y w) {n : Nat} (hn : n < 1792) :
    n ∈ (takeCounts x y w s).loader.marked := by
  rw [takeCounts_marks h]
  simpa using hn

theorem takeCounts_marks_none (h : ¬ s.countsMark x y w) :
    (takeCounts x y w s).loader.marked = s.loader.marked := by
  rw [takeCounts_unmarked h]
  exact countsHanded_changes x y w s .loaderMarked (by decide)

/-- A sweep marks no point (R33). -/
theorem countsMark_not_sweep (x y : ChainId) (w : Word) {p : Pass} (hp : s.loader.pass = some p)
    (sweep : p.sweep = true) : ¬ s.countsMark x y w := by
  rintro ⟨-, q, hq, full⟩
  obtain rfl : p = q := Option.some.inj (hp.symm.trans hq)
  exact Bool.false_ne_true (full.symm.trans sweep)

/-- Two counts that stand mark no point (R33). -/
theorem countsMark_not_same (hx : (s.chains.get x).count = cardCountField w false)
    (hy : (s.chains.get y).count = cardCountField w true) : ¬ s.countsMark x y w :=
  fun h => h.1.elim (fun n => n hx) (fun n => n hy)

theorem takeCounts_shows (x y : ChainId) (w : Word) {lamp : Nat}
    (claimed : s.loader.faultLamp.claimed = some lamp) :
    (takeCounts x y w s).patternOf lamp = (takeCounts x y w s).faultPattern := by
  have decided : (takeCounts x y w s).faultLampDecided :=
    (decideFaultLamp_decided _).of_changes (takeCounts_after_hand x y w s)
  have held : (takeCounts x y w s).loader.faultLamp = s.loader.faultLamp :=
    takeCounts_changes x y w s .loaderFaultLamp (by decide)
  exact decided lamp (held ▸ claimed)

end

theorem cardCountsAreClampedAndMark : Claim.CardCountsAreClampedAndMark :=
  fun s w => ⟨takeCounts_first (x := .a) (y := .b) w s (by decide),
    takeCounts_second (x := .a) (y := .b) w s (by decide),
    takeCounts_first (x := .c) (y := .d) w s (by decide),
    takeCounts_second (x := .c) (y := .d) w s (by decide),
    fun p hp full changed _ => takeCounts_marks_all (x := .a) (y := .b) ⟨changed, p, hp, full⟩,
    fun p hp full changed _ => takeCounts_marks_all (x := .c) (y := .d) ⟨changed, p, hp, full⟩,
    fun _ hp sweep => ⟨takeCounts_marks_none (countsMark_not_sweep .a .b w hp sweep),
      takeCounts_marks_none (countsMark_not_sweep .c .d w hp sweep)⟩,
    fun ha hb => takeCounts_marks_none (countsMark_not_same (x := .a) (y := .b) ha hb),
    fun hc hd => takeCounts_marks_none (countsMark_not_same (x := .c) (y := .d) hc hd),
    fun _ claimed => ⟨takeCounts_shows .a .b w claimed, takeCounts_shows .c .d w claimed⟩⟩

/-- Settles O18: two counts are two chains set, the marks and the board fault lamp's decision apart. -/
theorem cardCounts : Obligations.CardCounts := ⟨cardCountActsOnTheChain, cardCountsAreClampedAndMark⟩

/-! ## Events and the places of the queue (R164) -/

theorem EventUnit.take_queue (e : EventUnit) (r : EventRecord) :
    (e.take r).queue = e.queue ++ [r].take (32 - e.queue.length) := by
  by_cases room : e.queue.length < 32
  · rw [EventUnit.take_room room, List.take_of_length_le (by simp only [List.length_singleton]; omega)]
  · rw [show 32 - e.queue.length = 0 by omega, List.take_zero, List.append_nil]
    unfold EventUnit.take
    rw [if_neg (show ¬ e.queue.length < Config.queueDepth from room)]
    split_ifs <;> rfl

/-- On the board, an event told after an operation that leaves queue, time and configuration state joins the
queue where that has a place. -/
theorem record_queue_places {l : List Part} {s u : State} (h : Changes l s u) (hb : s.onBoard)
    (k : EventKind) (o : Origin) (a d : Nat)
    (hl : [Part.loaderCfg, .genSeconds, .eventsQueue].all (fun p => !l.contains p) = true := by rfl) :
    (record k o a d u).events.queue
      = s.events.queue ++ [s.eventOf k o a d].take (32 - s.events.queue.length) := by
  have same := h.keepsAll hl
  have cfg : u.loader.cfg = s.loader.cfg := same .loaderCfg (by decide)
  have seconds : u.gen.seconds = s.gen.seconds := same .genSeconds (by decide)
  have queue : u.events.queue = s.events.queue := same .eventsQueue (by decide)
  rw [State.onBoard, ← cfg] at hb
  rw [record_configured hb, State.setEvents_events, EventUnit.take_queue, queue, seconds]
  rfl

/-- No event leaves the queue when another is told. -/
theorem record_queue_grows (k : EventKind) (o : Origin) (a d : Nat) (s : State) :
    s.events.queue <+: (record k o a d s).events.queue := by
  by_cases h : s.onBoard
  · rw [record_queue_places (.refl [] s) h]
    exact ⟨_, rfl⟩
  · rw [record_unconfigured (not_not.mp h)]

/-! ## A judged lamp (R137, R139) -/

/-- A lamp's fail count alone set, its fault flag where it was (R137). -/
def setFails (lamp count : Nat) (s : State) : State :=
  s.setChains { s.chains with fails := s.chains.fails.assign 0 lamp count }

section
variable {s : State} {lamp count : Nat}

theorem faulty_iff {x : Chains} : x.faulty lamp = true ↔ x.fails.val 0 lamp = 2 := beq_iff_eq

/-- A fail count that leaves the fault flag as it is (R137). -/
theorem setFail_flag_stands (h : s.chains.fails.val 0 lamp = 2 ↔ count = 2) :
    setFail lamp count s = setFails lamp count s := by
  have flag : s.chains.faulty lamp = (count == 2) := by
    rw [Bool.eq_iff_iff, faulty_iff, h, beq_iff_eq]
  unfold setFail
  dsimp only
  rw [flag]
  cases count == 2 <;> rfl

theorem setFail_flag_set (h : s.chains.fails.val 0 lamp ≠ 2) :
    setFail lamp 2 s = flagMoved .lampFault lamp (s.chains.faultCount + 1) (setFails lamp 2 s) := by
  have flag : s.chains.faulty lamp = false := Bool.eq_false_iff.mpr fun f => h (faulty_iff.mp f)
  unfold setFail
  dsimp only
  rw [flag]
  rfl

theorem setFail_flag_cleared (h : s.chains.fails.val 0 lamp = 2) (hc : count ≠ 2) :
    setFail lamp count s
      = flagMoved .lampRestored lamp (s.chains.faultCount - 1) (setFails lamp count s) := by
  have flag : s.chains.faulty lamp = true := faulty_iff.mpr h
  have low : (count == 2) = false := beq_eq_false_iff_ne.mpr hc
  unfold setFail
  dsimp only
  rw [flag, low]
  rfl

/-! R137's table, row by row. -/

theorem judgeLamp_first (h : s.chains.fails.val 0 lamp = 0) : judgeLamp lamp true s = setFails lamp 1 s := by
  unfold judgeLamp
  rw [h]
  exact setFail_flag_stands (by rw [h]; decide)

theorem judgeLamp_faults (h : s.chains.fails.val 0 lamp = 1) : judgeLamp lamp true s
    = flagMoved .lampFault lamp (s.chains.faultCount + 1) (setFails lamp 2 s) := by
  unfold judgeLamp
  rw [h]
  exact setFail_flag_set (by rw [h]; decide)

theorem judgeLamp_stays (h : s.chains.fails.val 0 lamp = 2) : judgeLamp lamp true s = setFails lamp 2 s := by
  unfold judgeLamp
  rw [h]
  exact setFail_flag_stands (by rw [h]; decide)

theorem judgeLamp_restores (h : s.chains.fails.val 0 lamp = 2) : judgeLamp lamp false s
    = flagMoved .lampRestored lamp (s.chains.faultCount - 1) (setFails lamp 0 s) :=
  setFail_flag_cleared (count := 0) h (by decide)

theorem judgeLamp_clears (h : s.chains.fails.val 0 lamp < 2) : judgeLamp lamp false s = setFails lamp 0 s :=
  setFail_flag_stands (count := 0) (by omega)

end

/-! ### The lamp's flag moved -/

/-- On the board a touched word is dirty (R125). -/
theorem touchWord_joins (w : Nat) {s : State} (hb : s.onBoard) : w ∈ (touchWord w s).gen.dirty := by
  rw [touchWord_dirty, if_pos (State.configured_iff.mpr hb)]
  exact insertNat_mem.mpr (.inl rfl)

/-- A moved flag before its event is told: the lamp fault count reported, the image word touched, the board
fault lamp decided (R114, R125, R139, R171). -/
def flagReported (lamp n : Nat) (s : State) : State :=
  decideFaultLamp (touchWord (lamp / 4) (syncStatus (s.setChains { s.chains with faultCount := n })))

section
variable (k : EventKind) (lamp n : Nat) (s : State)

theorem flagMoved_eq : flagMoved k lamp n s = record k .part lamp 0 (flagReported lamp n s) := rfl

/-- Beyond the lamp fault count, a flag's report stands in the image and in the status copies. -/
theorem flagReported_changes :
    Changes (imageParts ++ statusParts) (s.setChains { s.chains with faultCount := n }) (flagReported lamp n s) :=
  ((syncStatus_changes _).then (touchWord_changes _ _) (k := imageParts ++ statusParts)).then
    (decideFaultLamp_changes _)

theorem flagMoved_chains : (flagMoved k lamp n s).chains = { s.chains with faultCount := n } :=
  (chains_of_changes (record_changes _ _ _ _ _)).trans (chains_of_changes (flagReported_changes lamp n s))

/-- The touched word and the board fault lamp leave the Event Unit. -/
theorem flagReported_events :
    (flagReported lamp n s).events = (syncStatus (s.setChains { s.chains with faultCount := n })).events :=
  (events_of_changes (decideFaultLamp_changes _)).trans (events_of_changes (touchWord_changes _ _))

theorem flagMoved_copies : (flagMoved k lamp n s).events.copies.faults = n := by
  have told : (flagMoved k lamp n s).events.copies = (flagReported lamp n s).events.copies :=
    record_changes _ _ _ _ _ .eventsCopies (by decide)
  rw [told, flagReported_events]
  rfl

variable {s n}

theorem flagMoved_owes_k22 (hb : s.onBoard) (h : s.events.copies.faults ≠ n) :
    (flagMoved k lamp n s).events.owed22 = true := by
  have told : (flagMoved k lamp n s).events.owed22 = (flagReported lamp n s).events.owed22 :=
    record_changes _ _ _ _ _ .eventsOwed22 (by decide)
  have owed : (s.configured && s.events.copies.faults != n) = true := by
    rw [Bool.and_eq_true, State.configured_iff, bne_iff_ne]
    exact ⟨hb, h⟩
  rw [told, flagReported_events]
  exact Bool.or_eq_true_iff.mpr (.inr owed)

theorem flagMoved_queue (hb : s.onBoard) : (flagMoved k lamp n s).events.queue
    = s.events.queue ++ [s.eventOf k .part lamp 0].take (32 - s.events.queue.length) :=
  record_queue_places ((setFaultCount_changes n s).then (flagReported_changes lamp n s)
    (k := .chainsFaultCount :: (imageParts ++ statusParts))) hb k .part lamp 0

theorem flagMoved_dirty (hb : s.onBoard) : lamp / 4 ∈ (flagMoved k lamp n s).gen.dirty := by
  have told : (flagMoved k lamp n s).gen.dirty = (flagReported lamp n s).gen.dirty :=
    record_changes _ _ _ _ _ .genDirty (by decide)
  rw [told]
  exact decideFaultLamp_keeps_dirty (touchWord_joins _ hb)

theorem flagMoved_decided : (flagMoved k lamp n s).faultLampDecided :=
  (decideFaultLamp_decided _).of_changes (record_changes k .part lamp 0 _)

theorem flagMoved_other_lamp {other : Nat} (h : s.loader.faultLamp.claimed ≠ some other) :
    (flagMoved k lamp n s).patternOf other = s.patternOf other := by
  have touched : (touchWord (lamp / 4) (syncStatus (s.setChains { s.chains with faultCount := n }))).loader
      = s.loader := apply_ite State.loader _ _ _ |>.trans (ite_self _)
  rw [flagMoved_eq, patternOf_of_changes (record_changes _ _ _ _ _)]
  refine (decideFaultLamp_other (by rw [touched]; exact h)).trans ?_
  unfold State.patternOf
  rw [touchWord_patterns]
  rfl

end

/-! ### What a judged lamp moves and what it leaves -/

section
variable (lamp count : Nat) (s : State)

/-- A fail count set anew stands alone, or is followed by the lamp's moved flag (R137). -/
theorem setFail_cases : setFail lamp count s = setFails lamp count s
    ∨ ∃ k n, setFail lamp count s = flagMoved k lamp n (setFails lamp count s) := by
  by_cases was : s.chains.fails.val 0 lamp = 2
  · by_cases now : count = 2
    · exact .inl (setFail_flag_stands (iff_of_true was now))
    · exact .inr ⟨_, _, setFail_flag_cleared was now⟩
  · by_cases now : count = 2
    · subst now
      exact .inr ⟨_, _, setFail_flag_set was⟩
    · exact .inl (setFail_flag_stands (iff_of_false was now))

theorem setFail_fails : (setFail lamp count s).chains.fails = s.chains.fails.assign 0 lamp count := by
  rcases setFail_cases lamp count s with stands | ⟨k, n, moved⟩
  · rw [stands]
    rfl
  · rw [moved, flagMoved_chains]
    rfl

theorem setFail_decided {s : State} (h : s.faultLampDecided) : (setFail lamp count s).faultLampDecided := by
  rcases setFail_cases lamp count s with stands | ⟨k, n, moved⟩
  · rw [stands]
    exact h.congr rfl rfl rfl
  · rw [moved]
    exact flagMoved_decided k lamp

theorem setFail_other_lamp {s : State} {other : Nat} (h : s.loader.faultLamp.claimed ≠ some other) :
    (setFail lamp count s).patternOf other = s.patternOf other := by
  rcases setFail_cases lamp count s with stands | ⟨k, n, moved⟩
  · rw [stands]
    rfl
  · rw [moved]
    exact flagMoved_other_lamp k lamp (s := setFails lamp count s) h

variable (b : Bool)

theorem judgeLamp_same : (judgeLamp lamp b s).chains.fails.val 0 lamp = nextFail (s.chains.fails.val 0 lamp) b := by
  unfold judgeLamp
  rw [setFail_fails, Table.val_assign_same]

theorem judgeLamp_other {other : Nat} (h : other ≠ lamp) :
    (judgeLamp lamp b s).chains.fails.val 0 other = s.chains.fails.val 0 other := by
  unfold judgeLamp
  rw [setFail_fails, Table.val_assign_other _ _ _ h]

end

/-- What a moved flag brings beside its fail count: the report of the lamp fault count, its event, the dirty word
and the board fault lamp (R114, R125, R137, R139, R171). -/
theorem flagMoved_told (k : EventKind) (lamp n : Nat) (s : State) :
    (flagMoved k lamp n s).chains.faultCount = n
      ∧ (flagMoved k lamp n s).events.copies.faults = n
      ∧ (s.onBoard → s.events.copies.faults ≠ n → (flagMoved k lamp n s).events.owed22 = true)
      ∧ (s.onBoard → s.events.queue.length < 32 →
          (flagMoved k lamp n s).events.queue = s.events.queue ++ [s.eventOf k .part lamp 0])
      ∧ (s.onBoard → lamp / 4 ∈ (flagMoved k lamp n s).gen.dirty)
      ∧ ∀ l, s.loader.faultLamp.claimed = some l →
          (flagMoved k lamp n s).patternOf l = (flagMoved k lamp n s).faultPattern := by
  refine ⟨by rw [flagMoved_chains], flagMoved_copies k lamp n s, flagMoved_owes_k22 k lamp, fun hb hq => ?_,
    flagMoved_dirty k lamp, fun l claimed => flagMoved_decided k lamp l ?_⟩
  · rw [flagMoved_queue k lamp hb, List.take_of_length_le (by simp only [List.length_singleton]; omega)]
  · have held : (flagMoved k lamp n s).loader.faultLamp = s.loader.faultLamp :=
      flagMoved_changes k lamp n s .loaderFaultLamp (by decide)
    rw [held]
    exact claimed

/-- Settles O50: R137's table is the fail count set anew, alone or with the lamp's flag moved; both leave the other
lamps. -/
theorem judgedLamp : Obligations.JudgedLamp := by
  intro s lamp
  refine ⟨fun h => ?_, fun h => ?_, fun h => ?_, fun h => ?_, fun b => rfl,
    fun b other ho => ⟨judgeLamp_other lamp s b ho, ?_⟩, fun b other => setFail_other_lamp lamp _,
    fun u => ⟨State.faultPattern_steady, State.faultPattern_off⟩⟩
  · rw [judgeLamp_same, judgeLamp_first h, h]
    exact ⟨rfl, rfl, rfl⟩
  · obtain ⟨count, copies, owed, queue, dirty, decided⟩ :=
      flagMoved_told .lampFault lamp (s.chains.faultCount + 1) (setFails lamp 2 s)
    have fails : (judgeLamp lamp true s).chains.fails.val 0 lamp = 2 := by rw [judgeLamp_same, h]; rfl
    refine ⟨fails, faulty_iff.mpr fails, ?_⟩
    rw [judgeLamp_faults h]
    exact ⟨count, copies, fun hb hc => owed hb (by rw [← hc]; exact Nat.ne_of_lt (Nat.lt_succ_self _)),
      queue, dirty, decided⟩
  · obtain ⟨count, copies, owed, queue, dirty, decided⟩ :=
      flagMoved_told .lampRestored lamp (s.chains.faultCount - 1) (setFails lamp 0 s)
    have stays : (judgeLamp lamp true s).chains.fails.val 0 lamp = 2 := by rw [judgeLamp_same, h]; rfl
    have clears : (judgeLamp lamp false s).chains.fails.val 0 lamp = 0 := judgeLamp_same lamp s false
    refine ⟨stays, by rw [judgeLamp_stays h]; rfl, by rw [judgeLamp_stays h]; rfl, clears, ?_⟩
    rw [judgeLamp_restores h]
    exact ⟨count, copies, fun hb hc hf => owed hb (by change s.events.copies.faults ≠ _; omega),
      queue, dirty, decided⟩
  · rw [judgeLamp_same, judgeLamp_clears h]
    exact ⟨rfl, rfl, rfl⟩
  · unfold Chains.faulty
    rw [judgeLamp_other lamp s b ho]

/-! ## The lamps a good return judges (R136, R137) -/

/-- Lamps judged one after the other, each with whether it draws no current (R137). -/
def judgeLamps (l : List (Nat × Bool)) (s : State) : State := l.foldl (fun s e => judgeLamp e.1 e.2 s) s

/-- The event that a judged lamp brings (R137). -/
def State.lampEvent (s : State) (e : Nat × Bool) : Option EventRecord :=
  if e.2 then
    if s.chains.fails.val 0 e.1 = 1 then some (s.eventOf .lampFault .part e.1 0) else none
  else if s.chains.fails.val 0 e.1 = 2 then some (s.eventOf .lampRestored .part e.1 0) else none

theorem judgeLamps_cons (e : Nat × Bool) (l : List (Nat × Bool)) (s : State) :
    judgeLamps (e :: l) s = judgeLamps l (judgeLamp e.1 e.2 s) := rfl

theorem judgeLamps_changes (l : List (Nat × Bool)) (s : State) : Changes lampParts s (judgeLamps l s) :=
  Changes.foldl (f := fun s e => judgeLamp e.1 e.2 s) (fun s e => judgeLamp_changes e.1 e.2 s) l s

theorem judgeLamps_decided (l : List (Nat × Bool)) {s : State} (h : s.faultLampDecided) :
    (judgeLamps l s).faultLampDecided := by
  induction l generalizing s with
  | nil => exact h
  | cons e l ih => exact ih (setFail_decided _ _ h)

theorem judgeLamps_other {l : List (Nat × Bool)} {lamp : Nat} (h : ∀ e ∈ l, lamp ≠ e.1) (s : State) :
    (judgeLamps l s).chains.fails.val 0 lamp = s.chains.fails.val 0 lamp := by
  induction l generalizing s with
  | nil => rfl
  | cons e l ih =>
    rw [judgeLamps_cons, ih (fun x hx => h x (List.mem_cons_of_mem _ hx)),
      judgeLamp_other _ _ _ (h e List.mem_cons_self)]

/-- Among lamps judged once each, a lamp's fail count follows its own judgement. -/
theorem judgeLamps_judged {l : List (Nat × Bool)} (once : l.Pairwise (fun x y => x.1 ≠ y.1))
    {e : Nat × Bool} (he : e ∈ l) (s : State) :
    (judgeLamps l s).chains.fails.val 0 e.1 = nextFail (s.chains.fails.val 0 e.1) e.2 := by
  induction l generalizing s with
  | nil => cases he
  | cons x l ih =>
    obtain ⟨apart, once⟩ := List.pairwise_cons.mp once
    rw [judgeLamps_cons]
    rcases List.mem_cons.mp he with rfl | he
    · rw [judgeLamps_other apart, judgeLamp_same]
    · rw [ih once he, judgeLamp_other _ _ _ (apart e he).symm]

/-! ### Their events (R137, R164) -/

/-- A moved flag tells no event ahead of those in the queue. -/
theorem judgeLamp_queue_grows (lamp : Nat) (b : Bool) (s : State) :
    s.events.queue <+: (judgeLamp lamp b s).events.queue := by
  unfold judgeLamp
  rcases setFail_cases lamp (nextFail (s.chains.fails.val 0 lamp) b) s with stands | ⟨k, n, moved⟩
  · rw [stands]
    exact ⟨[], List.append_nil _⟩
  · rw [moved]
    have before : (flagReported lamp n (setFails lamp (nextFail (s.chains.fails.val 0 lamp) b) s)).events.queue
        = s.events.queue := flagReported_changes _ _ _ .eventsQueue (by decide)
    rw [← before]
    exact record_queue_grows _ _ _ _ _

theorem judgeLamps_queue_grows (l : List (Nat × Bool)) (s : State) :
    s.events.queue <+: (judgeLamps l s).events.queue := by
  induction l generalizing s with
  | nil => exact ⟨[], List.append_nil _⟩
  | cons e l ih => exact (judgeLamp_queue_grows e.1 e.2 s).trans (ih _)

theorem judgeLamp_queue {s : State} (e : Nat × Bool) (hb : s.onBoard) (legal : s.chains.fails.val 0 e.1 ≤ 2) :
    (judgeLamp e.1 e.2 s).events.queue
      = s.events.queue ++ (s.lampEvent e).toList.take (32 - s.events.queue.length) := by
  obtain ⟨lamp, b⟩ := e
  change s.chains.fails.val 0 lamp ≤ 2 at legal
  unfold State.lampEvent
  cases b with
  | true =>
    by_cases h : s.chains.fails.val 0 lamp = 1
    · rw [if_pos rfl, if_pos h, judgeLamp_faults h]
      exact flagMoved_queue _ _ (s := setFails lamp 2 s) hb
    · rw [if_pos rfl, if_neg h]
      have edge : s.chains.fails.val 0 lamp = 0 ∨ s.chains.fails.val 0 lamp = 2 := by omega
      rcases edge with h | h
      · rw [judgeLamp_first h]
        simp [setFails]
      · rw [judgeLamp_stays h]
        simp [setFails]
  | false =>
    by_cases h : s.chains.fails.val 0 lamp = 2
    · rw [if_neg Bool.false_ne_true, if_pos h, judgeLamp_restores h]
      exact flagMoved_queue _ _ (s := setFails lamp 0 s) hb
    · rw [if_neg Bool.false_ne_true, if_neg h, judgeLamp_clears (lt_of_le_of_ne legal h)]
      simp [setFails]

/-- A lamp's event is told of its fail count and of the time, which another lamp's judgement leaves. -/
theorem lampEvent_judgeLamp_other {e x : Nat × Bool} (h : e.1 ≠ x.1) (s : State) :
    (judgeLamp x.1 x.2 s).lampEvent e = s.lampEvent e := by
  have seconds : (judgeLamp x.1 x.2 s).gen.seconds = s.gen.seconds :=
    judgeLamp_changes _ _ _ .genSeconds (by decide)
  unfold State.lampEvent State.eventOf
  rw [judgeLamp_other _ _ _ h, seconds]

/-- Lamps judged once each tell their events in their order, as many as the queue has places for. -/
theorem judgeLamps_queue {l : List (Nat × Bool)} (once : l.Pairwise (fun x y => x.1 ≠ y.1)) {s : State}
    (hb : s.onBoard) (legal : ∀ lamp, s.chains.fails.val 0 lamp ≤ 2) :
    (judgeLamps l s).events.queue
      = s.events.queue ++ (l.filterMap s.lampEvent).take (32 - s.events.queue.length) := by
  induction l generalizing s with
  | nil => simp [judgeLamps]
  | cons e l ih =>
    obtain ⟨apart, once⟩ := List.pairwise_cons.mp once
    have board : (judgeLamp e.1 e.2 s).onBoard := by
      rw [State.onBoard, show _ = s.loader.cfg from judgeLamp_changes e.1 e.2 s .loaderCfg (by decide)]
      exact hb
    have legal' (lamp : Nat) : (judgeLamp e.1 e.2 s).chains.fails.val 0 lamp ≤ 2 := by
      by_cases h : lamp = e.1
      · rw [h, judgeLamp_same]
        exact nextFail_le _ _
      · rw [judgeLamp_other _ _ _ h]
        exact legal lamp
    have later : l.filterMap (judgeLamp e.1 e.2 s).lampEvent = l.filterMap s.lampEvent :=
      List.filterMap_congr fun x hx => lampEvent_judgeLamp_other (apart x hx).symm s
    have all : (e :: l).filterMap s.lampEvent = (s.lampEvent e).toList ++ l.filterMap s.lampEvent := by
      rw [List.filterMap_cons]
      cases s.lampEvent e <;> rfl
    have places : 32 - (s.events.queue.length
          + min (32 - s.events.queue.length) (s.lampEvent e).toList.length)
        = 32 - s.events.queue.length - (s.lampEvent e).toList.length := by omega
    rw [judgeLamps_cons, ih once board legal', later, judgeLamp_queue e hb (legal _), all, List.take_append,
      List.length_append, List.length_take, places, List.append_assoc]

/-! ### Which lamps they are (R131, R136) -/

/-- A lamp is judged where its card accepted its last frame and the record commanded it on (R136). -/
def lampJudged (prev : SentFrame) (frame : List Byte) (i : Nat) : Bool :=
  !(sectionTail frame (i / 64)).getLsbD 0 && prev.bits.getD i false

/-- The lamps that a good return judges, in the order of their numbers, with their sense bits (R136). -/
def judgedLamps (c : ChainId) (n : Nat) (prev : SentFrame) (frame : List Byte) : List (Nat × Bool) :=
  ((List.range (64 * n)).filter (lampJudged prev frame)).map
    (fun i => (chainIndex c * 1024 + i, sectionBit frame (i / 64) (i % 64)))

section
variable (c : ChainId) (n : Nat) (prev : SentFrame) (frame : List Byte)

theorem judgeSense_eq (s : State) : judgeSense c n prev frame s = judgeLamps (judgedLamps c n prev frame) s := by
  unfold judgeLamps judgedLamps
  rw [List.foldl_map]
  rfl

theorem judgedLamps_once : (judgedLamps c n prev frame).Pairwise (fun x y => x.1 ≠ y.1) :=
  List.pairwise_map.mpr ((List.nodup_range.filter _).imp fun h e => h (Nat.add_left_cancel e))

variable {c n prev frame}

theorem lampJudged_iff {i : Nat} : lampJudged prev frame i = true ↔
    (sectionTail frame (i / 64)).getLsbD 0 = false ∧ prev.bits.getD i false = true := by
  unfold lampJudged
  rw [Bool.and_eq_true, Bool.not_eq_true']

theorem mem_judgedLamps {e : Nat × Bool} : e ∈ judgedLamps c n prev frame ↔
    ∃ i, (i < 64 * n ∧ lampJudged prev frame i = true)
      ∧ (chainIndex c * 1024 + i, sectionBit frame (i / 64) (i % 64)) = e := by
  unfold judgedLamps
  simp only [List.mem_map, List.mem_filter, List.mem_range]

theorem judgeSense_judged (s : State) {i : Nat} (hi : i < 64 * n) (h : lampJudged prev frame i = true) :
    (judgeSense c n prev frame s).chains.fails.val 0 (chainIndex c * 1024 + i)
      = nextFail (s.chains.fails.val 0 (chainIndex c * 1024 + i)) (sectionBit frame (i / 64) (i % 64)) := by
  have member : (chainIndex c * 1024 + i, sectionBit frame (i / 64) (i % 64)) ∈ judgedLamps c n prev frame :=
    mem_judgedLamps.mpr ⟨i, ⟨hi, h⟩, rfl⟩
  rw [judgeSense_eq]
  exact judgeLamps_judged (judgedLamps_once c n prev frame) member s

theorem judgeSense_unjudged (s : State) {i : Nat} (h : ¬ lampJudged prev frame i = true) :
    (judgeSense c n prev frame s).chains.fails.val 0 (chainIndex c * 1024 + i)
      = s.chains.fails.val 0 (chainIndex c * 1024 + i) := by
  rw [judgeSense_eq]
  refine judgeLamps_other (fun e he same => h ?_) s
  obtain ⟨j, ⟨-, judged⟩, rfl⟩ := mem_judgedLamps.mp he
  obtain rfl : i = j := Nat.add_left_cancel same
  exact judged

theorem judgeSense_lamp (s : State) {i : Nat} (hi : i < 64 * n) :
    (judgeSense c n prev frame s).chains.fails.val 0 (chainIndex c * 1024 + i) =
      if (sectionTail frame (i / 64)).getLsbD 0 = false ∧ prev.bits.getD i false = true then
        if sectionBit frame (i / 64) (i % 64) then
          min 2 (s.chains.fails.val 0 (chainIndex c * 1024 + i) + 1)
        else 0
      else s.chains.fails.val 0 (chainIndex c * 1024 + i) := by
  split_ifs with judged sense
  · rw [judgeSense_judged s hi (lampJudged_iff.mpr judged), sense]
    rfl
  · rw [judgeSense_judged s hi (lampJudged_iff.mpr judged), Bool.eq_false_iff.mpr sense]
    rfl
  · exact judgeSense_unjudged s fun h => judged (lampJudged_iff.mp h)

/-- A lamp beyond the exchange's cards, or of another chain, is not judged. -/
theorem judgeSense_beyond (s : State) {lamp : Nat} (h : ∀ i, i < 64 * n → lamp ≠ chainIndex c * 1024 + i) :
    (judgeSense c n prev frame s).chains.fails.val 0 lamp = s.chains.fails.val 0 lamp := by
  rw [judgeSense_eq]
  refine judgeLamps_other (fun e he => ?_) s
  obtain ⟨i, ⟨hi, -⟩, rfl⟩ := mem_judgedLamps.mp he
  exact h i hi

theorem lampEvents_judged (s : State) (c : ChainId) (prev : SentFrame) (frame : List Byte) :
    s.lampEvents c prev frame = (judgedLamps c prev.count prev frame).filterMap s.lampEvent := by
  unfold State.lampEvents judgedLamps
  rw [List.filterMap_map, List.filterMap_filter]
  refine List.filterMap_congr fun i _ => ?_
  simp only [lampJudged_iff]
  rfl

theorem judgeSense_queue {s : State} (hb : s.onBoard) (legal : ∀ lamp, s.chains.fails.val 0 lamp ≤ 2) :
    (judgeSense c prev.count prev frame s).events.queue
      = s.events.queue ++ (s.lampEvents c prev frame).take (32 - s.events.queue.length) := by
  rw [judgeSense_eq, judgeLamps_queue (judgedLamps_once c _ prev frame) hb legal, lampEvents_judged]

end

/-! ## A return frame at its chain (R133 to R135) -/

theorem Chains.set_get (x : Chains) (c : ChainId) : x.set c (x.get c) = x := by
  cases c <;> rfl

/-- A chain after a bad return (R133). -/
def Chain.afterBad (x : Chain) : Chain :=
  if x.state = .ok then
    if x.bad < 2 then { x with bad := x.bad + 1 } else { x with bad := 3, state := .faulted }
  else x

/-- A chain after a good return (R134). -/
def Chain.afterGood (x : Chain) : Chain :=
  { x with bad := 0, state := if x.state = .faulted then .ok else x.state }

/-- A chain after a return (R133, R134). -/
def Chain.afterReturn (x : Chain) (good : Bool) : Chain := if good then x.afterGood else x.afterBad

section
variable {x : Chain}

theorem afterBad_counts (h : x.state = .ok) (hb : x.bad < 2) : x.afterBad = { x with bad := x.bad + 1 } := by
  unfold Chain.afterBad
  rw [if_pos h, if_pos hb]

theorem afterBad_faults (h : x.state = .ok) (hb : 2 ≤ x.bad) :
    x.afterBad = { x with bad := 3, state := .faulted } := by
  unfold Chain.afterBad
  rw [if_pos h, if_neg (Nat.not_lt.mpr hb)]

theorem afterBad_stands (h : x.state ≠ .ok) : x.afterBad = x := if_neg h

/-- R133's table: the count of bad returns, the third of an OK chain, and a FAULTED chain's. -/
theorem afterBad_table (x : Chain) :
    (x.state = .ok → x.bad < 2 → x.afterBad.state = .ok ∧ x.afterBad.bad = x.bad + 1)
      ∧ (x.state = .ok → 2 ≤ x.bad → x.afterBad.state = .faulted ∧ x.afterBad.bad = 3)
      ∧ (x.state = .faulted → x.afterBad.state = .faulted ∧ x.afterBad.bad = x.bad) := by
  refine ⟨fun ho hb => ?_, fun ho hb => ?_, fun hf => ?_⟩
  · rw [afterBad_counts ho hb]
    exact ⟨ho, rfl⟩
  · rw [afterBad_faults ho hb]
    exact ⟨rfl, rfl⟩
  · rw [afterBad_stands (by rw [hf]; decide)]
    exact ⟨hf, rfl⟩

theorem afterGood_restores (h : x.state = .faulted) : x.afterGood = { x with bad := 0, state := .ok } := by
  unfold Chain.afterGood
  rw [if_pos h]

theorem afterGood_stays (h : x.state ≠ .faulted) : x.afterGood = { x with bad := 0 } := by
  unfold Chain.afterGood
  rw [if_neg h]

theorem afterGood_ok (h : x.state ≠ .idle) : x.afterGood.state = .ok := by
  unfold Chain.afterGood
  cases hs : x.state with
  | idle => exact absurd hs h
  | ok | faulted => rfl

theorem afterReturn_count (good : Bool) : (x.afterReturn good).count = x.count := by
  unfold Chain.afterReturn Chain.afterBad
  split_ifs <;> rfl

end

/-- A change of a chain's state with its event, the board fault lamp decided (R114, R133 to R135). -/
def chainMoved (k : EventKind) (c : ChainId) (x : Chain) (s : State) : State :=
  record k .part (chainIndex c) 0 (decideFaultLamp (setChain c x s))

section
variable {k : EventKind} {c : ChainId} {x : Chain} {s : State}

theorem chainMoved_chains : (chainMoved k c x s).chains = s.chains.set c x :=
  (chains_of_changes (record_changes _ _ _ _ _)).trans (chains_of_changes (decideFaultLamp_changes _))

theorem chainMoved_decided : (chainMoved k c x s).faultLampDecided :=
  (decideFaultLamp_decided _).of_changes (record_changes k .part (chainIndex c) 0 _)

theorem chainMoved_queue (hb : s.onBoard) (hq : s.events.queue.length < 32) :
    (chainMoved k c x s).events.queue = s.events.queue ++ [s.eventOf k .part (chainIndex c) 0] :=
  record_queue_after ((setChain_changes c x s).then (decideFaultLamp_changes _)
    (k := [.chainsA, .chainsB, .chainsC, .chainsD] ++ imageParts)) hb hq k .part (chainIndex c) 0

theorem badReturn_counts (h : (s.chains.get c).state = .ok) (hb : (s.chains.get c).bad < 2) :
    badReturn c s = setChain c (s.chains.get c).afterBad s := by
  rw [afterBad_counts h hb]
  unfold badReturn
  dsimp only
  rw [h, if_pos hb]

theorem badReturn_faults (h : (s.chains.get c).state = .ok) (hb : 2 ≤ (s.chains.get c).bad) :
    badReturn c s = chainMoved .chainFault c (s.chains.get c).afterBad s := by
  rw [afterBad_faults h hb]
  unfold badReturn
  dsimp only
  rw [h, if_neg (Nat.not_lt.mpr hb)]
  rfl

theorem badReturn_stands (h : (s.chains.get c).state ≠ .ok) : badReturn c s = s := by
  unfold badReturn
  dsimp only
  cases hs : (s.chains.get c).state with
  | ok => exact absurd hs h
  | idle | faulted => rfl

theorem goodReturn_restores (h : (s.chains.get c).state = .faulted) :
    goodReturn c s = chainMoved .chainRestored c (s.chains.get c).afterGood s := by
  rw [afterGood_restores h]
  unfold goodReturn
  dsimp only
  rw [h]
  rfl

theorem goodReturn_stays (h : (s.chains.get c).state ≠ .faulted) :
    goodReturn c s = setChain c (s.chains.get c).afterGood s := by
  rw [afterGood_stays h]
  unfold goodReturn
  dsimp only
  cases hs : (s.chains.get c).state with
  | faulted => exact absurd hs h
  | idle | ok => rfl

end

section
variable (c : ChainId) (s : State)

theorem badReturn_chains : (badReturn c s).chains = s.chains.set c (s.chains.get c).afterBad := by
  by_cases h : (s.chains.get c).state = .ok
  · by_cases hb : (s.chains.get c).bad < 2
    · rw [badReturn_counts h hb]
      rfl
    · rw [badReturn_faults h (Nat.not_lt.mp hb), chainMoved_chains]
  · rw [badReturn_stands h, afterBad_stands h, Chains.set_get]

theorem goodReturn_chains : (goodReturn c s).chains = s.chains.set c (s.chains.get c).afterGood := by
  by_cases h : (s.chains.get c).state = .faulted
  · rw [goodReturn_restores h, chainMoved_chains]
  · rw [goodReturn_stays h]
    rfl

variable {c s}

/-- The parts that a return changes at its chain: the chain, the board fault lamp and the chain's event. -/
def returnParts : List Part := [.chainsA, .chainsB, .chainsC, .chainsD] ++ imageParts ++ eventParts

theorem chainMoved_parts (k : EventKind) (x : Chain) : Changes returnParts s (chainMoved k c x s) :=
  ((setChain_changes c x s).then (decideFaultLamp_changes _) (k := returnParts)).then
    (record_changes _ _ _ _ _)

theorem badReturn_parts : Changes returnParts s (badReturn c s) := by
  by_cases h : (s.chains.get c).state = .ok
  · by_cases hb : (s.chains.get c).bad < 2
    · rw [badReturn_counts h hb]
      exact (setChain_changes _ _ _).mono
    · rw [badReturn_faults h (Nat.not_lt.mp hb)]
      exact chainMoved_parts _ _
  · rw [badReturn_stands h]
    exact .refl _ _

theorem goodReturn_parts : Changes returnParts s (goodReturn c s) := by
  by_cases h : (s.chains.get c).state = .faulted
  · rw [goodReturn_restores h]
    exact chainMoved_parts _ _
  · rw [goodReturn_stays h]
    exact (setChain_changes _ _ _).mono

/-- A bad return tells no event but at the third of an OK chain (R133). -/
theorem badReturn_quiet (h : (s.chains.get c).state ≠ .ok ∨ (s.chains.get c).bad < 2) :
    (badReturn c s).events = s.events := by
  by_cases ok : (s.chains.get c).state = .ok
  · rw [badReturn_counts ok (h.resolve_left (not_not.mpr ok))]
    rfl
  · rw [badReturn_stands ok]

/-- A good return tells CHAIN_RESTORED of a FAULTED chain, and nothing of another (R134, R135). -/
theorem goodReturn_queue (hb : s.onBoard) (hq : s.events.queue.length < 32) :
    (goodReturn c s).events.queue = s.events.queue
      ++ if (s.chains.get c).state = .faulted then [s.eventOf .chainRestored .part (chainIndex c) 0] else [] := by
  split_ifs with h
  · rw [goodReturn_restores h, chainMoved_queue hb hq]
  · rw [goodReturn_stays h, List.append_nil]
    rfl

end

/-! ## A return frame judged (R131 to R136) -/

/-- A record that does not serve for judging: none, or one of another card count (R131). -/
abbrev Exchange.unjudged (x : Exchange) : Prop :=
  x.record = none ∨ ∃ prev, x.record = some prev ∧ prev.count ≠ x.sent.count

section
variable {c : ChainId} {x : Exchange} {frame : List Byte} {s : State}

theorem judgeReturn_bad (h : frameGood x.sent.count frame = false) : judgeReturn c x frame s = badReturn c s :=
  if_neg (ne_true_of_eq_false h)

theorem judgeReturn_unjudged (h : frameGood x.sent.count frame = true) (hr : x.unjudged) :
    judgeReturn c x frame s = goodReturn c s := by
  unfold judgeReturn
  rw [if_pos h]
  rcases hr with none | ⟨prev, record, other⟩
  · rw [none]
  · rw [record]
    exact if_neg other

theorem judgeReturn_judged {prev : SentFrame} (h : frameGood x.sent.count frame = true)
    (hr : x.record = some prev) (hc : prev.count = x.sent.count) :
    judgeReturn c x frame s = judgeSense c prev.count prev frame (goodReturn c s) := by
  unfold judgeReturn
  rw [if_pos h, hr, hc]
  exact if_pos hc

/-- A good return is the chain's, then the judgement of some lamps. -/
theorem judgeReturn_good (h : frameGood x.sent.count frame = true) :
    ∃ l, judgeReturn c x frame s = judgeLamps l (goodReturn c s) := by
  by_cases hr : x.unjudged
  · exact ⟨[], judgeReturn_unjudged h hr⟩
  · obtain ⟨prev, record⟩ := Option.ne_none_iff_exists'.mp fun none => hr (.inl none)
    have count : prev.count = x.sent.count := not_not.mp fun other => hr (.inr ⟨prev, record, other⟩)
    exact ⟨_, (judgeReturn_judged h record count).trans (judgeSense_eq _ _ _ _ _)⟩

theorem judgeReturn_chain (c : ChainId) (x : Exchange) (frame : List Byte) (s : State) :
    (judgeReturn c x frame s).chains.get c = (s.chains.get c).afterReturn (frameGood x.sent.count frame) := by
  cases h : frameGood x.sent.count frame with
  | false => rw [judgeReturn_bad h, badReturn_chains, Chains.get_set_same]; rfl
  | true =>
    obtain ⟨l, judged⟩ := judgeReturn_good (c := c) (s := s) h
    rw [judged, chain_of_changes (judgeLamps_changes l _), goodReturn_chains, Chains.get_set_same]
    rfl

/-- Judging a return frame leaves the cards as they are. -/
theorem judgeReturn_cards : (judgeReturn c x frame s).cards = s.cards := by
  cases h : frameGood x.sent.count frame with
  | false =>
    rw [judgeReturn_bad h]
    exact badReturn_parts .cards (by decide)
  | true =>
    obtain ⟨l, judged⟩ := judgeReturn_good (c := c) (s := s) h
    rw [judged]
    exact (goodReturn_parts.then (judgeLamps_changes l _) (k := returnParts ++ lampParts)) .cards (by decide)

theorem judgeReturn_other_chain {d : ChainId} (hd : d ≠ c) :
    (judgeReturn c x frame s).chains.get d = s.chains.get d := by
  cases h : frameGood x.sent.count frame with
  | false => rw [judgeReturn_bad h, badReturn_chains, Chains.get_set_other _ _ hd]
  | true =>
    obtain ⟨l, judged⟩ := judgeReturn_good (c := c) (s := s) h
    rw [judged, chain_of_changes (judgeLamps_changes l _), goodReturn_chains, Chains.get_set_other _ _ hd]

/-- A good return of a FAULTED chain, as the third bad one of an OK chain, decides the board fault lamp (R114, R135). -/
theorem judgeReturn_restores_decided (h : frameGood x.sent.count frame = true)
    (hf : (s.chains.get c).state = .faulted) : (judgeReturn c x frame s).faultLampDecided := by
  obtain ⟨l, judged⟩ := judgeReturn_good (c := c) (s := s) h
  rw [judged, goodReturn_restores hf]
  exact judgeLamps_decided l chainMoved_decided

theorem judgeReturn_faults_decided (h : frameGood x.sent.count frame = false)
    (ho : (s.chains.get c).state = .ok) (hb : 2 ≤ (s.chains.get c).bad) :
    (judgeReturn c x frame s).faultLampDecided := by
  rw [judgeReturn_bad h, badReturn_faults ho hb]
  exact chainMoved_decided

theorem judgeReturn_queue {prev : SentFrame} (h : frameGood x.sent.count frame = true)
    (hr : x.record = some prev) (hc : prev.count = x.sent.count) (hb : s.onBoard)
    (hq : s.events.queue.length < 32) (legal : ∀ lamp, s.chains.fails.val 0 lamp ≤ 2) :
    (judgeReturn c x frame s).events.queue = s.events.queue ++
      ((if (s.chains.get c).state = .faulted then [s.eventOf .chainRestored .part (chainIndex c) 0] else [])
        ++ s.lampEvents c prev frame).take (32 - s.events.queue.length) := by
  have good : Changes returnParts s (goodReturn c s) := goodReturn_parts
  have cfg : (goodReturn c s).loader.cfg = s.loader.cfg := good .loaderCfg (by decide)
  have seconds : (goodReturn c s).gen.seconds = s.gen.seconds := good .genSeconds (by decide)
  have fails : (goodReturn c s).chains.fails = s.chains.fails := by rw [goodReturn_chains, Chains.set_fails]
  have events : (goodReturn c s).lampEvents c prev frame = s.lampEvents c prev frame := by
    unfold State.lampEvents State.eventOf
    rw [fails, seconds]
  have board : (goodReturn c s).onBoard := by rw [State.onBoard, cfg]; exact hb
  rw [judgeReturn_judged h hr hc, judgeSense_queue board (by rw [fails]; exact legal), events,
    goodReturn_queue hb hq]
  generalize told : (if (s.chains.get c).state = .faulted then
    [s.eventOf .chainRestored .part (chainIndex c) 0] else []) = chainEvent
  have one : chainEvent.length ≤ 1 := by rw [← told]; split_ifs <;> simp
  rw [List.take_append, List.take_of_length_le (by omega : chainEvent.length ≤ _), List.length_append,
    Nat.sub_add_eq, List.append_assoc]

end

/-! ## The end of an exchange (R128 to R137) -/

/-- The cards of an exchange's chain strobed (R128). -/
def State.struck (s : State) (c : ChainId) (arrivals : List (Nat × List Byte)) (x : Exchange) : State :=
  s.setCards (strobe c x.sent.count arrivals x.frame s.cards)

@[simp] theorem State.struck_chains (s : State) (c : ChainId) (arrivals : List (Nat × List Byte)) (x : Exchange) :
    (s.struck c arrivals x).chains = s.chains := rfl

/-- An exchange that is not void, judged and over (R130 to R136). -/
def exchangeJudged (c : ChainId) (x : Exchange) (frame : List Byte) (s : State) : State :=
  closeExchange c (some x.sent) (judgeReturn c x frame s)

theorem closeExchange_chain (c : ChainId) (prev : Option SentFrame) (s : State) :
    (closeExchange c prev s).chains.get c = { s.chains.get c with exchange := none, prev := prev } :=
  Chains.get_set_same _ _ _

theorem closeExchange_other_chain {c d : ChainId} (h : d ≠ c) (prev : Option SentFrame) (s : State) :
    (closeExchange c prev s).chains.get d = s.chains.get d := Chains.get_set_other _ _ h

/-- The end of an exchange moves no chain's state, no lamp and no event. -/
theorem closeExchange_decided {s : State} (c : ChainId) (prev : Option SentFrame) (h : s.faultLampDecided) :
    (closeExchange c prev s).faultLampDecided := by
  refine h.congr rfl rfl (State.faultPattern_congr (Chains.set_faultCount _ _ _) fun d => ?_)
  by_cases hd : d = c
  · rw [hd, closeExchange_chain]
  · rw [closeExchange_other_chain hd]

section
variable {s t : State} {c : ChainId} {arrivals : List (Nat × List Byte)} {noCurrent : List Nat}
  {received : Option (List Byte)} {x : Exchange} {frame : List Byte}

theorem exec_exchangeEnd_void (hs : s.tickDone) (hx : (s.chains.get c).exchange = some x) (hv : x.void = true) :
    exec (.exchangeEnd c arrivals noCurrent received) s
      = .next (settle (closeExchange c (s.chains.get c).prev (s.struck c arrivals x))) := by
  refine exec_settles hs (?_ : endExchange c arrivals noCurrent received s = _)
  unfold endExchange
  rw [hx]
  exact if_pos hv

theorem exec_exchangeEnd (hs : s.tickDone) (hx : (s.chains.get c).exchange = some x) (hv : x.void = false)
    (hf : frame = frameOfLength x.sent.count (received.getD (cardsReturn s c x.sent.count noCurrent))) :
    exec (.exchangeEnd c arrivals noCurrent received) s
      = .next (settle (exchangeJudged c x frame (s.struck c arrivals x))) := by
  subst hf
  refine exec_settles hs (?_ : endExchange c arrivals noCurrent received s = _)
  unfold endExchange
  rw [hx]
  exact if_neg (ne_true_of_eq_false hv)

/-- The state that a judged exchange's end leaves. -/
theorem exchangeEnd_next (hs : s.tickDone) (hx : (s.chains.get c).exchange = some x) (hv : x.void = false)
    (hf : frame = frameOfLength x.sent.count (received.getD (cardsReturn s c x.sent.count noCurrent)))
    (h : exec (.exchangeEnd c arrivals noCurrent received) s = .next t) :
    t = settle (exchangeJudged c x frame (s.struck c arrivals x)) :=
  Host.Outcome.next.inj (h.symm.trans (exec_exchangeEnd hs hx hv hf))

theorem exchangeEnd_changes (h : exec (.exchangeEnd c arrivals noCurrent received) s = .next t)
    (hs : s.tickDone) : Changes (exchangeParts ++ settleParts) s t := by
  obtain rfl := Host.Outcome.next.inj (h.symm.trans (exec_settles hs rfl))
  exact (endExchange_changes c arrivals noCurrent received s).then (settle_changes _)

end

section
variable (c : ChainId) (x : Exchange) (frame : List Byte) (s : State)

theorem exchangeJudged_chain : (exchangeJudged c x frame s).chains.get c
    = { (s.chains.get c).afterReturn (frameGood x.sent.count frame) with
        exchange := none, prev := some x.sent } := by
  unfold exchangeJudged
  rw [closeExchange_chain, judgeReturn_chain]

theorem exchangeJudged_other_chain {d : ChainId} (h : d ≠ c) :
    (exchangeJudged c x frame s).chains.get d = s.chains.get d :=
  (closeExchange_other_chain h _ _).trans (judgeReturn_other_chain h)

theorem exchangeJudged_fails :
    (exchangeJudged c x frame s).chains.fails = (judgeReturn c x frame s).chains.fails := Chains.set_fails _ _ _

theorem exchangeJudged_faultCount :
    (exchangeJudged c x frame s).chains.faultCount = (judgeReturn c x frame s).chains.faultCount :=
  Chains.set_faultCount _ _ _

theorem exchangeJudged_cards : (exchangeJudged c x frame s).cards = s.cards :=
  judgeReturn_cards (c := c) (x := x) (frame := frame) (s := s)

theorem settle_exchangeJudged_queue : (settle (exchangeJudged c x frame s)).events.queue
    = (judgeReturn c x frame s).events.queue := settle_changes _ .eventsQueue (by decide)

variable {c x frame s}

/-- A bad return judges no lamp (R133). -/
theorem exchangeJudged_bad_fails (h : frameGood x.sent.count frame = false) :
    (exchangeJudged c x frame s).chains.fails = s.chains.fails
      ∧ (exchangeJudged c x frame s).chains.faultCount = s.chains.faultCount := by
  rw [exchangeJudged_fails, exchangeJudged_faultCount, judgeReturn_bad h, badReturn_chains, Chains.set_fails,
    Chains.set_faultCount]
  exact ⟨rfl, rfl⟩

/-- Without a record of its card count a good return judges no lamp (R131). -/
theorem exchangeJudged_unjudged_fails (h : frameGood x.sent.count frame = true) (hr : x.unjudged) :
    (exchangeJudged c x frame s).chains.fails = s.chains.fails
      ∧ (exchangeJudged c x frame s).chains.faultCount = s.chains.faultCount := by
  rw [exchangeJudged_fails, exchangeJudged_faultCount, judgeReturn_unjudged h hr, goodReturn_chains,
    Chains.set_fails, Chains.set_faultCount]
  exact ⟨rfl, rfl⟩

end

theorem exchangeEnds : Claim.ExchangeEnds := by
  intro s c arrivals noCurrent received x frame hs hx hf
  cases hv : x.void with
  | true =>
    have ended := exec_exchangeEnd_void (arrivals := arrivals) (noCurrent := noCurrent) (received := received)
      hs hx hv
    have chain := closeExchange_chain c (s.chains.get c).prev (s.struck c arrivals x)
    refine ⟨_, ended, ?_, ?_, rfl, fun d hd => closeExchange_other_chain hd _ _, fun _ => ⟨chain, ?_, ?_, ?_⟩,
      nofun, nofun, nofun, exchangeEnd_changes ended hs⟩
    · rw [settle_chains, chain]
    · rw [settle_chains, chain]
      rfl
    · exact settle_changes _ .eventsQueue (by decide)
    · exact settle_changes _ .eventsLost (by decide)
    · exact ((setCards_changes _ s).then (setChain_changes c _ _)
        (k := [.chainsA, .chainsB, .chainsC, .chainsD, .cards])).then (settle_changes _)
  | false =>
    have ended := exec_exchangeEnd (arrivals := arrivals) hs hx hv hf
    have chain := exchangeJudged_chain c x frame (s.struck c arrivals x)
    rw [State.struck_chains] at chain
    refine ⟨_, ended, ?_, ?_, ?_, fun d hd => ?_, nofun, fun _ => ?_, fun _ bad => ?_,
      fun _ good => ?_, exchangeEnd_changes ended hs⟩
    · rw [settle_chains, chain]
    · rw [settle_chains, chain]
      exact afterReturn_count _
    · rw [settle_cards, exchangeJudged_cards]
      rfl
    · rw [settle_chains, exchangeJudged_other_chain _ _ _ _ hd, State.struck_chains]
    · rw [settle_chains, chain]
    · have returned : (s.chains.get c).afterReturn (frameGood x.sent.count frame)
          = (s.chains.get c).afterBad := by rw [bad]; rfl
      obtain ⟨fails, count⟩ := exchangeJudged_bad_fails (c := c) (s := s.struck c arrivals x) bad
      rw [settle_chains, chain, returned]
      exact ⟨fails, count, afterBad_table _⟩
    · have returned : (s.chains.get c).afterReturn (frameGood x.sent.count frame)
          = (s.chains.get c).afterGood := by rw [good]; rfl
      rw [settle_chains, chain, returned]
      exact ⟨rfl, afterGood_ok, fun hr => (exchangeJudged_unjudged_fails good (.inl hr)).1⟩

theorem lampsJudged : Claim.LampsJudged := by
  intro s t c arrivals noCurrent received x frame hs hx hv hf good ended
  have next := exchangeEnd_next hs hx hv hf ended
  have chains : t.chains = (exchangeJudged c x frame (s.struck c arrivals x)).chains := by
    rw [next, settle_chains]
  rw [chains]
  refine ⟨fun prev record count => ?_, fun hr => exchangeJudged_unjudged_fails good hr⟩
  have before : (goodReturn c (s.struck c arrivals x)).chains.fails = s.chains.fails := by
    rw [goodReturn_chains, Chains.set_fails, State.struck_chains]
  rw [exchangeJudged_fails, judgeReturn_judged good record count, count, ← before]
  exact ⟨fun i hi => judgeSense_lamp _ hi, fun lamp hl => judgeSense_beyond _ hl⟩

theorem chainEvents : Claim.ChainEvents := by
  intro s t c arrivals noCurrent received x frame hs hb hx hv hf ended hq
  obtain rfl := exchangeEnd_next hs hx hv hf ended
  rw [settle_exchangeJudged_queue]
  have restored (h : (s.chains.get c).state = .faulted) :
      (goodReturn c (s.struck c arrivals x)).events.queue
        = s.events.queue ++ [s.eventOf .chainRestored .part (chainIndex c) 0] :=
    (goodReturn_queue (s := s.struck c arrivals x) hb hq).trans (congrArg _ (if_pos h))
  refine ⟨fun bad ho hbad => ?_, fun bad quiet => ?_, fun good hfault => ⟨?_, fun hr => ?_⟩,
    fun good hfault hr => ?_, fun prev good legal record count => ?_⟩
  · rw [judgeReturn_bad bad, badReturn_faults (s := s.struck c arrivals x) ho hbad]
    exact chainMoved_queue (s := s.struck c arrivals x) hb hq
  · rw [judgeReturn_bad bad, badReturn_quiet (s := s.struck c arrivals x) quiet]
    rfl
  · obtain ⟨l, judged⟩ := judgeReturn_good (c := c) (s := s.struck c arrivals x) good
    rw [judged, ← restored hfault]
    exact judgeLamps_queue_grows l _
  · rw [judgeReturn_unjudged good hr, restored hfault]
  · rw [judgeReturn_unjudged good hr, goodReturn_stays (s := s.struck c arrivals x) hfault]
    rfl
  · exact judgeReturn_queue (s := s.struck c arrivals x) good record count hb hq legal.2.2.2.2

theorem chainFaultLamp : Claim.ChainFaultLamp := by
  intro s t c arrivals noCurrent received x frame lamp hs hx hv hf ended claimed
  have held : t.loader.faultLamp = s.loader.faultLamp := exec_keeps .loaderFaultLamp ended
  rw [← held] at claimed
  obtain rfl := exchangeEnd_next hs hx hv hf ended
  have settled (h : (judgeReturn c x frame (s.struck c arrivals x)).faultLampDecided) :
      (settle (exchangeJudged c x frame (s.struck c arrivals x))).faultLampDecided :=
    (closeExchange_decided c (some x.sent) h).of_changes (settle_changes _)
  refine ⟨fun bad ho hb => ?_, fun good hfault => ?_⟩
  · rw [settled (judgeReturn_faults_decided (s := s.struck c arrivals x) bad ho hb) lamp claimed]
    refine State.faultPattern_steady (.inr ⟨c, ?_⟩)
    rw [settle_chains, exchangeJudged_chain, bad]
    exact congrArg Chain.state (afterBad_faults (x := s.chains.get c) ho hb)
  · exact settled (judgeReturn_restores_decided (s := s.struck c arrivals x) good hfault) lamp claimed

/-- Settles O49: the exchange's end is the strobe, the chain's return and the lamps judged one by one; each part's
state, events and lamp follow from its own lemma. -/
theorem exchangeEnd : Obligations.ExchangeEnd :=
  ⟨exchangeEnds, cardTakesItsSection, cardsAtTheStrobe, cardsReturns, lampsJudged, chainEvents, chainFaultLamp⟩

end Sys2Proof.Machine

/-! # The operator key panel: proofs of the statements of 08_operator_key_panel.md -/

namespace Sys2Proof.Machine

/-! ## The scan (R143) -/

section
variable {p : Panel} {down : List Key}

theorem Panel.scan_waiting_released (h : p.held = false) (hd : down = []) :
    p.scan down = { p with pressCount := 0 } := by
  unfold Panel.scan
  simp [h, hd]

theorem Panel.scan_waiting_pressed (h : p.held = false) (hd : down ≠ []) (hc : p.pressCount < 2) :
    p.scan down = { p with pressCount := p.pressCount + 1 } := by
  unfold Panel.scan
  simp [h, hd, show ¬ 2 ≤ p.pressCount by omega]

theorem Panel.scan_recognises (h : p.held = false) (hd : down ≠ []) (hc : 2 ≤ p.pressCount) :
    p.scan down = { p with pressCount := 3, held := true, releaseCount := 0,
                           presses := p.presses ++ (highestKey down).toList } := by
  unfold Panel.scan
  simp [h, hd, hc]

theorem Panel.scan_held_pressed (h : p.held = true) (hd : down ≠ []) :
    p.scan down = { p with releaseCount := 0 } := by
  unfold Panel.scan
  simp [h, hd]

theorem Panel.releases_iff :
    p.releases down = true ↔ p.held = true ∧ down = [] ∧ 2 ≤ p.releaseCount := by
  unfold Panel.releases
  simp [and_assoc]

theorem Panel.scan_held_released (h : p.held = true) (hd : down = []) (hr : p.releases down = false) :
    p.scan down = { p with releaseCount := p.releaseCount + 1 } := by
  unfold Panel.scan
  simp [h, hd, hd ▸ hr]

end

/-! ## The key that is taken (R144) -/

/-- A search finds no later place of a list than that of any element it accepts. -/
theorem idxOf_find?_le {α : Type} [DecidableEq α] {q : α → Bool} {l : List α} {k j : α}
    (h : l.find? q = some k) (hj : q j = true) : l.idxOf k ≤ l.idxOf j := by
  obtain ⟨hk, before, after, rfl, refused⟩ := List.find?_eq_some_iff_append.mp h
  have passed {x : α} (hx : q x = true) : x ∉ before := fun hm => by simpa [hx] using refused x hm
  rw [List.idxOf_append_of_notMem (passed hk), List.idxOf_append_of_notMem (passed hj),
    List.idxOf_cons_self]
  omega

theorem mem_keyRank (k : Key) : k ∈ keyRank := by
  unfold keyRank
  cases k with
  | digit d =>
    refine List.mem_append_right _ (List.mem_map.mpr ⟨15 - d.toNat, List.mem_range.mpr (by omega), ?_⟩)
    rw [show 15 - (15 - d.toNat) = d.toNat by omega, BitVec.ofNat_toNat, BitVec.setWidth_eq]
  | enter | ack | clear | silence | test | group | shelve | dim => simp

theorem highestKey_ranks {down : List Key} {k : Key} (h : highestKey down = some k) :
    k ∈ down ∧ ∀ j ∈ down, keyRank.idxOf k ≤ keyRank.idxOf j :=
  ⟨List.contains_iff_mem.mp (List.find?_some h), fun _ hj => idxOf_find?_le h (List.contains_iff_mem.mpr hj)⟩

theorem highestKey_isSome {down : List Key} (h : down ≠ []) : (highestKey down).isSome = true := by
  obtain ⟨k, hk⟩ := List.exists_mem_of_ne_nil down h
  exact List.find?_isSome.mpr ⟨k, mem_keyRank k, List.contains_iff_mem.mpr hk⟩

/-! ## The key matrix (R143, 10.8) -/

/-- A key of a column is down where its row is low (R143). -/
theorem mem_columnDown_iff {rows : Byte} {keys : List Key} {k : Key} :
    k ∈ columnDown rows keys ↔ ∃ i, i < 8 ∧ keys[i]? = some k ∧ rows.getLsbD i = false := by
  have place (i : Nat) (x : Key) :
      (i, x) ∈ (List.range 8).zip keys ↔ i < 8 ∧ keys[i]? = some x := by
    simp only [List.mem_iff_getElem?, List.getElem?_zip_eq_some, List.getElem?_eq_some_iff (l := List.range 8),
      List.getElem_range, List.length_range]
    exact ⟨fun ⟨_, ⟨hi, rfl⟩, hx⟩ => ⟨hi, hx⟩, fun ⟨hi, hx⟩ => ⟨i, ⟨hi, rfl⟩, hx⟩⟩
  unfold columnDown
  simp only [List.mem_filterMap, Prod.exists, place, Option.ite_none_left_eq_some, Option.some_inj,
    Bool.not_eq_true]
  exact ⟨fun ⟨i, _, ⟨hi, hx⟩, low, e⟩ => ⟨i, hi, e ▸ hx, low⟩,
    fun ⟨i, hi, hx, low⟩ => ⟨i, k, ⟨hi, hx⟩, low, rfl⟩⟩

/-- In a column without repeated keys, a key is down exactly where its own row is low. -/
theorem mem_columnDown_at {rows : Byte} {keys : List Key} {k : Key} {i : Nat} (nodup : keys.Nodup)
    (hi : i < 8) (h : keys[i]? = some k) : k ∈ columnDown rows keys ↔ rows.getLsbD i = false := by
  rw [mem_columnDown_iff]
  refine ⟨fun ⟨j, _, hk, low⟩ => ?_, fun low => ⟨i, hi, h, low⟩⟩
  obtain ⟨hlen, -⟩ := List.getElem?_eq_some_iff.mp h
  rwa [(List.getElem?_inj hlen nodup).mp (h.trans hk.symm)]

theorem not_mem_columnDown {rows : Byte} {keys : List Key} {k : Key} (h : k ∉ keys) :
    k ∉ columnDown rows keys := fun hk =>
  let ⟨_, _, hi, _⟩ := mem_columnDown_iff.mp hk
  h (List.mem_of_getElem? hi)

/-- The keys of a column of data keys, from its first digit (10.8). -/
def digitColumn (first : Nat) : List Key :=
  (List.range 8).map (fun i => .digit (BitVec.ofNat 4 (first + i)))

theorem digitColumn_at (first : Nat) {i : Nat} (hi : i < 8) :
    (digitColumn first)[i]? = some (.digit (BitVec.ofNat 4 (first + i))) := by
  unfold digitColumn
  rw [List.getElem?_map, List.getElem?_range hi, Option.map_some]

section
variable (r0 r1 r2 : Byte) {k : Key} {i : Nat}

/-- The columns KC[0] to KC[2] are the data keys 0 to 7, the data keys 8 to F and the command keys (10.8). -/
theorem mem_keysDown_iff : k ∈ keysDown r0 r1 r2 ↔ k ∈ columnDown r0 (digitColumn 0)
    ∨ k ∈ columnDown r1 (digitColumn 8) ∨ k ∈ columnDown r2 commandKeys := by
  rw [show keysDown r0 r1 r2 = columnDown r0 (digitColumn 0) ++ columnDown r1 (digitColumn 8)
    ++ columnDown r2 commandKeys from rfl, List.mem_append, List.mem_append, or_assoc]

theorem lowDigit_down_iff (hi : i < 8) :
    .digit (BitVec.ofNat 4 i) ∈ keysDown r0 r1 r2 ↔ r0.getLsbD i = false := by
  have others : ∀ i < 8, Key.digit (BitVec.ofNat 4 i) ∉ digitColumn 8
      ∧ Key.digit (BitVec.ofNat 4 i) ∉ commandKeys := by decide
  obtain ⟨notHigh, notCommand⟩ := others i hi
  rw [mem_keysDown_iff, or_iff_left (not_or_intro (not_mem_columnDown notHigh) (not_mem_columnDown notCommand))]
  exact mem_columnDown_at (by decide) hi ((digitColumn_at 0 hi).trans (by rw [Nat.zero_add]))

theorem highDigit_down_iff (hi : i < 8) :
    .digit (BitVec.ofNat 4 (8 + i)) ∈ keysDown r0 r1 r2 ↔ r1.getLsbD i = false := by
  have others : ∀ i < 8, Key.digit (BitVec.ofNat 4 (8 + i)) ∉ digitColumn 0
      ∧ Key.digit (BitVec.ofNat 4 (8 + i)) ∉ commandKeys := by decide
  obtain ⟨notLow, notCommand⟩ := others i hi
  rw [mem_keysDown_iff, or_iff_right (not_mem_columnDown notLow), or_iff_left (not_mem_columnDown notCommand)]
  exact mem_columnDown_at (by decide) hi (digitColumn_at 8 hi)

theorem commandKey_down_iff (h : commandKeys[i]? = some k) :
    k ∈ keysDown r0 r1 r2 ↔ r2.getLsbD i = false := by
  have others : ∀ k ∈ commandKeys, k ∉ digitColumn 0 ∧ k ∉ digitColumn 8 := by decide
  obtain ⟨notLow, notHigh⟩ := others k (List.mem_of_getElem? h)
  obtain ⟨hi, -⟩ := List.getElem?_eq_some_iff.mp h
  rw [mem_keysDown_iff, or_iff_right (not_mem_columnDown notLow), or_iff_right (not_mem_columnDown notHigh)]
  exact mem_columnDown_at (by decide) hi h

end

/-- Settles O46: one equation for each row of R143's table, the search of the rank list, and the place of each key
in its column. -/
theorem keyScan : Obligations.KeyScan := by
  refine ⟨fun p down => ⟨fun h hd => ?_, fun h hd hc => ?_, fun h hd hc => ?_, fun h hd => ?_,
      fun h hd hc => ?_, fun h hd hc => Panel.releases_iff.mpr ⟨h, hd, hc⟩⟩,
    fun _ _ => highestKey_ranks, fun _ => highestKey_isSome, rfl, fun r0 r1 r2 =>
    ⟨fun i hi => ⟨lowDigit_down_iff r0 r1 r2 hi, highDigit_down_iff r0 r1 r2 hi⟩,
      commandKey_down_iff r0 r1 r2 rfl, commandKey_down_iff r0 r1 r2 rfl, commandKey_down_iff r0 r1 r2 rfl,
      commandKey_down_iff r0 r1 r2 rfl, commandKey_down_iff r0 r1 r2 rfl, commandKey_down_iff r0 r1 r2 rfl,
      commandKey_down_iff r0 r1 r2 rfl, commandKey_down_iff r0 r1 r2 rfl⟩⟩
  · rw [Panel.scan_waiting_released h hd]
    exact ⟨rfl, h⟩
  · rw [Panel.scan_waiting_pressed h hd hc]
    exact ⟨rfl, h, rfl⟩
  · rw [Panel.scan_recognises h hd hc]
    exact ⟨rfl, rfl, rfl⟩
  · rw [Panel.scan_held_pressed h hd]
    exact ⟨rfl, h, rfl⟩
  · have stays : p.releases down = false :=
      Bool.eq_false_iff.mpr fun hr => Nat.not_le.mpr hc (Panel.releases_iff.mp hr).2.2
    rw [Panel.scan_held_released h hd stays]
    exact ⟨rfl, stays⟩

/-! ## The stages of a press (R145 to R147) -/

section
variable {s : State} {key : Key} {act : State → State}

/-- The press at the front leaves the list and is handled by the command that names its key (R144). -/
theorem onPress_front {sel : Key → Bool} {act : Key → State → State}
    (h : s.panel.presses.head? = some key) (hs : sel key = true) :
    onPress sel act s = handlePress key (act key) (popPress s) := by
  obtain ⟨rest, hp⟩ := List.head?_eq_some_iff.mp h
  unfold onPress
  rw [hp]
  exact if_pos hs

theorem onEnter_pending {pending : Option EntryCommand} (h : s.panel.command = pending) :
    onEnter pending act s = onPress (fun k => k == .enter) (fun _ => act) s := if_pos h

theorem handlePress_wakes (h : s.gen.mode = .dark) : handlePress key act s = wake 4 .panel s := if_pos h

theorem handlePress_endsError (lit : s.gen.mode ≠ .dark) (h : s.panel.error.isSome = true) :
    handlePress key act s = s.setPanel { s.panel with error := none } := by
  unfold handlePress
  rw [if_neg lit, if_pos h]

theorem handlePress_unconfigured (lit : s.gen.mode ≠ .dark) (noError : s.panel.error = none)
    (h : s.loader.cfg = .unconfigured) : handlePress key act s = panelError 0x0A s := by
  unfold handlePress
  rw [if_neg lit, noError, if_neg (by decide), if_pos h]
  rfl

/-- Past the first three stages only the panel lock stands before the key (R145). -/
theorem handlePress_onBoard (lit : s.gen.mode ≠ .dark) (noError : s.panel.error = none) (hb : s.onBoard) :
    handlePress key act s =
      if s.panel.lock ∧ key.lockable then refusePress key.code 0x09 s else act s := by
  unfold handlePress
  rw [if_neg lit, noError, if_neg (by decide), if_neg hb]
  rfl

theorem Key.lockable_iff : key.lockable = true ↔ key ≠ .silence ∧ key ≠ .test := by
  cases key <;> simp [Key.lockable]

theorem handlePress_locked (lit : s.gen.mode ≠ .dark) (noError : s.panel.error = none) (hb : s.onBoard)
    (hl : s.panel.lock = true) (hs : key ≠ .silence) (ht : key ≠ .test) :
    handlePress key act s = refusePress key.code 0x09 s := by
  rw [handlePress_onBoard lit noError hb, if_pos ⟨hl, Key.lockable_iff.mpr ⟨hs, ht⟩⟩]

/-- A press that no stage before its key decides acts as its key gives (R145). -/
theorem handlePress_reaches (h : s.keyReaches key) : handlePress key act (popPress s) = act (popPress s) := by
  obtain ⟨-, lit, noError, hb, unlocked⟩ := h
  rw [handlePress_onBoard (s := popPress s) lit noError hb]
  refine if_neg fun ⟨hl, hk⟩ => ?_
  obtain ⟨hs, ht⟩ := Key.lockable_iff.mp hk
  rcases unlocked with unlocked | rfl | rfl
  · exact Bool.noConfusion (hl.symm.trans unlocked)
  · exact hs rfl
  · exact ht rfl

theorem onPress_reaches {sel : Key → Bool} {act : Key → State → State} (h : s.keyReaches key)
    (hs : sel key = true) : onPress sel act s = act key (popPress s) :=
  (onPress_front h.1 hs).trans (handlePress_reaches h)

theorem onEnter_reaches {pending : Option EntryCommand} (h : s.keyReaches .enter)
    (hc : s.panel.command = pending) : onEnter pending act s = act (popPress s) :=
  (onEnter_pending hc).trans (onPress_reaches h rfl)

/-- Whatever the key, the command that handles its press is the press through its stages (R145, R151). -/
theorem effect_handlerOf (h : s.panel.presses.head? = some key) :
    ∃ act, effect (handlerOf key s.panel.command) s = handlePress key act (popPress s) := by
  cases key with
  | enter =>
    cases hc : s.panel.command with
    | none => exact ⟨_, (onEnter_pending hc).trans (onPress_front h rfl)⟩
    | some c =>
      cases c with
      | ack | clear | group | shelve => exact ⟨_, (onEnter_pending hc).trans (onPress_front h rfl)⟩
  | digit d | ack | clear | silence | test | group | shelve | dim => exact ⟨_, onPress_front h rfl⟩

end

/-- No press is handled by a front-end access. -/
theorem handlerOf_notPosted (key : Key) (pending : Option EntryCommand) :
    (∀ a w l, handlerOf key pending ≠ .frontEndWrite a w l) ∧ ∀ a, handlerOf key pending ≠ .frontEndRead a := by
  cases key with
  | enter =>
    cases pending with
    | none => exact ⟨nofun, nofun⟩
    | some c =>
      cases c with
      | ack | clear | group | shelve => exact ⟨nofun, nofun⟩
  | digit d | ack | clear | silence | test | group | shelve | dim => exact ⟨nofun, nofun⟩

theorem pressStages : Claim.PressStages := by
  intro s key hs h
  obtain ⟨act, e⟩ := effect_handlerOf h
  have settled {t : State} (ht : handlePress key act (popPress s) = t) :
      exec (handlerOf key s.panel.command) s = .next (settle t) :=
    exec_settles hs (e.trans ht) (handlerOf_notPosted key _)
  exact ⟨fun dark => settled (handlePress_wakes dark),
    fun lit he => settled (handlePress_endsError lit he),
    fun lit noError hu => settled (handlePress_unconfigured lit noError hu),
    fun lit noError hb hl hn ht => settled (handlePress_locked lit noError hb hl hn ht)⟩

/-! ## A refusal of the panel (R155, R156) -/

theorem record_panel (k : EventKind) (o : Origin) (a d : Nat) (s : State) :
    (record k o a d s).panel = s.panel := by
  unfold record
  split_ifs <;> rfl

theorem panelRefusal : Claim.PanelRefusal := by
  refine fun s code reason => ⟨?_, fun hb room => record_queue hb room _ _ _ _, refusePress_changes code reason s⟩
  unfold refusePress panelError Panel.emptied
  rw [State.setPanel_panel, record_panel]

/-! ## The panel lock (R142) -/

theorem panelLockWrite : Claim.PanelLockWrite := fun _ _ hs hb hf =>
  exec_settles hs (handOn_onBoard (sel := onWord .k9) (x := ())
    (act := fun _ w s => s.setPanel { s.panel with lock := w.getLsbD 0 }) hb hf (if_pos rfl))

/-- Settles O52: whatever the handler, it is its key's press through the stages, and each stage is a case of their
decision; a refusal is one record and one reason; the lock is written by the item at the front. -/
theorem pressesAndTheLock : Obligations.PressesAndTheLock := ⟨pressStages, panelRefusal, panelLockWrite⟩

/-! ## The entry buffer (R148, R149) -/

theorem joinDigit_room {l : List (BitVec 4)} (h : l.length < 3) (d : BitVec 4) : joinDigit l d = l ++ [d] := by
  unfold joinDigit
  rw [if_pos h]

/-- The oldest of three digits leaves the list when a fourth joins (R148). -/
theorem joinDigit_full (x y z d : BitVec 4) : joinDigit [x, y, z] d = [y, z, d] := rfl

section
variable {s : State} {d : BitVec 4}

theorem dataKey_joins {c : EntryCommand} (hc : s.panel.command = some c) :
    dataKey (.digit d) s = s.setPanel { s.panel with digits := joinDigit s.panel.digits d } := by
  unfold dataKey
  rw [hc]

theorem dataKey_refused (hc : s.panel.command = none) : dataKey (.digit d) s = refusePress 0 0x02 s := by
  unfold dataKey
  rw [hc]
  rfl

/-- A data key that reaches the buffer of a pending command joins its digits (R148). -/
theorem exec_dataKey {c : EntryCommand} {digits : List (BitVec 4)} (hs : s.tickDone)
    (h : s.keyReaches (.digit d)) (hc : s.panel.command = some c) (hd : joinDigit s.panel.digits d = digits) :
    exec .dataKey s = .next (settle (s.setPanel
      { s.panel with presses := s.panel.presses.tail, digits := digits })) := by
  subst hd
  exact exec_settles hs ((onPress_reaches h rfl).trans (dataKey_joins (s := popPress s) hc))

end

/-- Settles O53: a data key joins the list with or without room, and each command key replaces what is pending. -/
theorem entryKeys : Obligations.EntryKeys := fun s hs =>
  ⟨fun d _ h hc room => exec_dataKey hs h hc (joinDigit_room room d),
    fun d _ x y z h hc full => exec_dataKey hs h hc (full ▸ joinDigit_full x y z d),
    fun _ h hc => exec_settles hs ((onPress_reaches h rfl).trans (dataKey_refused (s := popPress s) hc)),
    fun h => exec_settles hs (onPress_reaches h rfl), fun h => exec_settles hs (onPress_reaches h rfl),
    fun h => exec_settles hs (onPress_reaches h rfl), fun h => exec_settles hs (onPress_reaches h rfl)⟩

/-! ## SILENCE, TEST and DIM (R150) -/

/-- The silence flag set, no class sounds (R106, R107). -/
theorem silence_eq (s : State) : silence s = s.setAnn { s.ann with silence := true, hornClass := none } := by
  unfold silence decideHorn
  rw [State.hornClassNow_silenced rfl]
  rfl

/-- Settles O54: past the stages each key is its operation and its COMMAND record; a silence leaves no horn class. -/
theorem operationKeys : Obligations.OperationKeys := fun s hs =>
  ⟨fun h => exec_settles hs ((onPress_reaches h rfl).trans
      (congrArg (record .command .panel 3 0) (silence_eq (popPress s)))),
    fun h => exec_settles hs (onPress_reaches h rfl), fun h => exec_settles hs (onPress_reaches h rfl)⟩

/-! ## ENTER (R148, R151 to R155) -/

theorem numberTyped : Claim.NumberTyped := by
  intro x y z
  unfold digitsNumber
  simp only [List.foldl_cons, List.foldl_nil]
  omega

section
variable {s : State}

theorem Panel.operand_none {p : Panel} (h : p.digits = []) : p.operand = none := if_pos h

theorem Panel.operand_some {p : Panel} (h : p.digits ≠ []) : p.operand = some (digitsNumber p.digits) := if_neg h

theorem enterGroup_deselects (h : s.panel.digits = []) : enterGroup s = record .command .panel 5 0xFFFF
    (s.setPanel { s.panel with command := none, digits := [], selected := none }) := by
  unfold enterGroup
  rw [Panel.operand_none h]
  rfl

theorem enterGroup_selects (h : s.panel.digits ≠ []) (hn : digitsNumber s.panel.digits ≤ 0x3F) :
    enterGroup s = record .command .panel 5 (digitsNumber s.panel.digits) (s.setPanel
      { s.panel with command := none, digits := [], selected := some (digitsNumber s.panel.digits) }) := by
  unfold enterGroup
  rw [Panel.operand_some h]
  exact if_pos hn

theorem enterGroup_refused (h : s.panel.digits ≠ []) (hn : 0x3F < digitsNumber s.panel.digits) :
    enterGroup s = refusePress 5 0x04 s := by
  unfold enterGroup
  rw [Panel.operand_some h]
  exact if_neg (Nat.not_le.mpr hn)

theorem enterShelve_missing (h : s.panel.digits = []) : enterShelve s = refusePress 6 0x03 s := by
  unfold enterShelve
  rw [Panel.operand_none h]
  rfl

theorem enterShelve_point (h : s.panel.digits ≠ []) (hn : digitsNumber s.panel.digits ≤ 0x6FF) :
    enterShelve s = answerPress 6 (digitsNumber s.panel.digits)
      (shelve (digitsNumber s.panel.digits) .panel s) := by
  unfold enterShelve
  rw [Panel.operand_some h]
  exact if_pos hn

theorem enterShelve_refused (h : s.panel.digits ≠ []) (hn : 0x6FF < digitsNumber s.panel.digits) :
    enterShelve s = refusePress 6 0x04 s := by
  unfold enterShelve
  rw [Panel.operand_some h]
  exact if_neg (Nat.not_le.mpr hn)

variable {code : Nat} {op : Scope → Origin → State → State × Option Nat}

theorem enterScope_board (h : s.panel.digits = []) (hg : s.panel.selected = none) :
    enterScope code op s = answerPress code 0xFFFF (op .board .panel s) := by
  unfold enterScope Panel.digitless
  rw [Panel.operand_none h, hg]

theorem enterScope_group {g : Nat} (h : s.panel.digits = []) (hg : s.panel.selected = some g) :
    enterScope code op s = answerPress code (0x8000 + g) (op (.group g) .panel s) := by
  unfold enterScope Panel.digitless
  rw [Panel.operand_none h, hg]

theorem enterScope_point (h : s.panel.digits ≠ []) (hn : digitsNumber s.panel.digits ≤ 0x6FF) :
    enterScope code op s = answerPress code (digitsNumber s.panel.digits)
      (op (.point (digitsNumber s.panel.digits)) .panel s) := by
  unfold enterScope
  rw [Panel.operand_some h]
  exact if_pos hn

theorem enterScope_refused (h : s.panel.digits ≠ []) (hn : 0x6FF < digitsNumber s.panel.digits) :
    enterScope code op s = refusePress code 0x04 s := by
  unfold enterScope
  rw [Panel.operand_some h]
  exact if_neg (Nat.not_le.mpr hn)

end

theorem enterWithoutOperation : Claim.EnterWithoutOperation := by
  intro s hs h
  have groups {t : State} (ht : enterGroup (popPress s) = t) (hc : s.panel.command = some .group) :
      exec .enterGroup s = .next (settle t) := exec_settles hs ((onEnter_reaches h hc).trans ht)
  exact ⟨fun hc => exec_settles hs (onEnter_reaches h hc),
    fun hc hd => groups (enterGroup_deselects hd) hc,
    fun hc hd hn => groups (enterGroup_selects hd hn) hc,
    fun hc hd hn => groups (enterGroup_refused hd hn) hc⟩

theorem enterAnswers : Claim.EnterAnswers := fun _ _ _ _ => ⟨rfl, rfl⟩

theorem enterOperations : Claim.EnterOperations := by
  intro s hs h
  have acks {t : State} (ht : enterScope 1 acknowledge (popPress s) = t) (hc : s.panel.command = some .ack) :
      exec .enterAck s = .next (settle t) := exec_settles hs ((onEnter_reaches h hc).trans ht)
  have clears {t : State} (ht : enterScope 2 clear (popPress s) = t) (hc : s.panel.command = some .clear) :
      exec .enterClear s = .next (settle t) := exec_settles hs ((onEnter_reaches h hc).trans ht)
  have shelves {t : State} (ht : enterShelve (popPress s) = t) (hc : s.panel.command = some .shelve) :
      exec .enterShelve s = .next (settle t) := exec_settles hs ((onEnter_reaches h hc).trans ht)
  exact ⟨fun hc hd hg => acks (enterScope_board hd hg) hc,
    fun _ hc hd hg => acks (enterScope_group hd hg) hc,
    fun hc hd hn => acks (enterScope_point hd hn) hc,
    fun hc hd hn => acks (enterScope_refused hd hn) hc,
    fun hc hd hg => clears (enterScope_board hd hg) hc,
    fun _ hc hd hg => clears (enterScope_group hd hg) hc,
    fun hc hd hn => clears (enterScope_point hd hn) hc,
    fun hc hd hn => clears (enterScope_refused hd hn) hc,
    fun hc hd => shelves (enterShelve_missing hd) hc,
    fun hc hd hn => shelves (enterShelve_point hd hn) hc,
    fun hc hd hn => shelves (enterShelve_refused hd hn) hc⟩

/-- Settles O55: ENTER by the pending command, and each command by whether digits stand and the range of their
number. -/
theorem enterKey : Obligations.EnterKey := ⟨numberTyped, enterWithoutOperation, enterAnswers, enterOperations⟩

/-! ## The display (R156, R157, R174) -/

section
variable {p : Panel}

theorem Panel.indicators_error {r : Nat} (h : p.error = some r) : p.indicators = List.replicate 7 true := by
  unfold Panel.indicators
  rw [h]

theorem Panel.indicators_normal (h : p.error = none) :
    p.indicators = [decide (p.command = some .ack), decide (p.command = some .clear), p.silenceOn, p.testOn,
      decide (p.command = some .group ∨ (p.command = none ∧ p.selected ≠ none)),
      decide (p.command = some .shelve), p.dimOn] := by
  unfold Panel.indicators
  rw [h]
  cases p.command with
  | none => cases p.selected <;> rfl
  | some c => cases c <;> rfl

theorem Panel.positions_error {r : Nat} (h : p.error = some r) :
    p.positions = [0x0E, (BitVec.ofNat 4 (r / 16)).setWidth 5, (BitVec.ofNat 4 r).setWidth 5] := by
  unfold Panel.positions
  rw [h]
  rfl

theorem Panel.positions_pending {c : EntryCommand} (h : p.error = none) (hc : p.command = some c) :
    p.positions = typedCodes p.digits := by
  unfold Panel.positions
  rw [h, hc]

theorem Panel.positions_selected {g : Nat} (h : p.error = none) (hc : p.command = none)
    (hg : p.selected = some g) :
    p.positions = [0x10, (BitVec.ofNat 4 (g / 16)).setWidth 5, (BitVec.ofNat 4 g).setWidth 5] := by
  unfold Panel.positions
  rw [h, hc, hg]
  rfl

theorem Panel.positions_blank (h : p.error = none) (hc : p.command = none) (hg : p.selected = none) :
    p.positions = [0x10, 0x10, 0x10] := by
  unfold Panel.positions
  rw [h, hc, hg]
  rfl

theorem typedCodes_length {l : List (BitVec 4)} (h : l.length ≤ 3) : (typedCodes l).length = 3 := by
  unfold typedCodes
  rw [List.length_append, List.length_replicate, List.length_map, Nat.sub_add_cancel h]

theorem Panel.indicators_length : p.indicators.length = 7 := by
  cases h : p.error with
  | none => rw [Panel.indicators_normal h]; rfl
  | some r => rw [Panel.indicators_error h]; rfl

theorem Panel.positions_length (h : p.digits.length ≤ 3) : p.positions.length = 3 := by
  cases he : p.error with
  | some r => rw [Panel.positions_error he]; rfl
  | none =>
    cases hc : p.command with
    | some c => rw [Panel.positions_pending he hc, typedCodes_length h]
    | none =>
      cases hg : p.selected with
      | none => rw [Panel.positions_blank he hc hg]; rfl
      | some g => rw [Panel.positions_selected he hc hg]; rfl

theorem Panel.display_positions {l m r : BitVec 5} (h : p.positions = [l, m, r]) :
    p.display = p.indicators ++ (codeBits l ++ codeBits m ++ codeBits r) := by
  unfold Panel.display
  rw [h]
  rfl

theorem Panel.display_length (h : p.digits.length ≤ 3) : p.display.length = 22 := by
  obtain ⟨l, m, r, hp⟩ := List.length_eq_three.mp (Panel.positions_length h)
  rw [Panel.display_positions hp, List.length_append, Panel.indicators_length]
  rfl

end

/-- Settles O56: the display by the error reason, the pending command and the selected group, and the positions' bits
one code after the other. -/
theorem panelDisplay : Obligations.PanelDisplay := by
  intro p
  have typed {c : EntryCommand} {l : List (BitVec 4)} (h : p.error = none) (hc : p.command = some c)
      (hl : p.digits = l) : p.positions = typedCodes l := hl ▸ Panel.positions_pending h hc
  exact ⟨fun _ h => ⟨Panel.indicators_error h, Panel.positions_error h⟩, Panel.indicators_normal,
    Panel.positions_blank, fun _ => Panel.positions_selected, fun _ => typed, fun _ _ => typed,
    fun _ _ _ => typed, fun _ _ _ _ => typed, fun _ _ _ => Panel.display_positions,
    Panel.indicators_length, Panel.display_length⟩

end Sys2Proof.Machine

/-! # Remote commands and the event ring: proofs of the statements of 09_remote_commands_and_the_event_ring.md -/

namespace Sys2Proof.Machine

/-! ## The reports at the end of a command (R157, R170, R171) -/

/-- Beginning a record changes nothing of the Event Unit but the record in progress (R167). -/
theorem beginRecord_eq (ring : Option RingWrite) (e : EventUnit) :
    beginRecord ring e = { e with inProgress := (beginRecord ring e).inProgress } := by
  unfold beginRecord
  split <;> rfl

theorem settle_events (s : State) :
    (settle s).events = beginRecord (settle s).path.requests.ring (syncStatus s).events := rfl

/-- Beginning a reload changes nothing of the Loader but the pending list and the reload (R23, R40). -/
theorem beginReload_eq (waiting raised : Option ConfigRead) (l : Loader) :
    beginReload waiting raised l = { l with
      pendingPoints := (beginReload waiting raised l).pendingPoints
      reload := (beginReload waiting raised l).reload } := by
  unfold beginReload
  split <;> rfl

theorem settle_copies (s : State) : (settle s).events.copies = s.reported := by
  rw [settle_events, beginRecord_eq]
  rfl

/-- The settling changes nothing that an owner reports (R170). -/
theorem settle_reported (s : State) : (settle s).reported = s.reported := by
  unfold State.reported
  rw [settle_loader, beginReload_eq]
  rfl

theorem reportsAreCurrentAfterEveryCommand : Claim.ReportsAreCurrentAfterEveryCommand := by
  intro c s t h
  rw [exec_next h]
  exact ⟨(settle_copies _).trans (settle_reported _).symm, rfl, rfl, rfl⟩

theorem reported : Claim.Reported := fun _ =>
  ⟨rfl, rfl, rfl, decide_eq_true_iff, rfl, Option.isSome_iff_ne_none, rfl, rfl, rfl, rfl, rfl, rfl, rfl,
    decide_eq_true_iff⟩

/-! ## The owed status words (R171) -/

/-- What is owed after the settling is what was owed, and what a report has changed in SWEEPING or RUNNING (R171). -/
theorem settle_owed (s : State) :
    (settle s).events.owed19 = (syncStatus s).events.owed19
      ∧ (settle s).events.owed20 = (syncStatus s).events.owed20
      ∧ (settle s).events.owed21 = (syncStatus s).events.owed21
      ∧ (settle s).events.owed22 = (syncStatus s).events.owed22 := by
  rw [settle_events, beginRecord_eq]
  exact ⟨rfl, rfl, rfl, rfl⟩

theorem settlingOnlyReportsAndRequests : Claim.SettlingOnlyReportsAndRequests := by
  intro s
  obtain ⟨h19, h20, h21, h22⟩ := settle_owed s
  refine ⟨settle_changes s, h19, h20, h21, h22, fun hc => ?_⟩
  rw [h19]
  unfold syncStatus
  simp [hc]

/-! ## The requests that stand (R9, R12, R23, R126, R167, R171) -/

/-- A requester is busy where an access of its own kind is under way. -/
theorem busyWith_kind {α : Type} {kind : PartWork → Bool} {work : α → PartWork}
    (h : ∀ w, kind w = true ↔ ∃ x, w = work x) (s : State) :
    s.busyWith kind = true ↔ ∃ x a d, s.underWay (work x) a d := by
  rw [busyWith_iff]
  constructor
  · rintro ⟨w, a, d, hw, hu⟩
    obtain ⟨x, rfl⟩ := (h w).mp hw
    exact ⟨x, a, d, hu⟩
  · rintro ⟨x, a, d, hu⟩
    exact ⟨work x, a, d, (h _).mpr ⟨x, rfl⟩, hu⟩

theorem PartWork.isReread_iff (w : PartWork) : w.isReread = true ↔ w = .reread := by
  cases w <;> simp [PartWork.isReread]

theorem PartWork.isRing_iff (w : PartWork) : w.isRing = true ↔ ∃ x, w = .ring x := by
  cases w <;> simp [PartWork.isRing]

theorem PartWork.isConfig_iff (w : PartWork) : w.isConfig = true ↔ ∃ x, w = .config x := by
  cases w <;> simp [PartWork.isConfig]

theorem PartWork.isStatus_iff (w : PartWork) : w.isStatus = true ↔ ∃ x, w = .status x := by
  cases w <;> simp [PartWork.isStatus]

theorem PartWork.isImage_iff (w : PartWork) : w.isImage = true ↔ ∃ x, w = .image x := by
  cases w <;> simp [PartWork.isImage]

theorem busyWith_reread (s : State) :
    s.busyWith PartWork.isReread = true ↔ ∃ a d, s.underWay .reread a d := by
  rw [busyWith_iff]
  simp only [PartWork.isReread_iff, exists_and_left, exists_eq_left]

section
variable (s : State)

theorem settle_ring : (settle s).path.requests.ring =
    nextRequest s.path.requests.ring (s.busyWith PartWork.isRing)
      (if s.onBoard ∧ s.events.ringHeld = true then s.events.wantRing else none) :=
  congrArg (nextRequest _ _)
    (if_congr (by rw [Bool.and_eq_true]; exact and_congr_left' State.configured_iff) rfl rfl)

theorem settle_config : (settle s).path.requests.config =
    nextRequest s.path.requests.config (s.busyWith PartWork.isConfig)
      (if s.onBoard then s.loader.wantConfig else none) :=
  congrArg (nextRequest _ _) (if_congr State.configured_iff rfl rfl)

/-- The status word wanted is judged by the flags owed after the reports (R171). -/
theorem settle_status : (settle s).path.requests.status =
    nextRequest s.path.requests.status (s.busyWith PartWork.isStatus)
      (if s.onBoard then (settle s).events.wantStatus else none) := by
  have want : (settle s).events.wantStatus = (syncStatus s).events.wantStatus := by
    rw [settle_events, beginRecord_eq]
    rfl
  rw [want]
  exact congrArg (nextRequest _ _) (if_congr State.configured_iff rfl rfl)

theorem settle_image : (settle s).path.requests.image =
    nextRequest s.path.requests.image (s.busyWith PartWork.isImage)
      (if s.onBoard then s.gen.wantImage else none) :=
  congrArg (nextRequest _ _) (if_congr State.configured_iff rfl rfl)

end

/-- With word 0 of a record chosen, that record is in progress (R167, case 4). -/
theorem beginRecord_begins {e : EventUnit} (h : e.inProgress = none) (i : Nat) :
    (beginRecord (some (.word i)) e).inProgress = some 0 := by
  unfold beginRecord
  rw [h]

theorem beginRecord_stands {ring : Option RingWrite} {e : EventUnit}
    (h : (∀ i, ring ≠ some (.word i)) ∨ e.inProgress ≠ none) : beginRecord ring e = e := by
  unfold beginRecord
  split
  · rename_i i hi
    exact absurd hi (h.resolve_left fun hr => hr i rfl)
  · rfl

theorem requestsRaised : Claim.RequestsRaised := by
  rintro s t rfl
  refine ⟨nextRequest_follows _ _ (busyWith_reread s), ?_, ?_, ?_, ?_, fun i hr hn => ?_, fun h => ?_⟩
  · rw [settle_ring]
    exact nextRequest_follows _ _ (busyWith_kind PartWork.isRing_iff s)
  · rw [settle_config]
    exact nextRequest_follows _ _ (busyWith_kind PartWork.isConfig_iff s)
  · rw [settle_status]
    exact nextRequest_follows _ _ (busyWith_kind PartWork.isStatus_iff s)
  · rw [settle_image]
    exact nextRequest_follows _ _ (busyWith_kind PartWork.isImage_iff s)
  · rw [settle_events, hr]
    exact beginRecord_begins (e := (syncStatus s).events) hn i
  · rw [settle_events, beginRecord_stands (e := (syncStatus s).events) h]
    rfl

/-! ## The Loader's next read, and the reload it begins (R23, R40, R41, R54) -/

section
variable {l : Loader} {r : Reload}

theorem Loader.wantConfig_entry (hr : l.reload = some r) (hs : r.stage = .entry) :
    l.wantConfig = some (.entry r.point r.words.length) := by
  unfold Loader.wantConfig
  simp only [hr, hs]

theorem Loader.wantConfig_source {e : Entry} (hr : l.reload = some r) (hs : r.stage = .source)
    (he : (l.points.val PointRec.absent r.point).held = some e) :
    l.wantConfig = some (.source r.point e.source) := by
  unfold Loader.wantConfig
  simp only [hr, hs, he]

theorem Loader.wantConfig_value (hr : l.reload = some r) (hs : r.stage = .value) :
    l.wantConfig = none := by
  unfold Loader.wantConfig
  simp only [hr, hs]

theorem Loader.wantConfig_pass {p : Pass} (hr : l.reload = none) (hp : l.pass = some p) :
    l.wantConfig = some p.next := by
  unfold Loader.wantConfig
  rw [hr, hp]

theorem Loader.wantConfig_pending {n : Nat} {rest : List Nat} (hr : l.reload = none)
    (hp : l.pass = none) (hn : l.pendingPoints = n :: rest) : l.wantConfig = some (.entry n 0) := by
  unfold Loader.wantConfig
  rw [hr, hp, hn]

theorem Loader.wantConfig_idle (hr : l.reload = none) (hp : l.pass = none)
    (hn : l.pendingPoints = []) : l.wantConfig = none := by
  unfold Loader.wantConfig
  rw [hr, hp, hn]

end

theorem loaderReads : Claim.LoaderReads := fun _ =>
  ⟨fun _ => Loader.wantConfig_entry, fun _ _ => Loader.wantConfig_source,
    fun _ => Loader.wantConfig_value, fun _ => Loader.wantConfig_pass,
    fun _ _ => Loader.wantConfig_pending, Loader.wantConfig_idle⟩

/-- The point whose first read is raised leaves the pending list, and its reload begins (R23, R40; log 15). -/
theorem beginReload_begins {l : Loader} {n i : Nat} {rest : List Nat} (hr : l.reload = none)
    (hl : l.pendingPoints = n :: rest) (hn : n ∉ rest) :
    beginReload none (some (.entry n i)) l =
      { l with pendingPoints := rest, reload := some ⟨n, [], .entry⟩ } := by
  have left : (n :: rest).filter (fun m => m != n) = rest := by
    rw [List.filter_cons_of_neg (by simp), List.filter_eq_self]
    exact fun m hm => bne_iff_ne.mpr (ne_of_mem_of_not_mem hm hn)
  unfold beginReload
  rw [hr, hl]
  exact congrArg (fun x => { l with pendingPoints := x, reload := some ⟨n, [], .entry⟩ }) left

/-- A read of a pass begins no reload. -/
theorem beginReload_pass (waiting : Option ConfigRead) {r : ConfigRead} (l : Loader)
    (h : r.ofPass = true) : beginReload waiting (some r) l = l := by
  unfold beginReload
  split
  · rename_i hr _
    cases hr
    exact Bool.noConfusion h
  · rfl

section
variable {s : State}

/-- The Loader with no request waiting and no read under way raises the read it wants (R23). -/
theorem settle_config_free (hb : s.onBoard) (hw : s.path.requests.config = none)
    (hf : s.busyWith PartWork.isConfig = false) :
    (settle s).path.requests.config = s.loader.wantConfig := by
  rw [settle_config, hw, hf, if_pos hb]
  rfl

theorem settle_loader_raised : (settle s).loader =
    beginReload s.path.requests.config (settle s).path.requests.config s.loader := rfl

/-- The Loader stands where it raises no new read. -/
theorem settle_loader_of_none (h : s.path.requests.config ≠ none ∨ (settle s).path.requests.config = none) :
    (settle s).loader = s.loader := by
  rw [settle_loader_raised]
  cases hw : s.path.requests.config with
  | some r => exact beginReload_waiting _ _ _
  | none => rw [h.resolve_left (not_not.mpr hw), beginReload_none]

theorem settle_loader_reloading (h : s.loader.reload ≠ none) : (settle s).loader = s.loader := by
  obtain ⟨r, hr⟩ := Option.ne_none_iff_exists'.mp h
  exact beginReload_underWay _ _ hr

theorem settle_loader_busy (h : s.busyWith PartWork.isConfig = true) :
    (settle s).loader = s.loader := by
  refine settle_loader_of_none (not_or_of_imp fun hw => ?_)
  rw [settle_config, hw, h]
  rfl

/-- With no pass and no point pending there is no read to raise, unless a reload under way has one. -/
theorem settle_loader_idle (hl : s.loader.pendingPoints = []) (hp : s.loader.pass = none) :
    (settle s).loader = s.loader := by
  by_cases hr : s.loader.reload = none
  · refine settle_loader_of_none (not_or_of_imp fun hw => ?_)
    rw [settle_config, hw, Loader.wantConfig_idle hr hp hl, ite_self]
    exact nextRequest_none _
  · exact settle_loader_reloading hr

end

theorem reloadBeginsWhenChosen : Claim.ReloadBeginsWhenChosen := by
  refine fun s => ⟨fun n rest hb hw hf hr hp hl hn => ?_, fun p hb hw hf hr hp hpass => ?_, ?_⟩
  · have raised := (settle_config_free hb hw hf).trans (Loader.wantConfig_pending hr hp hl)
    refine ⟨raised, ?_⟩
    rw [settle_loader_raised, hw, raised]
    exact beginReload_begins hr hl hn
  · have raised := (settle_config_free hb hw hf).trans (Loader.wantConfig_pass hr hp)
    refine ⟨raised, ?_⟩
    rw [settle_loader_raised, raised]
    exact beginReload_pass _ _ hpass
  · rintro (hw | hr | hu | hf | ⟨hl, hp⟩)
    · exact settle_loader_of_none (.inl hw)
    · exact settle_loader_reloading hr
    · exact settle_loader_unconfigured hu
    · exact settle_loader_busy hf
    · exact settle_loader_idle hl hp

/-- Settles O4: the settling by its parts: the copies, the owed words, one equation for each requester's request, and
what the ring writer's and the Loader's requests begin. -/
theorem reportsAndRequestsAfterEveryCommand : Obligations.ReportsAndRequestsAfterEveryCommand :=
  ⟨reportsAreCurrentAfterEveryCommand, settlingOnlyReportsAndRequests, reloadBeginsWhenChosen,
    requestsRaised, loaderReads, reported⟩

/-! ## The held remote operand (R159) -/

/-- The operand is no part of what a command other than its own and a board reset may change. -/
theorem operand_untouched {c : Instr} (hc : c ≠ .remoteOperandWrite) (hr : c ≠ .boardReset) :
    (tickParts ++ effectParts c ++ settleParts).contains .eventsOperand = false := by
  cases c <;> first | rfl | contradiction

theorem boardReset_operand (s : State) : (boardReset s).events.operand = 0 := by
  obtain ⟨m, x, d, e, -⟩ := boardReset_resets s
  rw [e]
  rfl

/-- Settles O57: the item's own command hands the word on or discards it, every other frame but the board reset's leaves
the operand out, and a board reset ends in the reset Event Unit. -/
theorem remoteOperandWrite : Obligations.RemoteOperandWrite := by
  refine ⟨fun s w hs hf => ⟨fun hb => ?_, fun hu => exec_discards hs hu hf rfl rfl rfl⟩,
    fun c s t hc hr h => exec_keeps .eventsOperand h (operand_untouched hc hr), fun s t h => ?_⟩
  · exact exec_settles hs (handOn_onBoard (sel := onWord .k10) (x := ())
      (act := fun _ w s => s.setEvents { s.events with operand := w }) hb hf (if_pos rfl))
  · rw [exec_next h]
    exact Eq.trans (settle_changes _ .eventsOperand (by decide)) (boardReset_operand _)

/-! ## The remote commands (R160, R161) -/

theorem remoteScopes : Claim.RemoteScopes := by
  intro w
  have notBoard {n : Nat} (h : w.toNat = n) (hn : n ≠ 0xFFFF) : w ≠ 0xFFFF := by
    rintro rfl
    exact hn h.symm
  unfold remoteScope
  refine ⟨fun h => if_pos h, fun lo hi => ?_, fun h => ?_, fun lo hi => ?_, fun lo h => ?_⟩
  · rw [if_neg (notBoard rfl (by omega)), if_pos ⟨lo, hi⟩]
  · rw [if_neg (notBoard rfl (by omega)), if_neg (by omega), if_pos h]
  · rw [if_neg (notBoard rfl (by omega)), if_neg (by omega), if_neg (by omega)]
  · rw [if_neg h, if_neg (by omega), if_neg (by omega)]

theorem answerRemote_done (code : Nat) (s : State) :
    answerRemote code (s, none) = record .command .remote code s.events.operand.toNat s := rfl

theorem answerRemote_refused (code reason : Nat) (s : State) :
    answerRemote code (s, some reason) = record .commandError .remote code reason s := rfl

theorem remoteAnswers : Claim.RemoteAnswers := fun s code reason =>
  ⟨answerRemote_done code s, answerRemote_refused code reason s⟩

section
variable {s : State} {code : Nat} {op : Scope → Origin → State → State × Option Nat}

theorem remoteScoped_named {x : Scope} (h : remoteScope s.events.operand = some x) :
    remoteScoped code op s = answerRemote code (op x .remote s) := by
  unfold remoteScoped
  rw [h]

theorem remoteScoped_range (h : remoteScope s.events.operand = none) :
    remoteScoped code op s = record .commandError .remote code 0x04 s := by
  unfold remoteScoped
  rw [h]
  rfl

theorem remoteShelve_named (h : s.events.operand.toNat ≤ 0x6FF) :
    remoteShelve s = answerRemote 6 (shelve s.events.operand.toNat .remote s) := if_pos h

theorem remoteShelve_range (h : 0x6FF < s.events.operand.toNat) :
    remoteShelve s = record .commandError .remote 6 0x04 s := if_neg (Nat.not_le.mpr h)

end

/-- A DIM request leaves the operand that its COMMAND event carries. -/
theorem requestDim_operand (d : Nat) (o : Origin) (s : State) :
    (requestDim d o s).events.operand = s.events.operand :=
  requestDim_changes d o s .eventsOperand (by decide)

theorem changeMode_mode (m : Mode) (d : Nat) (o : Origin) (s : State) :
    (changeMode m d o s).gen.mode = m :=
  record_changes _ _ _ _ _ .genMode (by decide)

/-- A DIM request exchanges LIT and DIM, and leaves DARK (R119). -/
theorem requestDim_mode (d : Nat) (o : Origin) (s : State) :
    (requestDim d o s).gen.mode = match s.gen.mode with
      | .lit => .dim
      | .dim => .lit
      | .dark => .dark := by
  cases h : s.gen.mode with
  | lit => rw [requestDim_lit d o h, changeMode_mode]
  | dim => rw [requestDim_dim d o h, changeMode_mode]
  | dark => rw [requestDim_dark d o h, h]

/-- A k11 item in front is executed by the command whose class holds its word (R160). -/
theorem exec_k11 {p : Nat → Bool} {act : Unit → Word → State → State} {c : Instr} {s t : State}
    {w : Word} (hs : s.tickDone) (hb : s.onBoard) (hf : s.front .k11 w)
    (he : exec c s = whole (handOn (onRemote p) act) s) (hp : p w.toNat = true)
    (ht : act () w (popCapture s) = t) : exec c s = .next (settle t) := by
  rw [he, whole_idle hs, handOn_onBoard hb hf (onRemote_k11 hp), ht]

theorem remoteCommands : Claim.RemoteCommands := by
  intro s w hs hb hf
  refine ⟨?_, ?_, ?_, ?_, ?_, ?_, ?_, ?_, ?_, ?_, ?_, fun hw => ?_⟩
  · rintro x rfl hx
    exact exec_k11 hs hb hf rfl rfl (remoteScoped_named (s := popCapture s) hx)
  · rintro rfl hx
    exact exec_k11 hs hb hf rfl rfl (remoteScoped_range (s := popCapture s) hx)
  · rintro x rfl hx
    exact exec_k11 hs hb hf rfl rfl (remoteScoped_named (s := popCapture s) hx)
  · rintro rfl hx
    exact exec_k11 hs hb hf rfl rfl (remoteScoped_range (s := popCapture s) hx)
  · rintro rfl
    exact exec_k11 hs hb hf rfl rfl (congrArg (remoteDone 3) (silence_eq (popCapture s)))
  · rintro rfl
    exact exec_k11 hs hb hf rfl rfl rfl
  · rintro rfl
    exact exec_k11 hs hb hf rfl rfl rfl
  · rintro rfl hx
    exact exec_k11 hs hb hf rfl rfl (remoteShelve_named (s := popCapture s) hx)
  · rintro rfl hx
    exact exec_k11 hs hb hf rfl rfl (remoteShelve_range (s := popCapture s) hx)
  · rintro rfl
    refine exec_k11 hs hb hf rfl rfl ?_
    unfold remoteDone
    rw [requestDim_operand]
    rfl
  · exact fun _ => requestDim_mode 2 .remote (popCapture s)
  · exact exec_k11 hs hb hf rfl (unknown_of_word hw) rfl

theorem groupRequests : Claim.GroupRequests := fun _ _ _ hs hb =>
  ⟨fun hf => exec_settles hs (handOn_onBoard (sel := onGroup 3)
      (act := fun g _ s => (acknowledge (.group g) .groupRequest s).1) hb hf rfl),
    fun hf => exec_settles hs (handOn_onBoard (sel := onGroup 4)
      (act := fun g _ s => (clear (.group g) .groupRequest s).1) hb hf rfl)⟩

/-- Settles O58: the operand's ranges, and each command as its operation on the state without the item, followed by the
record of its answer. -/
theorem remoteAndGroupRequests : Obligations.RemoteAndGroupRequests :=
  ⟨remoteScopes, remoteCommands, remoteAnswers, groupRequests⟩

/-! ## A produced event (R163 to R165) -/

/-- At its limit the lost count stands, and no write of it becomes owed (R165). -/
theorem EventUnit.take_full_limit {e : EventUnit} {r : EventRecord}
    (h : ¬ e.queue.length < Config.queueDepth) (hh : e.ringHeld = true) (hl : e.lost = 65535) :
    e.take r = e := by
  unfold EventUnit.take
  rw [if_neg h, if_pos hh, if_neg (by omega)]

/-- Settles O59: UNCONFIGURED, and on the board each branch of the queue's reception. -/
theorem eventIsTaken : Obligations.EventIsTaken := fun _ k o a d =>
  ⟨fun hu => record_unconfigured hu k o a d,
    fun hb room => by rw [record_configured hb, EventUnit.take_room room],
    fun hb full hh hl => by rw [record_configured hb, EventUnit.take_full_held full hh hl],
    fun hb full hh hl => by rw [record_configured hb, EventUnit.take_full_limit full hh hl]; rfl,
    fun hb full hh => by rw [record_configured hb, EventUnit.take_full_unheld full hh]⟩

/-! ## The ring writer's choice (R167) -/

section
variable {e : EventUnit}

theorem EventUnit.wantRing_word {k : Nat} (h : e.inProgress = some k) (hk : k < 4) :
    e.wantRing = some (.word k) := by
  unfold EventUnit.wantRing
  rw [h]
  exact if_pos hk

theorem EventUnit.wantRing_k18 (h : e.inProgress = none ∨ e.inProgress = some 4)
    (ho : e.k18Owed = true) : e.wantRing = some .k18 := by
  unfold EventUnit.wantRing
  rcases h with h | h <;> rw [h]
  · exact if_pos ho
  · exact (if_neg (Nat.lt_irrefl 4)).trans (if_pos ho)

/-- With no k18 write owed, a written record asks for its head write where the next slot is free. -/
theorem EventUnit.wantRing_written (h : e.inProgress = some 4) (ho : e.k18Owed = false) :
    e.wantRing = if e.nextHead ≠ e.tail then some .head else none := by
  unfold EventUnit.wantRing
  rw [h, ho]
  rfl

/-- With no k18 write owed and no record in progress, a queued record begins where the next slot is free. -/
theorem EventUnit.wantRing_between (h : e.inProgress = none) (ho : e.k18Owed = false) :
    e.wantRing = if e.queue ≠ [] ∧ e.nextHead ≠ e.tail then some (.word 0) else none := by
  unfold EventUnit.wantRing
  rw [h, ho]
  rfl

theorem EventUnit.wantRing_full (h : e.inProgress = none ∨ e.inProgress = some 4)
    (ho : e.k18Owed = false) (hf : e.nextHead = e.tail) : e.wantRing = none := by
  rcases h with h | h
  · rw [EventUnit.wantRing_between h ho, if_neg fun free => free.2 hf]
  · rw [EventUnit.wantRing_written h ho, if_neg (not_not.mpr hf)]

/-- A head write is wanted only while the next slot is free (R167). -/
theorem EventUnit.nextHead_of_wantRing (h : e.wantRing = some .head) : e.nextHead ≠ e.tail := by
  intro full
  unfold EventUnit.wantRing at h
  simp only [full, ne_eq, not_true_eq_false, and_false, if_false] at h
  split at h <;> split_ifs at h <;> cases h

end

/-- A request that stands was waiting or is the one wanted (R12). -/
theorem nextRequest_eq_some {α : Type} {waiting want : Option α} {busy : Bool} {r : α}
    (h : nextRequest waiting busy want = some r) : waiting = some r ∨ want = some r := by
  unfold nextRequest at h
  split at h
  · exact .inl h
  · split_ifs at h
    exact .inr h

/-- The ring writer raises nothing without the ring values or in UNCONFIGURED (R166, R167). -/
theorem settle_ring_silent {s : State} (h : s.loader.cfg = .unconfigured ∨ s.events.ringHeld = false) :
    (settle s).path.requests.ring = s.path.requests.ring := by
  have off : ¬ (s.onBoard ∧ s.events.ringHeld = true) := fun ⟨hb, hh⟩ =>
    h.elim hb fun hn => Bool.noConfusion (hn.symm.trans hh)
  rw [settle_ring, if_neg off]
  cases s.path.requests.ring with
  | none => exact nextRequest_none _
  | some r => rfl

theorem ringWriterChoice : Claim.RingWriterChoice :=
  ⟨fun _ => ⟨fun _ => EventUnit.wantRing_word, EventUnit.wantRing_k18,
      fun h ho free => (EventUnit.wantRing_written h ho).trans (if_pos free),
      fun h ho hq free => (EventUnit.wantRing_between h ho).trans (if_pos ⟨hq, free⟩),
      EventUnit.wantRing_full,
      fun h ho hq => (EventUnit.wantRing_between h ho).trans (if_neg fun free => free.1 hq)⟩,
    fun _ => settle_ring_silent⟩

/-! ## The tail and the lost count (R165, R168) -/

/-- No head write waits that would make the head equal to the held tail (R167, R168). -/
def State.headClear (s : State) : Prop :=
  s.path.requests.ring = some .head → s.events.nextHead ≠ s.events.tail

theorem takeTail_tail (w : Word) (s : State) : (takeTail w s).events.tail = w.extractLsb' 0 8 := by
  unfold takeTail
  dsimp only
  split_ifs <;> rfl

/-- The head write that a new tail would forbid is withdrawn (R168). -/
theorem takeTail_headClear (w : Word) (s : State) : (takeTail w s).headClear := by
  unfold takeTail State.headClear
  dsimp only
  split_ifs with h
  · exact nofun
  · exact fun hr hf => h ⟨hr, hf⟩

/-- The head write that the settling raises is none that the tail forbids (R167). -/
theorem settle_headClear {s : State} (h : s.headClear) : (settle s).headClear := by
  intro hr
  have head : (settle s).events.head = s.events.head := settle_changes s .eventsHead (by decide)
  have tail : (settle s).events.tail = s.events.tail := settle_changes s .eventsTail (by decide)
  unfold EventUnit.nextHead
  rw [head, tail]
  rw [settle_ring] at hr
  rcases nextRequest_eq_some hr with waits | wanted
  · exact h waits
  · split_ifs at wanted
    exact EventUnit.nextHead_of_wantRing wanted

theorem tailWrite : Claim.TailWrite := by
  intro s w hs hb hf
  have handed : effect .tailWrite s = takeTail w (popCapture s) :=
    handOn_onBoard (sel := onWord .k17) (x := ()) (act := fun _ => takeTail) hb hf (if_pos rfl)
  have taken : Changes [.pathCapture, .eventsTail, .pathRequests] s (takeTail w (popCapture s)) :=
    (popCapture_changes s).then (takeTail_changes w _)
  have frame : Changes ([.pathCapture, .eventsTail] ++ settleParts) s
      (settle (takeTail w (popCapture s))) := taken.then (settle_changes _)
  exact ⟨_, exec_settles hs handed,
    Eq.trans (settle_changes _ .eventsTail (by decide)) (takeTail_tail w _),
    settle_headClear (takeTail_headClear w _), frame .eventsQueue (by decide),
    frame .eventsHead (by decide), frame .ram (by decide), frame⟩

theorem lostCountWrite : Claim.LostCountWrite := fun _ _ hs hb hf =>
  exec_settles hs (handOn_onBoard (sel := onWord .k18) (x := ())
    (act := fun _ w s => s.setEvents { s.events with lost := w.toNat, k18Owed := true }) hb hf (if_pos rfl))

/-- Settles O60: the writer's choice by the record in progress; a head write stands only beside a free slot, since the
new tail withdraws the one it forbids and the settling raises no other. -/
theorem ringWords : Obligations.RingWords := ⟨ringWriterChoice, tailWrite, lostCountWrite⟩

end Sys2Proof.Machine

/-! # A step: proofs of the statements about the machine as a whole -/

namespace Sys2Proof.Machine

/-! ## The queue of commands (log 1) -/

/-- Settles O1: a step with a command in front is the front case of the step. -/
theorem stepRunsTheFrontCommand : Obligations.StepRunsTheFrontCommand :=
  fun c rest _ => step_front _ c rest rfl

theorem stepIdlesOnAnEmptyQueue : Claim.StepIdlesOnAnEmptyQueue := step_empty

/-! ## The tick under way (R109, log 7) -/

/-- The work of a tick touches no front-end access, so finishing it moves no access between held and none. -/
theorem finishTick_access (s : State) : (finishTick s).path.access = s.path.access :=
  finishTick_changes s .pathAccess (by decide)

/-- A posted access meets the same held access on the finished tick, so it faults or begins alike (R8). -/
theorem postAccess_finishTick (a : Addr) (k : AccessKind) (s : State) :
    postAccess a k (finishTick s) = postAccess a k s := by
  unfold postAccess
  rw [finishTick_access, whole_finishTick]

theorem startOf_finishes {c : Instr} (hc : c ∉ tickPieces) (s : State) : startOf c s = finishTick s :=
  if_neg hc

theorem everyCommandFinishesTheTickFirst : Claim.EveryCommandFinishesTheTickFirst := by
  refine ⟨finishTick_tickWork, fun c s hc => ?_⟩
  by_cases unposted : (∀ a w l, c ≠ .frontEndWrite a w l) ∧ ∀ a, c ≠ .frontEndRead a
  · have now : exec c s = .next (settle (effect c (finishTick s))) := by
      rw [exec_effect c s (.inr unposted), startOf_finishes hc]
    have finished : exec c (finishTick s) = .next (settle (effect c (finishTick s))) :=
      exec_settles (finishTick_tickWork s) rfl unposted
    exact now.trans finished.symm
  · simp only [not_and_or, not_forall, not_not] at unposted
    obtain ⟨a, w, l, rfl⟩ | ⟨a, rfl⟩ := unposted
    · exact (postAccess_finishTick a (.write w l) s).symm
    · exact (postAccess_finishTick a .read s).symm

/-- Settles O2: a posted access meets the same hold on the finished tick, and every other command is the settled
effect on the finished tick. -/
theorem theModelsStepChoices : Obligations.TheModelsStepChoices :=
  ⟨stepIdlesOnAnEmptyQueue, everyCommandFinishesTheTickFirst⟩

end Sys2Proof.Machine
